-- ==== Sys2Proof/Word.lean ====
section
/-! DEFINITION. The word types of the CyberBrick_ESPNOW CORE (spec 00_scope R11, 10_state).
A quantity is a bit vector only where the spec treats it as bits; counts, lengths and cursors are naturals. -/

namespace Sys2Proof

/-- A byte: 8 bits (R11). -/
abbrev Byte := BitVec 8

/-- A 16-bit quantity: the polynomial, the seed and the table entries of the N-bit CRC (R23, R147). -/
abbrev Half := BitVec 16

/-- A 32-bit quantity: clock readings, timestamps and the big-endian frame fields (R14, R20, R76). -/
abbrev Word := BitVec 32

/-- One packed RC channel: 11 bits (R25). -/
abbrev Chan := BitVec 11

end Sys2Proof
end

