-- ==== Sys2Proof/Syntax.lean ====
section
/-! DEFINITION. The abstract syntax: one constructor per row of spec/opcode_table.json (R120 for the 32 operations,
R105 and R107 to R112 for the six wire-frame rows), the command packets that carry them, and the reasons a packet is
not decoded. An operand has the type R120 gives it: naturals are unbounded, byte sequences have any length. -/

namespace Sys2Proof

/-- The operations of R120 (in the table's order) and the wire frames of R105.
A wire-frame constructor carries the frame's bytes field by field: address, size, the addressing pair where the type is
extended, payload, CRC; its type byte is the constructor. The CRC is the frame's last byte, and a field is absent where the
frame ends before it: a frame of an extended type may be too short for its addressing pair (R115 (e)), and one whose size
is 0 or 1 is no longer than its header (R115 (b)). -/
inductive Instr where
  | reset
  | lineRx (b : Byte)
  | txDrain
  | pwTick (level : Bool)
  | crc8Byte (b : Byte)
  | crc8Buf (buf : List Byte) (seed : Byte)
  | crcnConfig (bits : Nat) (poly : Half)
  | crcnCalc (buf : List Byte) (seed : Half)
  | decodeHeader (buf : List Byte)
  | computeCrc (buf : List Byte) (totalLen : Nat)
  | isValid (buf : List Byte) (totalLen : Nat)
  | unpackChannels (payload : List Byte)
  | packChannels (v : List Nat)
  | encodeExt (type dest orig : Byte) (payload : List Byte)
  | encodeDevinfo
  | packVersion (major minor patch : Nat)
  | setRx (inv : Bool)
  | setTx (inv : Bool)
  | pollRx (nowUs nowMs : Word)
  | align (start : Nat)
  | handleFrame (totalLen : Nat) (nowUs nowMs : Word)
  | readChannel (k : Nat)
  | getLastRcTs
  | wdtCheck (nowMs : Word)
  | autobaudEstimate
  | pwEnable
  | enqueue (frame : List Byte)
  | flushQueue
  | sendTelemetry (buffer : List Byte)
  | serviceOutput (received : Nat) (nowMs : Word)
  | notifyTx (nowUs : Word)
  | syncEmit (nowMs : Word)
  | frameLinkStats (address size : Byte) (payload : List Byte) (crc : Option Byte)
  | frameRcChannels (address size : Byte) (payload : List Byte) (crc : Option Byte)
  | framePing (address size : Byte) (dest orig : Option Byte) (payload : List Byte) (crc : Option Byte)
  | frameDeviceInfo (address size : Byte) (dest orig : Option Byte) (payload : List Byte) (crc : Option Byte)
  | frameCommand (address size : Byte) (dest orig : Option Byte) (payload : List Byte) (crc : Option Byte)
  | frameTiming (address size : Byte) (dest orig : Option Byte) (payload : List Byte) (crc : Option Byte)
deriving DecidableEq, Repr

/-- What the environment presents to the CORE: a command on the operation port (the `op` byte and its operands, R120) or
the bytes of a wire frame arriving on the line (R100, R101). The two share no encoding space (R120: frame rows "are
frames, not operations"). -/
inductive Packet where
  | op (bytes : List Byte)
  | frame (bytes : List Byte)
deriving DecidableEq, Repr

/-- Why the decoder names no instruction for a packet. On the operation port the machine then stops, which is safe; on the
line the bytes arrive all the same, as any bytes do (R115: "None of them traps"). -/
inductive DecodeError where
  /-- The `op` byte is not in the table (R121, U10). -/
  | reservedOp (op : Byte)
  /-- The packet ends before its last operand, or before the total length its size byte declares (R114). -/
  | short
  /-- Bytes follow the last operand (R121: no optional operands), or the declared total length (R114). -/
  | trailing
  /-- A one-bit operand is neither 0 nor 1. -/
  | notABit (b : Byte)
  /-- A natural is not written in its shortest form. -/
  | nonMinimal
  /-- A wire frame of a type that has no row in the table. -/
  | unknownFrameType (type : Byte)
deriving DecidableEq, Repr

end Sys2Proof
end

