-- ==== Sys2Proof/Decode.lean ====
section
/-! DEFINITION. The decoder and the encoder.

Operations (R120): "a command is the byte `op` followed by its operands in the order of the table". The spec defines no
bit packing of operands; the operand bytes are the model's (assumption log 1), chosen so that every encoding the spec's
programs print (95, section 3) reads as they print it: a byte is itself; a bit is a byte 0 or 1; a 16-bit or 32-bit value
is written most significant byte first; a natural is base 128, least significant digit first, bit 7 set on every byte but
the last (so a natural below 128 is one byte); a byte sequence is its length (a natural) and its bytes; a list of
naturals is its length and its naturals.

Wire frames (R100, R101): the frame's own bytes. The type byte selects the row (mask 0x0000FF). The length comes "from its
second byte alone: totalLen = frame[1] + 2" (R114), whatever the type and whether the size is legal or not (R115); the
one exception is the model's: a size of 0 would leave the row's type byte outside the frame, and stands for the three
header bytes (assumption log 11). -/

namespace Sys2Proof

/-- A reader takes bytes off the front of a packet. -/
abbrev Reader (α : Type) := List Byte → Except DecodeError (α × List Byte)

/-- Read one byte. -/
def rdByte : Reader Byte
  | [] => .error .short
  | b :: bs => .ok (b, bs)

/-- Read a bit: a byte 0 or 1. -/
def rdBit : Reader Bool
  | [] => .error .short
  | b :: bs => if b = 0 then .ok (false, bs) else if b = 1 then .ok (true, bs) else .error (.notABit b)

/-- Read a 16-bit value, most significant byte first. -/
def rdHalf : Reader Half
  | a :: b :: bs => .ok (a ++ b, bs)
  | _ => .error .short

/-- Read a 32-bit value, most significant byte first. -/
def rdWord : Reader Word
  | a :: b :: c :: d :: bs => .ok (a ++ b ++ c ++ d, bs)
  | _ => .error .short

/-- Read a natural, base 128, least significant digit first; only its shortest form is accepted. -/
def rdNat : Reader Nat
  | [] => .error .short
  | b :: bs =>
    if b.toNat < 128 then .ok (b.toNat, bs)
    else match rdNat bs with
      | .error e => .error e
      | .ok (v, rest) => if v = 0 then .error .nonMinimal else .ok (b.toNat - 128 + 128 * v, rest)

/-- Read `n` bytes. -/
def rdTake (n : Nat) : Reader (List Byte) := fun bs =>
  if n ≤ bs.length then .ok (bs.take n, bs.drop n) else .error .short

/-- Read a byte sequence: its length, then its bytes. -/
def rdBytes : Reader (List Byte) := fun bs =>
  match rdNat bs with
  | .error e => .error e
  | .ok (n, rest) => rdTake n rest

/-- Read `n` naturals. -/
def rdNatN : Nat → Reader (List Nat)
  | 0, bs => .ok ([], bs)
  | n + 1, bs =>
    match rdNat bs with
    | .error e => .error e
    | .ok (v, rest) =>
      match rdNatN n rest with
      | .error e => .error e
      | .ok (vs, rest') => .ok (v :: vs, rest')

/-- Read a list of naturals: its length, then its members. -/
def rdNats : Reader (List Nat) := fun bs =>
  match rdNat bs with
  | .error e => .error e
  | .ok (n, rest) => rdNatN n rest

/-- One operand after another. -/
def rdThen {α β : Type} (r : Reader α) (k : α → Reader β) : Reader β := fun bs =>
  match r bs with
  | .error e => .error e
  | .ok (a, rest) => k a rest

/-- No operand is left: the operation is complete. -/
def rdDone (i : Instr) : Reader Instr := fun bs => .ok (i, bs)

/-- The operands of each operation, in the order of R120's table, selected by the `op` byte. -/
def rdOperands (op : Byte) : Reader Instr :=
  match op.toNat with
  | 0x00 => rdDone .reset
  | 0x01 => rdThen rdByte fun b => rdDone (.lineRx b)
  | 0x02 => rdDone .txDrain
  | 0x03 => rdThen rdBit fun l => rdDone (.pwTick l)
  | 0x10 => rdThen rdByte fun b => rdDone (.crc8Byte b)
  | 0x11 => rdThen rdBytes fun b => rdThen rdByte fun s => rdDone (.crc8Buf b s)
  | 0x12 => rdThen rdNat fun n => rdThen rdHalf fun p => rdDone (.crcnConfig n p)
  | 0x13 => rdThen rdBytes fun b => rdThen rdHalf fun s => rdDone (.crcnCalc b s)
  | 0x20 => rdThen rdBytes fun b => rdDone (.decodeHeader b)
  | 0x21 => rdThen rdBytes fun b => rdThen rdNat fun n => rdDone (.computeCrc b n)
  | 0x22 => rdThen rdBytes fun b => rdThen rdNat fun n => rdDone (.isValid b n)
  | 0x23 => rdThen rdBytes fun b => rdDone (.unpackChannels b)
  | 0x24 => rdThen rdNats fun v => rdDone (.packChannels v)
  | 0x25 => rdThen rdByte fun t => rdThen rdByte fun d => rdThen rdByte fun o => rdThen rdBytes fun p =>
      rdDone (.encodeExt t d o p)
  | 0x26 => rdDone .encodeDevinfo
  | 0x27 => rdThen rdNat fun a => rdThen rdNat fun b => rdThen rdNat fun c => rdDone (.packVersion a b c)
  | 0x30 => rdThen rdBit fun v => rdDone (.setRx v)
  | 0x31 => rdThen rdBit fun v => rdDone (.setTx v)
  | 0x40 => rdThen rdWord fun u => rdThen rdWord fun m => rdDone (.pollRx u m)
  | 0x41 => rdThen rdNat fun n => rdDone (.align n)
  | 0x42 => rdThen rdNat fun n => rdThen rdWord fun u => rdThen rdWord fun m => rdDone (.handleFrame n u m)
  | 0x43 => rdThen rdNat fun k => rdDone (.readChannel k)
  | 0x44 => rdDone .getLastRcTs
  | 0x50 => rdThen rdWord fun m => rdDone (.wdtCheck m)
  | 0x51 => rdDone .autobaudEstimate
  | 0x52 => rdDone .pwEnable
  | 0x60 => rdThen rdBytes fun b => rdDone (.enqueue b)
  | 0x61 => rdDone .flushQueue
  | 0x62 => rdThen rdBytes fun b => rdDone (.sendTelemetry b)
  | 0x63 => rdThen rdNat fun n => rdThen rdWord fun m => rdDone (.serviceOutput n m)
  | 0x70 => rdThen rdWord fun u => rdDone (.notifyTx u)
  | 0x71 => rdThen rdWord fun m => rdDone (.syncEmit m)
  | _ => fun _ => .error (.reservedOp op)

/-- A command on the operation port: the `op` byte, then its operands. -/
def rdOp : Reader Instr := rdThen rdByte rdOperands

/-- What follows a frame's type byte: `totalLen - 3 = size - 1` bytes, whatever the type (R102, R114). -/
def rdRest (mk : List Byte → Instr) (size : Byte) : Reader Instr :=
  rdThen (rdTake (size.toNat - 1)) fun rest => rdDone (mk rest)

/-- The fields behind a plain frame's type (R100): the CRC is the last byte, the payload what stands before it. -/
def ofPlain (mk : List Byte → Option Byte → Instr) (rest : List Byte) : Instr := mk rest.dropLast rest.getLast?

/-- The fields behind an extended frame's type (R101): the CRC is the last byte; destination, origin and payload what stands
before it, as far as it reaches. -/
def ofExt (mk : Option Byte → Option Byte → List Byte → Option Byte → Instr) (rest : List Byte) : Instr :=
  mk rest.dropLast[0]? rest.dropLast[1]? (rest.dropLast.drop 2) rest.getLast?

/-- The rest of a wire frame, selected by its type byte (R105, R107 to R112). -/
def rdFrameBody (address size type : Byte) : Reader Instr :=
  match type.toNat with
  | 0x14 => rdRest (ofPlain (.frameLinkStats address size)) size
  | 0x16 => rdRest (ofPlain (.frameRcChannels address size)) size
  | 0x28 => rdRest (ofExt (.framePing address size)) size
  | 0x29 => rdRest (ofExt (.frameDeviceInfo address size)) size
  | 0x32 => rdRest (ofExt (.frameCommand address size)) size
  | 0x3A => rdRest (ofExt (.frameTiming address size)) size
  | _ => fun _ => .error (.unknownFrameType type)

/-- A wire frame: address, size, type (R100), then the rest. -/
def rdFrame : Reader Instr :=
  rdThen rdByte fun a => rdThen rdByte fun s => rdThen rdByte fun t => rdFrameBody a s t

/-- A reader's answer counts only when it used every byte. -/
def readAll (r : Reader Instr) (bs : List Byte) : Except DecodeError Instr :=
  match r bs with
  | .error e => .error e
  | .ok (i, []) => .ok i
  | .ok (_, _ :: _) => .error .trailing

/-- The decoder: total on every packet, rejecting by name. -/
def decode : Packet → Except DecodeError Instr
  | .op bs => readAll rdOp bs
  | .frame bs => readAll rdFrame bs

/-! ### The encoder -/

/-- Write a natural, base 128, least significant digit first; `fuel` bounds the number of digits. -/
def wrNatAux : Nat → Nat → List Byte
  | 0, n => [BitVec.ofNat 8 n]
  | fuel + 1, n =>
    if n < 128 then [BitVec.ofNat 8 n] else BitVec.ofNat 8 (n % 128 + 128) :: wrNatAux fuel (n / 128)

/-- Write a natural; it has fewer base-128 digits than its own value. -/
def wrNat (n : Nat) : List Byte := wrNatAux n n

/-- Write a bit as a byte. -/
def wrBit (v : Bool) : List Byte := if v then [1] else [0]

/-- Write a 16-bit value, most significant byte first. -/
def wrHalf (v : Half) : List Byte := [v.extractLsb' 8 8, v.extractLsb' 0 8]

/-- Write a 32-bit value, most significant byte first. -/
def wrWord (v : Word) : List Byte := [v.extractLsb' 24 8, v.extractLsb' 16 8, v.extractLsb' 8 8, v.extractLsb' 0 8]

/-- Write a byte sequence: its length, then its bytes. -/
def wrBytes (bs : List Byte) : List Byte := wrNat bs.length ++ bs

/-- Write a list of naturals: its length, then its members. -/
def wrNats (vs : List Nat) : List Byte := wrNat vs.length ++ vs.flatMap wrNat

/-- The bytes behind a plain frame's type: payload, CRC (R100). -/
def plainTail (payload : List Byte) (crc : Option Byte) : List Byte := payload ++ crc.toList

/-- The bytes behind an extended frame's type: destination, origin, payload, CRC (R101), as far as they are there. -/
def extTail (dest orig : Option Byte) (payload : List Byte) (crc : Option Byte) : List Byte :=
  dest.toList ++ orig.toList ++ payload ++ crc.toList

/-- The bytes of a wire frame: address, size, type (R100, R101), and what follows. -/
def frameBytes (type address size : Byte) (tail : List Byte) : List Byte := [address, size, type] ++ tail

/-- The encoder: the packet of each instruction (R120's codes; R100 and R101's frames). -/
def encode : Instr → Packet
  | .reset => .op [0x00]
  | .lineRx b => .op [0x01, b]
  | .txDrain => .op [0x02]
  | .pwTick l => .op (0x03 :: wrBit l)
  | .crc8Byte b => .op [0x10, b]
  | .crc8Buf buf seed => .op (0x11 :: (wrBytes buf ++ [seed]))
  | .crcnConfig bits poly => .op (0x12 :: (wrNat bits ++ wrHalf poly))
  | .crcnCalc buf seed => .op (0x13 :: (wrBytes buf ++ wrHalf seed))
  | .decodeHeader buf => .op (0x20 :: wrBytes buf)
  | .computeCrc buf n => .op (0x21 :: (wrBytes buf ++ wrNat n))
  | .isValid buf n => .op (0x22 :: (wrBytes buf ++ wrNat n))
  | .unpackChannels p => .op (0x23 :: wrBytes p)
  | .packChannels v => .op (0x24 :: wrNats v)
  | .encodeExt t d o p => .op (0x25 :: t :: d :: o :: wrBytes p)
  | .encodeDevinfo => .op [0x26]
  | .packVersion a b c => .op (0x27 :: (wrNat a ++ wrNat b ++ wrNat c))
  | .setRx v => .op (0x30 :: wrBit v)
  | .setTx v => .op (0x31 :: wrBit v)
  | .pollRx u m => .op (0x40 :: (wrWord u ++ wrWord m))
  | .align n => .op (0x41 :: wrNat n)
  | .handleFrame n u m => .op (0x42 :: (wrNat n ++ wrWord u ++ wrWord m))
  | .readChannel k => .op (0x43 :: wrNat k)
  | .getLastRcTs => .op [0x44]
  | .wdtCheck m => .op (0x50 :: wrWord m)
  | .autobaudEstimate => .op [0x51]
  | .pwEnable => .op [0x52]
  | .enqueue f => .op (0x60 :: wrBytes f)
  | .flushQueue => .op [0x61]
  | .sendTelemetry b => .op (0x62 :: wrBytes b)
  | .serviceOutput n m => .op (0x63 :: (wrNat n ++ wrWord m))
  | .notifyTx u => .op (0x70 :: wrWord u)
  | .syncEmit m => .op (0x71 :: wrWord m)
  | .frameLinkStats a s p c => .frame (frameBytes 0x14 a s (plainTail p c))
  | .frameRcChannels a s p c => .frame (frameBytes 0x16 a s (plainTail p c))
  | .framePing a s d o p c => .frame (frameBytes 0x28 a s (extTail d o p c))
  | .frameDeviceInfo a s d o p c => .frame (frameBytes 0x29 a s (extTail d o p c))
  | .frameCommand a s d o p c => .frame (frameBytes 0x32 a s (extTail d o p c))
  | .frameTiming a s d o p c => .frame (frameBytes 0x3A a s (extTail d o p c))

/-! ### Words of the opcode table

An operation row gives the `op` byte alone (8 bits); a frame row gives the 24-bit header `address:size:type` with the
address the most significant byte, so its type is bits 7 to 0 (R120). No frame type is an operation code, so the low
byte tells which of the two a word is. -/

/-- The low byte is one of the six frame types of the table. -/
def isFrameTypeCode (b : Byte) : Bool :=
  b == 0x14 || b == 0x16 || b == 0x28 || b == 0x29 || b == 0x32 || b == 0x3A

/-- The first `n` bytes of a number, least significant first. -/
def leBytes : Nat → Nat → List Byte
  | 0, _ => []
  | n + 1, w => BitVec.ofNat 8 w :: leBytes n (w / 256)

/-- More bytes than any operation needs when its operands are zero. -/
def zeroTail : List Byte := List.replicate 16 0

/-- Cut a padded operation to the bytes its reader uses, when only zeros are left over. -/
def trimmed (r : Reader Instr) (bs : List Byte) : List Byte :=
  match r bs with
  | .ok (_, rest) => if rest.all (· == 0) then bs.take (bs.length - rest.length) else bs
  | .error _ => bs

/-- The bytes behind a frame's header, filled up with zeros to the length the size byte declares (R114). -/
def filledTail (size : Byte) (tail : List Byte) : List Byte :=
  tail ++ List.replicate (size.toNat - 1 - tail.length) 0

/-- The packet of a table word: `nbits` bits of `w`, every further bit zero, laid out as the CORE receives it (an
operation's bytes from the `op` byte on; a frame's bytes from the address on). -/
def packetOfWord (nbits w : Nat) : Packet :=
  let w := w % 2 ^ nbits
  if isFrameTypeCode (BitVec.ofNat 8 w) then
    .frame (frameBytes (BitVec.ofNat 8 w) (BitVec.ofNat 8 (w / 65536)) (BitVec.ofNat 8 (w / 256))
      (filledTail (BitVec.ofNat 8 (w / 256)) (leBytes (nbits / 8 - 3) (w / 16777216))))
  else
    .op (trimmed rdOp (leBytes ((nbits + 7) / 8) w ++ zeroTail))

/-- The instruction the decoder reads from a table word; none where it refuses. -/
def decodeTableWord (nbits w : Nat) : Option Instr :=
  match decode (packetOfWord nbits w) with
  | .ok i => some i
  | .error _ => none

end Sys2Proof
end

