-- ==== Sys2Proof/Config.lean ====
section
/-! DEFINITION. The constants the document fixes (R8), the parameters it leaves open (R9) as the fields of one
configuration, and the free values (00_scope R12 `draw`, 93 part 1) as opaque constants.

The configuration is DATA: `Machine.State` holds one, no operation changes it, so a claim about every state is a claim
about every configuration. Its constraints (R9, R10) are `Machine.configOk`. -/

namespace Sys2Proof

/-! ### R8: constants -/

/-- R8 `SYNC_BYTE`. -/
abbrev syncByte : Byte := 0xC8
/-- R8 `MAX_FRAME`: greatest total frame length and capacity of the assembly buffer and of the staging register. -/
@[simp] abbrev maxFrame : Nat := 64
/-- R8 `MIN_FRAME`. -/
@[simp] abbrev minFrame : Nat := 4
/-- R8 `CH_BITS`. -/
@[simp] abbrev chBits : Nat := 11
/-- R8 `TYPE_RC_CHANNELS`. -/
abbrev typeRcChannels : Byte := 0x16
/-- R8 `TYPE_LINK_STATS`. -/
abbrev typeLinkStats : Byte := 0x14
/-- R8 `TYPE_EXT_FIRST`. -/
abbrev typeExtFirst : Byte := 0x28
/-- R8 `TYPE_EXT_LAST`. -/
abbrev typeExtLast : Byte := 0x96
/-- R8 `TYPE_DEVICE_PING`. -/
abbrev typeDevicePing : Byte := 0x28
/-- R8 `TYPE_DEVICE_INFO`. -/
abbrev typeDeviceInfo : Byte := 0x29
/-- R8 `TYPE_COMMAND`. -/
abbrev typeCommand : Byte := 0x32
/-- R8 `TYPE_HANDSET`. -/
abbrev typeHandset : Byte := 0x3A
/-- R8 `SUBCMD_RX`. -/
abbrev subcmdRx : Byte := 0x10
/-- R8 `SUBCMD_RX_BIND`. -/
abbrev subcmdRxBind : Byte := 0x01
/-- R8 `SUBCMD_RX_MODEL_SELECT`. -/
abbrev subcmdRxModelSelect : Byte := 0x05
/-- R8 `SUBCMD_TIMING`. -/
abbrev subcmdTiming : Byte := 0x10
/-- R8 `LINK_STATS_LEN`. -/
@[simp] abbrev linkStatsLen : Nat := 10
/-- R8 `F_REF`. -/
@[simp] abbrev fRef : Nat := 80000000
/-- R8 `PW_ADD`. -/
@[simp] abbrev pwAdd : Nat := 3
/-- R8 `BUDGET_MIN`. -/
@[simp] abbrev budgetMin : Nat := 10
/-- R8 `WINDOW_MS`. -/
@[simp] abbrev windowMs : Nat := 20
/-- R8 `SYNC_PERIOD_MS`. -/
@[simp] abbrev syncPeriodMs : Nat := 200
/-- R8 `RC_STALE_US`. -/
@[simp] abbrev rcStaleUs : Nat := 1000000
/-- R8 `CRCN_MIN`. -/
@[simp] abbrev crcnMin : Nat := 9
/-- R8 `CRCN_MAX`. -/
@[simp] abbrev crcnMax : Nat := 16

/-! ### R9: parameters -/

/-- R9: the parameters the document names and does not value. A field's default is the spec's own (R9, D2); the five
parameters without a default hold the values of the spec's test vectors (95, opening). Two defaults are R9's functions of
other parameters: `reqBaud` of `probeBaud`, `syncWindowMax` of `rcIntervalUs`.
`windowTable` carries the one parameter that is a function, `WindowBytes`: a baud rate listed there has the listed
budget, every other one the default formula of R260 (assumption log 4). -/
structure Config where
  crc8Poly : Byte := 0xD5
  crc8Seed : Byte := 0x00
  addrModule : Byte := 0xEE
  addrRadio : Byte := 0xEA
  numCh : Nat := 16
  halfDuplex : Bool := true
  baudTable : List Nat := [400000, 115200, 5250000, 3750000, 1870000, 921600, 2250000]
  probeBaud : Nat := 400000
  reqBaud : Nat := probeBaud
  edgeMin : Nat := 300
  pwBits : Nat := 20
  wdtIntervalMs : Nat := 1000
  outqCapacity : Nat := 256
  telemFifoSize : Nat := 128
  windowTable : List (Nat × Nat) := []
  rcIntervalUs : Nat := 4000
  syncWindowMax : Nat := max (20000 / rcIntervalUs) 1
  syncScale : Nat := 10
  safetyMargin : Nat := 1000
  deviceName : List Byte := [0x44, 0x45, 0x56]
  serialNo : Word := 0x12345678
  hwVer : Word := 0x00000001
  swMajor : Nat := 1
  swMinor : Nat := 2
  swPatch : Nat := 3
  paramCount : Byte := 0
  paramProtoVer : Byte := 0
  bindDispatch : Bool := false
  cntBits : Nat := 32
deriving DecidableEq, Repr

/-- The default configuration: R9's defaults, and the vectors' values where R9 has none. -/
def Config.default : Config := {}

/-! ### Free values: values no rule determines. Opaque: nothing can be proved of the number drawn. -/

/-- A channel value a short RC-channels frame leaves unspecified (R206, U3), for each draw of the run. -/
opaque Config.freeChannel : Nat → Chan
/-- The unspecified result of `CRCN_CALC` under a zero polynomial (R150, U1), before it is cut to N bits. -/
opaque Config.freeCrc : Nat → Half
/-- The width tag `crcn_tab_bits` that `RESET` leaves unspecified (R340). -/
opaque Config.freeTabBits : Nat → Nat
/-- The polynomial tag `crcn_tab_poly` that `RESET` leaves unspecified (R340). -/
opaque Config.freeTabPoly : Nat → Half
/-- The line level at reset release, which `RESET` samples into `pw_prev` (R29, U16): an input nothing determines. -/
opaque Config.freeLevel : Nat → Bool

end Sys2Proof
end

