-- ==== Sys2Proof/Machine/CrcTables.lean ====
section
/-! DEFINITION. The CRC arithmetic as functions of its operands: the 8-bit table and fold (R140, R142), the N-bit table
and fold (R146, R147), and the bitwise forms the spec says they equal (R143, R148). -/

namespace Sys2Proof.Machine

/-- `f` applied `n` times. -/
def times {α : Type} (f : α → α) : Nat → α → α
  | 0, a => a
  | n + 1, a => times f n (f a)

/-! ### 8 bits -/

/-- R140's loop body: shift left, and apply the polynomial when the top bit falls out. -/
def crc8Shift (poly c : Byte) : Byte := if c.msb then (c <<< 1) ^^^ poly else c <<< 1

/-- R140: one table entry. -/
def crc8Entry (poly i : Byte) : Byte := times (crc8Shift poly) 8 i

/-- R140: the table of 256 entries. -/
def crc8Table (poly : Byte) : List Byte := (List.range 256).map fun i => crc8Entry poly (BitVec.ofNat 8 i)

/-- A table read at an 8-bit index (R307 (g)); every index has an entry in a table of 256. -/
def tabAt {w : Nat} (tab : List (BitVec w)) (i : Byte) : BitVec w := tab.getD i.toNat 0

/-- R142: the seed folded across table lookups xored with the consumed bytes. -/
def crc8Fold (tab : List Byte) (seed : Byte) (buf : List Byte) : Byte :=
  buf.foldl (fun c b => tabAt tab (c ^^^ b)) seed

/-- R143: the same CRC a bit at a time, without a table. -/
def crc8Bitwise (poly seed : Byte) (buf : List Byte) : Byte :=
  buf.foldl (fun c b => times (crc8Shift poly) 8 (c ^^^ b)) seed

/-! ### N bits, N in 9..16 -/

/-- `(1 << N) - 1` in 16 bits. -/
def maskN (n : Nat) : Half := BitVec.ofNat 16 (2 ^ n - 1)

/-- R146's loop body: shift left within N bits, and apply the masked polynomial when bit N-1 falls out. -/
def crcnShift (n : Nat) (p c : Half) : Half :=
  if c.getLsbD (n - 1) then ((c <<< 1) ^^^ p) &&& maskN n else (c <<< 1) &&& maskN n

/-- R146: one table entry. -/
def crcnEntry (n : Nat) (poly : Half) (i : Nat) : Half :=
  times (crcnShift n (poly &&& maskN n)) 8 ((BitVec.ofNat 16 i <<< (n - 8)) &&& maskN n)

/-- R146: the table of 256 entries for a (bit-width, polynomial) pair. -/
def crcnTable (n : Nat) (poly : Half) : List Half := (List.range 256).map (crcnEntry n poly)

/-- R147: the table index of one byte. -/
def crcnIndex (n : Nat) (c : Half) (b : Byte) : Byte := (c >>> (n - 8)).setWidth 8 ^^^ b

/-- R147: the masked seed folded through the table. -/
def crcnFold (tab : List Half) (n : Nat) (seed : Half) (buf : List Byte) : Half :=
  buf.foldl (fun c b => ((c <<< 8) ^^^ tabAt tab (crcnIndex n c b)) &&& maskN n) (seed &&& maskN n)

/-- R148: the same CRC a bit at a time, without a table. -/
def crcnBitwise (n : Nat) (poly seed : Half) (buf : List Byte) : Half :=
  buf.foldl (fun (c : Half) (b : Byte) => times (crcnShift n (poly &&& maskN n)) 8 (c ^^^ ((b.setWidth 16 : Half) <<< (n - 8))))
    (seed &&& maskN n)

end Sys2Proof.Machine
end

