-- ==== Sys2Proof/Machine/Params.lean ====
section
/-! DEFINITION. What the rules compute from the configuration alone: the channel payload's size (R107), the pulse timer's
ceiling (R29), the window's byte budget (R260), and the constraints on the configuration (R9, R10). -/

namespace Sys2Proof.Machine

/-- R107 `CH_BYTES = ceil(11 * NUM_CH / 8)`. -/
def chBytes (cfg : Config) : Nat := (chBits * cfg.numCh + 7) / 8

/-- R29 `PW_MAX = 2^PW_BITS - 1`. -/
def pwMax (cfg : Config) : Nat := 2 ^ cfg.pwBits - 1

/-- R260's default formula: the bytes a line carries in the window at 10 bit times a byte, at least one. -/
def defaultWindowBytes (baud : Nat) : Nat := max 1 (baud * windowMs / 10000)

/-- R9, R260 `WindowBytes`: the budget the configuration lists for this baud rate, else the default formula. -/
def windowBytes (cfg : Config) (baud : Nat) : Nat :=
  (cfg.windowTable.lookup baud).getD (defaultWindowBytes baud)

/-- R44, R42: the baud rates the line can be configured at. -/
def legalBauds (cfg : Config) : List Nat := cfg.probeBaud :: cfg.reqBaud :: cfg.baudTable

/-- R9's types and R10's constraints (a) to (f). U9: a configuration outside them has no meaning.
That every baud rate fits 32 bits is read from the width of `baud_cur` (R28; assumption log 5). -/
def configOk (cfg : Config) : Bool :=
  cfg.crc8Poly != 0
    && (decide (1 ≤ cfg.rcIntervalUs) && decide (1 ≤ cfg.syncWindowMax)
      && decide (cfg.rcIntervalUs * cfg.syncScale * (cfg.syncWindowMax + 1) < 2 ^ 31))
    && (decide (cfg.deviceName.length + 21 ≤ maxFrame) && cfg.deviceName.all (· != 0))
    && decide (maxFrame + 1 ≤ cfg.outqCapacity)
    && (!cfg.baudTable.isEmpty && (legalBauds cfg).all fun b => decide (1 ≤ b) && decide (b < 2 ^ 32))
    && (decide (1 ≤ cfg.numCh) && decide (chBytes cfg ≤ maxFrame - minFrame))
    && (decide (3 ≤ cfg.edgeMin) && decide (1 ≤ cfg.pwBits))
    && (decide (1 ≤ cfg.wdtIntervalMs) && decide (1 ≤ cfg.telemFifoSize))
    && cfg.windowTable.all fun e => decide (1 ≤ e.2)

end Sys2Proof.Machine
end

