-- ==== Sys2Proof/Machine/State.lean ====
section
/-! DEFINITION. The state of the CORE (spec 10_state), grouped as the document's data model groups it, the outputs
(00_scope R15), the environment's inputs, and the two ways a step can stop. Plain data throughout. -/

namespace Sys2Proof.Machine

/-! ### Memory: the addressed byte stores (20_memory R70) -/

/-- A byte store: (offset, byte) pairs, one canonical form. An offset that is not listed holds no value: reading it
faults (10_state R45: such bytes are unspecified and "a model must not give them a value a claim can read"). -/
abbrev Memory := List Host.Cell

/-- Both addressed stores hold 64 bytes, offsets 0..63 (R70, R72). -/
@[simp] abbrev storeSize : Nat := 64

/-- The entries lie at strictly rising offsets from `lo` on, below the store's size. -/
def wfFrom : Nat → Memory → Bool
  | _, [] => true
  | lo, (a, _) :: m => decide (lo ≤ a) && decide (a < storeSize) && wfFrom (a + 1) m

/-- The canonical form: offsets strictly rising and inside the store. (An unlisted offset reads as no value, so no entry
can equal what an unlisted one reads as.) Equal stores are equal data. -/
def Memory.wf (m : Memory) : Bool := wfFrom 0 m

/-! ### Names of modes -/

/-- R28 `ab_phase`. -/
inductive AbPhase where
  | init
  | measured
  | inverted
deriving DecidableEq, Repr

/-- R35 `pin_dir`. -/
inductive PinDir where
  | input
  | output
deriving DecidableEq, Repr

/-- R35 `pin_pull`. -/
inductive PinPull where
  | up
  | down
  | none
deriving DecidableEq, Repr

/-- R35 `pin_level`. -/
inductive PinLevel where
  | high
  | low
deriving DecidableEq, Repr

/-- R35 `line_mode`. -/
inductive LineMode where
  | rx
  | tx
deriving DecidableEq, Repr

/-- R202: the outcome codes of `POLL_RX`. -/
inductive PollOutcome where
  | holdTx
  | waitHdr
  | rejectLen
  | waitBody
  | good
  | bad
deriving DecidableEq, Repr

/-- R202: the numbers of the outcome codes. -/
def PollOutcome.code : PollOutcome → Nat
  | .holdTx => 0
  | .waitHdr => 1
  | .rejectLen => 2
  | .waitBody => 3
  | .good => 4
  | .bad => 5

/-- R240: the outcome codes of `WDT_CHECK`. -/
inductive WdtOutcome where
  | notDue
  | ok
  | triggered
deriving DecidableEq, Repr

/-- R240: the numbers of the outcome codes. -/
def WdtOutcome.code : WdtOutcome → Nat
  | .notDue => 0
  | .ok => 1
  | .triggered => 2

/-! ### Outputs -/

/-- R310: the four error kinds with the information each records. -/
inductive ErrorInfo where
  | framing (marker size : Byte)
  | crc (type : Byte) (totalLen : Nat)
  | queueFull (len : Nat)
  | linkLost (good bad : Nat)
deriving DecidableEq, Repr

/-- R310: the error codes. -/
def ErrorInfo.code : ErrorInfo → Nat
  | .framing _ _ => 1
  | .crc _ _ => 2
  | .queueFull _ => 3
  | .linkLost _ _ => 4

/-- R15, R190, R243, R310: the events of the output stream. -/
inductive Event where
  | connected
  | disconnected
  | rcData
  | modelSelect (index : Byte)
  | bind
  | lineTx (b : Byte)
  | lineConfig (baud : Nat) (inverted : Bool)
  | pinDir (d : PinDir)
  | pinPull (p : PinPull)
  | pinLevel (l : PinLevel)
  | rxPath (connected invert : Bool)
  | txPath (connected invert : Bool)
  | err (e : ErrorInfo)
deriving DecidableEq, Repr

/-- R120's column "result": what an operation returns to whoever issued it. -/
inductive Reply where
  | byte (b : Byte)
  | crcn (v : Half)
  | header (address declaredSize type : Byte)
  | flag (v : Bool)
  | channels (v : List Chan)
  | bytes (bs : List Byte)
  | version (v : Nat)
  | poll (o : PollOutcome)
  | channel (v : Chan)
  | rcTimestamp (tLastRc : Word) (rcSeen : Bool)
  | wdt (o : WdtOutcome)
  | baud (c : Nat)
  | accepted (v : Bool)
  | queued (v : Bool)
deriving DecidableEq, Repr

/-! ### The state's parts -/

/-- R22, R23: the CRC engine. -/
structure CrcState where
  /-- `crc8_tab` -/
  tab8 : List Byte
  /-- `crcn_bits`: 0 (never configured) or 9..16 -/
  bits : Nat
  /-- `crcn_poly` -/
  poly : Half
  /-- `crcn_tab`; no entry before the first build -/
  tabN : List Half
  /-- `crcn_tab_bits` -/
  tabBits : Nat
  /-- `crcn_tab_poly` -/
  tabPoly : Half
  /-- `crcn_tab_valid` -/
  tabValid : Bool
deriving DecidableEq, Repr

/-- R24: the assembly buffer. -/
structure AsmBuffer where
  /-- `asm_buf` -/
  buf : Memory
  /-- `asm_cursor`: 0..64 -/
  cursor : Nat
deriving DecidableEq, Repr

/-- R26, R27: the link state and the watchdog's timestamp. -/
structure LinkState where
  /-- `connected` -/
  connected : Bool
  /-- `t_last_rx`, microseconds -/
  tLastRx : Word
  /-- `t_last_rc`, microseconds -/
  tLastRc : Word
  /-- `rc_seen` -/
  rcSeen : Bool
  /-- `good_cnt`, `CNT_BITS` wide -/
  goodCnt : Nat
  /-- `bad_cnt`, `CNT_BITS` wide -/
  badCnt : Nat
  /-- `wdt_last_ms`, milliseconds -/
  wdtLastMs : Word
deriving DecidableEq, Repr

/-- R28, R30: the baud state and the window budget. -/
structure BaudState where
  /-- `inverted` -/
  inverted : Bool
  /-- `ab_phase` -/
  phase : AbPhase
  /-- `baud_cur` -/
  cur : Word
  /-- `win_bytes` -/
  winBytes : Nat
deriving DecidableEq, Repr

/-- R29: the pulse-width timer. -/
structure PulseTimer where
  /-- `pw_en` -/
  en : Bool
  /-- `pw_edges` -/
  edges : Nat
  /-- `pw_low` -/
  low : Nat
  /-- `pw_high` -/
  high : Nat
  /-- `pw_prev` -/
  prev : Bool
  /-- `pw_run` -/
  run : Nat
  /-- `pw_synced` -/
  synced : Bool
deriving DecidableEq, Repr

/-- R31, R32, R33: the output queue, the partial frame, the burst flag. -/
structure TxState where
  /-- `outq` -/
  outq : List Byte
  /-- `tx_stage` -/
  stage : Memory
  /-- `tx_rem`: 0..64 -/
  rem : Nat
  /-- `tx_off`: 0..64 -/
  off : Nat
  /-- `transmitting` -/
  transmitting : Bool
deriving DecidableEq, Repr

/-- R34: the sync-offset state. -/
structure SyncState where
  /-- `sync_offset`, units of 100 ns -/
  offset : Int
  /-- `sync_window` -/
  window : Nat
  /-- `t_sync_sent`, milliseconds -/
  tSent : Word
  /-- `sync_force` -/
  force : Bool
deriving DecidableEq, Repr

/-- R35: the duplex pin state. -/
structure Pins where
  /-- `pin_dir` -/
  dir : PinDir
  /-- `pin_pull` -/
  pull : PinPull
  /-- `pin_level` -/
  level : PinLevel
  /-- `rx_connected` -/
  rxConnected : Bool
  /-- `tx_connected` -/
  txConnected : Bool
  /-- `rx_invert` -/
  rxInvert : Bool
  /-- `tx_invert` -/
  txInvert : Bool
  /-- `line_mode` -/
  mode : LineMode
deriving DecidableEq, Repr

/-- R40: the line interface. -/
structure Line where
  /-- `rxhw` -/
  rxhw : List Byte
  /-- `txhw` -/
  txhw : List Byte
  /-- `line_level`: the raw level, an input -/
  level : Bool
deriving DecidableEq, Repr

/-- One command the environment issues: how far it lets the clock advance first (R14), the packet, and what the other
agents do at the operation's interleave points, one list of operations for each point in turn (R13). -/
structure Command where
  advance : Nat
  packet : Packet
  slots : List (List Instr)
deriving DecidableEq, Repr

/-- The rest of a watchdog check that waits at R243 step 3, `hold until tx_idle` (R12: "the operation has no step until
`<cond>` is true; some other agent's step must make it true"). -/
structure Hold where
  /-- the candidate baud `c` of R243 -/
  baud : Nat
  /-- the check's operand `now_ms`, which R244 still has to read -/
  nowMs : Word
  /-- the interleaving chosen for the points after the hold (R13) -/
  slots : List (List Instr)
deriving DecidableEq, Repr

/-- The MODEL's own part: the environment's trace still to be issued, the interleaving chosen for the operation in
progress, the values operations have returned (R120's results), and the count of free values drawn. -/
structure Env where
  pending : List Command
  slots : List (List Instr)
  replies : List Reply
  drawn : Nat
deriving DecidableEq, Repr

/-- The whole machine. -/
structure State where
  /-- R9: the parameters, fixed for a machine -/
  cfg : Config
  crc : CrcState
  asm : AsmBuffer
  /-- R25: `chan[0 .. NUM_CH-1]` -/
  chan : List Chan
  link : LinkState
  baud : BaudState
  pw : PulseTimer
  tx : TxState
  sync : SyncState
  pins : Pins
  line : Line
  /-- R14: `T`, microseconds since reset -/
  clock : Nat
  /-- R15: the output event stream, oldest first -/
  events : List Event
  /-- R12, R243 step 3: the watchdog check that is holding, if one is; the polling loop then has no step (R194) -/
  hold : Option Hold
  env : Env
deriving DecidableEq, Repr

/-! ### The two ways to stop -/

/-- Faults: an access the spec says cannot happen (R70: the stores may be "bounds-checked arrays and no rule will index
out of range"; R75's preconditions). No state that a run reaches raises one. All are safe: the machine stops. -/
inductive Fault where
  /-- Raised by `memRead`, `memWrite` and `memShiftLeft` for an offset outside 0..63 (R72 to R74). Safe. -/
  | storeRange
  /-- Raised by `memRead` for a byte nothing has written (R45, U13: its content is unspecified). Safe. -/
  | storeUnwritten
  /-- Raised by `popRecord` when the queue does not begin with a whole record of 1..64 bytes (R75, R270). Safe. -/
  | queueRecord
deriving DecidableEq, Repr

/-- Refusals: what the spec says a model refuses (R12: "outside the admitted domain"; 93 part 1). All are safe. -/
inductive Refusal where
  /-- Raised by `exec` for an instruction without a meaning; no arm does. -/
  | notModelled (mnemonic : String)
  /-- Raised by `undecoded` for a packet on the operation port that is no operation: a reserved code (R121, U10) or operand
  bytes that give no values of the stated types (R120). A wire frame is never refused for its bytes (R115). -/
  | undecodable (e : DecodeError)
  /-- Raised by `step` when the configuration violates R10 (U9). -/
  | badConfiguration
  /-- Raised by `CRCN_CONFIG` for a width outside 9..16 (R145, U2). -/
  | crcnWidth
  /-- Raised by `CRCN_CALC` before any accepted `CRCN_CONFIG` (R147, U11). -/
  | crcnUnconfigured
  /-- Raised by `DECODE_HEADER` on fewer than 3 bytes (R160, U12). -/
  | headerShort
  /-- Raised by `COMPUTE_CRC` and `IS_VALID` for a length outside 3..len (R161, U12). -/
  | lengthDomain
  /-- Raised by `UNPACK_CHANNELS` on fewer than `CH_BYTES` bytes (R165, U12). -/
  | payloadShort
  /-- Raised by `PACK_CHANNELS` for another number of values than `NUM_CH` (R166's operand domain). -/
  | channelCount
  /-- Raised by `ENCODE_EXT` for a payload above 58 bytes (R168, U4). -/
  | payloadTooLong
  /-- Raised by `SET_RX` while `txhw` is nonempty (R194, U5). -/
  | setRxBusy
  /-- Raised by `LINE_RX` and by a frame's arrival while `rx_connected = 0` (R214, U7). -/
  | receiveDetached
  /-- Raised by `ALIGN` for a start other than 0 or 1 (R201's operand domain). -/
  | alignStart
  /-- Raised by `HANDLE_FRAME` unless a CRC-valid frame of 4..64 bytes stands whole in the buffer (R205's domain). -/
  | frameDomain
  /-- Raised by `READ_CHANNEL` for `k >= NUM_CH` (R212, U12). -/
  | channelIndex
  /-- Raised by `SEND_TELEMETRY` on a buffer shorter than its own size byte says (R263, U12). -/
  | telemetryShort
deriving DecidableEq, Repr

/-! ### Reset (10_state R45, 70 R340) -/

/-- The reset values of the CRC engine; what R340 leaves unspecified is passed in. -/
def CrcState.atReset (cfg : Config) (tabBits : Nat) (tabPoly : Half) : CrcState where
  tab8 := crc8Table cfg.crc8Poly
  bits := 0
  poly := 0
  tabN := []
  tabBits := tabBits
  tabPoly := tabPoly
  tabValid := false

/-- The reset value of the assembly buffer: empty, nothing written. -/
def AsmBuffer.atReset : AsmBuffer := { buf := [], cursor := 0 }

/-- The reset value of the link state. -/
def LinkState.atReset : LinkState where
  connected := false
  tLastRx := 0
  tLastRc := 0
  rcSeen := false
  goodCnt := 0
  badCnt := 0
  wdtLastMs := 0

/-- The reset value of the baud state and the window budget. -/
def BaudState.atReset (cfg : Config) : BaudState where
  inverted := false
  phase := .init
  cur := BitVec.ofNat 32 cfg.probeBaud
  winBytes := windowBytes cfg cfg.probeBaud

/-- The reset value of the pulse-width timer; `pw_prev` takes the line level at reset release. -/
def PulseTimer.atReset (cfg : Config) (level : Bool) : PulseTimer where
  en := false
  edges := 0
  low := pwMax cfg
  high := pwMax cfg
  prev := level
  run := 0
  synced := false

/-- The reset value of the transmit side: empty queue, no partial frame, nothing staged. -/
def TxState.atReset : TxState where
  outq := []
  stage := []
  rem := 0
  off := 0
  transmitting := false

/-- The reset value of the sync-offset state. -/
def SyncState.atReset : SyncState where
  offset := 0
  window := 0
  tSent := 0
  force := false

/-- The reset value of the pins: as after `SET_RX 0`; on a full-duplex line the transmitter is connected too. -/
def Pins.atReset (cfg : Config) : Pins where
  dir := .input
  pull := .up
  level := .high
  rxConnected := true
  txConnected := !cfg.halfDuplex
  rxInvert := false
  txInvert := false
  mode := .rx

/-- The machine right after power-on with a configuration: every element at its reset value (R45), the line at its idle
level (high: R193), no event emitted, no command pending. The two table tags that R340 leaves unspecified are 0 here
(assumption log 6). -/
def State.resetOf (cfg : Config) : State where
  cfg := cfg
  crc := CrcState.atReset cfg 0 0
  asm := AsmBuffer.atReset
  chan := List.replicate cfg.numCh 0
  link := LinkState.atReset
  baud := BaudState.atReset cfg
  pw := PulseTimer.atReset cfg true
  tx := TxState.atReset
  sync := SyncState.atReset
  pins := Pins.atReset cfg
  line := { rxhw := [], txhw := [], level := true }
  clock := 0
  events := []
  hold := none
  env := { pending := [], slots := [], replies := [], drawn := 0 }

/-- The machine right after reset, with the default configuration of R9. -/
def State.reset : State := State.resetOf Config.default

end Sys2Proof.Machine
end

