-- ==== Sys2Proof/Machine/Ops.lean ====
section
/-! DEFINITION. The named operations over the state that every meaning is built from: how a rule stops, the store
primitives (20_memory R72 to R74), the queue primitives (R75), the outputs (00_scope R15, 42 R190), raising an error
(60 R310), free values (00_scope R12 `draw`), and what one operation returns. -/

namespace Sys2Proof.Machine

/-! ### Running a rule -/

/-- How a rule ends early: a fault or a refusal. -/
inductive Stop where
  | fault (f : Fault)
  | refused (r : Refusal)
deriving DecidableEq, Repr

/-- The result of running (part of) a rule. -/
abbrev Run (α : Type) := Except Stop α

/-- The outcome of a step. -/
abbrev Out := Host.Outcome State Fault Refusal

/-- One piece of a rule after another (R305 (a)): the first stop ends the whole. -/
def andThen {α β : Type} (x : Run α) (k : α → Run β) : Run β :=
  match x with
  | .ok a => k a
  | .error e => .error e

/-- The outcome of a rule that ran. -/
def finish : Run State → Out
  | .ok s => .next s
  | .error (.fault f) => .fault f
  | .error (.refused r) => .refused r

/-! ### Byte stores (R72 to R74) -/

/-- The byte an entry of the store holds at an offset, if one was written. -/
def readByte : Memory → Nat → Option Byte
  | [], _ => none
  | (a, b) :: m, x => if a = x then some b else readByte m x

/-- One byte written; the canonical form is kept. -/
def writeByte : Memory → Nat → Byte → Memory
  | [], x, v => [(x, v)]
  | (a, b) :: m, x, v =>
    if x < a then (x, v) :: (a, b) :: m
    else if x = a then (a, v) :: m
    else (a, b) :: writeByte m x v

/-- `n` bytes from an offset on. -/
def readBytes (m : Memory) : Nat → Nat → Run (List Byte)
  | _, 0 => .ok []
  | off, n + 1 =>
    match readByte m off with
    | none => .error (.fault .storeUnwritten)
    | some b => andThen (readBytes m (off + 1) n) fun bs => .ok (b :: bs)

/-- Bytes written from an offset on. -/
def writeBytes : Memory → Nat → List Byte → Memory
  | m, _, [] => m
  | m, off, b :: bs => writeBytes (writeByte m off b) (off + 1) bs

/-- R72 `MemRead(store, off, n)`: requires `off + n <= 64`; changes nothing. -/
def memRead (m : Memory) (off n : Nat) : Run (List Byte) :=
  if off + n ≤ storeSize then readBytes m off n else .error (.fault .storeRange)

/-- R73 `MemWrite(store, off, n, v)` with `n = len(v)`: requires `off + n <= 64`; every other byte is unchanged. -/
def memWrite (m : Memory) (off : Nat) (v : List Byte) : Run Memory :=
  if off + v.length ≤ storeSize then .ok (writeBytes m off v) else .error (.fault .storeRange)

/-- R74 `MemShiftLeft(store, i, n)`: the `n` bytes from `i` on move to offset 0, as through a temporary; bytes at offsets
`>= n` keep their content. Requires `i + n <= 64`. With `i = 0` or `n = 0` nothing changes. -/
def memShiftLeft (m : Memory) (i n : Nat) : Run Memory :=
  if i = 0 ∨ n = 0 then .ok m
  else andThen (memRead m i n) fun bs => memWrite m 0 bs

/-- One byte of a store (R72 with `n = 1`). -/
def memByte (m : Memory) (off : Nat) : Run Byte :=
  andThen (memRead m off 1) fun bs => .ok (bs.headD 0)

/-! ### Queues (R75) -/

/-- R75 `QFree()`. -/
def qFree (s : State) : Nat := s.cfg.outqCapacity - s.tx.outq.length

/-- R75 `QPush(bytes)`. -/
def qPush (bytes : List Byte) (s : State) : State := { s with tx := { s.tx with outq := s.tx.outq ++ bytes } }

/-- R75 `QFlush()`; the partial frame and `txhw` are not touched (R262). -/
def qFlush (s : State) : State := { s with tx := { s.tx with outq := [] } }

/-! ### Outputs -/

/-- R12 `emit`: one event appended to the output stream. -/
def emit (e : Event) (s : State) : State := { s with events := s.events ++ [e] }

/-- R310 `raise <Kind>(info)`: "appends one event ERR(code, info) to the event stream and execution continues with the
next line of the raising rule". This is the whole of taking an exception on this hardware: "No state is saved, no control
is transferred, no handler exists" (R310, R320), and there is nothing to return from (R321). -/
def raiseError (e : ErrorInfo) (s : State) : State := emit (.err e) s

/-- R120: an operation's result handed to its issuer. -/
def reply (r : Reply) (s : State) : State := { s with env := { s.env with replies := s.env.replies ++ [r] } }

/-- A rule with a result, as an operation: the result is returned to the issuer. -/
def finishWith {α : Type} (mk : α → Reply) (x : Run (State × α)) : Out :=
  finish (andThen x fun r => .ok (reply (mk r.2) r.1))

/-- R12 `draw(T)`: the state after one free value was drawn; the value is an opaque constant of `Config` applied to the
count of earlier draws. -/
def drawn (s : State) : State := { s with env := { s.env with drawn := s.env.drawn + 1 } }

/-! ### Pin writes (R190): every write of a pin element is also an event, in order -/

/-- `pin_dir <- d`. -/
def writePinDir (d : PinDir) (s : State) : State := emit (.pinDir d) { s with pins := { s.pins with dir := d } }

/-- `pin_pull <- p`. -/
def writePinPull (p : PinPull) (s : State) : State := emit (.pinPull p) { s with pins := { s.pins with pull := p } }

/-- `pin_level <- l`. -/
def writePinLevel (l : PinLevel) (s : State) : State := emit (.pinLevel l) { s with pins := { s.pins with level := l } }

/-- `rx_connected <- c`, `rx_invert <- v`. -/
def writeRxPath (c v : Bool) (s : State) : State :=
  emit (.rxPath c v) { s with pins := { s.pins with rxConnected := c, rxInvert := v } }

/-- `tx_connected <- c`, `tx_invert <- v`. -/
def writeTxPath (c v : Bool) (s : State) : State :=
  emit (.txPath c v) { s with pins := { s.pins with txConnected := c, txInvert := v } }

/-- `line_mode <- m`; no event (R190 lists none for it). -/
def writeLineMode (m : LineMode) (s : State) : State := { s with pins := { s.pins with mode := m } }

/-! ### Writes shared by several rules -/

/-- R26: a counter of `CNT_BITS` bits, one up; it wraps. -/
def countUp (cfg : Config) (n : Nat) : Nat := (n + 1) % 2 ^ cfg.cntBits

/-- R33 `transmitting <- v`. -/
def setTransmitting (v : Bool) (s : State) : State := { s with tx := { s.tx with transmitting := v } }

/-- R24 `asm_cursor <- n` with the buffer's new content. -/
def setAsm (buf : Memory) (cursor : Nat) (s : State) : State := { s with asm := { buf := buf, cursor := cursor } }

/-- R25 `chan[k] <- v`. -/
def setChan (k : Nat) (v : Chan) (s : State) : State := { s with chan := s.chan.set k v }

end Sys2Proof.Machine
end

