-- ==== Sys2Proof/Machine/Operands.lean ====
section
/-! DEFINITION. The forms of operand and payload the rules use: byte order (20_memory R76), the frame's header and fields
(30 R100 to R104, R114), addresses (R90, R106), the payload layouts (R107 to R112), and the version string (41 R170). -/

namespace Sys2Proof.Machine

/-! ### Byte order -/

/-- R11, R76 `be32(v)`: four bytes, most significant first. -/
def be32 (v : Word) : List Byte := [v.extractLsb' 24 8, v.extractLsb' 16 8, v.extractLsb' 8 8, v.extractLsb' 0 8]

/-- R11 `be32` of a natural, reduced modulo 2^32 (R122 (c)). -/
def be32Nat (v : Nat) : List Byte := be32 (BitVec.ofNat 32 v)

/-- R11 `twos_32(i)`: the 32-bit pattern of a signed integer. -/
def twos32 (i : Int) : Word := BitVec.ofInt 32 i

/-- R11 `sext_8`: a byte read as a signed number (the SNR fields of R108). -/
def sext8 (b : Byte) : Int := b.toInt

/-! ### Frames -/

/-- R201 `is_marker(b)`: a frame can start only here (R90). -/
def isMarker (cfg : Config) (b : Byte) : Bool := b == cfg.addrModule || b == syncByte

/-- R103, R164 `is_extended(type)`: the closed range 0x28..0x96. -/
def isExtended (type : Byte) : Bool := decide (typeExtFirst ≤ type) && decide (type ≤ typeExtLast)

/-- R102, R122 (b): `totalLen = size + 2`, a natural in 2..257, not reduced. -/
def totalLenOf (size : Byte) : Nat := size.toNat + 2

/-- R203: a legal total length. -/
def legalLen (n : Nat) : Bool := decide (minFrame ≤ n) && decide (n ≤ maxFrame)

/-- R104: the bytes the CRC covers, `frame[2 .. totalLen-2]`. -/
def crcCovered (frame : List Byte) (totalLen : Nat) : List Byte := (frame.take (totalLen - 1)).drop 2

/-- R104: the CRC byte, `frame[totalLen-1]`. -/
def crcByteOf (frame : List Byte) (totalLen : Nat) : Byte := frame.getD (totalLen - 1) 0

/-- R201: the position of the first marker of a byte sequence. -/
def firstMarker (cfg : Config) : List Byte → Option Nat
  | [] => none
  | b :: bs => if isMarker cfg b then some 0 else (firstMarker cfg bs).map (· + 1)

/-- R206: an RC-channels frame of this total length holds a whole channel payload. -/
def rcPayloadWhole (cfg : Config) (totalLen : Nat) : Bool := decide (chBytes cfg ≤ totalLen - 4)

/-! ### Payload layouts -/

/-- R108: the ten link-statistics fields, in the wire's order. The CORE carries them and interprets none. -/
structure LinkStats where
  uplinkRssi1 : Byte
  uplinkRssi2 : Byte
  uplinkLq : Byte
  uplinkSnr : Byte
  activeAntenna : Byte
  rfMode : Byte
  uplinkTxPower : Byte
  downlinkRssi : Byte
  downlinkLq : Byte
  downlinkSnr : Byte
deriving DecidableEq, Repr

/-- R108: the ten-byte payload. -/
def linkStatsPayload (l : LinkStats) : List Byte :=
  [l.uplinkRssi1, l.uplinkRssi2, l.uplinkLq, l.uplinkSnr, l.activeAntenna, l.rfMode, l.uplinkTxPower, l.downlinkRssi,
    l.downlinkLq, l.downlinkSnr]

/-- R169: the software version packed into 24 bits, each field clamped to 8 bits, a leading 0 normalised to 1.0.0. -/
def packVersion (major minor patch : Nat) : Nat :=
  let ma := min major 255
  let mi := min minor 255
  let pa := min patch 255
  if ma = 0 then 0x010000 else (ma <<< 16) ||| (mi <<< 8) ||| pa

/-- R170: the value of a decimal digit. -/
def digitOf (c : Char) : Option Nat :=
  if '0' ≤ c ∧ c ≤ '9' then some (c.toNat - '0'.toNat) else none

/-- R170: the version text read left to right; `fields` are the fields already ended (latest first), `cur` the one being
read. A `.` ends a field; the first other non-digit ends the parse. -/
def versionFields (fields : List Nat) (cur : Nat) : List Char → List Nat
  | [] => (cur :: fields).reverse
  | c :: cs =>
    match digitOf c with
    | some d => versionFields fields (cur * 10 + d) cs
    | none => if c = '.' then versionFields (cur :: fields) 0 cs else (cur :: fields).reverse

/-- R170: (major, minor, patch) of a version text; fields beyond the third are ignored, absent ones are 0. -/
def parseVersion (text : List Char) : Nat × Nat × Nat :=
  let f := versionFields [] 0 text
  (f.getD 0 0, f.getD 1 0, f.getD 2 0)

/-- R110: the device-info payload. -/
def devinfoPayload (cfg : Config) : List Byte :=
  cfg.deviceName ++ [0] ++ be32 cfg.serialNo ++ be32 cfg.hwVer
    ++ be32Nat (packVersion cfg.swMajor cfg.swMinor cfg.swPatch) ++ [cfg.paramCount, cfg.paramProtoVer]

/-- R112, R295, D26: the timing payload: subcommand, packet rate and offset in 100 ns units, big-endian. The rate is
`RC_INTERVAL_US * 10`, as R112 and D26 give it; R295's line has `SYNC_SCALE` for the 10 (assumption log 23). -/
def timingPayload (cfg : Config) (offset : Int) : List Byte :=
  [subcmdTiming] ++ be32Nat (cfg.rcIntervalUs * 10) ++ be32 (twos32 (offset - cfg.safetyMargin))

/-! ### Channels -/

/-- R165's inner loop: payload bytes join the rolling register until it holds 11 bits. -/
def fillRegister (acc n : Nat) : List Byte → Nat × Nat × List Byte
  | [] => (acc, n, [])
  | b :: bs => if n < chBits then fillRegister (acc ||| (b.toNat <<< n)) (n + 8) bs else (acc, n, b :: bs)

/-- R165's outer loop, for `k` channels more. -/
def unpackFrom : Nat → Nat → Nat → List Byte → List Chan
  | 0, _, _, _ => []
  | k + 1, acc, n, bs =>
    let r := fillRegister acc n bs
    BitVec.ofNat 11 r.1 :: unpackFrom k (r.1 >>> chBits) (r.2.1 - chBits) r.2.2

/-- R165 `UNPACK_CHANNELS`: `numCh` channels of a packed payload. -/
def unpackChannels (numCh : Nat) (payload : List Byte) : List Chan := unpackFrom numCh 0 0 payload

/-- R77: the payload's bit stream as one number, byte `i` weighing `2^(8i)`. -/
def payloadNat : List Byte → Nat
  | [] => 0
  | b :: bs => b.toNat + 256 * payloadNat bs

/-- R77, R165: channel `k` in closed form, `(S >> 11k) and 0x7FF`. -/
def channelAt (payload : List Byte) (k : Nat) : Chan := BitVec.ofNat 11 (payloadNat payload >>> (chBits * k))

/-- R166's inner loop: whole bytes leave the rolling register; `fuel` bounds their number. -/
def spillRegister : Nat → Nat → Nat → List Byte × Nat × Nat
  | 0, acc, n => ([], acc, n)
  | fuel + 1, acc, n =>
    if 8 ≤ n then
      let r := spillRegister fuel (acc >>> 8) (n - 8)
      (BitVec.ofNat 8 acc :: r.1, r.2)
    else ([], acc, n)

/-- R166's outer loop; the last byte's high bits are zero padding. -/
def packFrom (acc n : Nat) : List Nat → List Byte
  | [] => if 0 < n then [BitVec.ofNat 8 acc] else []
  | v :: vs =>
    let r := spillRegister (n + chBits) (acc ||| ((v % 2 ^ chBits) <<< n)) (n + chBits)
    r.1 ++ packFrom r.2.1 r.2.2 vs

/-- R166 `PACK_CHANNELS`. -/
def packChannels (v : List Nat) : List Byte := packFrom 0 0 v

end Sys2Proof.Machine
end

