-- ==== Sys2Proof/Machine/Flags.lean ====
section
/-! DEFINITION. Every condition the rules test (10_state R41, R302): the derived flag `tx_idle`, the clock differences and
the tests on them, the watchdog's trigger, the estimator's promotion, the collaborator's staleness gate. -/

namespace Sys2Proof.Machine

/-- R40 `tx_idle`: every byte handed over has left. -/
def txIdle (s : State) : Bool := s.line.txhw.isEmpty

/-- R14: the difference of two clock readings, modulo 2^32, unsigned. -/
def elapsed (now since : Word) : Nat := (now - since).toNat

/-- R14 `now_us = T mod 2^32`. -/
def nowUs (s : State) : Word := BitVec.ofNat 32 s.clock

/-- R14 `now_ms = floor(T / 1000) mod 2^32`. -/
def nowMs (s : State) : Word := BitVec.ofNat 32 (s.clock / 1000)

/-- R240 step 1: the watchdog interval has run out. -/
def wdtDue (now : Word) (s : State) : Bool := decide (s.cfg.wdtIntervalMs ≤ elapsed now s.link.wdtLastMs)

/-- R241: at least as many bad frames as good ones, or no link. -/
def wdtTriggers (s : State) : Bool := decide (s.link.goodCnt ≤ s.link.badCnt) || !s.link.connected

/-- R234: enough edges have been captured in the open window. -/
def enoughEdges (s : State) : Bool := s.baud.phase == .init && s.pw.en && decide (s.cfg.edgeMin ≤ s.pw.edges)

/-- R294: a timing frame may be built now. -/
def syncDue (now : Word) (s : State) : Bool :=
  s.link.connected && (s.sync.force || decide (syncPeriodMs ≤ elapsed now s.sync.tSent))

/-- R291: the sample: microseconds since the last CRC-valid frame. -/
def syncGap (now : Word) (s : State) : Nat := elapsed now s.link.tLastRx

/-- R213: the collaborator's gate: an RC frame has arrived and the last is more than a second old. -/
def rcStale (now : Word) (s : State) : Bool :=
  s.link.rcSeen && decide (rcStaleUs < elapsed now s.link.tLastRc)

/-- R264: something is left to send. -/
def hasOutput (s : State) : Bool := decide (0 < s.tx.rem) || !s.tx.outq.isEmpty

end Sys2Proof.Machine
end

