-- ==== Sys2Proof/Machine/Duplex.lean ====
section
/-! DEFINITION. The duplex controller (42_duplex): line direction and polarity. -/

namespace Sys2Proof.Machine

/-- R193: the pull that holds the idle level in receive mode. -/
def idlePull (inv : Bool) : PinPull := if inv then .down else .up

/-- R193: the idle level driven in transmit mode. -/
def idleLevel (inv : Bool) : PinLevel := if inv then .low else .high

/-- R191: let go of the line, make it an input with the idle pull, reconnect the receive path. -/
def setReceive (inv : Bool) (s : State) : State :=
  writeLineMode .rx (writeRxPath true inv (writePinPull (idlePull inv) (writePinDir .input
    (writeTxPath false s.pins.txInvert s))))

/-- R192: break the receive path first, drive the idle level before switching to output, connect the transmit path. -/
def setTransmit (inv : Bool) (s : State) : State :=
  writeLineMode .tx (writeTxPath true inv (writePinDir .output (writePinPull .none (writePinLevel (idleLevel inv)
    (writeRxPath false s.pins.rxInvert s)))))

/-- A full-duplex line takes up the polarity `inv`: both inversion flags follow it (R243 step 5), and so does the pull (the
full-duplex row of R196; R193), while both paths stay as connected as they are (R195). Each write is an event, in this order
(R190). R243's lines show neither the pull nor the events: assumption log 22. -/
def followPolarity (inv : Bool) (s : State) : State :=
  writeTxPath s.pins.txConnected inv (writeRxPath s.pins.rxConnected inv (writePinPull (idlePull inv) s))

/-- R191 `SET_RX`; refused while bytes are still leaving (R194, U5). -/
def execSetRx (inv : Bool) (s : State) : Out :=
  if txIdle s then .next (setReceive inv s) else .refused .setRxBusy

/-- R192 `SET_TX`. -/
def execSetTx (inv : Bool) (s : State) : Out := .next (setTransmit inv s)

end Sys2Proof.Machine
end

