-- ==== Sys2Proof/Machine/Collab.lean ====
section
/-! DEFINITION. The collaborator's reads (43 R212, R213): `READ_CHANNEL`, `GET_LAST_RC_TS`. -/

namespace Sys2Proof.Machine

/-- R212 `READ_CHANNEL`: one atomic read of one element. -/
def execReadChannel (k : Nat) (s : State) : Out :=
  if k < s.cfg.numCh then .next (reply (.channel (s.chan.getD k 0)) s) else .refused .channelIndex

/-- R213 `GET_LAST_RC_TS`. -/
def execGetLastRcTs (s : State) : Out := .next (reply (.rcTimestamp s.link.tLastRc s.link.rcSeen) s)

end Sys2Proof.Machine
end

