-- ==== Sys2Proof/Machine/Line.lean ====
section
/-! DEFINITION. The agents at the line: the line receiver `LINE_RX` (43 R214), the transmit serializer `TX_DRAIN`
(45 R268), and the pulse-width timer `PW_TICK`, `PW_ENABLE` (44 R231, R232). -/

namespace Sys2Proof.Machine

/-- R214: bytes arrive at the tail of `rxhw`. -/
def receiveBytes (bs : List Byte) (s : State) : State := { s with line := { s.line with rxhw := s.line.rxhw ++ bs } }

/-- R214 `LINE_RX`: admitted only while the receive path is connected (U7). -/
def execLineRx (b : Byte) (s : State) : Out :=
  if s.pins.rxConnected then .next (receiveBytes [b] s) else .refused .receiveDetached

/-- R268: one byte leaves on the line; nothing when none waits. -/
def txDrain (s : State) : State :=
  match s.line.txhw with
  | [] => s
  | b :: rest => emit (.lineTx b) { s with line := { s.line with txhw := rest } }

/-- R268 `TX_DRAIN`. -/
def execTxDrain (s : State) : Out := .next (txDrain s)

/-- R123 `TX_DRAIN*`: the serializer steps until `txhw` is empty. -/
def txDrainAll (s : State) : State := times txDrain s.line.txhw.length s

/-- R232, on an edge: the run that just ended was a whole pulse only if an edge had been seen before. -/
def pwEdge (mx : Nat) (level : Bool) (p : PulseTimer) : PulseTimer where
  en := p.en
  edges := min (p.edges + 1) mx
  low := if p.synced && !p.prev then min p.low p.run else p.low
  high := if p.synced && p.prev then min p.high p.run else p.high
  prev := level
  run := 1
  synced := true

/-- R232: one tick of the timer. -/
def pwStep (mx : Nat) (level : Bool) (p : PulseTimer) : PulseTimer :=
  if p.en then
    if level = p.prev then { p with run := min (p.run + 1) mx } else pwEdge mx level p
  else { p with prev := level }

/-- R232 `PW_TICK`: the line has this level at this tick. -/
def execPwTick (level : Bool) (s : State) : Out :=
  .next { s with line := { s.line with level := level }, pw := pwStep (pwMax s.cfg) level s.pw }

/-- R231: open the measurement window, unless it is open. -/
def pwEnable (s : State) : State :=
  if s.pw.en then s
  else { s with pw := {
    en := true, edges := 0, low := pwMax s.cfg, high := pwMax s.cfg, prev := s.pw.prev, run := 0, synced := false } }

/-- R231 `PW_ENABLE`. -/
def execPwEnable (s : State) : Out := .next (pwEnable s)

end Sys2Proof.Machine
end

