-- ==== Sys2Proof/Machine/Crc.lean ====
section
/-! DEFINITION. The CRC engine's operations (40_crc): `CRC8_BYTE`, `CRC8_BUF`, `CRCN_CONFIG`, `CRCN_CALC`. -/

namespace Sys2Proof.Machine

/-- R142: the 8-bit CRC of a byte sequence, through the state's table. -/
def crc8 (s : State) (seed : Byte) (buf : List Byte) : Byte := crc8Fold s.crc.tab8 seed buf

/-- R141 `CRC8_BYTE`. -/
def execCrc8Byte (b : Byte) (s : State) : Out := .next (reply (.byte (tabAt s.crc.tab8 b)) s)

/-- R142 `CRC8_BUF`. -/
def execCrc8Buf (buf : List Byte) (seed : Byte) (s : State) : Out := .next (reply (.byte (crc8 s seed buf)) s)

/-- R145 `CRCN_CONFIG`: the pair is recorded; the table is not rebuilt here. -/
def execCrcnConfig (bits : Nat) (poly : Half) (s : State) : Out :=
  if bits < crcnMin ∨ crcnMax < bits then .refused .crcnWidth
  else .next { s with crc := { s.crc with bits := bits, poly := poly } }

/-- R146: the table does not belong to the configured pair. -/
def crcnStale (c : CrcState) : Bool := !c.tabValid || c.tabBits != c.bits || c.tabPoly != c.poly

/-- R146: the lazy rebuild. -/
def crcnRebuild (s : State) : State :=
  if crcnStale s.crc then
    { s with crc := { s.crc with
        tabN := crcnTable s.crc.bits s.crc.poly, tabBits := s.crc.bits, tabPoly := s.crc.poly, tabValid := true } }
  else s

/-- R150: the polynomial has no bit left after masking. -/
def crcnPolyZero (s : State) : Bool := s.crc.poly &&& maskN s.crc.bits == 0

/-- R147 `CRCN_CALC`: the rebuild first (R146, also under a zero polynomial: assumption log 24), then the fold; under a zero
polynomial the result is a free value below `2^N` (R150, U1). -/
def execCrcnCalc (buf : List Byte) (seed : Half) (s : State) : Out :=
  if s.crc.bits < crcnMin ∨ crcnMax < s.crc.bits then .refused .crcnUnconfigured
  else
    let t := crcnRebuild s
    if crcnPolyZero t then
      .next (reply (.crcn (Config.freeCrc t.env.drawn &&& maskN t.crc.bits)) (drawn t))
    else .next (reply (.crcn (crcnFold t.crc.tabN t.crc.bits seed buf)) t)

end Sys2Proof.Machine
end

