-- ==== Sys2Proof/Machine/Codec.lean ====
section
/-! DEFINITION. The frame codec (41_frame_codec): header decode, CRC check, channel packing, the encoders. All pure: an
operation of this family changes nothing but the values returned. -/

namespace Sys2Proof.Machine

/-- R160 `DECODE_HEADER`: the first three bytes, nothing checked. -/
def execDecodeHeader (buf : List Byte) (s : State) : Out :=
  match buf with
  | a :: z :: t :: _ => .next (reply (.header a z t) s)
  | _ => .refused .headerShort

/-- R161: the CRC of a frame of total length `totalLen`, whatever its size byte says. -/
def frameCrc (s : State) (buf : List Byte) (totalLen : Nat) : Byte := crc8 s s.cfg.crc8Seed (crcCovered buf totalLen)

/-- R162: the CRC byte is the CRC of the covered bytes. -/
def frameValid (s : State) (buf : List Byte) (totalLen : Nat) : Bool :=
  frameCrc s buf totalLen == crcByteOf buf totalLen

/-- R161: the operand domain of `COMPUTE_CRC` and `IS_VALID`. -/
def lengthInDomain (buf : List Byte) (totalLen : Nat) : Bool := decide (3 ≤ totalLen) && decide (totalLen ≤ buf.length)

/-- R161 `COMPUTE_CRC`. -/
def execComputeCrc (buf : List Byte) (totalLen : Nat) (s : State) : Out :=
  if lengthInDomain buf totalLen then .next (reply (.byte (frameCrc s buf totalLen)) s) else .refused .lengthDomain

/-- R162 `IS_VALID`: a false result is a value, not an error. -/
def execIsValid (buf : List Byte) (totalLen : Nat) (s : State) : Out :=
  if lengthInDomain buf totalLen then .next (reply (.flag (frameValid s buf totalLen)) s) else .refused .lengthDomain

/-- R165 `UNPACK_CHANNELS`: bytes beyond `CH_BYTES` are ignored. -/
def execUnpackChannels (payload : List Byte) (s : State) : Out :=
  if payload.length < chBytes s.cfg then .refused .payloadShort
  else .next (reply (.channels (unpackChannels s.cfg.numCh payload)) s)

/-- R166 `PACK_CHANNELS`: exactly `NUM_CH` values. -/
def execPackChannels (v : List Nat) (s : State) : Out :=
  if v.length = s.cfg.numCh then .next (reply (.bytes (packChannels v)) s) else .refused .channelCount

/-- R168: header, addressing pair, payload, CRC of the bytes from the type on. The leading byte is the destination. -/
def extFrame (s : State) (type dest orig : Byte) (payload : List Byte) : List Byte :=
  let body := [type, dest, orig] ++ payload
  [dest, BitVec.ofNat 8 (payload.length + 4)] ++ body ++ [crc8 s s.cfg.crc8Seed body]

/-- R168: the encoder, on its domain. -/
def encodeExt (type dest orig : Byte) (payload : List Byte) (s : State) : Run (List Byte) :=
  if 58 < payload.length then .error (.refused .payloadTooLong) else .ok (extFrame s type dest orig payload)

/-- R168 `ENCODE_EXT`. -/
def execEncodeExt (type dest orig : Byte) (payload : List Byte) (s : State) : Out :=
  finish (andThen (encodeExt type dest orig payload s) fun f => .ok (reply (.bytes f) s))

/-- R171: the device-info frame, to the handset from this device. -/
def encodeDevinfo (s : State) : Run (List Byte) :=
  encodeExt typeDeviceInfo s.cfg.addrRadio s.cfg.addrModule (devinfoPayload s.cfg) s

/-- R171 `ENCODE_DEVINFO`. -/
def execEncodeDevinfo (s : State) : Out := finish (andThen (encodeDevinfo s) fun f => .ok (reply (.bytes f) s))

/-- R169 `PACK_VERSION`. -/
def execPackVersion (major minor patch : Nat) (s : State) : Out :=
  .next (reply (.version (packVersion major minor patch)) s)

end Sys2Proof.Machine
end

