-- ==== Sys2Proof/Machine/Queue.lean ====
section
/-! DEFINITION. The output queue's operations (45_scheduler): `ENQUEUE`, `FLUSH_QUEUE`, `SEND_TELEMETRY`. Each is one
atomic step (R271). -/

namespace Sys2Proof.Machine

/-- R113: the record of a frame: its length byte, then the frame. -/
def record (frame : List Byte) : List Byte := BitVec.ofNat 8 frame.length :: frame

/-- R261: the queue takes this frame. -/
def queueAccepts (frame : List Byte) (s : State) : Bool :=
  decide (1 ≤ frame.length) && decide (frame.length ≤ maxFrame) && decide (1 + frame.length ≤ qFree s)

/-- R261: the whole record or nothing; a frame without room, or of a length no record carries, raises QueueFullError. -/
def enqueue (frame : List Byte) (s : State) : State :=
  if queueAccepts frame s then qPush (record frame) s else raiseError (.queueFull frame.length) s

/-- R261 `ENQUEUE`. -/
def execEnqueue (frame : List Byte) (s : State) : Out :=
  .next (reply (.accepted (queueAccepts frame s)) (enqueue frame s))

/-- R262 `FLUSH_QUEUE`. -/
def execFlushQueue (s : State) : Out := .next (qFlush s)

/-- R263: the frame a telemetry buffer begins with: `buffer[0 .. buffer[1] + 1]`. -/
def telemetryFrame (buffer : List Byte) : Option (List Byte) :=
  match buffer with
  | _ :: z :: _ => if totalLenOf z ≤ buffer.length then some (buffer.take (totalLenOf z)) else none
  | _ => none

/-- R263 `SEND_TELEMETRY`. -/
def execSendTelemetry (buffer : List Byte) (s : State) : Out :=
  match telemetryFrame buffer with
  | some f => .next (reply (.accepted (queueAccepts f s)) (enqueue f s))
  | none => .refused .telemetryShort

end Sys2Proof.Machine
end

