-- ==== Sys2Proof/Machine/Sync.lean ====
section
/-! DEFINITION. The mixer sync estimator (46_sync): `NOTIFY_TX` in the callback context, `SYNC_EMIT` in the polling
context. The callback is one atomic step: it saves nothing, and the interrupted agent goes on at its next step (60 R320,
R321). -/

namespace Sys2Proof.Machine

/-- R292: a missed or late cycle. -/
def syncLate (cfg : Config) (gap : Nat) (y : SyncState) : SyncState where
  offset := -(((gap % cfg.rcIntervalUs) * cfg.syncScale : Nat) : Int)
  window := 0
  tSent := y.tSent
  force := true

/-- R293: an on-time cycle; the window is grown first, and its new size divides (truncating toward zero). -/
def syncOnTime (cfg : Config) (gap : Nat) (y : SyncState) : SyncState :=
  let w := min (y.window + 1) cfg.syncWindowMax
  { y with
    window := w
    offset := Int.tdiv (y.offset * ((w : Int) - 1) + ((gap * cfg.syncScale : Nat) : Int)) (w : Int) }

/-- R291: late when the gap exceeds the expected interval, strictly. -/
def syncSample (cfg : Config) (gap : Nat) (y : SyncState) : SyncState :=
  if cfg.rcIntervalUs < gap then syncLate cfg gap y else syncOnTime cfg gap y

/-- R291 `NOTIFY_TX`. -/
def execNotifyTx (now : Word) (s : State) : Out := .next { s with sync := syncSample s.cfg (syncGap now s) s.sync }

/-- R295: the timing-correction frame. -/
def timingFrame (s : State) : List Byte :=
  extFrame s typeHandset s.cfg.addrRadio s.cfg.addrModule (timingPayload s.cfg s.sync.offset)

/-- R294: build and queue a timing frame, when one is due; the rate limit restarts whether or not the queue took it. -/
def syncEmit (now : Word) (s : State) : State :=
  if syncDue now s then
    let t := enqueue (timingFrame s) s
    { t with sync := { t.sync with tSent := now, force := false } }
  else s

/-- R294 `SYNC_EMIT`: returns whether a frame was queued. -/
def execSyncEmit (now : Word) (s : State) : Out :=
  .next (reply (.queued (syncDue now s && queueAccepts (timingFrame s) s)) (syncEmit now s))

end Sys2Proof.Machine
end

