-- ==== Sys2Proof/Machine/Interleave.lean ====
section
/-! DEFINITION. Interleave points (00_scope R13, 20_memory R85): between the atomic steps of a composite operation the
callback, the line receiver, the serializer, the pulse-width timer and the collaborator may step. Which of them do, and in
what order, is the environment's choice; the command carries it as data, one list of operations for each point in turn.
An operation that the model refuses at a point does not happen (U7: "the environment does not deliver it"), and a
polling-loop operation never falls at one (R13: "its operations never interleave with each other"). Neither does `RESET`:
R13 and D4 do not list the environment's reset among what may step at a point, and the model reads R340's "at any time" as
between any two operations (assumption log 3). -/

namespace Sys2Proof.Machine

/-- Operations of the callback, the line agents and the collaborator: they may fall at an interleave point. -/
def asynchronous : Instr → Bool
  | .lineRx _ | .txDrain | .pwTick _ | .crc8Byte _ | .crc8Buf _ _ | .crcnConfig _ _ | .crcnCalc _ _ | .decodeHeader _
  | .computeCrc _ _ | .isValid _ _ | .unpackChannels _ | .packChannels _ | .encodeExt _ _ _ _ | .encodeDevinfo
  | .packVersion _ _ _ | .readChannel _ | .getLastRcTs | .enqueue _ | .sendTelemetry _ | .notifyTx _ => true
  | .reset | .setRx _ | .setTx _ | .pollRx _ _ | .align _ | .handleFrame _ _ _ | .wdtCheck _ | .autobaudEstimate
  | .pwEnable | .flushQueue | .serviceOutput _ _ | .syncEmit _ | .frameLinkStats _ _ _ _ | .frameRcChannels _ _ _ _
  | .framePing _ _ _ _ _ _ | .frameDeviceInfo _ _ _ _ _ _ | .frameCommand _ _ _ _ _ _ | .frameTiming _ _ _ _ _ _ => false

/-- The state an operation leaves; unchanged where the operation has no transition. -/
def afterOr (s : State) : Out → State
  | .next t => t
  | .fault _ => s
  | .refused _ => s

/-- One operation of another agent, at an interleave point; any other operation placed there is passed over. -/
def asyncOp (i : Instr) (s : State) : State :=
  match i with
  | .lineRx b => afterOr s (execLineRx b s)
  | .txDrain => afterOr s (execTxDrain s)
  | .pwTick l => afterOr s (execPwTick l s)
  | .crc8Byte b => afterOr s (execCrc8Byte b s)
  | .crc8Buf b x => afterOr s (execCrc8Buf b x s)
  | .crcnConfig n p => afterOr s (execCrcnConfig n p s)
  | .crcnCalc b x => afterOr s (execCrcnCalc b x s)
  | .decodeHeader b => afterOr s (execDecodeHeader b s)
  | .computeCrc b n => afterOr s (execComputeCrc b n s)
  | .isValid b n => afterOr s (execIsValid b n s)
  | .unpackChannels p => afterOr s (execUnpackChannels p s)
  | .packChannels v => afterOr s (execPackChannels v s)
  | .encodeExt t d o p => afterOr s (execEncodeExt t d o p s)
  | .encodeDevinfo => afterOr s (execEncodeDevinfo s)
  | .packVersion a b c => afterOr s (execPackVersion a b c s)
  | .readChannel k => afterOr s (execReadChannel k s)
  | .getLastRcTs => afterOr s (execGetLastRcTs s)
  | .enqueue f => afterOr s (execEnqueue f s)
  | .sendTelemetry b => afterOr s (execSendTelemetry b s)
  | .notifyTx u => afterOr s (execNotifyTx u s)
  | .reset | .setRx _ | .setTx _ | .pollRx _ _ | .align _ | .handleFrame _ _ _ | .wdtCheck _ | .autobaudEstimate
  | .pwEnable | .flushQueue | .serviceOutput _ _ | .syncEmit _ | .frameLinkStats _ _ _ _ | .frameRcChannels _ _ _ _
  | .framePing _ _ _ _ _ _ | .frameDeviceInfo _ _ _ _ _ _ | .frameCommand _ _ _ _ _ _ | .frameTiming _ _ _ _ _ _ => s

/-- The operations of the other agents at one point, in order. -/
def asyncOps : List Instr → State → State
  | [], s => s
  | i :: is, s => asyncOps is (asyncOp i s)

/-- R13 `-- interleave point --`: the next list of the command's choice is carried out; nothing when none is left. -/
def interleave (s : State) : State :=
  match s.env.slots with
  | [] => s
  | ops :: rest => asyncOps ops { s with env := { s.env with slots := rest } }

end Sys2Proof.Machine
end

