-- ==== Sys2Proof/Machine/Scheduler.lean ====
section
/-! DEFINITION. The outbound scheduler's service (45_scheduler R264 to R266): `SERVICE_OUTPUT`. -/

namespace Sys2Proof.Machine

/-- R265: the budget of one call. Half-duplex: the window's remaining room, at most a frame, at least 10; full-duplex: the
fixed constant. -/
def budgetOf (received : Nat) (s : State) : Nat :=
  if s.cfg.halfDuplex then max (min (s.baud.winBytes - received) maxFrame) budgetMin else s.cfg.telemFifoSize

/-- R265: transmit mode is engaged once, at the start of a burst, on a half-duplex line. -/
def engageTransmit (s : State) : State :=
  if s.cfg.halfDuplex && !s.tx.transmitting then setTransmitting true (setTransmit s.baud.inverted s) else s

/-- R266, R75: one record popped into the staging register: one atomic step. -/
def popRecord (s : State) : Run State :=
  match s.tx.outq with
  | [] => .error (.fault .queueRecord)
  | l :: rest =>
    if l.toNat = 0 ∨ rest.length < l.toNat then .error (.fault .queueRecord)
    else andThen (memWrite s.tx.stage 0 (rest.take l.toNat)) fun stage =>
      .ok { s with tx := { s.tx with outq := rest.drop l.toNat, stage := stage, rem := l.toNat, off := 0 } }

/-- R266: a record is popped only when no partial frame is left. -/
def popIfIdle (s : State) : Run State :=
  if s.tx.rem = 0 then andThen (popRecord s) fun t => .ok (interleave t) else .ok s

/-- R266: `w` staged bytes handed to the transmitter: one atomic step. -/
def handOver (bytes : List Byte) (s : State) : State :=
  { s with
    line := { s.line with txhw := s.line.txhw ++ bytes }
    tx := { s.tx with off := s.tx.off + bytes.length, rem := s.tx.rem - bytes.length } }

/-- R266: the drain loop. Each turn hands over at least one byte, so `fuel`, the budget, bounds the turns (R305 (d)).
Answers the bytes handed over. -/
def drain : Nat → Nat → State → Run (State × List Byte)
  | 0, _, s => .ok (s, [])
  | fuel + 1, budget, s =>
    andThen (popIfIdle s) fun s =>
    andThen (memRead s.tx.stage s.tx.off (min s.tx.rem budget)) fun bytes =>
      let s := interleave (handOver bytes s)
      let left := budget - bytes.length
      if left = 0 ∨ s.tx.outq.isEmpty then .ok (s, bytes)
      else andThen (drain fuel left s) fun r => .ok (r.1, bytes ++ r.2)

/-- R264: flush when not connected; a timing frame when idle; then the budget and the drain, when there is something to
send. Answers the bytes appended to `txhw`. -/
def serviceOutput (received : Nat) (now : Word) (s : State) : Run (State × List Byte) :=
  if !s.link.connected then .ok (qFlush s, [])
  else
    let s := interleave (if hasOutput s then s else syncEmit now s)
    if hasOutput s then drain (budgetOf received s) (budgetOf received s) (interleave (engageTransmit s))
    else .ok (s, [])

/-- R264 `SERVICE_OUTPUT`. -/
def execServiceOutput (received : Nat) (now : Word) (s : State) : Out :=
  finishWith .bytes (serviceOutput received now s)

end Sys2Proof.Machine
end

