-- ==== Sys2Proof/Machine/Assembly.lean ====
section
/-! DEFINITION. Byte assembly, frame boundaries and frame handling (43_assembly): `ALIGN`, `POLL_RX`, `HANDLE_FRAME`. -/

namespace Sys2Proof.Machine

/-- R200 `RX_FILL`: as many available bytes as fit, oldest first. -/
def rxFill (s : State) : Run State :=
  let n := min s.line.rxhw.length (maxFrame - s.asm.cursor)
  andThen (memWrite s.asm.buf s.asm.cursor (s.line.rxhw.take n)) fun buf =>
    .ok { setAsm buf (s.asm.cursor + n) s with line := { s.line with rxhw := s.line.rxhw.drop n } }

/-- R201, R204: the first `i` buffered bytes are dropped and the rest moved to the front. -/
def dropFront (i : Nat) (s : State) : Run State :=
  andThen (memShiftLeft s.asm.buf i (s.asm.cursor - i)) fun buf => .ok (setAsm buf (s.asm.cursor - i) s)

/-- R201 `ALIGN start`: the least marker at or after `start` becomes the first byte; without one the buffer is emptied. -/
def alignFrom (start : Nat) (s : State) : Run State :=
  andThen (memRead s.asm.buf start (s.asm.cursor - start)) fun bs =>
    match firstMarker s.cfg bs with
    | some j => dropFront (start + j) s
    | none => .ok (setAsm s.asm.buf 0 s)

/-- R201 `ALIGN`: `start` is 0 or 1. -/
def execAlign (start : Nat) (s : State) : Out :=
  if 1 < start then .refused .alignStart else finish (alignFrom start s)

/-- R206: the channel values written in ascending order, each write a step of its own with an interleave point before
it (20_memory R81). -/
def writeChannels : Nat → List Chan → State → State
  | _, [], s => s
  | k, v :: vs, s => writeChannels (k + 1) vs (setChan k v (interleave s))

/-- R206, U3: a short payload leaves each of the `n` channels from `k` on unspecified: a free value each. -/
def drawChannels : Nat → Nat → State → State
  | 0, _, s => s
  | n + 1, k, s =>
    let t := interleave s
    drawChannels n (k + 1) (setChan k (Config.freeChannel t.env.drawn) (drawn t))

/-- R206: `t_last_rc` and `rc_seen`. -/
def stampRc (now : Word) (s : State) : State := { s with link := { s.link with tLastRc := now, rcSeen := true } }

/-- R206: the channels of an RC-channels frame. -/
def updateChannels (totalLen : Nat) (s : State) : Run State :=
  if rcPayloadWhole s.cfg totalLen then
    andThen (memRead s.asm.buf 3 (chBytes s.cfg)) fun p => .ok (writeChannels 0 (unpackChannels s.cfg.numCh p) s)
  else .ok (drawChannels s.cfg.numCh 0 s)

/-- R206: an RC-channels frame. -/
def handleRc (totalLen : Nat) (us ms : Word) (s : State) : Run State :=
  andThen (updateChannels totalLen (stampRc us s)) fun s =>
  andThen (serviceOutput totalLen ms (emit .rcData (interleave s))) fun r => .ok r.1

/-- R207: a device ping to this device is answered by queuing a device-info frame. -/
def handlePing (totalLen : Nat) (s : State) : Run State :=
  if totalLen < 6 then .ok s
  else andThen (memByte s.asm.buf 3) fun dest =>
    if dest = s.cfg.addrModule then andThen (encodeDevinfo s) fun f => .ok (enqueue f s) else .ok s

/-- R208: what a command frame for this device with subcommand 0x10 does, from its further subcommand. -/
def commandEvent (totalLen : Nat) (further : Byte) (s : State) : Run State :=
  if further = subcmdRxModelSelect ∧ 9 ≤ totalLen then
    andThen (memByte s.asm.buf 7) fun index => .ok (emit (.modelSelect index) s)
  else if further = subcmdRxBind ∧ s.cfg.bindDispatch = true then .ok (emit .bind s)
  else .ok s

/-- R208: a command frame. -/
def handleCommand (totalLen : Nat) (s : State) : Run State :=
  if totalLen < 8 then .ok s
  else andThen (memByte s.asm.buf 3) fun dest =>
    andThen (memByte s.asm.buf 5) fun sub =>
    andThen (memByte s.asm.buf 6) fun further =>
    if dest = s.cfg.addrModule ∧ sub = subcmdRx then commandEvent totalLen further s else .ok s

/-- R205: every CRC-valid frame stamps `t_last_rx`, and raises the link if it was down. -/
def markReceived (now : Word) (s : State) : State :=
  let t := { s with link := { s.link with tLastRx := now, connected := true } }
  if s.link.connected then t else emit .connected t

/-- R205: dispatch on the type byte; every other type does nothing more (R209). -/
def dispatchFrame (type : Byte) (totalLen : Nat) (us ms : Word) (s : State) : Run State :=
  if type = typeRcChannels then handleRc totalLen us ms s
  else if type = typeDevicePing then handlePing totalLen s
  else if type = typeCommand then handleCommand totalLen s
  else .ok s

/-- R205: the frame `asm_buf[0 .. totalLen-1]` is handled. -/
def handleFrame (totalLen : Nat) (us ms : Word) (s : State) : Run State :=
  let s := interleave (markReceived us s)
  andThen (memByte s.asm.buf 2) fun type => dispatchFrame type totalLen us ms s

/-- R205's operand domain: a CRC-valid frame of 4..64 bytes stands whole in the buffer. -/
def execHandleFrame (totalLen : Nat) (us ms : Word) (s : State) : Out :=
  if legalLen totalLen && decide (totalLen ≤ s.asm.cursor) then
    finish (andThen (memRead s.asm.buf 0 totalLen) fun f =>
      if frameValid s f totalLen then handleFrame totalLen us ms s else .error (.refused .frameDomain))
  else .refused .frameDomain

/-- R203: `good_cnt` one up, wrapping. -/
def countGood (s : State) : State := { s with link := { s.link with goodCnt := countUp s.cfg s.link.goodCnt } }

/-- R203: `bad_cnt` one up, wrapping. -/
def countBad (s : State) : State := { s with link := { s.link with badCnt := countUp s.cfg s.link.badCnt } }

/-- R203, R204: a complete frame: counted, handled when valid, reported when not, and removed either way. -/
def takeFrame (totalLen : Nat) (us ms : Word) (s : State) : Run (State × PollOutcome) :=
  andThen (memRead s.asm.buf 0 totalLen) fun f =>
    if frameValid s f totalLen then
      andThen (handleFrame totalLen us ms (countGood s)) fun s =>
      andThen (dropFront totalLen s) fun s => .ok (s, .good)
    else
      andThen (dropFront totalLen (raiseError (.crc (f.getD 2 0) totalLen) (countBad s))) fun s => .ok (s, .bad)

/-- R203: the extraction decision. -/
def extract (us ms : Word) (s : State) : Run (State × PollOutcome) :=
  andThen (memByte s.asm.buf 0) fun marker =>
  andThen (memByte s.asm.buf 1) fun size =>
    let totalLen := totalLenOf size
    if !legalLen totalLen then
      andThen (alignFrom 1 (raiseError (.framing marker size) s)) fun s => .ok (s, .rejectLen)
    else if s.asm.cursor < totalLen then .ok (s, .waitBody)
    else takeFrame totalLen us ms s

/-- R202 step 1: a transmit burst is over. -/
def endBurst (s : State) : State :=
  if s.cfg.halfDuplex && s.tx.transmitting then setTransmitting false (setReceive s.baud.inverted s) else s

/-- R202: one receive poll. -/
def pollRx (us ms : Word) (s : State) : Run (State × PollOutcome) :=
  if s.cfg.halfDuplex && s.tx.transmitting && !txIdle s then .ok (s, .holdTx)
  else
    andThen (rxFill (interleave (endBurst s))) fun s =>
    andThen (alignFrom 0 (interleave s)) fun s =>
    if s.asm.cursor < 3 then .ok (s, .waitHdr) else extract us ms s

/-- R202 `POLL_RX`. -/
def execPollRx (us ms : Word) (s : State) : Out := finishWith .poll (pollRx us ms s)

end Sys2Proof.Machine
end

