-- ==== Sys2Proof/Machine/Frames.lean ====
section
/-! DEFINITION. The wire-frame rows of the opcode table (30 R105, R107 to R112). A frame is not an operation (R120): it is
what arrives on the line. Its meaning is its arrival, `LINE_RX*` of its bytes (R123, R214), and the poll that takes it
(R202) with the readings of the clock at that moment (R14), in which the CORE does what R105 lists for the type
(assumption log 11). -/

namespace Sys2Proof.Machine

/-- Bytes arrive on the line together and are polled for. What the CORE makes of them is `POLL_RX`'s business: a frame of
whatever type and length, or none (R115: "None of them traps"). While the receive path is detached the environment does not
deliver them (R214, U7). -/
def arrive (bytes : List Byte) (s : State) : Out :=
  if s.pins.rxConnected then execPollRx (nowUs s) (nowMs s) (receiveBytes bytes s) else .refused .receiveDetached

/-- R108: a link-statistics frame: counted, otherwise ignored (R209). -/
def execFrameLinkStats (address size : Byte) (payload : List Byte) (crc : Option Byte) (s : State) : Out :=
  arrive (frameBytes typeLinkStats address size (plainTail payload crc)) s

/-- R107: an RC-channels frame (R206). -/
def execFrameRcChannels (address size : Byte) (payload : List Byte) (crc : Option Byte) (s : State) : Out :=
  arrive (frameBytes typeRcChannels address size (plainTail payload crc)) s

/-- R109: a device ping (R207), of any length (R109, R115 (e)). -/
def execFramePing (address size : Byte) (dest orig : Option Byte) (payload : List Byte) (crc : Option Byte)
    (s : State) : Out :=
  arrive (frameBytes typeDevicePing address size (extTail dest orig payload crc)) s

/-- R110: a device-info frame: counted, otherwise ignored (R209). -/
def execFrameDeviceInfo (address size : Byte) (dest orig : Option Byte) (payload : List Byte) (crc : Option Byte)
    (s : State) : Out :=
  arrive (frameBytes typeDeviceInfo address size (extTail dest orig payload crc)) s

/-- R111: a command frame (R208). -/
def execFrameCommand (address size : Byte) (dest orig : Option Byte) (payload : List Byte) (crc : Option Byte)
    (s : State) : Out :=
  arrive (frameBytes typeCommand address size (extTail dest orig payload crc)) s

/-- R112: a timing frame: counted, otherwise ignored (R209). -/
def execFrameTiming (address size : Byte) (dest orig : Option Byte) (payload : List Byte) (crc : Option Byte)
    (s : State) : Out :=
  arrive (frameBytes typeHandset address size (extTail dest orig payload crc)) s

/-- A packet for which the decoder names no instruction. On the line it is bytes like any others: a frame of a type without
a row, a frame cut short, or several together arrive and are polled for (R105 "any other", R115). On the operation port it is
no operation: a reserved `op` code is refused (R121, U10), and so are operand bytes that give no values of the stated types
(R120; their packing is assumption log 1). -/
def undecoded (p : Packet) (e : DecodeError) (s : State) : Out :=
  match p with
  | .frame bytes => arrive bytes s
  | .op _ => .refused (.undecodable e)

end Sys2Proof.Machine
end

