-- ==== Sys2Proof/Machine/Reset.lean ====
section
/-! DEFINITION. `RESET` (70_reset_and_hazards R340): every state element takes the reset value its entry in 10_state gives.
No event is emitted; the streams already put out, the environment's inputs and the configuration are not state elements
(R44) and stay. A watchdog check that was holding (R243 step 3) is given up (assumption log 10). What R340 leaves unspecified
is not readable afterwards (the stores hold nothing written) or free (the two table tags, and the line level at reset
release: U16). -/

namespace Sys2Proof.Machine

/-- R340: the state after `RESET`. -/
def resetState (s : State) : State where
  cfg := s.cfg
  crc := CrcState.atReset s.cfg (Config.freeTabBits s.env.drawn) (Config.freeTabPoly s.env.drawn)
  asm := AsmBuffer.atReset
  chan := List.replicate s.cfg.numCh 0
  link := LinkState.atReset
  baud := BaudState.atReset s.cfg
  pw := PulseTimer.atReset s.cfg (Config.freeLevel s.env.drawn)
  tx := TxState.atReset
  sync := SyncState.atReset
  pins := Pins.atReset s.cfg
  line := { rxhw := [], txhw := [], level := Config.freeLevel s.env.drawn }
  clock := 0
  events := s.events
  hold := none
  env := { s.env with drawn := s.env.drawn + 1 }

/-- R340 `RESET`. -/
def execReset (s : State) : Out := .next (resetState s)

end Sys2Proof.Machine
end

