-- ==== Sys2Proof/Machine/Watchdog.lean ====
section
/-! DEFINITION. The baud estimator and the link watchdog (44_autobaud_watchdog): `AUTOBAUD_ESTIMATE`, `WDT_CHECK`, and one
turn of the polling loop (R247). -/

namespace Sys2Proof.Machine

/-- The distance of two naturals. -/
def absDiff (a b : Nat) : Nat := (a - b) + (b - a)

/-- R238: the scan; a strictly nearer entry replaces the best so far, so a tie keeps the earlier one. -/
def snapFrom (target best : Nat) : List Nat → Nat
  | [] => best
  | b :: bs => snapFrom target (if absDiff b target < absDiff best target then b else best) bs

/-- R238 `Snap(calc)`: the nearest table entry, the first on a tie. -/
def snap (table : List Nat) (target : Nat) : Nat :=
  match table with
  | [] => 0
  | b :: bs => snapFrom target b bs

/-- R237: `floor(F_REF / (max(pw_low, pw_high) + PW_ADD))`. -/
def baudOfWidths (low high : Nat) : Nat := fRef / (max low high + pwAdd)

/-- R235, R236, R237: the phase and the polarity an estimator call leaves. -/
def setPhase (phase : AbPhase) (inverted : Bool) (s : State) : State :=
  { s with baud := { s.baud with phase := phase, inverted := inverted } }

/-- R234: the promotion test: enough edges close the window and end `INIT`. -/
def promote (s : State) : State :=
  if enoughEdges s then { setPhase .measured s.baud.inverted s with pw := { s.pw with en := false } } else s

/-- R235 to R237: the phase's own rule, with the candidate baud it returns. -/
def estimateIn (s : State) : State × Nat :=
  match s.baud.phase with
  | .init => (setPhase .init s.baud.inverted (pwEnable s), s.cfg.probeBaud)
  | .measured => (setPhase .inverted (!s.baud.inverted) s, s.cfg.reqBaud)
  | .inverted => (setPhase .init (!s.baud.inverted) s, snap s.cfg.baudTable (baudOfWidths s.pw.low s.pw.high))

/-- R234: one atomic step: the promotion test, then the phase's rule. -/
def estimate (s : State) : State × Nat := estimateIn (promote s)

/-- R234 `AUTOBAUD_ESTIMATE`. -/
def execAutobaudEstimate (s : State) : Out := .next (reply (.baud (estimate s).2) (estimate s).1)

/-- R242: the link is lost: marked, reported, and the queue flushed; nothing when it was down already. -/
def disconnect (s : State) : State :=
  if s.link.connected then
    qFlush (emit .disconnected (raiseError (.linkLost s.link.goodCnt s.link.badCnt)
      { s with link := { s.link with connected := false } }))
  else s

/-- R243 step 4: the line runs at the new rate and polarity. -/
def configureLine (c : Nat) (s : State) : State :=
  emit (.lineConfig c s.baud.inverted) { s with baud := { s.baud with cur := BitVec.ofNat 32 c } }

/-- R243 step 5: receive mode restored; on a full-duplex line the pins follow the polarity (with the events of R190 and the
pull of R196, which R243's lines do not show: assumption log 22). -/
def restoreReceive (s : State) : State :=
  if s.cfg.halfDuplex then setTransmitting false (setReceive s.baud.inverted s)
  else followPolarity s.baud.inverted s

/-- R244: the interval restarts and both counters are cleared. -/
def endCheck (now : Word) (s : State) : State :=
  { s with link := { s.link with wdtLastMs := now, goodCnt := 0, badCnt := 0 } }

/-- R243 steps 1 and 2: the new window budget, and the queue flushed; each numbered line is one atomic step. -/
def prepareLine (c : Nat) (s : State) : State :=
  interleave (qFlush (interleave { s with baud := { s.baud with winBytes := windowBytes s.cfg c } }))

/-- R243 steps 4 to 6: the line configured, receive mode restored, unread input discarded. -/
def renewLine (c : Nat) (s : State) : State :=
  let s := interleave (restoreReceive (interleave (configureLine c s)))
  { s with line := { s.line with rxhw := [] } }

/-- What a triggered check still does once its hold is over: R243 steps 4 to 6, and R244. -/
def finishCheck (c : Nat) (now : Word) (s : State) : State := endCheck now (renewLine c (interleave s))

/-- R243 step 3 `hold until tx_idle`, for a check that reaches it: it goes on at once if nothing waits in `txhw`; otherwise it
has no step until some other agent's steps have made `tx_idle` true (R12), and what it still has to do is kept in the state.
Nothing here drains `txhw`, and nothing ends a hold whose serializer never steps (U17 `stuck`). -/
def holdUntilIdle (c : Nat) (now : Word) (s : State) : State × Option WdtOutcome :=
  if txIdle s then (finishCheck c now s, some .triggered)
  else ({ s with hold := some { baud := c, nowMs := now, slots := s.env.slots }, env := { s.env with slots := [] } }, none)

/-- R240 step 3: what a triggered check does. -/
def recoverLink (now : Word) (s : State) : State × Option WdtOutcome :=
  let r := estimate (interleave (disconnect s))
  if r.2 = 0 then (endCheck now r.1, some .triggered) else holdUntilIdle r.2 now (prepareLine r.2 r.1)

/-- R240: one watchdog check, with its outcome; no outcome yet when it holds. -/
def wdtCheck (now : Word) (s : State) : State × Option WdtOutcome :=
  if !wdtDue now s then (s, some .notDue)
  else if wdtTriggers s then recoverLink now s
  else (endCheck now s, some .ok)

/-- The outcome is returned to the issuer, where there is one. -/
def answerWdt : Option WdtOutcome → State → State
  | some o, s => reply (.wdt o) s
  | none, s => s

/-- R240 `WDT_CHECK`. -/
def execWdtCheck (now : Word) (s : State) : Out := .next (answerWdt (wdtCheck now s).2 (wdtCheck now s).1)

/-- R12, R243 step 3: the hold is over, and the check that held goes on from there to its end. -/
def releaseHold (h : Hold) (s : State) : State :=
  answerWdt (some .triggered)
    (finishCheck h.baud h.nowMs { s with hold := none, env := { s.env with slots := h.slots } })

/-- R247 `POLL_TICK` (a pseudo-operation): the watchdog, then a poll unless it triggered. A check that holds has triggered. -/
def pollTick (us ms : Word) (s : State) : Out :=
  let r := wdtCheck ms s
  match r.2 with
  | some .notDue | some .ok => execPollRx us ms (answerWdt r.2 r.1)
  | some .triggered | none => .next (answerWdt r.2 r.1)

end Sys2Proof.Machine
end

