-- ==== Sys2Proof/Machine/Dispatch.lean ====
section
/-! DEFINITION. One arm per instruction: its meaning. -/

namespace Sys2Proof.Machine

/-- What each instruction of the opcode table does. -/
def exec (i : Instr) (s : State) : Host.Outcome State Fault Refusal :=
  match i with
  | .reset => Sys2Proof.Machine.execReset s
  | .lineRx b => Sys2Proof.Machine.execLineRx b s
  | .txDrain => Sys2Proof.Machine.execTxDrain s
  | .pwTick level => Sys2Proof.Machine.execPwTick level s
  | .crc8Byte b => Sys2Proof.Machine.execCrc8Byte b s
  | .crc8Buf buf seed => Sys2Proof.Machine.execCrc8Buf buf seed s
  | .crcnConfig bits poly => Sys2Proof.Machine.execCrcnConfig bits poly s
  | .crcnCalc buf seed => Sys2Proof.Machine.execCrcnCalc buf seed s
  | .decodeHeader buf => Sys2Proof.Machine.execDecodeHeader buf s
  | .computeCrc buf n => Sys2Proof.Machine.execComputeCrc buf n s
  | .isValid buf n => Sys2Proof.Machine.execIsValid buf n s
  | .unpackChannels p => Sys2Proof.Machine.execUnpackChannels p s
  | .packChannels v => Sys2Proof.Machine.execPackChannels v s
  | .encodeExt t d o p => Sys2Proof.Machine.execEncodeExt t d o p s
  | .encodeDevinfo => Sys2Proof.Machine.execEncodeDevinfo s
  | .packVersion a b c => Sys2Proof.Machine.execPackVersion a b c s
  | .setRx inv => Sys2Proof.Machine.execSetRx inv s
  | .setTx inv => Sys2Proof.Machine.execSetTx inv s
  | .pollRx us ms => Sys2Proof.Machine.execPollRx us ms s
  | .align start => Sys2Proof.Machine.execAlign start s
  | .handleFrame n us ms => Sys2Proof.Machine.execHandleFrame n us ms s
  | .readChannel k => Sys2Proof.Machine.execReadChannel k s
  | .getLastRcTs => Sys2Proof.Machine.execGetLastRcTs s
  | .wdtCheck ms => Sys2Proof.Machine.execWdtCheck ms s
  | .autobaudEstimate => Sys2Proof.Machine.execAutobaudEstimate s
  | .pwEnable => Sys2Proof.Machine.execPwEnable s
  | .enqueue f => Sys2Proof.Machine.execEnqueue f s
  | .flushQueue => Sys2Proof.Machine.execFlushQueue s
  | .sendTelemetry b => Sys2Proof.Machine.execSendTelemetry b s
  | .serviceOutput n ms => Sys2Proof.Machine.execServiceOutput n ms s
  | .notifyTx us => Sys2Proof.Machine.execNotifyTx us s
  | .syncEmit ms => Sys2Proof.Machine.execSyncEmit ms s
  | .frameLinkStats a z p c => Sys2Proof.Machine.execFrameLinkStats a z p c s
  | .frameRcChannels a z p c => Sys2Proof.Machine.execFrameRcChannels a z p c s
  | .framePing a z d o p c => Sys2Proof.Machine.execFramePing a z d o p c s
  | .frameDeviceInfo a z d o p c => Sys2Proof.Machine.execFrameDeviceInfo a z d o p c s
  | .frameCommand a z d o p c => Sys2Proof.Machine.execFrameCommand a z d o p c s
  | .frameTiming a z d o p c => Sys2Proof.Machine.execFrameTiming a z d o p c s

end Sys2Proof.Machine
end

