-- ==== Sys2Proof/Machine/Fetch.lean ====
section
/-! DEFINITION. How the machine comes by its next operation. There is no program counter and no instruction memory (10_state
R21): the environment issues operations, and a program is "a finite sequence of operations issued by the environment (a
trace)" (00_scope R7). The trace still to be issued stands in `env.pending`, as packets. -/

namespace Sys2Proof.Machine

/-- The environment issues its next command: the clock advances as far as it lets it (R14), the interleaving it chose is
laid out, and the rest of the trace waits. -/
def issue (c : Command) (rest : List Command) (s : State) : State :=
  { s with clock := s.clock + c.advance, env := { s.env with pending := rest, slots := c.slots } }

/-- Who may step while the polling loop holds: the other agents (R194), and the environment with `RESET` (R340 "at any
time"). A packet that is no operation is refused then as always (R121); a frame on the line is polled for, so it waits with
the polling loop (assumption log 10). -/
def stepsInHold (p : Packet) : Bool :=
  match decode p with
  | .ok i => asynchronous i || i == .reset
  | .error _ =>
    match p with
    | .op _ => true
    | .frame _ => false

/-- R12, R194: a command of the polling loop has no step while a check holds: the loop's operations never interleave (R13). -/
def waitsForHold (p : Packet) (s : State) : Bool := s.hold.isSome && !stepsInHold p

/-- R12: the check whose hold is over: one that holds, once `tx_idle` is true. -/
def holdOver (s : State) : Option Hold := if txIdle s then s.hold else none

/-- A packet issued next, at once, with no other agent stepping inside it and no check holding. -/
def issueFirst (p : Packet) (s : State) : State :=
  { s with hold := none, env := { s.env with pending := { advance := 0, packet := p, slots := [] } :: s.env.pending } }

end Sys2Proof.Machine
end

