-- ==== Sys2Proof/Machine/Step.lean ====
section
/-! DEFINITION. One step of the machine: the environment's next operation, or the end of a watchdog check that was holding. -/

namespace Sys2Proof.Machine

/-- One step. The configuration is checked first (R10, U9). A check whose hold is over goes on (R12, R243). Otherwise the next
command is run, unless it is the polling loop's and the loop is holding: then it has no step, and the state stays. With no
command pending nothing steps (R21: "Nothing advances by itself except the agents"), and the state stays. -/
def step (s : State) : Host.Outcome State Fault Refusal :=
  if configOk s.cfg then
    match holdOver s with
    | some h => .next (releaseHold h s)
    | none =>
      match s.env.pending with
      | [] => .next s
      | c :: rest =>
        if waitsForHold c.packet s then .next s
        else
          match decode c.packet with
          | .error e => undecoded c.packet e (issue c rest s)
          | .ok i => exec i (issue c rest s)
  else .refused .badConfiguration

/-- `s` with the instruction of a table word as the command the environment issues next. -/
def State.withFetchWord (s : State) (nbits w : Nat) : State := issueFirst (packetOfWord nbits w) s

end Sys2Proof.Machine
end

