-- ==== Sys2Proof/Safety.lean ====
section
/-! DEFINITION. What counts as a safe state, which operands an operation admits, and the byte-sequence views of the
stores that claims speak in. -/

namespace Sys2Proof.Machine

/-! ### Views of the byte stores and the queue -/

/-- The assembly buffer holds these bytes: `asm_buf[0 .. asm_cursor-1]` (R24). -/
def asmHolds (s : State) (bs : List Byte) : Prop := memRead s.asm.buf 0 s.asm.cursor = .ok bs

/-- The staged bytes still to be handed over are these: `tx_stage[tx_off .. tx_off+tx_rem-1]` (R32). -/
def stageHolds (s : State) (bs : List Byte) : Prop := memRead s.tx.stage s.tx.off s.tx.rem = .ok bs

/-- The output queue is the concatenation of the records of these frames, each of 1..64 bytes (R31, R113, R270 (a)). -/
def queueHolds (s : State) (frames : List (List Byte)) : Prop :=
  s.tx.outq = frames.flatMap record ∧ ∀ f ∈ frames, 1 ≤ f.length ∧ f.length ≤ maxFrame

/-- The bytes from the first marker on; none without a marker (R201). -/
def aligned (cfg : Config) (bs : List Byte) : List Byte := bs.dropWhile fun b => !isMarker cfg b

/-- What a poll finds: the buffered bytes and as many received ones as fit, from the first marker on (R200, R201). -/
def polled (s : State) (bs : List Byte) : List Byte := aligned s.cfg ((bs ++ s.line.rxhw).take maxFrame)

/-- The frame's CRC byte is the CRC of its bytes from the type on, a bit at a time (R104, R143, R162). -/
def crcRight (cfg : Config) (frame : List Byte) : Prop :=
  frame.getLast? = some (crc8Bitwise cfg.crc8Poly cfg.crc8Seed (frame.dropLast.drop 2))

/-- A poll is held back: bytes of a burst are still leaving (R202 step 1). -/
def held (s : State) : Prop := s.cfg.halfDuplex = true ∧ s.tx.transmitting = true ∧ s.line.txhw ≠ []

/-! ### Frames the CORE builds, and runs of one operation -/

/-- The extended frame of these fields, its CRC a bit at a time (R101, R104, R168). -/
def builtFrame (cfg : Config) (type dest orig : Byte) (payload : List Byte) : List Byte :=
  [dest, BitVec.ofNat 8 (payload.length + 4), type, dest, orig] ++ payload
    ++ [crc8Bitwise cfg.crc8Poly cfg.crc8Seed ([type, dest, orig] ++ payload)]

/-- The device-info frame of this configuration (R171). -/
def devinfoFrame (cfg : Config) : List Byte :=
  builtFrame cfg typeDeviceInfo cfg.addrRadio cfg.addrModule (devinfoPayload cfg)

/-- The timing frame for an offset (R295). -/
def timingFrameOf (cfg : Config) (offset : Int) : List Byte :=
  builtFrame cfg typeHandset cfg.addrRadio cfg.addrModule (timingPayload cfg offset)

/-- The pins after `SET_RX inv` (R191). -/
def receivePins (inv : Bool) (p : Pins) : Pins :=
  { p with dir := .input, pull := if inv then .down else .up, rxConnected := true, rxInvert := inv, txConnected := false,
           mode := .rx }

/-- The events of `SET_RX inv`, in order (R191). -/
def receiveEvents (inv : Bool) (p : Pins) : List Event :=
  [.txPath false p.txInvert, .pinDir .input, .pinPull (if inv then .down else .up), .rxPath true inv]

/-- The pins of a full-duplex line that takes up the polarity `inv` (R243 step 5, R196; assumption log 22). -/
def polarityPins (inv : Bool) (p : Pins) : Pins :=
  { p with pull := if inv then .down else .up, rxInvert := inv, txInvert := inv }

/-- The events of a full-duplex line that takes up the polarity `inv`, in order (R190; assumption log 22). -/
def polarityEvents (inv : Bool) (p : Pins) : List Event :=
  [.pinPull (if inv then .down else .up), .rxPath p.rxConnected inv, .txPath p.txConnected inv]

/-- The pins after `SET_TX inv` (R192). -/
def transmitPins (inv : Bool) (p : Pins) : Pins :=
  { p with dir := .output, pull := .none, level := if inv then .low else .high, rxConnected := false,
           txConnected := true, txInvert := inv, mode := .tx }

/-- The events of `SET_TX inv`, in order (R192). -/
def transmitEvents (inv : Bool) (p : Pins) : List Event :=
  [.rxPath false p.rxInvert, .pinLevel (if inv then .low else .high), .pinPull .none, .pinDir .output, .txPath true inv]

/-- One operation issued `n` times in a row. -/
def execTimes (i : Instr) : Nat → State → Out
  | 0, s => .next s
  | n + 1, s =>
    match exec i s with
    | .next t => execTimes i n t
    | .fault f => .fault f
    | .refused r => .refused r

/-- A number of steps of the machine, one after another. -/
def stepTimes : Nat → State → Out
  | 0, s => .next s
  | n + 1, s =>
    match step s with
    | .next t => stepTimes n t
    | .fault f => .fault f
    | .refused r => .refused r

/-- What a triggered check leaves from its hold on, with nothing stepping in between: R243 steps 4 to 6, R244, and the answer
`TRIGGERED` (the pull and the events on a full-duplex line: assumption log 22). -/
def recovered (c : Nat) (now : Word) (s : State) : State :=
  { s with
    link := { s.link with wdtLastMs := now, goodCnt := 0, badCnt := 0 }
    baud := { s.baud with cur := BitVec.ofNat 32 c }
    tx := { s.tx with transmitting := !s.cfg.halfDuplex && s.tx.transmitting }
    line := { s.line with rxhw := [] }
    pins := if s.cfg.halfDuplex then receivePins s.baud.inverted s.pins else polarityPins s.baud.inverted s.pins
    events := s.events ++ [.lineConfig c s.baud.inverted]
      ++ (if s.cfg.halfDuplex then receiveEvents s.baud.inverted s.pins else polarityEvents s.baud.inverted s.pins)
    env := { s.env with replies := s.env.replies ++ [.wdt .triggered] } }

/-- The polling loop's elements are as they were; the byte queues have at most grown at the back (`rxhw`, `outq`) or lost
bytes at the front (`txhw`), and the event stream has at most grown (R86, R152, R20). -/
def pollingKept (s t : State) : Prop :=
  t.cfg = s.cfg ∧ t.asm = s.asm ∧ t.chan = s.chan ∧ t.link = s.link ∧ t.baud = s.baud ∧ t.pins = s.pins
    ∧ t.pw.en = s.pw.en ∧ t.tx.stage = s.tx.stage ∧ t.tx.rem = s.tx.rem ∧ t.tx.off = s.tx.off
    ∧ t.tx.transmitting = s.tx.transmitting ∧ t.sync.tSent = s.sync.tSent ∧ t.crc.tab8 = s.crc.tab8 ∧ t.hold = s.hold
    ∧ (∃ bs, t.line.rxhw = s.line.rxhw ++ bs) ∧ (∃ n, t.line.txhw = s.line.txhw.drop n)
    ∧ (∃ bs, t.tx.outq = s.tx.outq ++ bs) ∧ ∃ es, t.events = s.events ++ es

/-- R120: the operation's command is this `op` byte, followed by its operands (whose own bytes are the model's: assumption
log 1). -/
def hasOp (op : Byte) (i : Instr) : Prop := ∃ operands, encode i = .op (op :: operands)

/-! ### Who writes what -/

/-- Instructions that may handle a received frame (R202, R205). -/
def receives : Instr → Bool
  | .pollRx _ _ | .handleFrame _ _ _ | .frameLinkStats _ _ _ _ | .frameRcChannels _ _ _ _ | .framePing _ _ _ _ _ _
  | .frameDeviceInfo _ _ _ _ _ _ | .frameCommand _ _ _ _ _ _ | .frameTiming _ _ _ _ _ _ => true
  | .reset | .lineRx _ | .txDrain | .pwTick _ | .crc8Byte _ | .crc8Buf _ _ | .crcnConfig _ _ | .crcnCalc _ _
  | .decodeHeader _ | .computeCrc _ _ | .isValid _ _ | .unpackChannels _ | .packChannels _ | .encodeExt _ _ _ _
  | .encodeDevinfo | .packVersion _ _ _ | .setRx _ | .setTx _ | .align _ | .readChannel _ | .getLastRcTs | .wdtCheck _
  | .autobaudEstimate | .pwEnable | .enqueue _ | .flushQueue | .sendTelemetry _ | .serviceOutput _ _ | .notifyTx _
  | .syncEmit _ => false

/-! ### The operand domains (R120's operand column; 93 part 1) -/

/-- The operation is inside its admitted domain in this state. -/
def inDomain (i : Instr) (s : State) : Prop :=
  match i with
  | .lineRx _ => s.pins.rxConnected = true
  | .crcnConfig bits _ => crcnMin ≤ bits ∧ bits ≤ crcnMax
  | .crcnCalc _ _ => s.crc.bits ≠ 0
  | .decodeHeader buf => 3 ≤ buf.length
  | .computeCrc buf n => 3 ≤ n ∧ n ≤ buf.length
  | .isValid buf n => 3 ≤ n ∧ n ≤ buf.length
  | .unpackChannels p => chBytes s.cfg ≤ p.length
  | .packChannels v => v.length = s.cfg.numCh
  | .encodeExt _ _ _ p => p.length ≤ 58
  | .setRx _ => s.line.txhw = []
  | .align start => start ≤ 1
  | .handleFrame n _ _ => ∃ bs, asmHolds s bs ∧ minFrame ≤ n ∧ n ≤ maxFrame ∧ n ≤ bs.length ∧ crcRight s.cfg (bs.take n)
  | .readChannel k => k < s.cfg.numCh
  | .sendTelemetry b => 2 ≤ b.length ∧ (b.getD 1 0).toNat + 2 ≤ b.length
  | .frameLinkStats _ _ _ _ | .frameRcChannels _ _ _ _ | .framePing _ _ _ _ _ _ | .frameDeviceInfo _ _ _ _ _ _
  | .frameCommand _ _ _ _ _ _ | .frameTiming _ _ _ _ _ _ => s.pins.rxConnected = true
  | .reset | .txDrain | .pwTick _ | .crc8Byte _ | .crc8Buf _ _ | .encodeDevinfo | .packVersion _ _ _ | .setTx _
  | .pollRx _ _ | .getLastRcTs | .wdtCheck _ | .autobaudEstimate | .pwEnable | .enqueue _ | .flushQueue
  | .serviceOutput _ _ | .notifyTx _ | .syncEmit _ => True

/-! ### Safe states, part by part -/

/-- R22, R23, R88: the 8-bit table belongs to the polynomial; a valid N-bit table belongs to its tag; the configured width
is 0 or 9..16. -/
structure CrcOk (cfg : Config) (c : CrcState) : Prop where
  tab8 : c.tab8 = crc8Table cfg.crc8Poly
  bits : c.bits = 0 ∨ (crcnMin ≤ c.bits ∧ c.bits ≤ crcnMax)
  tabN : c.tabValid = true → c.tabN = crcnTable c.tabBits c.tabPoly

/-- R24, R210: the store has its canonical form, and the cursor stands at 0..64 with every byte before it written. -/
structure AsmOk (a : AsmBuffer) : Prop where
  form : Memory.wf a.buf = true
  bytes : ∃ bs, memRead a.buf 0 a.cursor = .ok bs

/-- R26: the counters hold `CNT_BITS` bits. -/
structure CountsOk (cfg : Config) (l : LinkState) : Prop where
  good : l.goodCnt < 2 ^ cfg.cntBits
  bad : l.badCnt < 2 ^ cfg.cntBits

/-- R28, R30, R42, R239: the line runs at a rate the configuration names, the window budget is positive, and `MEASURED` is
never the phase between calls. -/
structure BaudOk (cfg : Config) (b : BaudState) : Prop where
  phase : b.phase ≠ .measured
  cur : b.cur.toNat ∈ legalBauds cfg
  winBytes : 1 ≤ b.winBytes

/-- R29, R232: the timer's registers stay in their widths, and a measured pulse lasts at least one tick. -/
structure PulseOk (cfg : Config) (p : PulseTimer) : Prop where
  edges : p.edges ≤ pwMax cfg
  low : 1 ≤ p.low ∧ p.low ≤ pwMax cfg
  high : 1 ≤ p.high ∧ p.high ≤ pwMax cfg
  run : p.run ≤ pwMax cfg
  whole : p.synced = true → 1 ≤ p.run

/-- R31, R32, R270: whole records within the capacity; a staged frame of at most 64 bytes whose remaining bytes stand
written at the offset. -/
structure TxOk (cfg : Config) (x : TxState) : Prop where
  records : ∃ frames : List (List Byte), x.outq = frames.flatMap record ∧ ∀ f ∈ frames, 1 ≤ f.length ∧ f.length ≤ maxFrame
  capacity : x.outq.length ≤ cfg.outqCapacity
  form : Memory.wf x.stage = true
  staged : ∃ bs, memRead x.stage x.off x.rem = .ok bs

/-- R34, R292, R296 (e): the window stays within its maximum, and the offset within what the samples allow. -/
structure SyncOk (cfg : Config) (y : SyncState) : Prop where
  window : y.window ≤ cfg.syncWindowMax
  averaging : 1 ≤ y.window → 0 ≤ y.offset ∧ y.offset ≤ ((cfg.rcIntervalUs * cfg.syncScale : Nat) : Int)
  late : y.window = 0 → -(((cfg.rcIntervalUs - 1) * cfg.syncScale : Nat) : Int) ≤ y.offset ∧ y.offset ≤ 0

/-- R196: the states the pins of a half-duplex line can be in when no operation is in progress. -/
def PinsOk (p : Pins) : Prop :=
  (p.mode = .rx ∧ p.dir = .input ∧ p.pull = idlePull p.rxInvert ∧ p.rxConnected = true ∧ p.txConnected = false)
    ∨ (p.mode = .tx ∧ p.dir = .output ∧ p.pull = .none ∧ p.level = idleLevel p.txInvert
        ∧ p.rxConnected = false ∧ p.txConnected = true)

/-- R196: the state the pins of a full-duplex line are in when no operation is in progress (`SET_RX` and `SET_TX` are never
issued there: R195). -/
def FullDuplexPins (p : Pins) : Prop :=
  p.mode = .rx ∧ p.dir = .input ∧ p.pull = idlePull p.rxInvert ∧ p.rxConnected = true ∧ p.txConnected = true

/-- The safe states: what the spec's invariants say of every part, for an admitted configuration; R270 (e): on a
half-duplex line bytes wait for the serializer only during a burst; R42: a check that holds will configure a rate the
configuration names. -/
structure Inv (s : State) : Prop where
  config : configOk s.cfg = true
  crc : CrcOk s.cfg s.crc
  asm : AsmOk s.asm
  chan : s.chan.length = s.cfg.numCh
  counts : CountsOk s.cfg s.link
  baud : BaudOk s.cfg s.baud
  pulse : PulseOk s.cfg s.pw
  tx : TxOk s.cfg s.tx
  sync : SyncOk s.cfg s.sync
  pins : s.cfg.halfDuplex = true → PinsOk s.pins
  burst : s.cfg.halfDuplex = true → s.line.txhw ≠ [] → s.tx.transmitting = true
  hold : ∀ h ∈ s.hold, h.baud ∈ legalBauds s.cfg

end Sys2Proof.Machine
end

