-- ==== Sys2Proof/WellFormed.lean ====
section
/-! DEFINITION. Which instructions are well formed: their operands lie in the domains R120's table states, as far as the
domain does not depend on the configuration or the state (`UNPACK_CHANNELS`, `PACK_CHANNELS` and `READ_CHANNEL` have
domains that depend on `NUM_CH`: their meanings check them). An ill-formed instruction still decodes; its meaning says
what becomes of it (a refusal by name where the spec refuses it, an ordinary frame of noise on the line otherwise). -/

namespace Sys2Proof

/-- A plain frame whose size byte is legal and counts type, payload and CRC (R100, R102). -/
def plainShape (size : Byte) (payload : List Byte) (crc : Option Byte) : Bool :=
  crc.isSome && size.toNat == payload.length + 2 && decide (size.toNat + 2 ≤ 64)

/-- An extended frame whose size byte is legal and counts type, addressing pair, payload and CRC (R101, R102). -/
def extShape (size : Byte) (dest orig : Option Byte) (payload : List Byte) (crc : Option Byte) : Bool :=
  dest.isSome && orig.isSome && crc.isSome && size.toNat == payload.length + 4 && decide (size.toNat + 2 ≤ 64)

/-- A plain frame's fields fill the length its size byte declares (R114), the CRC first to be there. -/
def plainFits (size : Byte) (payload : List Byte) (crc : Option Byte) : Bool :=
  (plainTail payload crc).length == size.toNat - 1 && (crc.isSome || payload.isEmpty)

/-- An extended frame's fields fill the length its size byte declares (R114), and none is there before those it follows. -/
def extFits (size : Byte) (dest orig : Option Byte) (payload : List Byte) (crc : Option Byte) : Bool :=
  (extTail dest orig payload crc).length == size.toNat - 1
    && (crc.isSome || dest.isNone) && (dest.isSome || orig.isNone) && (orig.isSome || payload.isEmpty)

/-- A frame's fields are as many bytes as its size byte declares (a size of 0 declares nothing behind the header). This is
all that decoding needs: the encoder writes such an instruction so that the decoder reads it back. -/
def Instr.encodable : Instr → Bool
  | .frameLinkStats _ s p c | .frameRcChannels _ s p c => plainFits s p c
  | .framePing _ s d o p c | .frameDeviceInfo _ s d o p c | .frameCommand _ s d o p c | .frameTiming _ s d o p c =>
    extFits s d o p c
  | .reset | .lineRx _ | .txDrain | .pwTick _ | .crc8Byte _ | .crc8Buf _ _ | .crcnConfig _ _ | .crcnCalc _ _
  | .decodeHeader _ | .computeCrc _ _ | .isValid _ _ | .unpackChannels _ | .packChannels _ | .encodeExt _ _ _ _
  | .encodeDevinfo | .packVersion _ _ _ | .setRx _ | .setTx _ | .pollRx _ _ | .align _ | .handleFrame _ _ _
  | .readChannel _ | .getLastRcTs | .wdtCheck _ | .autobaudEstimate | .pwEnable | .enqueue _ | .flushQueue
  | .sendTelemetry _ | .serviceOutput _ _ | .notifyTx _ | .syncEmit _ => true

/-- The operand domains of R120's table and the payload lengths of R108, R110, R111 and R112. -/
def Instr.wellFormed : Instr → Bool
  | .reset | .lineRx _ | .txDrain | .pwTick _ | .crc8Byte _ | .crc8Buf _ _ | .crcnCalc _ _ | .unpackChannels _
  | .packChannels _ | .encodeDevinfo | .packVersion _ _ _ | .setRx _ | .setTx _ | .pollRx _ _ | .readChannel _
  | .getLastRcTs | .wdtCheck _ | .autobaudEstimate | .pwEnable | .enqueue _ | .flushQueue | .serviceOutput _ _
  | .notifyTx _ | .syncEmit _ => true
  | .crcnConfig bits _ => decide (9 ≤ bits) && decide (bits ≤ 16)
  | .decodeHeader buf => decide (3 ≤ buf.length)
  | .computeCrc buf n => decide (3 ≤ n) && decide (n ≤ buf.length)
  | .isValid buf n => decide (3 ≤ n) && decide (n ≤ buf.length)
  | .encodeExt _ _ _ p => decide (p.length ≤ 58)
  | .align start => decide (start ≤ 1)
  | .handleFrame n _ _ => decide (4 ≤ n) && decide (n ≤ 64)
  | .sendTelemetry b => decide (2 ≤ b.length) && decide ((b.getD 1 0).toNat + 2 ≤ b.length)
  | .frameLinkStats _ s p c => plainShape s p c && p.length == 10
  | .frameRcChannels _ s p c => plainShape s p c
  | .framePing _ s d o p c => extShape s d o p c
  | .frameDeviceInfo _ s d o p c => extShape s d o p c && decide (15 ≤ p.length)
  | .frameCommand _ s d o p c => extShape s d o p c && decide (2 ≤ p.length)
  | .frameTiming _ s d o p c => extShape s d o p c && p.length == 9 && p.head? == some 0x10

end Sys2Proof
end

