-- ==== Sys2Proof/Certificates/Slice0/Obligations.lean ====
section
/-! DEFINITION. The statements for the provers, in the order of OBLIGATIONS.json. Where a statement speaks of a composite
operation "with nothing stepping in between", its hypothesis is `s.env.slots = []`; `EveryOperationIsDefined` and
`SafeStatesAreKept` hold for every interleaving. -/

open Sys2Proof Sys2Proof.Machine

/-! ### The whole machine -/

/-- R12, R14: a step runs the decoded instruction of the next command, the clock advanced as far as the command says, the
rest of the trace waiting, and the command's interleaving laid out: always where no watchdog check is holding. While one
holds (R12 `hold until`), so do the operations of the other agents (R194) and `RESET`, and any other operation, being the
polling loop's (R13), has no step: the state stays, its command still to be issued. (What is kept in `hold`, and that
`RESET` may be issued then: assumption log 10.) -/
def Obligations.StepRunsDecodedInstruction : Prop :=
  ∀ (s : State) (c : Command) (rest : List Command) (i : Instr),
    configOk s.cfg = true → s.env.pending = c :: rest → decode c.packet = .ok i →
    let issued : State := { s with clock := s.clock + c.advance, env := { s.env with pending := rest, slots := c.slots } }
    (s.hold = none → step s = exec i issued)
      ∧ (s.hold ≠ none → s.line.txhw ≠ [] → asynchronous i = true ∨ i = .reset → step s = exec i issued)
      ∧ (s.hold ≠ none → s.line.txhw ≠ [] → asynchronous i = false → i ≠ .reset → step s = .next s)

/-- R12, R21, U9, U10: nothing steps by itself; a packet on the operation port that does not decode and a configuration that
the model does not admit are refused. (The command port and its operand bytes are the model's own: assumption logs 2 and 1. So
is what it asks of a configuration beyond R10, that every baud rate fit 32 bits: assumption log 5. A watchdog check whose hold
is over goes on first, which `WatchdogRecoversTheLine` says; with nothing pending a hold that is not over lasts: U17.) -/
def Obligations.StepStopsOnlyByName : Prop :=
  (∀ s : State, configOk s.cfg = true → s.hold = none ∨ s.line.txhw ≠ [] → s.env.pending = [] → step s = .next s)
    ∧ (∀ (s : State) (c : Command) (rest : List Command) (bytes : List Byte) (e : DecodeError), configOk s.cfg = true →
        s.hold = none ∨ s.line.txhw ≠ [] → s.env.pending = c :: rest → c.packet = .op bytes → decode (.op bytes) = .error e →
        step s = .refused (.undecodable e))
    ∧ ∀ s : State, configOk s.cfg = false → step s = .refused .badConfiguration

/-- R120, R100, R101: decoding an encoded well-formed instruction gives it back, with every operand at every value
(operand bytes of operations: assumption log 1). -/
def Obligations.DecodeInvertsEncode : Prop :=
  (∀ i : Instr, i.wellFormed = true → decode (encode i) = .ok i)
    ∧ ∀ i : Instr, i.encodable = true → decode (encode i) = .ok i

/-- R120, R121, R114: a packet that decodes is the encoding of what it decodes to: no instruction has two encodings. A frame
of a type with a row decodes exactly when it is as long as its second byte alone says, `size + 2` bytes. (Operand bytes of
operations: assumption log 1. A size of 0 stands for the three header bytes: assumption log 11.) -/
def Obligations.EncodeInvertsDecode : Prop :=
  (∀ (p : Packet) (i : Instr), decode p = .ok i → encode i = p ∧ i.encodable = true)
    ∧ ∀ (address size type : Byte) (rest : List Byte), type ∈ ([0x14, 0x16, 0x28, 0x29, 0x32, 0x3A] : List Byte) →
        ((∃ i, decode (.frame (address :: size :: type :: rest)) = .ok i) ↔ rest.length + 3 = max (size.toNat + 2) 3)

/-- R120, R107, R109, 95 section 3: a few words of the spec's encodings decode to the operations they stand for. -/
def Obligations.WrittenWordsDecode : Prop :=
  decode (.op [0x00]) = .ok .reset
    ∧ decode (.op [0x01, 0x11]) = .ok (.lineRx 0x11)
    ∧ decode (.op [0x11, 0x02, 0x01, 0x02, 0x00]) = .ok (.crc8Buf [0x01, 0x02] 0x00)
    ∧ decode (.op [0x40, 0x00, 0x00, 0x03, 0xE8, 0x00, 0x00, 0x00, 0x01]) = .ok (.pollRx 1000 1)
    ∧ decode (.op [0x43, 0x0F]) = .ok (.readChannel 15)
    ∧ decode (.op [0x52]) = .ok .pwEnable
    ∧ decode (.op [0x70, 0x00, 0x00, 0x01, 0xF4]) = .ok (.notifyTx 500)
    ∧ decode (.frame [0xC8, 0x04, 0x28, 0xEE, 0xEA, 0x97])
        = .ok (.framePing 0xC8 0x04 (some 0xEE) (some 0xEA) [] (some 0x97))
    ∧ decode (.frame [0xC8, 0x03, 0x28, 0xEE, 0x93]) = .ok (.framePing 0xC8 0x03 (some 0xEE) none [] (some 0x93))
    ∧ decode (.frame [0xC8, 0x05, 0x16, 0x01, 0x02, 0x03, 0xDA])
        = .ok (.frameRcChannels 0xC8 0x05 [0x01, 0x02, 0x03] (some 0xDA))

/-- R121: an operation code outside the table is refused, whatever follows it (a watchdog check whose hold is over goes on
first: `WatchdogRecoversTheLine`); and no operation has an optional operand: of
two operation packets that both decode, neither is a proper beginning of the other. (The second part rests on the
operand bytes, assumption log 1, and the refusal by `step` on the command port, assumption log 2: both the model's choice.) -/
def Obligations.ReservedCodesAreRefused : Prop :=
  (∀ (op : Byte) (rest : List Byte),
      op ∉ ([0x00, 0x01, 0x02, 0x03, 0x10, 0x11, 0x12, 0x13, 0x20, 0x21, 0x22, 0x23, 0x24, 0x25, 0x26, 0x27, 0x30, 0x31,
        0x40, 0x41, 0x42, 0x43, 0x44, 0x50, 0x51, 0x52, 0x60, 0x61, 0x62, 0x63, 0x70, 0x71] : List Byte) →
      decode (.op (op :: rest)) = .error (.reservedOp op)
        ∧ ∀ (s : State) (c : Command) (cs : List Command), configOk s.cfg = true →
            s.hold = none ∨ s.line.txhw ≠ [] → s.env.pending = c :: cs → c.packet = .op (op :: rest) → step s = .refused (.undecodable (.reservedOp op)))
    ∧ ∀ (bs more : List Byte) (i j : Instr),
        decode (.op bs) = .ok i → decode (.op (bs ++ more)) = .ok j → more = []

/-- The state after reset is safe, for every admitted configuration, and the pins of a full-duplex line are in their row of
R196. It rests on the reset values that the spec leaves to
the model only where no invariant speaks of them (assumption log 6). -/
def Obligations.ResetStateIsSafe : Prop :=
  Inv State.reset ∧ ∀ cfg : Config, configOk cfg = true →
    Inv (State.resetOf cfg) ∧ (cfg.halfDuplex = false → FullDuplexPins (State.resetOf cfg).pins)

/-- R24, R26, R29, R31, R32, R34, R42, R88, R196, R210, R239, R270: from every safe state, a step leaves a safe state and
never faults, whatever the other agents do at the interleave points. -/
def Obligations.SafeStatesAreKept : Prop :=
  ∀ s : State, Inv s → (∀ t, step s = .next t → Inv t) ∧ ∀ f, step s ≠ .fault f

/-- R315: every operation with its operands inside their domains is defined on every safe state, and leaves a safe state;
outside its domain it is refused by name (93 part 1). (The model's own part of it: a `WDT_CHECK` that has to hold is
defined as far as its hold, which the state keeps, assumption log 10; the domains of `ALIGN` and `HANDLE_FRAME` issued directly on assumption log 13; the
frame rows, and their refusal while the receive path is detached, on assumption log 11.) -/
def Obligations.EveryOperationIsDefined : Prop :=
  ∀ (s : State) (i : Instr), Inv s →
    (inDomain i s → ∃ t, exec i s = .next t ∧ Inv t)
      ∧ (¬ inDomain i s → ∃ r, exec i s = .refused r)

/-- R86, R152, R20: an operation of the callback, of a line agent or of the collaborator touches none of the polling loop's
elements; of the byte queues it only appends to `rxhw` and `outq` and takes from the front of `txhw`. R12, R194, R306, U17: and while a
watchdog check holds, no step of the machine does more than that, whichever command comes next, but for a `RESET`, which gives the check up: the hold
stays, nothing leaves `txhw` but by a `TX_DRAIN`, and a serializer that never steps leaves the machine stuck in it. (That
`RESET` may be issued then and gives the check up, and what `hold` keeps: assumption log 10.) -/
def Obligations.OtherAgentsLeavePollingState : Prop :=
  (∀ (i : Instr) (s t : State), asynchronous i = true → exec i s = .next t →
      pollingKept s t ∧ t.clock = s.clock ∧ t.env.pending = s.env.pending ∧ t.env.slots = s.env.slots)
    ∧ ∀ s t : State, s.hold ≠ none → s.line.txhw ≠ [] → step s = .next t →
      (∃ c rest, s.env.pending = c :: rest ∧ decode c.packet = .ok .reset ∧ t.hold = none)
        ∨ (pollingKept s t
          ∧ (t.line.txhw = s.line.txhw ∨ ∃ c rest, s.env.pending = c :: rest ∧ decode c.packet = .ok .txDrain))

/-- R20, R22, R25, R26, R27, R28, R30, R341 (b): each element is changed only by the operations listed as its writers:
the configuration by none; the 8-bit table and the clock by `RESET`; the channels and the receive timestamps by a poll or
a handled frame; the watchdog's timestamp and the loss of the link by `WDT_CHECK`; the baud state by `WDT_CHECK` and the
estimator. R195, R196: on a full-duplex line, where `SET_RX` and `SET_TX` are never issued, the pins keep to their row of the
mode table (that `WDT_CHECK` moves the pull there: assumption log 22). So it is with the steps 4 to 6 that a check takes once
its hold is over (R12, R243; assumption log 10), and it takes them, whatever the other agents do meanwhile. -/
def Obligations.ElementsHaveTheirWriters : Prop :=
  (∀ (i : Instr) (s t : State), exec i s = .next t →
    t.cfg = s.cfg
      ∧ (i ≠ .reset → t.crc.tab8 = s.crc.tab8 ∧ t.clock = s.clock)
      ∧ (i ≠ .reset → receives i = false →
          t.chan = s.chan ∧ t.link.tLastRx = s.link.tLastRx ∧ t.link.tLastRc = s.link.tLastRc
            ∧ t.link.rcSeen = s.link.rcSeen ∧ (t.link.connected = true → s.link.connected = true))
      ∧ (i ≠ .reset → (∀ ms, i ≠ .wdtCheck ms) →
          t.link.wdtLastMs = s.link.wdtLastMs ∧ (s.link.connected = true → t.link.connected = true) ∧ t.hold = s.hold)
      ∧ (i ≠ .reset → (∀ ms, i ≠ .wdtCheck ms) → i ≠ .autobaudEstimate → t.baud = s.baud)
      ∧ (s.cfg.halfDuplex = false → (∀ v, i ≠ .setRx v) → (∀ v, i ≠ .setTx v) → FullDuplexPins s.pins →
          FullDuplexPins t.pins))
    ∧ ∀ (s : State) (h : Hold), configOk s.cfg = true → s.hold = some h → s.line.txhw = [] →
      ∃ t, step s = .next t ∧ t.hold = none
        ∧ t.cfg = s.cfg ∧ t.crc.tab8 = s.crc.tab8 ∧ t.clock = s.clock ∧ t.asm = s.asm ∧ t.chan = s.chan
        ∧ t.env.pending = s.env.pending
        ∧ t.link = { s.link with wdtLastMs := h.nowMs, goodCnt := 0, badCnt := 0 }
        ∧ t.baud = { s.baud with cur := BitVec.ofNat 32 h.baud }
        ∧ t.line.rxhw = [] ∧ t.line.txhw = []
        ∧ (s.cfg.halfDuplex = false → FullDuplexPins s.pins → FullDuplexPins t.pins)

/-! ### Reset -/

/-- R340, R45: after `RESET`, from any state, every element has its reset value and no event is emitted. (The elements the
rule leaves unspecified are free or hold nothing: assumption log 6.) -/
def Obligations.ResetSetsEveryElement : Prop :=
  ∀ s : State, hasOp 0x00 .reset ∧ ∃ t, exec .reset s = .next t
    ∧ t.cfg = s.cfg ∧ t.events = s.events
    ∧ t.crc.tab8 = (List.range 256).map (fun i => times (crc8Shift s.cfg.crc8Poly) 8 (BitVec.ofNat 8 i))
    ∧ t.crc.bits = 0 ∧ t.crc.poly = 0 ∧ t.crc.tabValid = false
    ∧ t.asm.cursor = 0 ∧ t.chan = List.replicate s.cfg.numCh 0
    ∧ t.link = { connected := false, tLastRx := 0, tLastRc := 0, rcSeen := false, goodCnt := 0, badCnt := 0, wdtLastMs := 0 }
    ∧ t.baud = { inverted := false, phase := .init, cur := BitVec.ofNat 32 s.cfg.probeBaud,
                 winBytes := windowBytes s.cfg s.cfg.probeBaud }
    ∧ t.pw.en = false ∧ t.pw.edges = 0 ∧ t.pw.low = 2 ^ s.cfg.pwBits - 1 ∧ t.pw.high = 2 ^ s.cfg.pwBits - 1
    ∧ t.pw.run = 0 ∧ t.pw.synced = false ∧ t.pw.prev = t.line.level
    ∧ t.tx.outq = [] ∧ t.tx.rem = 0 ∧ t.tx.off = 0 ∧ t.tx.transmitting = false
    ∧ t.sync = { offset := 0, window := 0, tSent := 0, force := false }
    ∧ t.pins = { dir := .input, pull := .up, level := .high, rxConnected := true, txConnected := !s.cfg.halfDuplex,
                 rxInvert := false, txInvert := false, mode := .rx }
    ∧ t.line.rxhw = [] ∧ t.line.txhw = [] ∧ t.clock = 0

/-! ### The CRC engine -/

/-- R143: `CRC8_BUF` equals the bitwise form, and `CRC8_BYTE b` the CRC of the one byte with seed 0 (R141); nothing else
changes. -/
def Obligations.Crc8IsTheBitwiseCrc : Prop :=
  ∀ s : State, s.crc.tab8 = crc8Table s.cfg.crc8Poly →
    (∀ (buf : List Byte) (seed : Byte), hasOp 0x11 (.crc8Buf buf seed)
        ∧ exec (.crc8Buf buf seed) s = .next (reply (.byte (crc8Bitwise s.cfg.crc8Poly seed buf)) s))
      ∧ ∀ b : Byte, hasOp 0x10 (.crc8Byte b) ∧ exec (.crc8Byte b) s = .next (reply (.byte (crc8Bitwise s.cfg.crc8Poly 0 [b])) s)

/-- R144 (b) to (e) and (g): chaining, linearity, residue, single-byte sensitivity, leading zeros. -/
def Obligations.Crc8Laws : Prop :=
  ∀ (poly : Byte),
    (∀ (a b : List Byte) (s : Byte), crc8Bitwise poly s (a ++ b) = crc8Bitwise poly (crc8Bitwise poly s a) b)
      ∧ (∀ (a b : List Byte) (s t : Byte), a.length = b.length →
          crc8Bitwise poly (s ^^^ t) (List.zipWith (· ^^^ ·) a b) = crc8Bitwise poly s a ^^^ crc8Bitwise poly t b)
      ∧ (∀ (a : List Byte) (s : Byte), crc8Bitwise poly s (a ++ [crc8Bitwise poly s a]) = 0)
      ∧ (poly.getLsbD 0 = true → ∀ (a b : List Byte) (x y s : Byte), x ≠ y →
          crc8Bitwise poly s (a ++ x :: b) ≠ crc8Bitwise poly s (a ++ y :: b))
      ∧ ∀ a : List Byte, crc8Bitwise poly 0 (0 :: a) = crc8Bitwise poly 0 a

/-- R145: `CRCN_CONFIG` records the pair and rebuilds nothing; a width outside 9..16 is refused. -/
def Obligations.CrcnConfigRecordsThePair : Prop :=
  ∀ (s : State) (bits : Nat) (poly : Half),
    hasOp 0x12 (.crcnConfig bits poly)
      ∧ (9 ≤ bits → bits ≤ 16 →
          exec (.crcnConfig bits poly) s = .next { s with crc := { s.crc with bits := bits, poly := poly } })
      ∧ (bits < 9 ∨ 16 < bits → exec (.crcnConfig bits poly) s = .refused .crcnWidth)

/-- R146, R147, R148: with a configured pair and a polynomial that is not zero after masking, `CRCN_CALC` answers the
bitwise CRC, below `2^N`; the table is then the configured pair's; nothing else changes. -/
def Obligations.CrcnIsTheBitwiseCrc : Prop :=
  ∀ (s : State) (buf : List Byte) (seed : Half), CrcOk s.cfg s.crc → s.crc.bits ≠ 0 →
    s.crc.poly &&& maskN s.crc.bits ≠ 0 →
    exec (.crcnCalc buf seed) s
        = .next (reply (.crcn (crcnBitwise s.crc.bits s.crc.poly seed buf))
            { s with crc := { s.crc with tabN := crcnTable s.crc.bits s.crc.poly, tabBits := s.crc.bits,
                                         tabPoly := s.crc.poly, tabValid := true } })
      ∧ (crcnBitwise s.crc.bits s.crc.poly seed buf).toNat < 2 ^ s.crc.bits

/-- R150, R146, R147: under a polynomial that is zero after masking the result is some value below `2^N`; the table is
rebuilt for the configured pair first and its tag written, as R146 says of every call (assumption log 24: R150 speaks of the
tag alone), one free value is drawn (assumption log 9), and nothing else changes. Before any accepted configuration the
operation is refused. -/
def Obligations.CrcnWithoutPolynomial : Prop :=
  (∀ (s : State) (buf : List Byte) (seed : Half), CrcOk s.cfg s.crc → s.crc.bits ≠ 0 →
      s.crc.poly &&& maskN s.crc.bits = 0 →
      ∃ v : Half, v.toNat < 2 ^ s.crc.bits
        ∧ exec (.crcnCalc buf seed) s
            = .next (reply (.crcn v)
                { s with
                  crc := { s.crc with tabN := crcnTable s.crc.bits s.crc.poly, tabBits := s.crc.bits,
                                      tabPoly := s.crc.poly, tabValid := true }
                  env := { s.env with drawn := s.env.drawn + 1 } }))
    ∧ ∀ (s : State) (buf : List Byte) (seed : Half), s.crc.bits = 0 →
        exec (.crcnCalc buf seed) s = .refused .crcnUnconfigured

/-! ### The frame codec -/

/-- R160: `DECODE_HEADER` answers the first three bytes, unchecked; fewer are refused. -/
def Obligations.HeaderIsTheFirstThreeBytes : Prop :=
  ∀ s : State,
    (∀ buf : List Byte, hasOp 0x20 (.decodeHeader buf))
      ∧ (∀ (address size type : Byte) (rest : List Byte),
          exec (.decodeHeader (address :: size :: type :: rest)) s = .next (reply (.header address size type) s))
      ∧ ∀ buf : List Byte, buf.length < 3 → exec (.decodeHeader buf) s = .refused .headerShort

/-- R161, R162, R104: over a buffer `address size body crc rest`, with `totalLen` ending at `crc`, `COMPUTE_CRC` answers the
CRC of the body and `IS_VALID` whether the CRC byte equals it; the other bytes count for nothing. Other lengths are
refused. -/
def Obligations.FrameCrcCoversTypeToPayload : Prop :=
  ∀ s : State, s.crc.tab8 = crc8Table s.cfg.crc8Poly →
    (∀ (address size crc : Byte) (body rest : List Byte),
        exec (.computeCrc ([address, size] ++ body ++ crc :: rest) (body.length + 3)) s
            = .next (reply (.byte (crc8Bitwise s.cfg.crc8Poly s.cfg.crc8Seed body)) s)
          ∧ exec (.isValid ([address, size] ++ body ++ crc :: rest) (body.length + 3)) s
            = .next (reply (.flag (crc8Bitwise s.cfg.crc8Poly s.cfg.crc8Seed body == crc)) s))
      ∧ ∀ (buf : List Byte) (n : Nat), hasOp 0x21 (.computeCrc buf n) ∧ hasOp 0x22 (.isValid buf n)
        ∧ (n < 3 ∨ buf.length < n →
          exec (.computeCrc buf n) s = .refused .lengthDomain ∧ exec (.isValid buf n) s = .refused .lengthDomain)

/-- R162, R144 (e): a frame that is valid is no longer valid once one byte of the covered range, or the CRC byte alone, is
changed, for a polynomial with bit 0 set. -/
def Obligations.OneChangedByteIsDetected : Prop :=
  ∀ (s : State) (address size crc x y : Byte) (a b rest : List Byte),
    s.crc.tab8 = crc8Table s.cfg.crc8Poly → s.cfg.crc8Poly.getLsbD 0 = true →
    exec (.isValid ([address, size] ++ (a ++ x :: b) ++ crc :: rest) (a.length + b.length + 4)) s
        = .next (reply (.flag true) s) →
    (x ≠ y → exec (.isValid ([address, size] ++ (a ++ y :: b) ++ crc :: rest) (a.length + b.length + 4)) s
        = .next (reply (.flag false) s))
      ∧ (crc ≠ y → exec (.isValid ([address, size] ++ (a ++ x :: b) ++ y :: rest) (a.length + b.length + 4)) s
        = .next (reply (.flag false) s))

/-- R165, R77: `UNPACK_CHANNELS` answers channel `k = (S >> 11k) and 0x7FF` of the payload's bit stream, for each `k`; a
short payload is refused. -/
def Obligations.UnpackingReadsTheBitStream : Prop :=
  ∀ (s : State) (p : List Byte), hasOp 0x23 (.unpackChannels p)
    ∧ ((11 * s.cfg.numCh + 7) / 8 ≤ p.length →
        exec (.unpackChannels p) s
          = .next (reply (.channels ((List.range s.cfg.numCh).map fun k => BitVec.ofNat 11 (payloadNat p >>> (11 * k)))) s))
      ∧ (p.length < (11 * s.cfg.numCh + 7) / 8 → exec (.unpackChannels p) s = .refused .payloadShort)

/-- R166: `PACK_CHANNELS` answers `CH_BYTES` bytes whose bit stream is the channels' low 11 bits, the first lowest, and zero
padding; another count of values is refused. -/
def Obligations.PackingWritesTheBitStream : Prop :=
  ∀ (s : State) (v : List Nat), hasOp 0x24 (.packChannels v)
    ∧ (v.length = s.cfg.numCh →
        ∃ bs : List Byte, exec (.packChannels v) s = .next (reply (.bytes bs) s)
          ∧ bs.length = (11 * s.cfg.numCh + 7) / 8
          ∧ payloadNat bs = Nat.ofDigits 2048 (v.map (· % 2048)))
      ∧ (v.length ≠ s.cfg.numCh → exec (.packChannels v) s = .refused .channelCount)

/-- R167: packing then unpacking is the identity on channel values below 2048; unpacking then packing is the identity on
payloads of exactly `CH_BYTES` bytes with zero padding. -/
def Obligations.ChannelsRoundTrip : Prop :=
  ∀ s : State,
    (∀ v : List Nat, v.length = s.cfg.numCh → (∀ x ∈ v, x < 2048) →
        ∃ bs, exec (.packChannels v) s = .next (reply (.bytes bs) s)
          ∧ exec (.unpackChannels bs) s = .next (reply (.channels (v.map (BitVec.ofNat 11))) s))
      ∧ ∀ p : List Byte, p.length = (11 * s.cfg.numCh + 7) / 8 → payloadNat p < 2 ^ (11 * s.cfg.numCh) →
          ∃ v, exec (.unpackChannels p) s = .next (reply (.channels v) s)
            ∧ exec (.packChannels (v.map BitVec.toNat)) s = .next (reply (.bytes p) s)

/-- R168: `ENCODE_EXT` answers the frame of its fields, which `IS_VALID` accepts at its length; more than 58 payload bytes
are refused. -/
def Obligations.ExtendedFrameIsBuilt : Prop :=
  ∀ (s : State) (type dest orig : Byte) (payload : List Byte), s.crc.tab8 = crc8Table s.cfg.crc8Poly →
    hasOp 0x25 (.encodeExt type dest orig payload)
      ∧ (payload.length ≤ 58 →
          exec (.encodeExt type dest orig payload) s
              = .next (reply (.bytes ([dest, BitVec.ofNat 8 (payload.length + 4), type, dest, orig] ++ payload
                  ++ [crc8Bitwise s.cfg.crc8Poly s.cfg.crc8Seed ([type, dest, orig] ++ payload)])) s)
            ∧ exec (.isValid (builtFrame s.cfg type dest orig payload) (payload.length + 6)) s
              = .next (reply (.flag true) s))
      ∧ (58 < payload.length → exec (.encodeExt type dest orig payload) s = .refused .payloadTooLong)

/-- R171, R110: `ENCODE_DEVINFO` answers the device-info frame of the configuration, field by field, within a frame's
length; the same on every call. -/
def Obligations.DeviceInfoFrameIsBuilt : Prop :=
  ∀ s : State, configOk s.cfg = true → s.crc.tab8 = crc8Table s.cfg.crc8Poly →
    hasOp 0x26 .encodeDevinfo ∧ exec .encodeDevinfo s = .next (reply (.bytes (devinfoFrame s.cfg)) s)
      ∧ (devinfoFrame s.cfg).length = s.cfg.deviceName.length + 21 ∧ (devinfoFrame s.cfg).length ≤ 64
      ∧ ((devinfoFrame s.cfg).drop 5).dropLast
          = s.cfg.deviceName ++ [0]
            ++ [s.cfg.serialNo.extractLsb' 24 8, s.cfg.serialNo.extractLsb' 16 8, s.cfg.serialNo.extractLsb' 8 8,
                s.cfg.serialNo.extractLsb' 0 8]
            ++ [s.cfg.hwVer.extractLsb' 24 8, s.cfg.hwVer.extractLsb' 16 8, s.cfg.hwVer.extractLsb' 8 8,
                s.cfg.hwVer.extractLsb' 0 8]
            ++ [0]
            ++ (if s.cfg.swMajor = 0 then [1, 0, 0]
                else [BitVec.ofNat 8 (min s.cfg.swMajor 255), BitVec.ofNat 8 (min s.cfg.swMinor 255),
                      BitVec.ofNat 8 (min s.cfg.swPatch 255)])
            ++ [s.cfg.paramCount, s.cfg.paramProtoVer]

/-- R169: `PACK_VERSION` clamps each field to 8 bits and turns a leading 0 into version 1.0.0; the result has 24 bits and
is never 0. -/
def Obligations.VersionIsPacked : Prop :=
  ∀ (s : State) (major minor patch : Nat), hasOp 0x27 (.packVersion major minor patch)
    ∧ ∃ v, exec (.packVersion major minor patch) s = .next (reply (.version v) s)
      ∧ (major = 0 → v = 0x010000)
      ∧ (major ≠ 0 → v = min major 255 * 65536 + min minor 255 * 256 + min patch 255)
      ∧ v ≠ 0 ∧ v < 2 ^ 24

/-! ### The duplex controller -/

/-- R191, R192, R194: `SET_RX` with the transmitter idle writes the pins and emits its four events in order; while bytes
are still leaving it is refused. `SET_TX` breaks the receive path first, drives the idle level before the pin becomes an
output, and connects the transmit path last. -/
def Obligations.DuplexModesAreSetInOrder : Prop :=
  ∀ (s : State) (inv : Bool), hasOp 0x30 (.setRx inv) ∧ hasOp 0x31 (.setTx inv)
    ∧ (s.line.txhw = [] →
        exec (.setRx inv) s
          = .next { s with
              pins := { s.pins with dir := .input, pull := if inv then .down else .up, rxConnected := true,
                                    rxInvert := inv, txConnected := false, mode := .rx }
              events := s.events ++ [.txPath false s.pins.txInvert, .pinDir .input,
                .pinPull (if inv then .down else .up), .rxPath true inv] })
      ∧ (s.line.txhw ≠ [] → exec (.setRx inv) s = .refused .setRxBusy)
      ∧ exec (.setTx inv) s
        = .next { s with
            pins := { s.pins with dir := .output, pull := .none, level := if inv then .low else .high, rxConnected := false,
                                  txConnected := true, txInvert := inv, mode := .tx }
            events := s.events ++ [.rxPath false s.pins.rxInvert, .pinLevel (if inv then .low else .high), .pinPull .none,
              .pinDir .output, .txPath true inv] }

/-! ### Assembly and frame handling -/

/-- R201: `ALIGN` leaves the buffered bytes from the first marker on, at or after the start, and none without a marker;
store bytes from the new cursor on keep their content, and nothing else changes. (That other starts are refused is the
model's reading of the operand's domain: assumption log 13.) -/
def Obligations.AlignKeepsFromTheMarker : Prop :=
  ∀ (s : State) (start : Nat),
    (∀ bs, Memory.wf s.asm.buf = true → asmHolds s bs → start ≤ 1 →
        ∃ a : AsmBuffer, exec (.align start) s = .next { s with asm := a }
          ∧ memRead a.buf 0 a.cursor = .ok (aligned s.cfg (bs.drop start))
          ∧ Memory.wf a.buf = true ∧ ∀ x, a.cursor ≤ x → readByte a.buf x = readByte s.asm.buf x)
      ∧ (1 < start → exec (.align start) s = .refused .alignStart)

/-- R202 step 1: while a burst is still leaving a poll does nothing; the first poll after it restores receive mode. The
second part says what `endBurst` is, for the statements about a poll that goes on. -/
def Obligations.PollWaitsForTheTransmitter : Prop :=
  ∀ (s : State) (us ms : Word),
    (held s → exec (.pollRx us ms) s = .next (reply (.poll .holdTx) s))
      ∧ (s.cfg.halfDuplex = true → s.tx.transmitting = true →
          endBurst s = { s with pins := receivePins s.baud.inverted s.pins
                                events := s.events ++ receiveEvents s.baud.inverted s.pins
                                tx := { s.tx with transmitting := false } })
      ∧ (s.cfg.halfDuplex = false ∨ s.tx.transmitting = false → endBurst s = s)

/-- R202 steps 2 to 4, R203: with fewer than three bytes from a marker on, or fewer than the declared total, a poll keeps
them and waits; the received bytes that fit have joined the buffer and everything else is as before. -/
def Obligations.PollWaitsForMoreBytes : Prop :=
  ∀ (s : State) (us ms : Word) (bs : List Byte), Inv s → s.env.slots = [] → ¬ held s → asmHolds s bs →
    ∃ a : AsmBuffer, memRead a.buf 0 a.cursor = .ok (polled s bs) ∧ Memory.wf a.buf = true
      ∧ (∀ x, ((bs ++ s.line.rxhw).take 64).length ≤ x → readByte a.buf x = readByte s.asm.buf x)
      ∧ ((polled s bs).length < 3 →
          exec (.pollRx us ms) s
            = .next (reply (.poll .waitHdr)
                { endBurst s with asm := a, line := { s.line with rxhw := s.line.rxhw.drop (64 - bs.length) } }))
      ∧ (∀ size : Byte, 3 ≤ (polled s bs).length → (polled s bs)[1]? = some size → 4 ≤ size.toNat + 2 →
          size.toNat + 2 ≤ 64 → (polled s bs).length < size.toNat + 2 →
          exec (.pollRx us ms) s
            = .next (reply (.poll .waitBody)
                { endBurst s with asm := a, line := { s.line with rxhw := s.line.rxhw.drop (64 - bs.length) } }))

/-- R203, R311: a declared total outside 4..64 raises FramingError with the marker and the size, drops the marker and
searches on behind it; no counter changes. -/
def Obligations.PollRejectsIllegalLength : Prop :=
  ∀ (s : State) (us ms : Word) (bs rest : List Byte) (marker size : Byte),
    Inv s → s.env.slots = [] → ¬ held s → asmHolds s bs → polled s bs = marker :: size :: rest → rest ≠ [] →
    (size.toNat + 2 < 4 ∨ 64 < size.toNat + 2) →
    ∃ a : AsmBuffer, memRead a.buf 0 a.cursor = .ok (aligned s.cfg (size :: rest)) ∧ Memory.wf a.buf = true
      ∧ (∀ x, ((bs ++ s.line.rxhw).take 64).length ≤ x → readByte a.buf x = readByte s.asm.buf x)
      ∧ exec (.pollRx us ms) s
          = .next (reply (.poll .rejectLen)
              { endBurst s with
                asm := a
                line := { s.line with rxhw := s.line.rxhw.drop (64 - bs.length) }
                events := (endBurst s).events ++ [.err (.framing marker size)] })

/-- R203, R204, R312: a complete frame whose CRC byte is wrong is counted, reported with its type and length, and removed
whole; it is not dispatched. -/
def Obligations.PollDropsCorruptFrame : Prop :=
  ∀ (s : State) (us ms : Word) (bs : List Byte) (size type : Byte),
    Inv s → s.env.slots = [] → ¬ held s → asmHolds s bs →
    (polled s bs)[1]? = some size → (polled s bs)[2]? = some type →
    4 ≤ size.toNat + 2 → size.toNat + 2 ≤ 64 → size.toNat + 2 ≤ (polled s bs).length →
    ¬ crcRight s.cfg ((polled s bs).take (size.toNat + 2)) →
    ∃ a : AsmBuffer, memRead a.buf 0 a.cursor = .ok ((polled s bs).drop (size.toNat + 2)) ∧ Memory.wf a.buf = true
      ∧ (∀ x, ((bs ++ s.line.rxhw).take 64).length ≤ x → readByte a.buf x = readByte s.asm.buf x)
      ∧ exec (.pollRx us ms) s
          = .next (reply (.poll .bad)
              { endBurst s with
                asm := a
                line := { s.line with rxhw := s.line.rxhw.drop (64 - bs.length) }
                link := { s.link with badCnt := (s.link.badCnt + 1) % 2 ^ s.cfg.cntBits }
                events := (endBurst s).events ++ [.err (.crc type (size.toNat + 2))] })

/-- R203, R204, R205: a complete frame whose CRC byte is right is counted, handled while it stands at the front of the
buffer (what handling does: the statements about `HANDLE_FRAME`), and then removed whole. -/
def Obligations.PollTakesGoodFrame : Prop :=
  ∀ (s : State) (us ms : Word) (bs : List Byte) (size : Byte),
    Inv s → s.env.slots = [] → ¬ held s → asmHolds s bs → (polled s bs)[1]? = some size →
    4 ≤ size.toNat + 2 → size.toNat + 2 ≤ 64 → size.toNat + 2 ≤ (polled s bs).length →
    crcRight s.cfg ((polled s bs).take (size.toNat + 2)) →
    ∃ (a a' : AsmBuffer) (u : State), memRead a.buf 0 a.cursor = .ok (polled s bs)
      ∧ exec (.handleFrame (size.toNat + 2) us ms)
          { endBurst s with
            asm := a
            line := { s.line with rxhw := s.line.rxhw.drop (64 - bs.length) }
            link := { s.link with goodCnt := (s.link.goodCnt + 1) % 2 ^ s.cfg.cntBits } } = .next u
      ∧ memRead a'.buf 0 a'.cursor = .ok ((polled s bs).drop (size.toNat + 2)) ∧ Memory.wf a'.buf = true
      ∧ (∀ x, ((bs ++ s.line.rxhw).take 64).length ≤ x → readByte a'.buf x = readByte s.asm.buf x)
      ∧ exec (.pollRx us ms) s = .next (reply (.poll .good) { u with asm := a' })

/-- R211 (a): garbage without a marker, then a valid frame, all received and fitting the buffer: one poll returns `GOOD`,
`good_cnt` rises by one, and every byte has been consumed. -/
def Obligations.GarbageThenFrameResynchronises : Prop :=
  ∀ (s : State) (us ms : Word) (garbage frame : List Byte) (marker size : Byte) (rest : List Byte),
    Inv s → s.env.slots = [] → ¬ held s → s.asm.cursor = 0 → s.line.rxhw = garbage ++ frame →
    (∀ b ∈ garbage, isMarker s.cfg b = false) → frame = marker :: size :: rest → isMarker s.cfg marker = true →
    frame.length = size.toNat + 2 → 4 ≤ frame.length → garbage.length + frame.length ≤ 64 → crcRight s.cfg frame →
    ∃ t, exec (.pollRx us ms) s = .next t
      ∧ t.env.replies.getLast? = some (.poll .good) ∧ t.asm.cursor = 0 ∧ t.line.rxhw = []
      ∧ t.link.goodCnt = (s.link.goodCnt + 1) % 2 ^ s.cfg.cntBits ∧ t.link.badCnt = s.link.badCnt
      ∧ t.link.tLastRx = us ∧ t.link.connected = true

/-- R211 (c): a poll that is not held back and enters step 3 with a full buffer ends with room in it, whatever the other
agents do meanwhile: the buffer is full there when its bytes and those waiting in `rxhw` at the fill (after the first
interleave point of R202) come to 64 or more. -/
def Obligations.FullBufferMakesRoom : Prop :=
  ∀ (s : State) (us ms : Word), Inv s → ¬ held s →
    64 ≤ s.asm.cursor + (interleave (endBurst s)).line.rxhw.length →
    (∃ u, rxFill (interleave (endBurst s)) = .ok u ∧ u.asm.cursor = 64)
      ∧ ∃ t, exec (.pollRx us ms) s = .next t ∧ t.asm.cursor < 64

/-- R205, R209, R115 (d): a valid frame of any type but RC channels, ping and command stamps `t_last_rx`, raises the link
if it was down, and does nothing more. -/
def Obligations.OtherFramesOnlyMarkTheLink : Prop :=
  ∀ (s : State) (us ms : Word) (bs : List Byte) (n : Nat) (type : Byte),
    Inv s → s.env.slots = [] → asmHolds s bs → 4 ≤ n → n ≤ 64 → n ≤ bs.length → crcRight s.cfg (bs.take n) →
    bs[2]? = some type → type ≠ 0x16 → type ≠ 0x28 → type ≠ 0x32 →
    exec (.handleFrame n us ms) s
      = .next { s with
          link := { s.link with tLastRx := us, connected := true }
          events := s.events ++ (if s.link.connected then [] else [.connected]) }

/-- R207: a ping to this device queues the device-info frame, or raises QueueFullError without room; a ping too short for
its addresses, or to another device, does nothing beyond R205. -/
def Obligations.PingIsAnswered : Prop :=
  ∀ (s : State) (us ms : Word) (bs : List Byte) (n : Nat) (dest : Byte),
    Inv s → s.env.slots = [] → asmHolds s bs → 4 ≤ n → n ≤ 64 → n ≤ bs.length → crcRight s.cfg (bs.take n) →
    bs[2]? = some 0x28 → bs[3]? = some dest →
    let marked : State := { s with
      link := { s.link with tLastRx := us, connected := true }
      events := s.events ++ (if s.link.connected then [] else [.connected]) }
    (n < 6 ∨ dest ≠ s.cfg.addrModule → exec (.handleFrame n us ms) s = .next marked)
      ∧ (6 ≤ n → dest = s.cfg.addrModule → s.tx.outq.length + s.cfg.deviceName.length + 22 ≤ s.cfg.outqCapacity →
          exec (.handleFrame n us ms) s
            = .next { marked with tx := { s.tx with outq := s.tx.outq
                ++ (BitVec.ofNat 8 (s.cfg.deviceName.length + 21) :: devinfoFrame s.cfg) } })
      ∧ (6 ≤ n → dest = s.cfg.addrModule → s.cfg.outqCapacity < s.tx.outq.length + s.cfg.deviceName.length + 22 →
          exec (.handleFrame n us ms) s
            = .next { marked with
                events := marked.events ++ [.err (.queueFull (s.cfg.deviceName.length + 21))] })

/-- R208: a command frame for this device with subcommand 0x10 reports a model selection (further subcommand 5, at least 9
bytes) or, where bind dispatch is on, a bind (further subcommand 1); any other does nothing beyond R205. -/
def Obligations.CommandIsDispatched : Prop :=
  ∀ (s : State) (us ms : Word) (bs : List Byte) (n : Nat),
    Inv s → s.env.slots = [] → asmHolds s bs → 4 ≤ n → n ≤ 64 → n ≤ bs.length → crcRight s.cfg (bs.take n) →
    bs[2]? = some 0x32 →
    exec (.handleFrame n us ms) s
      = .next { s with
          link := { s.link with tLastRx := us, connected := true }
          events := s.events ++ (if s.link.connected then [] else [.connected])
            ++ (if 8 ≤ n ∧ bs[3]? = some s.cfg.addrModule ∧ bs[5]? = some 0x10 then
                  if bs[6]? = some 0x05 ∧ 9 ≤ n then [.modelSelect (bs.getD 7 0)]
                  else if bs[6]? = some 0x01 ∧ s.cfg.bindDispatch = true then [.bind] else []
                else []) }

/-- R206, R77: a whole RC-channels frame stamps both timestamps, raises the link, writes every channel from the payload's
bit stream, reports the data, and then services the output (what that does: the statements about `SERVICE_OUTPUT`); whatever
the other agents do meanwhile, the stamps and the new channels stand. R81, R206, U15: a `READ_CHANNEL k` that steps when the
channels below `j` have been written and those from `j` on have not answers the new value for `k < j` and the old one
otherwise (`j` from 0, before the first write, to `NUM_CH`, after the last). -/
def Obligations.RcFrameUpdatesChannels : Prop :=
  ∀ (s : State) (us ms : Word) (bs : List Byte) (n : Nat),
    Inv s → asmHolds s bs → 4 ≤ n → n ≤ 64 → n ≤ bs.length → crcRight s.cfg (bs.take n) →
    bs[2]? = some 0x16 → (11 * s.cfg.numCh + 7) / 8 ≤ n - 4 →
    let new (k : Nat) : Chan := BitVec.ofNat 11 (payloadNat (bs.drop 3) >>> (11 * k))
    (s.env.slots = [] → ∃ u out,
      exec (.serviceOutput n ms)
        { s with
          link := { s.link with tLastRx := us, connected := true, tLastRc := us, rcSeen := true }
          chan := (List.range s.cfg.numCh).map new
          events := s.events ++ (if s.link.connected then [] else [.connected]) ++ [.rcData] }
        = .next (reply (.bytes out) u)
      ∧ exec (.handleFrame n us ms) s = .next u)
    ∧ (∃ t, exec (.handleFrame n us ms) s = .next t ∧ t.chan = (List.range s.cfg.numCh).map new
        ∧ t.link.tLastRx = us ∧ t.link.connected = true ∧ t.link.tLastRc = us ∧ t.link.rcSeen = true)
    ∧ ∀ (j k : Nat) (old : Chan), j ≤ s.cfg.numCh → s.chan[k]? = some old →
        s.env.slots = List.replicate (j + 1) [] ++ [[.readChannel k]] →
        ∃ t, exec (.handleFrame n us ms) s = .next t
          ∧ t.env.replies = s.env.replies ++ [.channel (if k < j then new k else old)]

/-- R206, U3: an RC-channels frame too short for the channels leaves each of them at some value and does everything else
a whole one does (free values: assumption log 9). -/
def Obligations.ShortRcFrameLeavesChannelsOpen : Prop :=
  ∀ (s : State) (us ms : Word) (bs : List Byte) (n : Nat),
    Inv s → s.env.slots = [] → asmHolds s bs → 4 ≤ n → n ≤ 64 → n ≤ bs.length → crcRight s.cfg (bs.take n) →
    bs[2]? = some 0x16 → n - 4 < (11 * s.cfg.numCh + 7) / 8 →
    ∃ (c : List Chan) (u : State) (out : List Byte), c.length = s.cfg.numCh
      ∧ exec (.serviceOutput n ms)
        { s with
          link := { s.link with tLastRx := us, connected := true, tLastRc := us, rcSeen := true }
          chan := c
          events := s.events ++ (if s.link.connected then [] else [.connected]) ++ [.rcData]
          env := { s.env with drawn := s.env.drawn + s.cfg.numCh } }
        = .next (reply (.bytes out) u)
      ∧ exec (.handleFrame n us ms) s = .next u

/-- R212, R213: the collaborator reads one channel, or the last RC timestamp with its flag, and changes nothing; a channel
number outside the vector is refused. -/
def Obligations.CollaboratorReads : Prop :=
  ∀ (s : State) (k : Nat), s.chan.length = s.cfg.numCh →
    hasOp 0x43 (.readChannel k) ∧ hasOp 0x44 .getLastRcTs
    ∧ (∀ v : Chan, s.chan[k]? = some v → exec (.readChannel k) s = .next (reply (.channel v) s))
      ∧ (s.cfg.numCh ≤ k → exec (.readChannel k) s = .refused .channelIndex)
      ∧ exec .getLastRcTs s = .next (reply (.rcTimestamp s.link.tLastRc s.link.rcSeen) s)

/-- R214, R268: `LINE_RX` appends its byte while the receive path is connected and is refused otherwise; `TX_DRAIN` sends
the oldest waiting byte, and does nothing when none waits. -/
def Obligations.LineMovesOneByte : Prop :=
  ∀ (s : State) (b : Byte), hasOp 0x01 (.lineRx b) ∧ hasOp 0x02 .txDrain
    ∧ (s.pins.rxConnected = true →
        exec (.lineRx b) s = .next { s with line := { s.line with rxhw := s.line.rxhw ++ [b] } })
      ∧ (s.pins.rxConnected = false → exec (.lineRx b) s = .refused .receiveDetached)
      ∧ (∀ (x : Byte) (rest : List Byte), s.line.txhw = x :: rest →
          exec .txDrain s = .next { s with line := { s.line with txhw := rest }, events := s.events ++ [.lineTx x] })
      ∧ (s.line.txhw = [] → exec .txDrain s = .next s)

/-! ### Autobaud and the watchdog -/

/-- R231, R232: `PW_ENABLE` opens the window afresh, and leaves an open window alone. One tick: a run goes on, or an edge
ends it and, if it was a whole pulse, measures it; every count saturates. With the window closed only the level is
followed. (That a tick also stores its operand as `line_level`: assumption log 20.) -/
def Obligations.PulseTimerFollowsTheLine : Prop :=
  ∀ (s : State) (level : Bool), hasOp 0x52 .pwEnable ∧ hasOp 0x03 (.pwTick level)
    ∧ (s.pw.en = false →
        exec .pwEnable s
          = .next { s with pw := { en := true, edges := 0, low := 2 ^ s.cfg.pwBits - 1, high := 2 ^ s.cfg.pwBits - 1,
                                   prev := s.pw.prev, run := 0, synced := false } })
      ∧ (s.pw.en = true → exec .pwEnable s = .next s)
      ∧ ∃ q : PulseTimer,
        exec (.pwTick level) s = .next { s with pw := q, line := { s.line with level := level } }
        ∧ (s.pw.en = false → q = { s.pw with prev := level })
        ∧ (s.pw.en = true → level = s.pw.prev → q = { s.pw with run := min (s.pw.run + 1) (2 ^ s.cfg.pwBits - 1) })
        ∧ (s.pw.en = true → level ≠ s.pw.prev →
            q = { en := true
                  edges := min (s.pw.edges + 1) (2 ^ s.cfg.pwBits - 1)
                  low := if s.pw.synced = true ∧ s.pw.prev = false then min s.pw.low s.pw.run else s.pw.low
                  high := if s.pw.synced = true ∧ s.pw.prev = true then min s.pw.high s.pw.run else s.pw.high
                  prev := level
                  run := 1
                  synced := true })

/-- R232: a pulse that holds its level for `k` consecutive ticks is measured as `k`. -/
def Obligations.PulseOfKTicksMeasuresK : Prop :=
  ∀ (s : State) (level : Bool) (k : Nat), s.pw.en = true → s.pw.prev = !level → 1 ≤ k → k ≤ 2 ^ s.cfg.pwBits - 1 →
    ∃ u t, execTimes (.pwTick level) k s = .next u ∧ exec (.pwTick !level) u = .next t
      ∧ (level = false → t.pw.low = min s.pw.low k)
      ∧ (level = true → t.pw.high = min s.pw.high k)
      ∧ t.pw.edges = min (s.pw.edges + 2) (2 ^ s.cfg.pwBits - 1)

/-- R234 to R237, R239: the estimator's phase table, each row with the baud it returns; only the phase, the polarity and
the window's own registers change. -/
def Obligations.EstimatorFollowsItsPhases : Prop :=
  ∀ s : State,
    exec .autobaudEstimate s = .next (reply (.baud (estimate s).2) (estimate s).1)
      ∧ (s.baud.phase = .init → s.pw.en = false →
          exec .autobaudEstimate s
            = .next (reply (.baud s.cfg.probeBaud)
                { s with pw := { en := true, edges := 0, low := 2 ^ s.cfg.pwBits - 1, high := 2 ^ s.cfg.pwBits - 1,
                                 prev := s.pw.prev, run := 0, synced := false } }))
      ∧ (s.baud.phase = .init → s.pw.en = true → s.pw.edges < s.cfg.edgeMin →
          exec .autobaudEstimate s = .next (reply (.baud s.cfg.probeBaud) s))
      ∧ (s.baud.phase = .init → s.pw.en = true → s.cfg.edgeMin ≤ s.pw.edges →
          exec .autobaudEstimate s
            = .next (reply (.baud s.cfg.reqBaud)
                { s with baud := { s.baud with phase := .inverted, inverted := !s.baud.inverted }
                         pw := { s.pw with en := false } }))
      ∧ (s.baud.phase = .measured →
          exec .autobaudEstimate s
            = .next (reply (.baud s.cfg.reqBaud)
                { s with baud := { s.baud with phase := .inverted, inverted := !s.baud.inverted } }))
      ∧ (s.baud.phase = .inverted →
          exec .autobaudEstimate s
            = .next (reply (.baud (snap s.cfg.baudTable (80000000 / (max s.pw.low s.pw.high + 3))))
                { s with baud := { s.baud with phase := .init, inverted := !s.baud.inverted } }))

/-- R238: `Snap` answers the first table entry whose distance from the target no entry undercuts. -/
def Obligations.SnapIsTheFirstNearest : Prop :=
  ∀ (table : List Nat) (target : Nat), table ≠ [] →
    ∃ i, ∃ h : i < table.length, snap table target = table[i]
      ∧ (∀ (j : Nat) (hj : j < table.length), absDiff table[i] target ≤ absDiff table[j] target)
      ∧ ∀ (j : Nat) (hj : j < table.length), j < i → absDiff table[i] target < absDiff table[j] target

/-- R240, R241, R244: before the interval has run out nothing happens; a due check of a live link clears the counters and
restarts the interval, whatever the other agents do. -/
def Obligations.WatchdogLeavesLiveLink : Prop :=
  ∀ (s : State) (ms : Word),
    ((ms - s.link.wdtLastMs).toNat < s.cfg.wdtIntervalMs →
        exec (.wdtCheck ms) s = .next (reply (.wdt .notDue) s))
      ∧ (s.cfg.wdtIntervalMs ≤ (ms - s.link.wdtLastMs).toNat → s.link.badCnt < s.link.goodCnt →
          s.link.connected = true →
          exec (.wdtCheck ms) s
            = .next (reply (.wdt .ok) { s with link := { s.link with wdtLastMs := ms, goodCnt := 0, badCnt := 0 } }))

/-- R240 to R244: a due check of a silent or failing link reports the loss (if there was a link), asks the estimator
(`EstimatorFollowsItsPhases`), sets the window's budget and flushes the queue. With nothing waiting in `txhw` it goes on at
once: it reconfigures the line, restores receive mode, discards unread input, restarts the interval and answers `TRIGGERED`;
the assembly buffer and the partial frame stay. R12, R243 step 3, R306: with bytes waiting it holds there, and answers
nothing; once the serializer has stepped as often as bytes were waiting, all of them are on the line, and the check goes on
to its end. (How a hold is kept in the state: assumption log 10. The pull and the events on a full-duplex line: assumption
log 22.) -/
def Obligations.WatchdogRecoversTheLine : Prop :=
  (∀ (s : State) (ms : Word), Inv s → s.env.slots = [] →
    s.cfg.wdtIntervalMs ≤ (ms - s.link.wdtLastMs).toNat → (s.link.goodCnt ≤ s.link.badCnt ∨ s.link.connected = false) →
    let c := (estimate s).2
    let t : State := { s with
      link := { s.link with connected := false }
      pw := (estimate s).1.pw
      baud := { (estimate s).1.baud with winBytes := windowBytes s.cfg c }
      tx := { s.tx with outq := [] }
      events := s.events
        ++ (if s.link.connected then [.err (.linkLost s.link.goodCnt s.link.badCnt), .disconnected] else []) }
    (s.line.txhw = [] → exec (.wdtCheck ms) s = .next (recovered c ms t))
      ∧ (s.line.txhw ≠ [] →
          exec (.wdtCheck ms) s = .next { t with hold := some { baud := c, nowMs := ms, slots := [] } }))
    ∧ ∀ (s : State) (h : Hold) (drains rest : List Command), configOk s.cfg = true → s.hold = some h → h.slots = [] →
      s.env.pending = drains ++ rest → (∀ d ∈ drains, decode d.packet = .ok .txDrain) →
      drains.length = s.line.txhw.length →
      stepTimes (drains.length + 1) s
        = .next (recovered h.baud h.nowMs { s with
            line := { s.line with txhw := [] }
            clock := s.clock + (drains.map Command.advance).sum
            events := s.events ++ s.line.txhw.map .lineTx
            hold := none
            env := { s.env with pending := rest, slots := [] } })

/-! ### The scheduler -/

/-- R261, R113, R313: a frame of 1..64 bytes with room for its record is queued whole behind its length byte; otherwise the
queue is unchanged and QueueFullError records the length. -/
def Obligations.EnqueueIsWholeOrNothing : Prop :=
  ∀ (s : State) (frame : List Byte), hasOp 0x60 (.enqueue frame)
    ∧ (1 ≤ frame.length → frame.length ≤ 64 → 1 + frame.length ≤ s.cfg.outqCapacity - s.tx.outq.length →
        exec (.enqueue frame) s
          = .next (reply (.accepted true)
              { s with tx := { s.tx with outq := s.tx.outq ++ (BitVec.ofNat 8 frame.length :: frame) } }))
      ∧ (frame.length < 1 ∨ 64 < frame.length ∨ s.cfg.outqCapacity - s.tx.outq.length < 1 + frame.length →
          exec (.enqueue frame) s
            = .next (reply (.accepted false) { s with events := s.events ++ [.err (.queueFull frame.length)] }))

/-- R262: `FLUSH_QUEUE` empties the queue; the partial frame, `txhw` and everything else stay. -/
def Obligations.FlushEmptiesTheQueueOnly : Prop :=
  ∀ s : State, hasOp 0x61 .flushQueue
    ∧ exec .flushQueue s = .next { s with tx := { s.tx with outq := [] } }

/-- R263: `SEND_TELEMETRY` queues the bytes its buffer's own size byte declares, as they are, under R261's conditions; a
buffer shorter than that is refused. -/
def Obligations.TelemetryIsQueuedAsGiven : Prop :=
  (∀ (s : State) (first size : Byte) (rest : List Byte), size.toNat ≤ rest.length →
      (size.toNat + 2 ≤ 64 → size.toNat + 3 ≤ s.cfg.outqCapacity - s.tx.outq.length →
          exec (.sendTelemetry (first :: size :: rest)) s
            = .next (reply (.accepted true)
                { s with tx := { s.tx with outq := s.tx.outq
                    ++ (BitVec.ofNat 8 (size.toNat + 2) :: first :: size :: rest.take size.toNat) } }))
        ∧ (64 < size.toNat + 2 ∨ s.cfg.outqCapacity - s.tx.outq.length < size.toNat + 3 →
          exec (.sendTelemetry (first :: size :: rest)) s
            = .next (reply (.accepted false) { s with events := s.events ++ [.err (.queueFull (size.toNat + 2))] })))
    ∧ (∀ (s : State) (first size : Byte) (rest : List Byte), rest.length < size.toNat →
        exec (.sendTelemetry (first :: size :: rest)) s = .refused .telemetryShort)
    ∧ ∀ (s : State) (b : List Byte), hasOp 0x62 (.sendTelemetry b)
      ∧ (b.length < 2 → exec (.sendTelemetry b) s = .refused .telemetryShort)

/-- R264: without a link a service call only flushes the queue; with a link and nothing pending, and no timing frame due,
it does nothing. -/
def Obligations.ServiceWithNothingToSend : Prop :=
  ∀ (s : State) (received : Nat) (ms : Word),
    (s.link.connected = false →
        exec (.serviceOutput received ms) s = .next (reply (.bytes []) { s with tx := { s.tx with outq := [] } }))
      ∧ (s.link.connected = true → s.env.slots = [] → s.tx.rem = 0 → s.tx.outq = [] → s.sync.force = false →
          (ms - s.sync.tSent).toNat < 200 →
          exec (.serviceOutput received ms) s = .next (reply (.bytes []) s))

/-- R264 to R266, R270 (c), (d): with something pending, transmit mode is engaged once on a half-duplex line, and the first
`budget` pending bytes are handed over in order; the rest stays pending. `tx_rem` counts what is left of the staged frame:
of the frame that was staged before when none was popped, with `tx_off + tx_rem` as it was; else of the last one popped,
which stands staged whole, has been begun, and has the length `tx_off + tx_rem`. The budget is the window's remaining room, at most
64 and at least 10, or the fixed constant on a full-duplex line. -/
def Obligations.ServiceHandsOverTheBudget : Prop :=
  ∀ (s : State) (received : Nat) (ms : Word) (bs : List Byte) (frames : List (List Byte)),
    Inv s → s.env.slots = [] → s.link.connected = true → stageHolds s bs → queueHolds s frames →
    (bs ≠ [] ∨ frames ≠ []) →
    let budget := if s.cfg.halfDuplex then max (min (s.baud.winBytes - received) 64) 10 else s.cfg.telemFifoSize
    let engage := s.cfg.halfDuplex && !s.tx.transmitting
    ∃ (x : TxState) (bs' : List Byte) (n : Nat),
      exec (.serviceOutput received ms) s
        = .next (reply (.bytes ((bs ++ frames.flatten).take budget))
            { s with
              line := { s.line with txhw := s.line.txhw ++ (bs ++ frames.flatten).take budget }
              tx := x
              pins := if engage then transmitPins s.baud.inverted s.pins else s.pins
              events := s.events ++ (if engage then transmitEvents s.baud.inverted s.pins else []) })
      ∧ x.transmitting = (s.cfg.halfDuplex || s.tx.transmitting)
      ∧ memRead x.stage x.off x.rem = .ok bs' ∧ x.outq = (frames.drop n).flatMap record
      ∧ bs' ++ (frames.drop n).flatten = (bs ++ frames.flatten).drop budget
      ∧ Memory.wf x.stage = true ∧ x.rem = bs'.length ∧ n ≤ frames.length
      ∧ (n = 0 → x.stage = s.tx.stage ∧ x.off + x.rem = s.tx.off + s.tx.rem)
      ∧ (∀ f, (frames.take n).getLast? = some f →
          x.off + x.rem = f.length ∧ 1 ≤ x.off ∧ memRead x.stage 0 f.length = .ok f)
      ∧ ∀ a, (∀ f ∈ frames.take n, f.length ≤ a) → readByte x.stage a = readByte s.tx.stage a

/-- R264 step 2, R294, R295: an idle service call with a timing frame due builds it, and sends it in the same call as far
as the budget reaches. -/
def Obligations.IdleServiceSendsTimingFrame : Prop :=
  ∀ (s : State) (received : Nat) (ms : Word),
    Inv s → s.env.slots = [] → s.link.connected = true → s.tx.rem = 0 → s.tx.outq = [] →
    (s.sync.force = true ∨ 200 ≤ (ms - s.sync.tSent).toNat) →
    let budget := if s.cfg.halfDuplex then max (min (s.baud.winBytes - received) 64) 10 else s.cfg.telemFifoSize
    ∃ t, exec (.serviceOutput received ms) s = .next t
      ∧ t.line.txhw = s.line.txhw ++ (timingFrameOf s.cfg s.sync.offset).take budget
      ∧ t.sync = { s.sync with tSent := ms, force := false }
      ∧ stageHolds t ((timingFrameOf s.cfg s.sync.offset).drop budget) ∧ t.tx.outq = []

/-- R267: a single queued frame leaves in exactly `ceil(L / b)` calls of budget `b`: after `n` of them the first `n * b`
bytes have been handed over, in order, none twice and none dropped, and `tx_off` and `tx_rem` count what has left of the
frame and what has not (R270 (c)). -/
def Obligations.FrameLeavesInCeilCalls : Prop :=
  ∀ (s : State) (received : Nat) (ms : Word) (frame : List Byte),
    Inv s → s.env.slots = [] → s.link.connected = true → s.tx.rem = 0 → queueHolds s [frame] →
    let budget := if s.cfg.halfDuplex then max (min (s.baud.winBytes - received) 64) 10 else s.cfg.telemFifoSize
    ∀ n, n ≤ (frame.length + budget - 1) / budget →
      ∃ t, execTimes (.serviceOutput received ms) n s = .next t
        ∧ t.line.txhw = s.line.txhw ++ frame.take (n * budget)
        ∧ (1 ≤ n → t.tx.off + t.tx.rem = frame.length ∧ t.tx.rem = frame.length - n * budget)
        ∧ ((t.tx.rem = 0 ∧ t.tx.outq = []) ↔ n = (frame.length + budget - 1) / budget)

/-! ### The mixer sync estimator -/

/-- R291, R292, R293: a notification more than the RC interval after the last frame resets the offset to the negative
remainder, empties the window and forces a frame; any other grows the window and averages. Nothing else changes. -/
def Obligations.NotificationFoldsTheGap : Prop :=
  ∀ (s : State) (us : Word),
    let gap := (us - s.link.tLastRx).toNat
    let w := min (s.sync.window + 1) s.cfg.syncWindowMax
    hasOp 0x70 (.notifyTx us)
    ∧ (s.cfg.rcIntervalUs < gap →
        exec (.notifyTx us) s
          = .next { s with sync := { s.sync with
              offset := -(((gap % s.cfg.rcIntervalUs) * s.cfg.syncScale : Nat) : Int), window := 0, force := true } })
      ∧ (gap ≤ s.cfg.rcIntervalUs →
        exec (.notifyTx us) s
          = .next { s with sync := { s.sync with
              window := w
              offset := Int.tdiv (s.sync.offset * ((w : Int) - 1) + ((gap * s.cfg.syncScale : Nat) : Int)) w } })

/-- R296 (a): under a constant on-time gap the offset is the scaled gap from the first notification after a reset of the
window on, and the window climbs by one per notification to its maximum. -/
def Obligations.ConstantGapHoldsTheOffset : Prop :=
  ∀ (s : State) (us : Word) (n : Nat),
    1 ≤ s.cfg.syncWindowMax → s.sync.window = 0 → (us - s.link.tLastRx).toNat ≤ s.cfg.rcIntervalUs → 1 ≤ n →
    execTimes (.notifyTx us) n s
      = .next { s with sync := { s.sync with
          window := min n s.cfg.syncWindowMax
          offset := (((us - s.link.tLastRx).toNat * s.cfg.syncScale : Nat) : Int) } }

/-- R294, R295: with a link, and a frame forced or the last one 200 ms old, the timing frame is queued, the rate limit
restarts and the force is cleared, also when the queue had no room; otherwise nothing happens. R112, R295: the frame's
payload is the subcommand, the packet interval and the offset less the margin, big-endian, in units of 100 ns (the interval
times 10, as R112 and D26 say, where R295's line has `SYNC_SCALE`, 10 by default: assumption log 23). -/
def Obligations.TimingFrameIsRateLimited : Prop :=
  ∀ (s : State) (ms : Word), s.crc.tab8 = crc8Table s.cfg.crc8Poly → hasOp 0x71 (.syncEmit ms)
    ∧ (s.link.connected = true → (s.sync.force = true ∨ 200 ≤ (ms - s.sync.tSent).toNat) →
        (16 ≤ s.cfg.outqCapacity - s.tx.outq.length →
          exec (.syncEmit ms) s
            = .next (reply (.queued true)
                { s with
                  tx := { s.tx with outq := s.tx.outq ++ (15 :: timingFrameOf s.cfg s.sync.offset) }
                  sync := { s.sync with tSent := ms, force := false } }))
        ∧ (s.cfg.outqCapacity - s.tx.outq.length < 16 →
          exec (.syncEmit ms) s
            = .next (reply (.queued false)
                { s with
                  events := s.events ++ [.err (.queueFull 15)]
                  sync := { s.sync with tSent := ms, force := false } })))
      ∧ (s.link.connected = false ∨ (s.sync.force = false ∧ (ms - s.sync.tSent).toNat < 200) →
          exec (.syncEmit ms) s = .next (reply (.queued false) s))
      ∧ timingFrameOf s.cfg s.sync.offset
          = builtFrame s.cfg 0x3A s.cfg.addrRadio s.cfg.addrModule
              ([0x10] ++ wrWord (BitVec.ofNat 32 (s.cfg.rcIntervalUs * 10))
                ++ wrWord (BitVec.ofInt 32 (s.sync.offset - s.cfg.safetyMargin)))

/-! ### Wire frames -/

/-- R100, R101, R214: a wire frame's row is its arrival on the line, byte by byte, and the poll that takes it with the
clock's readings (assumption log 11); it is refused while the receive path is detached. R105 "any other", R115: so is every
packet of bytes on the line, of whatever type and length, whether a row's frame or not: none of them traps. While a watchdog
check holds, the packet waits with the polling loop (assumption log 10). -/
def Obligations.FrameArrivesAndIsPolled : Prop :=
  ∀ (s : State) (a z : Byte) (d o c : Option Byte) (p : List Byte),
    let polledWith (u : State) (bytes : List Byte) : Out :=
      exec (.pollRx (BitVec.ofNat 32 u.clock) (BitVec.ofNat 32 (u.clock / 1000)))
        { u with line := { u.line with rxhw := u.line.rxhw ++ bytes } }
    (s.pins.rxConnected = false →
      exec (.frameLinkStats a z p c) s = .refused .receiveDetached
        ∧ exec (.frameRcChannels a z p c) s = .refused .receiveDetached
        ∧ exec (.framePing a z d o p c) s = .refused .receiveDetached
        ∧ exec (.frameDeviceInfo a z d o p c) s = .refused .receiveDetached
        ∧ exec (.frameCommand a z d o p c) s = .refused .receiveDetached
        ∧ exec (.frameTiming a z d o p c) s = .refused .receiveDetached)
    ∧ (s.pins.rxConnected = true →
      exec (.frameLinkStats a z p c) s = polledWith s ([a, z, 0x14] ++ p ++ c.toList)
        ∧ exec (.frameRcChannels a z p c) s = polledWith s ([a, z, 0x16] ++ p ++ c.toList)
        ∧ exec (.framePing a z d o p c) s = polledWith s ([a, z, 0x28] ++ d.toList ++ o.toList ++ p ++ c.toList)
        ∧ exec (.frameDeviceInfo a z d o p c) s = polledWith s ([a, z, 0x29] ++ d.toList ++ o.toList ++ p ++ c.toList)
        ∧ exec (.frameCommand a z d o p c) s = polledWith s ([a, z, 0x32] ++ d.toList ++ o.toList ++ p ++ c.toList)
        ∧ exec (.frameTiming a z d o p c) s = polledWith s ([a, z, 0x3A] ++ d.toList ++ o.toList ++ p ++ c.toList))
    ∧ ∀ (cmd : Command) (rest : List Command) (bytes : List Byte), configOk s.cfg = true →
        s.env.pending = cmd :: rest → cmd.packet = .frame bytes →
        let u : State := { s with clock := s.clock + cmd.advance
                                  env := { s.env with pending := rest, slots := cmd.slots } }
        (s.hold = none → s.pins.rxConnected = false → step s = .refused .receiveDetached)
          ∧ (s.hold = none → s.pins.rxConnected = true → step s = polledWith u bytes)
          ∧ (s.hold ≠ none → s.line.txhw ≠ [] → step s = .next s)

/-- R105, R107 to R112: what each wire frame does, arriving whole and valid at an idle receiver: it is counted good, stamps
`t_last_rx`, raises the link and is consumed; an RC frame also writes the channels and the RC timestamp, a ping to this
device queues the device-info frame, a model-select command reports its index, and the other three do nothing more.
(How a frame row comes to be polled for: assumption log 11.) -/
def Obligations.WireFramesAreHandled : Prop :=
  ∀ (s : State) (a z d o c : Byte) (p : List Byte),
    Inv s → s.env.slots = [] → s.pins.rxConnected = true → s.tx.transmitting = false → s.asm.cursor = 0 →
    s.line.rxhw = [] → isMarker s.cfg a = true → z.toNat + 2 ≤ 64 →
    let us : Word := BitVec.ofNat 32 s.clock
    let marked (t : State) : Prop :=
      t.env.replies.getLast? = some (.poll .good) ∧ t.asm.cursor = 0 ∧ t.line.rxhw = [] ∧ t.link.tLastRx = us
        ∧ t.link.connected = true ∧ t.link.goodCnt = (s.link.goodCnt + 1) % 2 ^ s.cfg.cntBits
        ∧ t.link.badCnt = s.link.badCnt ∧ t.baud = s.baud ∧ t.cfg = s.cfg
    let quiet (t : State) : Prop :=
      marked t ∧ t.chan = s.chan ∧ t.tx = s.tx ∧ t.pins = s.pins ∧ t.line = s.line ∧ t.sync = s.sync
        ∧ t.link.tLastRc = s.link.tLastRc
        ∧ t.events = s.events ++ (if s.link.connected then [] else [.connected])
    (z.toNat = p.length + 2 →
      (crcRight s.cfg ([a, z, 0x14] ++ p ++ [c]) → ∃ t, exec (.frameLinkStats a z p (some c)) s = .next t ∧ quiet t)
      ∧ (crcRight s.cfg ([a, z, 0x16] ++ p ++ [c]) → (11 * s.cfg.numCh + 7) / 8 ≤ p.length →
          ∃ t, exec (.frameRcChannels a z p (some c)) s = .next t ∧ marked t ∧ t.link.tLastRc = us ∧ t.link.rcSeen = true
            ∧ t.chan = (List.range s.cfg.numCh).map fun k => BitVec.ofNat 11 (payloadNat p >>> (11 * k))))
    ∧ (z.toNat = p.length + 4 →
      (crcRight s.cfg ([a, z, 0x28, d, o] ++ p ++ [c]) → d = s.cfg.addrModule →
          s.tx.outq.length + s.cfg.deviceName.length + 22 ≤ s.cfg.outqCapacity →
          ∃ t, exec (.framePing a z (some d) (some o) p (some c)) s = .next t ∧ marked t ∧ t.chan = s.chan
            ∧ t.tx = { s.tx with outq := s.tx.outq
                ++ (BitVec.ofNat 8 (s.cfg.deviceName.length + 21) :: devinfoFrame s.cfg) })
      ∧ (crcRight s.cfg ([a, z, 0x29, d, o] ++ p ++ [c]) →
          ∃ t, exec (.frameDeviceInfo a z (some d) (some o) p (some c)) s = .next t ∧ quiet t)
      ∧ (∀ (index : Byte) (rest : List Byte), p = 0x10 :: 0x05 :: index :: rest →
          crcRight s.cfg ([a, z, 0x32, d, o] ++ p ++ [c]) → d = s.cfg.addrModule →
          ∃ t, exec (.frameCommand a z (some d) (some o) p (some c)) s = .next t ∧ marked t ∧ t.chan = s.chan ∧ t.tx = s.tx
            ∧ t.events = s.events ++ (if s.link.connected then [] else [.connected]) ++ [.modelSelect index])
      ∧ (crcRight s.cfg ([a, z, 0x3A, d, o] ++ p ++ [c]) →
          ∃ t, exec (.frameTiming a z (some d) (some o) p (some c)) s = .next t ∧ quiet t))
end

