-- ==== Sys2Proof/Laws/State.lean ====
section
/-! SUPPORT. What every named update leaves and writes: one lemma per field per update, so that no proof unfolds a record
update. -/

namespace Sys2Proof.Machine

variable (s : State)

/-! `emit` -/

@[simp] theorem emit_cfg (e : Event) : (emit e s).cfg = s.cfg := rfl
@[simp] theorem emit_crc (e : Event) : (emit e s).crc = s.crc := rfl
@[simp] theorem emit_asm (e : Event) : (emit e s).asm = s.asm := rfl
@[simp] theorem emit_chan (e : Event) : (emit e s).chan = s.chan := rfl
@[simp] theorem emit_link (e : Event) : (emit e s).link = s.link := rfl
@[simp] theorem emit_baud (e : Event) : (emit e s).baud = s.baud := rfl
@[simp] theorem emit_pw (e : Event) : (emit e s).pw = s.pw := rfl
@[simp] theorem emit_tx (e : Event) : (emit e s).tx = s.tx := rfl
@[simp] theorem emit_sync (e : Event) : (emit e s).sync = s.sync := rfl
@[simp] theorem emit_pins (e : Event) : (emit e s).pins = s.pins := rfl
@[simp] theorem emit_line (e : Event) : (emit e s).line = s.line := rfl
@[simp] theorem emit_clock (e : Event) : (emit e s).clock = s.clock := rfl
@[simp] theorem emit_hold (e : Event) : (emit e s).hold = s.hold := rfl
@[simp] theorem emit_events (e : Event) : (emit e s).events = s.events ++ [e] := rfl
@[simp] theorem emit_env (e : Event) : (emit e s).env = s.env := rfl

/-! `raiseError` -/

@[simp] theorem raiseError_cfg (e : ErrorInfo) : (raiseError e s).cfg = s.cfg := rfl
@[simp] theorem raiseError_crc (e : ErrorInfo) : (raiseError e s).crc = s.crc := rfl
@[simp] theorem raiseError_asm (e : ErrorInfo) : (raiseError e s).asm = s.asm := rfl
@[simp] theorem raiseError_chan (e : ErrorInfo) : (raiseError e s).chan = s.chan := rfl
@[simp] theorem raiseError_link (e : ErrorInfo) : (raiseError e s).link = s.link := rfl
@[simp] theorem raiseError_baud (e : ErrorInfo) : (raiseError e s).baud = s.baud := rfl
@[simp] theorem raiseError_pw (e : ErrorInfo) : (raiseError e s).pw = s.pw := rfl
@[simp] theorem raiseError_tx (e : ErrorInfo) : (raiseError e s).tx = s.tx := rfl
@[simp] theorem raiseError_sync (e : ErrorInfo) : (raiseError e s).sync = s.sync := rfl
@[simp] theorem raiseError_pins (e : ErrorInfo) : (raiseError e s).pins = s.pins := rfl
@[simp] theorem raiseError_line (e : ErrorInfo) : (raiseError e s).line = s.line := rfl
@[simp] theorem raiseError_clock (e : ErrorInfo) : (raiseError e s).clock = s.clock := rfl
@[simp] theorem raiseError_hold (e : ErrorInfo) : (raiseError e s).hold = s.hold := rfl
@[simp] theorem raiseError_events (e : ErrorInfo) : (raiseError e s).events = s.events ++ [.err e] := rfl
@[simp] theorem raiseError_env (e : ErrorInfo) : (raiseError e s).env = s.env := rfl

/-! `reply` -/

@[simp] theorem reply_cfg (r : Reply) : (reply r s).cfg = s.cfg := rfl
@[simp] theorem reply_crc (r : Reply) : (reply r s).crc = s.crc := rfl
@[simp] theorem reply_asm (r : Reply) : (reply r s).asm = s.asm := rfl
@[simp] theorem reply_chan (r : Reply) : (reply r s).chan = s.chan := rfl
@[simp] theorem reply_link (r : Reply) : (reply r s).link = s.link := rfl
@[simp] theorem reply_baud (r : Reply) : (reply r s).baud = s.baud := rfl
@[simp] theorem reply_pw (r : Reply) : (reply r s).pw = s.pw := rfl
@[simp] theorem reply_tx (r : Reply) : (reply r s).tx = s.tx := rfl
@[simp] theorem reply_sync (r : Reply) : (reply r s).sync = s.sync := rfl
@[simp] theorem reply_pins (r : Reply) : (reply r s).pins = s.pins := rfl
@[simp] theorem reply_line (r : Reply) : (reply r s).line = s.line := rfl
@[simp] theorem reply_clock (r : Reply) : (reply r s).clock = s.clock := rfl
@[simp] theorem reply_hold (r : Reply) : (reply r s).hold = s.hold := rfl
@[simp] theorem reply_events (r : Reply) : (reply r s).events = s.events := rfl
@[simp] theorem reply_env (r : Reply) : (reply r s).env = { s.env with replies := s.env.replies ++ [r] } := rfl

/-! `drawn` -/

@[simp] theorem drawn_cfg : (drawn s).cfg = s.cfg := rfl
@[simp] theorem drawn_crc : (drawn s).crc = s.crc := rfl
@[simp] theorem drawn_asm : (drawn s).asm = s.asm := rfl
@[simp] theorem drawn_chan : (drawn s).chan = s.chan := rfl
@[simp] theorem drawn_link : (drawn s).link = s.link := rfl
@[simp] theorem drawn_baud : (drawn s).baud = s.baud := rfl
@[simp] theorem drawn_pw : (drawn s).pw = s.pw := rfl
@[simp] theorem drawn_tx : (drawn s).tx = s.tx := rfl
@[simp] theorem drawn_sync : (drawn s).sync = s.sync := rfl
@[simp] theorem drawn_pins : (drawn s).pins = s.pins := rfl
@[simp] theorem drawn_line : (drawn s).line = s.line := rfl
@[simp] theorem drawn_clock : (drawn s).clock = s.clock := rfl
@[simp] theorem drawn_hold : (drawn s).hold = s.hold := rfl
@[simp] theorem drawn_events : (drawn s).events = s.events := rfl
@[simp] theorem drawn_env : (drawn s).env = { s.env with drawn := s.env.drawn + 1 } := rfl

/-! `qPush` -/

@[simp] theorem qPush_cfg (bs : List Byte) : (qPush bs s).cfg = s.cfg := rfl
@[simp] theorem qPush_crc (bs : List Byte) : (qPush bs s).crc = s.crc := rfl
@[simp] theorem qPush_asm (bs : List Byte) : (qPush bs s).asm = s.asm := rfl
@[simp] theorem qPush_chan (bs : List Byte) : (qPush bs s).chan = s.chan := rfl
@[simp] theorem qPush_link (bs : List Byte) : (qPush bs s).link = s.link := rfl
@[simp] theorem qPush_baud (bs : List Byte) : (qPush bs s).baud = s.baud := rfl
@[simp] theorem qPush_pw (bs : List Byte) : (qPush bs s).pw = s.pw := rfl
@[simp] theorem qPush_tx (bs : List Byte) : (qPush bs s).tx = { s.tx with outq := s.tx.outq ++ bs } := rfl
@[simp] theorem qPush_sync (bs : List Byte) : (qPush bs s).sync = s.sync := rfl
@[simp] theorem qPush_pins (bs : List Byte) : (qPush bs s).pins = s.pins := rfl
@[simp] theorem qPush_line (bs : List Byte) : (qPush bs s).line = s.line := rfl
@[simp] theorem qPush_clock (bs : List Byte) : (qPush bs s).clock = s.clock := rfl
@[simp] theorem qPush_hold (bs : List Byte) : (qPush bs s).hold = s.hold := rfl
@[simp] theorem qPush_events (bs : List Byte) : (qPush bs s).events = s.events := rfl
@[simp] theorem qPush_env (bs : List Byte) : (qPush bs s).env = s.env := rfl

/-! `qFlush` -/

@[simp] theorem qFlush_cfg : (qFlush s).cfg = s.cfg := rfl
@[simp] theorem qFlush_crc : (qFlush s).crc = s.crc := rfl
@[simp] theorem qFlush_asm : (qFlush s).asm = s.asm := rfl
@[simp] theorem qFlush_chan : (qFlush s).chan = s.chan := rfl
@[simp] theorem qFlush_link : (qFlush s).link = s.link := rfl
@[simp] theorem qFlush_baud : (qFlush s).baud = s.baud := rfl
@[simp] theorem qFlush_pw : (qFlush s).pw = s.pw := rfl
@[simp] theorem qFlush_tx : (qFlush s).tx = { s.tx with outq := [] } := rfl
@[simp] theorem qFlush_sync : (qFlush s).sync = s.sync := rfl
@[simp] theorem qFlush_pins : (qFlush s).pins = s.pins := rfl
@[simp] theorem qFlush_line : (qFlush s).line = s.line := rfl
@[simp] theorem qFlush_clock : (qFlush s).clock = s.clock := rfl
@[simp] theorem qFlush_hold : (qFlush s).hold = s.hold := rfl
@[simp] theorem qFlush_events : (qFlush s).events = s.events := rfl
@[simp] theorem qFlush_env : (qFlush s).env = s.env := rfl

/-! `setTransmitting` -/

@[simp] theorem setTransmitting_cfg (v : Bool) : (setTransmitting v s).cfg = s.cfg := rfl
@[simp] theorem setTransmitting_crc (v : Bool) : (setTransmitting v s).crc = s.crc := rfl
@[simp] theorem setTransmitting_asm (v : Bool) : (setTransmitting v s).asm = s.asm := rfl
@[simp] theorem setTransmitting_chan (v : Bool) : (setTransmitting v s).chan = s.chan := rfl
@[simp] theorem setTransmitting_link (v : Bool) : (setTransmitting v s).link = s.link := rfl
@[simp] theorem setTransmitting_baud (v : Bool) : (setTransmitting v s).baud = s.baud := rfl
@[simp] theorem setTransmitting_pw (v : Bool) : (setTransmitting v s).pw = s.pw := rfl
@[simp] theorem setTransmitting_tx (v : Bool) : (setTransmitting v s).tx = { s.tx with transmitting := v } := rfl
@[simp] theorem setTransmitting_sync (v : Bool) : (setTransmitting v s).sync = s.sync := rfl
@[simp] theorem setTransmitting_pins (v : Bool) : (setTransmitting v s).pins = s.pins := rfl
@[simp] theorem setTransmitting_line (v : Bool) : (setTransmitting v s).line = s.line := rfl
@[simp] theorem setTransmitting_clock (v : Bool) : (setTransmitting v s).clock = s.clock := rfl
@[simp] theorem setTransmitting_hold (v : Bool) : (setTransmitting v s).hold = s.hold := rfl
@[simp] theorem setTransmitting_events (v : Bool) : (setTransmitting v s).events = s.events := rfl
@[simp] theorem setTransmitting_env (v : Bool) : (setTransmitting v s).env = s.env := rfl

/-! `setAsm` -/

@[simp] theorem setAsm_cfg (m : Memory) (n : Nat) : (setAsm m n s).cfg = s.cfg := rfl
@[simp] theorem setAsm_crc (m : Memory) (n : Nat) : (setAsm m n s).crc = s.crc := rfl
@[simp] theorem setAsm_asm (m : Memory) (n : Nat) : (setAsm m n s).asm = { buf := m, cursor := n } := rfl
@[simp] theorem setAsm_chan (m : Memory) (n : Nat) : (setAsm m n s).chan = s.chan := rfl
@[simp] theorem setAsm_link (m : Memory) (n : Nat) : (setAsm m n s).link = s.link := rfl
@[simp] theorem setAsm_baud (m : Memory) (n : Nat) : (setAsm m n s).baud = s.baud := rfl
@[simp] theorem setAsm_pw (m : Memory) (n : Nat) : (setAsm m n s).pw = s.pw := rfl
@[simp] theorem setAsm_tx (m : Memory) (n : Nat) : (setAsm m n s).tx = s.tx := rfl
@[simp] theorem setAsm_sync (m : Memory) (n : Nat) : (setAsm m n s).sync = s.sync := rfl
@[simp] theorem setAsm_pins (m : Memory) (n : Nat) : (setAsm m n s).pins = s.pins := rfl
@[simp] theorem setAsm_line (m : Memory) (n : Nat) : (setAsm m n s).line = s.line := rfl
@[simp] theorem setAsm_clock (m : Memory) (n : Nat) : (setAsm m n s).clock = s.clock := rfl
@[simp] theorem setAsm_hold (m : Memory) (n : Nat) : (setAsm m n s).hold = s.hold := rfl
@[simp] theorem setAsm_events (m : Memory) (n : Nat) : (setAsm m n s).events = s.events := rfl
@[simp] theorem setAsm_env (m : Memory) (n : Nat) : (setAsm m n s).env = s.env := rfl

/-! `setChan` -/

@[simp] theorem setChan_cfg (k : Nat) (v : Chan) : (setChan k v s).cfg = s.cfg := rfl
@[simp] theorem setChan_crc (k : Nat) (v : Chan) : (setChan k v s).crc = s.crc := rfl
@[simp] theorem setChan_asm (k : Nat) (v : Chan) : (setChan k v s).asm = s.asm := rfl
@[simp] theorem setChan_chan (k : Nat) (v : Chan) : (setChan k v s).chan = s.chan.set k v := rfl
@[simp] theorem setChan_link (k : Nat) (v : Chan) : (setChan k v s).link = s.link := rfl
@[simp] theorem setChan_baud (k : Nat) (v : Chan) : (setChan k v s).baud = s.baud := rfl
@[simp] theorem setChan_pw (k : Nat) (v : Chan) : (setChan k v s).pw = s.pw := rfl
@[simp] theorem setChan_tx (k : Nat) (v : Chan) : (setChan k v s).tx = s.tx := rfl
@[simp] theorem setChan_sync (k : Nat) (v : Chan) : (setChan k v s).sync = s.sync := rfl
@[simp] theorem setChan_pins (k : Nat) (v : Chan) : (setChan k v s).pins = s.pins := rfl
@[simp] theorem setChan_line (k : Nat) (v : Chan) : (setChan k v s).line = s.line := rfl
@[simp] theorem setChan_clock (k : Nat) (v : Chan) : (setChan k v s).clock = s.clock := rfl
@[simp] theorem setChan_hold (k : Nat) (v : Chan) : (setChan k v s).hold = s.hold := rfl
@[simp] theorem setChan_events (k : Nat) (v : Chan) : (setChan k v s).events = s.events := rfl
@[simp] theorem setChan_env (k : Nat) (v : Chan) : (setChan k v s).env = s.env := rfl

/-! `writePinDir` -/

@[simp] theorem writePinDir_cfg (d : PinDir) : (writePinDir d s).cfg = s.cfg := rfl
@[simp] theorem writePinDir_crc (d : PinDir) : (writePinDir d s).crc = s.crc := rfl
@[simp] theorem writePinDir_asm (d : PinDir) : (writePinDir d s).asm = s.asm := rfl
@[simp] theorem writePinDir_chan (d : PinDir) : (writePinDir d s).chan = s.chan := rfl
@[simp] theorem writePinDir_link (d : PinDir) : (writePinDir d s).link = s.link := rfl
@[simp] theorem writePinDir_baud (d : PinDir) : (writePinDir d s).baud = s.baud := rfl
@[simp] theorem writePinDir_pw (d : PinDir) : (writePinDir d s).pw = s.pw := rfl
@[simp] theorem writePinDir_tx (d : PinDir) : (writePinDir d s).tx = s.tx := rfl
@[simp] theorem writePinDir_sync (d : PinDir) : (writePinDir d s).sync = s.sync := rfl
@[simp] theorem writePinDir_pins (d : PinDir) : (writePinDir d s).pins = { s.pins with dir := d } := rfl
@[simp] theorem writePinDir_line (d : PinDir) : (writePinDir d s).line = s.line := rfl
@[simp] theorem writePinDir_clock (d : PinDir) : (writePinDir d s).clock = s.clock := rfl
@[simp] theorem writePinDir_hold (d : PinDir) : (writePinDir d s).hold = s.hold := rfl
@[simp] theorem writePinDir_events (d : PinDir) : (writePinDir d s).events = s.events ++ [.pinDir d] := rfl
@[simp] theorem writePinDir_env (d : PinDir) : (writePinDir d s).env = s.env := rfl

/-! `writePinPull` -/

@[simp] theorem writePinPull_cfg (p : PinPull) : (writePinPull p s).cfg = s.cfg := rfl
@[simp] theorem writePinPull_crc (p : PinPull) : (writePinPull p s).crc = s.crc := rfl
@[simp] theorem writePinPull_asm (p : PinPull) : (writePinPull p s).asm = s.asm := rfl
@[simp] theorem writePinPull_chan (p : PinPull) : (writePinPull p s).chan = s.chan := rfl
@[simp] theorem writePinPull_link (p : PinPull) : (writePinPull p s).link = s.link := rfl
@[simp] theorem writePinPull_baud (p : PinPull) : (writePinPull p s).baud = s.baud := rfl
@[simp] theorem writePinPull_pw (p : PinPull) : (writePinPull p s).pw = s.pw := rfl
@[simp] theorem writePinPull_tx (p : PinPull) : (writePinPull p s).tx = s.tx := rfl
@[simp] theorem writePinPull_sync (p : PinPull) : (writePinPull p s).sync = s.sync := rfl
@[simp] theorem writePinPull_pins (p : PinPull) : (writePinPull p s).pins = { s.pins with pull := p } := rfl
@[simp] theorem writePinPull_line (p : PinPull) : (writePinPull p s).line = s.line := rfl
@[simp] theorem writePinPull_clock (p : PinPull) : (writePinPull p s).clock = s.clock := rfl
@[simp] theorem writePinPull_hold (p : PinPull) : (writePinPull p s).hold = s.hold := rfl
@[simp] theorem writePinPull_events (p : PinPull) : (writePinPull p s).events = s.events ++ [.pinPull p] := rfl
@[simp] theorem writePinPull_env (p : PinPull) : (writePinPull p s).env = s.env := rfl

/-! `writePinLevel` -/

@[simp] theorem writePinLevel_cfg (l : PinLevel) : (writePinLevel l s).cfg = s.cfg := rfl
@[simp] theorem writePinLevel_crc (l : PinLevel) : (writePinLevel l s).crc = s.crc := rfl
@[simp] theorem writePinLevel_asm (l : PinLevel) : (writePinLevel l s).asm = s.asm := rfl
@[simp] theorem writePinLevel_chan (l : PinLevel) : (writePinLevel l s).chan = s.chan := rfl
@[simp] theorem writePinLevel_link (l : PinLevel) : (writePinLevel l s).link = s.link := rfl
@[simp] theorem writePinLevel_baud (l : PinLevel) : (writePinLevel l s).baud = s.baud := rfl
@[simp] theorem writePinLevel_pw (l : PinLevel) : (writePinLevel l s).pw = s.pw := rfl
@[simp] theorem writePinLevel_tx (l : PinLevel) : (writePinLevel l s).tx = s.tx := rfl
@[simp] theorem writePinLevel_sync (l : PinLevel) : (writePinLevel l s).sync = s.sync := rfl
@[simp] theorem writePinLevel_pins (l : PinLevel) : (writePinLevel l s).pins = { s.pins with level := l } := rfl
@[simp] theorem writePinLevel_line (l : PinLevel) : (writePinLevel l s).line = s.line := rfl
@[simp] theorem writePinLevel_clock (l : PinLevel) : (writePinLevel l s).clock = s.clock := rfl
@[simp] theorem writePinLevel_hold (l : PinLevel) : (writePinLevel l s).hold = s.hold := rfl
@[simp] theorem writePinLevel_events (l : PinLevel) : (writePinLevel l s).events = s.events ++ [.pinLevel l] := rfl
@[simp] theorem writePinLevel_env (l : PinLevel) : (writePinLevel l s).env = s.env := rfl

/-! `writeRxPath` -/

@[simp] theorem writeRxPath_cfg (c v : Bool) : (writeRxPath c v s).cfg = s.cfg := rfl
@[simp] theorem writeRxPath_crc (c v : Bool) : (writeRxPath c v s).crc = s.crc := rfl
@[simp] theorem writeRxPath_asm (c v : Bool) : (writeRxPath c v s).asm = s.asm := rfl
@[simp] theorem writeRxPath_chan (c v : Bool) : (writeRxPath c v s).chan = s.chan := rfl
@[simp] theorem writeRxPath_link (c v : Bool) : (writeRxPath c v s).link = s.link := rfl
@[simp] theorem writeRxPath_baud (c v : Bool) : (writeRxPath c v s).baud = s.baud := rfl
@[simp] theorem writeRxPath_pw (c v : Bool) : (writeRxPath c v s).pw = s.pw := rfl
@[simp] theorem writeRxPath_tx (c v : Bool) : (writeRxPath c v s).tx = s.tx := rfl
@[simp] theorem writeRxPath_sync (c v : Bool) : (writeRxPath c v s).sync = s.sync := rfl
@[simp] theorem writeRxPath_pins (c v : Bool) : (writeRxPath c v s).pins = { s.pins with rxConnected := c, rxInvert := v } := rfl
@[simp] theorem writeRxPath_line (c v : Bool) : (writeRxPath c v s).line = s.line := rfl
@[simp] theorem writeRxPath_clock (c v : Bool) : (writeRxPath c v s).clock = s.clock := rfl
@[simp] theorem writeRxPath_hold (c v : Bool) : (writeRxPath c v s).hold = s.hold := rfl
@[simp] theorem writeRxPath_events (c v : Bool) : (writeRxPath c v s).events = s.events ++ [.rxPath c v] := rfl
@[simp] theorem writeRxPath_env (c v : Bool) : (writeRxPath c v s).env = s.env := rfl

/-! `writeTxPath` -/

@[simp] theorem writeTxPath_cfg (c v : Bool) : (writeTxPath c v s).cfg = s.cfg := rfl
@[simp] theorem writeTxPath_crc (c v : Bool) : (writeTxPath c v s).crc = s.crc := rfl
@[simp] theorem writeTxPath_asm (c v : Bool) : (writeTxPath c v s).asm = s.asm := rfl
@[simp] theorem writeTxPath_chan (c v : Bool) : (writeTxPath c v s).chan = s.chan := rfl
@[simp] theorem writeTxPath_link (c v : Bool) : (writeTxPath c v s).link = s.link := rfl
@[simp] theorem writeTxPath_baud (c v : Bool) : (writeTxPath c v s).baud = s.baud := rfl
@[simp] theorem writeTxPath_pw (c v : Bool) : (writeTxPath c v s).pw = s.pw := rfl
@[simp] theorem writeTxPath_tx (c v : Bool) : (writeTxPath c v s).tx = s.tx := rfl
@[simp] theorem writeTxPath_sync (c v : Bool) : (writeTxPath c v s).sync = s.sync := rfl
@[simp] theorem writeTxPath_pins (c v : Bool) : (writeTxPath c v s).pins = { s.pins with txConnected := c, txInvert := v } := rfl
@[simp] theorem writeTxPath_line (c v : Bool) : (writeTxPath c v s).line = s.line := rfl
@[simp] theorem writeTxPath_clock (c v : Bool) : (writeTxPath c v s).clock = s.clock := rfl
@[simp] theorem writeTxPath_hold (c v : Bool) : (writeTxPath c v s).hold = s.hold := rfl
@[simp] theorem writeTxPath_events (c v : Bool) : (writeTxPath c v s).events = s.events ++ [.txPath c v] := rfl
@[simp] theorem writeTxPath_env (c v : Bool) : (writeTxPath c v s).env = s.env := rfl

/-! `writeLineMode` -/

@[simp] theorem writeLineMode_cfg (m : LineMode) : (writeLineMode m s).cfg = s.cfg := rfl
@[simp] theorem writeLineMode_crc (m : LineMode) : (writeLineMode m s).crc = s.crc := rfl
@[simp] theorem writeLineMode_asm (m : LineMode) : (writeLineMode m s).asm = s.asm := rfl
@[simp] theorem writeLineMode_chan (m : LineMode) : (writeLineMode m s).chan = s.chan := rfl
@[simp] theorem writeLineMode_link (m : LineMode) : (writeLineMode m s).link = s.link := rfl
@[simp] theorem writeLineMode_baud (m : LineMode) : (writeLineMode m s).baud = s.baud := rfl
@[simp] theorem writeLineMode_pw (m : LineMode) : (writeLineMode m s).pw = s.pw := rfl
@[simp] theorem writeLineMode_tx (m : LineMode) : (writeLineMode m s).tx = s.tx := rfl
@[simp] theorem writeLineMode_sync (m : LineMode) : (writeLineMode m s).sync = s.sync := rfl
@[simp] theorem writeLineMode_pins (m : LineMode) : (writeLineMode m s).pins = { s.pins with mode := m } := rfl
@[simp] theorem writeLineMode_line (m : LineMode) : (writeLineMode m s).line = s.line := rfl
@[simp] theorem writeLineMode_clock (m : LineMode) : (writeLineMode m s).clock = s.clock := rfl
@[simp] theorem writeLineMode_hold (m : LineMode) : (writeLineMode m s).hold = s.hold := rfl
@[simp] theorem writeLineMode_events (m : LineMode) : (writeLineMode m s).events = s.events := rfl
@[simp] theorem writeLineMode_env (m : LineMode) : (writeLineMode m s).env = s.env := rfl

/-! `setReceive` -/

@[simp] theorem setReceive_cfg (v : Bool) : (setReceive v s).cfg = s.cfg := by
  simp [setReceive]
@[simp] theorem setReceive_crc (v : Bool) : (setReceive v s).crc = s.crc := by
  simp [setReceive]
@[simp] theorem setReceive_asm (v : Bool) : (setReceive v s).asm = s.asm := by
  simp [setReceive]
@[simp] theorem setReceive_chan (v : Bool) : (setReceive v s).chan = s.chan := by
  simp [setReceive]
@[simp] theorem setReceive_link (v : Bool) : (setReceive v s).link = s.link := by
  simp [setReceive]
@[simp] theorem setReceive_baud (v : Bool) : (setReceive v s).baud = s.baud := by
  simp [setReceive]
@[simp] theorem setReceive_pw (v : Bool) : (setReceive v s).pw = s.pw := by
  simp [setReceive]
@[simp] theorem setReceive_tx (v : Bool) : (setReceive v s).tx = s.tx := by
  simp [setReceive]
@[simp] theorem setReceive_sync (v : Bool) : (setReceive v s).sync = s.sync := by
  simp [setReceive]
@[simp] theorem setReceive_pins (v : Bool) : (setReceive v s).pins = { s.pins with dir := .input, pull := idlePull v, rxConnected := true, rxInvert := v, txConnected := false, mode := .rx } := by
  simp [setReceive]
@[simp] theorem setReceive_line (v : Bool) : (setReceive v s).line = s.line := by
  simp [setReceive]
@[simp] theorem setReceive_clock (v : Bool) : (setReceive v s).clock = s.clock := by
  simp [setReceive]
@[simp] theorem setReceive_hold (v : Bool) : (setReceive v s).hold = s.hold := by
  simp [setReceive]
@[simp] theorem setReceive_events (v : Bool) : (setReceive v s).events = s.events ++ [.txPath false s.pins.txInvert] ++ [.pinDir .input] ++ [.pinPull (idlePull v)] ++ [.rxPath true v] := by
  simp [setReceive]
@[simp] theorem setReceive_env (v : Bool) : (setReceive v s).env = s.env := by
  simp [setReceive]

/-! `setTransmit` -/

@[simp] theorem setTransmit_cfg (v : Bool) : (setTransmit v s).cfg = s.cfg := by
  simp [setTransmit]
@[simp] theorem setTransmit_crc (v : Bool) : (setTransmit v s).crc = s.crc := by
  simp [setTransmit]
@[simp] theorem setTransmit_asm (v : Bool) : (setTransmit v s).asm = s.asm := by
  simp [setTransmit]
@[simp] theorem setTransmit_chan (v : Bool) : (setTransmit v s).chan = s.chan := by
  simp [setTransmit]
@[simp] theorem setTransmit_link (v : Bool) : (setTransmit v s).link = s.link := by
  simp [setTransmit]
@[simp] theorem setTransmit_baud (v : Bool) : (setTransmit v s).baud = s.baud := by
  simp [setTransmit]
@[simp] theorem setTransmit_pw (v : Bool) : (setTransmit v s).pw = s.pw := by
  simp [setTransmit]
@[simp] theorem setTransmit_tx (v : Bool) : (setTransmit v s).tx = s.tx := by
  simp [setTransmit]
@[simp] theorem setTransmit_sync (v : Bool) : (setTransmit v s).sync = s.sync := by
  simp [setTransmit]
@[simp] theorem setTransmit_pins (v : Bool) : (setTransmit v s).pins = { s.pins with dir := .output, pull := .none, level := idleLevel v, rxConnected := false, txConnected := true, txInvert := v, mode := .tx } := by
  simp [setTransmit]
@[simp] theorem setTransmit_line (v : Bool) : (setTransmit v s).line = s.line := by
  simp [setTransmit]
@[simp] theorem setTransmit_clock (v : Bool) : (setTransmit v s).clock = s.clock := by
  simp [setTransmit]
@[simp] theorem setTransmit_hold (v : Bool) : (setTransmit v s).hold = s.hold := by
  simp [setTransmit]
@[simp] theorem setTransmit_events (v : Bool) : (setTransmit v s).events = s.events ++ [.rxPath false s.pins.rxInvert] ++ [.pinLevel (idleLevel v)] ++ [.pinPull .none] ++ [.pinDir .output] ++ [.txPath true v] := by
  simp [setTransmit]
@[simp] theorem setTransmit_env (v : Bool) : (setTransmit v s).env = s.env := by
  simp [setTransmit]

/-! `followPolarity` -/

@[simp] theorem followPolarity_cfg (v : Bool) : (followPolarity v s).cfg = s.cfg := by
  simp [followPolarity]
@[simp] theorem followPolarity_crc (v : Bool) : (followPolarity v s).crc = s.crc := by
  simp [followPolarity]
@[simp] theorem followPolarity_asm (v : Bool) : (followPolarity v s).asm = s.asm := by
  simp [followPolarity]
@[simp] theorem followPolarity_chan (v : Bool) : (followPolarity v s).chan = s.chan := by
  simp [followPolarity]
@[simp] theorem followPolarity_link (v : Bool) : (followPolarity v s).link = s.link := by
  simp [followPolarity]
@[simp] theorem followPolarity_baud (v : Bool) : (followPolarity v s).baud = s.baud := by
  simp [followPolarity]
@[simp] theorem followPolarity_pw (v : Bool) : (followPolarity v s).pw = s.pw := by
  simp [followPolarity]
@[simp] theorem followPolarity_tx (v : Bool) : (followPolarity v s).tx = s.tx := by
  simp [followPolarity]
@[simp] theorem followPolarity_sync (v : Bool) : (followPolarity v s).sync = s.sync := by
  simp [followPolarity]
@[simp] theorem followPolarity_pins (v : Bool) : (followPolarity v s).pins = { s.pins with pull := idlePull v, rxInvert := v, txInvert := v } := by
  simp [followPolarity]
@[simp] theorem followPolarity_line (v : Bool) : (followPolarity v s).line = s.line := by
  simp [followPolarity]
@[simp] theorem followPolarity_clock (v : Bool) : (followPolarity v s).clock = s.clock := by
  simp [followPolarity]
@[simp] theorem followPolarity_hold (v : Bool) : (followPolarity v s).hold = s.hold := by
  simp [followPolarity]
@[simp] theorem followPolarity_events (v : Bool) : (followPolarity v s).events = s.events ++ [.pinPull (idlePull v)] ++ [.rxPath s.pins.rxConnected v] ++ [.txPath s.pins.txConnected v] := by
  simp [followPolarity]
@[simp] theorem followPolarity_env (v : Bool) : (followPolarity v s).env = s.env := by
  simp [followPolarity]

/-! `receiveBytes` -/

@[simp] theorem receiveBytes_cfg (bs : List Byte) : (receiveBytes bs s).cfg = s.cfg := rfl
@[simp] theorem receiveBytes_crc (bs : List Byte) : (receiveBytes bs s).crc = s.crc := rfl
@[simp] theorem receiveBytes_asm (bs : List Byte) : (receiveBytes bs s).asm = s.asm := rfl
@[simp] theorem receiveBytes_chan (bs : List Byte) : (receiveBytes bs s).chan = s.chan := rfl
@[simp] theorem receiveBytes_link (bs : List Byte) : (receiveBytes bs s).link = s.link := rfl
@[simp] theorem receiveBytes_baud (bs : List Byte) : (receiveBytes bs s).baud = s.baud := rfl
@[simp] theorem receiveBytes_pw (bs : List Byte) : (receiveBytes bs s).pw = s.pw := rfl
@[simp] theorem receiveBytes_tx (bs : List Byte) : (receiveBytes bs s).tx = s.tx := rfl
@[simp] theorem receiveBytes_sync (bs : List Byte) : (receiveBytes bs s).sync = s.sync := rfl
@[simp] theorem receiveBytes_pins (bs : List Byte) : (receiveBytes bs s).pins = s.pins := rfl
@[simp] theorem receiveBytes_line (bs : List Byte) : (receiveBytes bs s).line = { s.line with rxhw := s.line.rxhw ++ bs } := rfl
@[simp] theorem receiveBytes_clock (bs : List Byte) : (receiveBytes bs s).clock = s.clock := rfl
@[simp] theorem receiveBytes_hold (bs : List Byte) : (receiveBytes bs s).hold = s.hold := rfl
@[simp] theorem receiveBytes_events (bs : List Byte) : (receiveBytes bs s).events = s.events := rfl
@[simp] theorem receiveBytes_env (bs : List Byte) : (receiveBytes bs s).env = s.env := rfl

/-! `stampRc` -/

@[simp] theorem stampRc_cfg (us : Word) : (stampRc us s).cfg = s.cfg := rfl
@[simp] theorem stampRc_crc (us : Word) : (stampRc us s).crc = s.crc := rfl
@[simp] theorem stampRc_asm (us : Word) : (stampRc us s).asm = s.asm := rfl
@[simp] theorem stampRc_chan (us : Word) : (stampRc us s).chan = s.chan := rfl
@[simp] theorem stampRc_link (us : Word) : (stampRc us s).link = { s.link with tLastRc := us, rcSeen := true } := rfl
@[simp] theorem stampRc_baud (us : Word) : (stampRc us s).baud = s.baud := rfl
@[simp] theorem stampRc_pw (us : Word) : (stampRc us s).pw = s.pw := rfl
@[simp] theorem stampRc_tx (us : Word) : (stampRc us s).tx = s.tx := rfl
@[simp] theorem stampRc_sync (us : Word) : (stampRc us s).sync = s.sync := rfl
@[simp] theorem stampRc_pins (us : Word) : (stampRc us s).pins = s.pins := rfl
@[simp] theorem stampRc_line (us : Word) : (stampRc us s).line = s.line := rfl
@[simp] theorem stampRc_clock (us : Word) : (stampRc us s).clock = s.clock := rfl
@[simp] theorem stampRc_hold (us : Word) : (stampRc us s).hold = s.hold := rfl
@[simp] theorem stampRc_events (us : Word) : (stampRc us s).events = s.events := rfl
@[simp] theorem stampRc_env (us : Word) : (stampRc us s).env = s.env := rfl

/-! `countGood` -/

@[simp] theorem countGood_cfg : (countGood s).cfg = s.cfg := rfl
@[simp] theorem countGood_crc : (countGood s).crc = s.crc := rfl
@[simp] theorem countGood_asm : (countGood s).asm = s.asm := rfl
@[simp] theorem countGood_chan : (countGood s).chan = s.chan := rfl
@[simp] theorem countGood_link : (countGood s).link = { s.link with goodCnt := countUp s.cfg s.link.goodCnt } := rfl
@[simp] theorem countGood_baud : (countGood s).baud = s.baud := rfl
@[simp] theorem countGood_pw : (countGood s).pw = s.pw := rfl
@[simp] theorem countGood_tx : (countGood s).tx = s.tx := rfl
@[simp] theorem countGood_sync : (countGood s).sync = s.sync := rfl
@[simp] theorem countGood_pins : (countGood s).pins = s.pins := rfl
@[simp] theorem countGood_line : (countGood s).line = s.line := rfl
@[simp] theorem countGood_clock : (countGood s).clock = s.clock := rfl
@[simp] theorem countGood_hold : (countGood s).hold = s.hold := rfl
@[simp] theorem countGood_events : (countGood s).events = s.events := rfl
@[simp] theorem countGood_env : (countGood s).env = s.env := rfl

/-! `countBad` -/

@[simp] theorem countBad_cfg : (countBad s).cfg = s.cfg := rfl
@[simp] theorem countBad_crc : (countBad s).crc = s.crc := rfl
@[simp] theorem countBad_asm : (countBad s).asm = s.asm := rfl
@[simp] theorem countBad_chan : (countBad s).chan = s.chan := rfl
@[simp] theorem countBad_link : (countBad s).link = { s.link with badCnt := countUp s.cfg s.link.badCnt } := rfl
@[simp] theorem countBad_baud : (countBad s).baud = s.baud := rfl
@[simp] theorem countBad_pw : (countBad s).pw = s.pw := rfl
@[simp] theorem countBad_tx : (countBad s).tx = s.tx := rfl
@[simp] theorem countBad_sync : (countBad s).sync = s.sync := rfl
@[simp] theorem countBad_pins : (countBad s).pins = s.pins := rfl
@[simp] theorem countBad_line : (countBad s).line = s.line := rfl
@[simp] theorem countBad_clock : (countBad s).clock = s.clock := rfl
@[simp] theorem countBad_hold : (countBad s).hold = s.hold := rfl
@[simp] theorem countBad_events : (countBad s).events = s.events := rfl
@[simp] theorem countBad_env : (countBad s).env = s.env := rfl

/-! `handOver` -/

@[simp] theorem handOver_cfg (bs : List Byte) : (handOver bs s).cfg = s.cfg := rfl
@[simp] theorem handOver_crc (bs : List Byte) : (handOver bs s).crc = s.crc := rfl
@[simp] theorem handOver_asm (bs : List Byte) : (handOver bs s).asm = s.asm := rfl
@[simp] theorem handOver_chan (bs : List Byte) : (handOver bs s).chan = s.chan := rfl
@[simp] theorem handOver_link (bs : List Byte) : (handOver bs s).link = s.link := rfl
@[simp] theorem handOver_baud (bs : List Byte) : (handOver bs s).baud = s.baud := rfl
@[simp] theorem handOver_pw (bs : List Byte) : (handOver bs s).pw = s.pw := rfl
@[simp] theorem handOver_tx (bs : List Byte) : (handOver bs s).tx = { s.tx with off := s.tx.off + bs.length, rem := s.tx.rem - bs.length } := rfl
@[simp] theorem handOver_sync (bs : List Byte) : (handOver bs s).sync = s.sync := rfl
@[simp] theorem handOver_pins (bs : List Byte) : (handOver bs s).pins = s.pins := rfl
@[simp] theorem handOver_line (bs : List Byte) : (handOver bs s).line = { s.line with txhw := s.line.txhw ++ bs } := rfl
@[simp] theorem handOver_clock (bs : List Byte) : (handOver bs s).clock = s.clock := rfl
@[simp] theorem handOver_hold (bs : List Byte) : (handOver bs s).hold = s.hold := rfl
@[simp] theorem handOver_events (bs : List Byte) : (handOver bs s).events = s.events := rfl
@[simp] theorem handOver_env (bs : List Byte) : (handOver bs s).env = s.env := rfl

/-! `endCheck` -/

@[simp] theorem endCheck_cfg (ms : Word) : (endCheck ms s).cfg = s.cfg := rfl
@[simp] theorem endCheck_crc (ms : Word) : (endCheck ms s).crc = s.crc := rfl
@[simp] theorem endCheck_asm (ms : Word) : (endCheck ms s).asm = s.asm := rfl
@[simp] theorem endCheck_chan (ms : Word) : (endCheck ms s).chan = s.chan := rfl
@[simp] theorem endCheck_link (ms : Word) : (endCheck ms s).link = { s.link with wdtLastMs := ms, goodCnt := 0, badCnt := 0 } := rfl
@[simp] theorem endCheck_baud (ms : Word) : (endCheck ms s).baud = s.baud := rfl
@[simp] theorem endCheck_pw (ms : Word) : (endCheck ms s).pw = s.pw := rfl
@[simp] theorem endCheck_tx (ms : Word) : (endCheck ms s).tx = s.tx := rfl
@[simp] theorem endCheck_sync (ms : Word) : (endCheck ms s).sync = s.sync := rfl
@[simp] theorem endCheck_pins (ms : Word) : (endCheck ms s).pins = s.pins := rfl
@[simp] theorem endCheck_line (ms : Word) : (endCheck ms s).line = s.line := rfl
@[simp] theorem endCheck_clock (ms : Word) : (endCheck ms s).clock = s.clock := rfl
@[simp] theorem endCheck_hold (ms : Word) : (endCheck ms s).hold = s.hold := rfl
@[simp] theorem endCheck_events (ms : Word) : (endCheck ms s).events = s.events := rfl
@[simp] theorem endCheck_env (ms : Word) : (endCheck ms s).env = s.env := rfl

/-! `setPhase` -/

@[simp] theorem setPhase_cfg (p : AbPhase) (v : Bool) : (setPhase p v s).cfg = s.cfg := rfl
@[simp] theorem setPhase_crc (p : AbPhase) (v : Bool) : (setPhase p v s).crc = s.crc := rfl
@[simp] theorem setPhase_asm (p : AbPhase) (v : Bool) : (setPhase p v s).asm = s.asm := rfl
@[simp] theorem setPhase_chan (p : AbPhase) (v : Bool) : (setPhase p v s).chan = s.chan := rfl
@[simp] theorem setPhase_link (p : AbPhase) (v : Bool) : (setPhase p v s).link = s.link := rfl
@[simp] theorem setPhase_baud (p : AbPhase) (v : Bool) : (setPhase p v s).baud = { s.baud with phase := p, inverted := v } := rfl
@[simp] theorem setPhase_pw (p : AbPhase) (v : Bool) : (setPhase p v s).pw = s.pw := rfl
@[simp] theorem setPhase_tx (p : AbPhase) (v : Bool) : (setPhase p v s).tx = s.tx := rfl
@[simp] theorem setPhase_sync (p : AbPhase) (v : Bool) : (setPhase p v s).sync = s.sync := rfl
@[simp] theorem setPhase_pins (p : AbPhase) (v : Bool) : (setPhase p v s).pins = s.pins := rfl
@[simp] theorem setPhase_line (p : AbPhase) (v : Bool) : (setPhase p v s).line = s.line := rfl
@[simp] theorem setPhase_clock (p : AbPhase) (v : Bool) : (setPhase p v s).clock = s.clock := rfl
@[simp] theorem setPhase_hold (p : AbPhase) (v : Bool) : (setPhase p v s).hold = s.hold := rfl
@[simp] theorem setPhase_events (p : AbPhase) (v : Bool) : (setPhase p v s).events = s.events := rfl
@[simp] theorem setPhase_env (p : AbPhase) (v : Bool) : (setPhase p v s).env = s.env := rfl

/-! `configureLine` -/

@[simp] theorem configureLine_cfg (c : Nat) : (configureLine c s).cfg = s.cfg := rfl
@[simp] theorem configureLine_crc (c : Nat) : (configureLine c s).crc = s.crc := rfl
@[simp] theorem configureLine_asm (c : Nat) : (configureLine c s).asm = s.asm := rfl
@[simp] theorem configureLine_chan (c : Nat) : (configureLine c s).chan = s.chan := rfl
@[simp] theorem configureLine_link (c : Nat) : (configureLine c s).link = s.link := rfl
@[simp] theorem configureLine_baud (c : Nat) : (configureLine c s).baud = { s.baud with cur := BitVec.ofNat 32 c } := rfl
@[simp] theorem configureLine_pw (c : Nat) : (configureLine c s).pw = s.pw := rfl
@[simp] theorem configureLine_tx (c : Nat) : (configureLine c s).tx = s.tx := rfl
@[simp] theorem configureLine_sync (c : Nat) : (configureLine c s).sync = s.sync := rfl
@[simp] theorem configureLine_pins (c : Nat) : (configureLine c s).pins = s.pins := rfl
@[simp] theorem configureLine_line (c : Nat) : (configureLine c s).line = s.line := rfl
@[simp] theorem configureLine_clock (c : Nat) : (configureLine c s).clock = s.clock := rfl
@[simp] theorem configureLine_hold (c : Nat) : (configureLine c s).hold = s.hold := rfl
@[simp] theorem configureLine_events (c : Nat) : (configureLine c s).events = s.events ++ [.lineConfig c s.baud.inverted] := rfl
@[simp] theorem configureLine_env (c : Nat) : (configureLine c s).env = s.env := rfl

/-! `issue` -/

@[simp] theorem issue_cfg (c : Command) (rest : List Command) : (issue c rest s).cfg = s.cfg := rfl
@[simp] theorem issue_crc (c : Command) (rest : List Command) : (issue c rest s).crc = s.crc := rfl
@[simp] theorem issue_asm (c : Command) (rest : List Command) : (issue c rest s).asm = s.asm := rfl
@[simp] theorem issue_chan (c : Command) (rest : List Command) : (issue c rest s).chan = s.chan := rfl
@[simp] theorem issue_link (c : Command) (rest : List Command) : (issue c rest s).link = s.link := rfl
@[simp] theorem issue_baud (c : Command) (rest : List Command) : (issue c rest s).baud = s.baud := rfl
@[simp] theorem issue_pw (c : Command) (rest : List Command) : (issue c rest s).pw = s.pw := rfl
@[simp] theorem issue_tx (c : Command) (rest : List Command) : (issue c rest s).tx = s.tx := rfl
@[simp] theorem issue_sync (c : Command) (rest : List Command) : (issue c rest s).sync = s.sync := rfl
@[simp] theorem issue_pins (c : Command) (rest : List Command) : (issue c rest s).pins = s.pins := rfl
@[simp] theorem issue_line (c : Command) (rest : List Command) : (issue c rest s).line = s.line := rfl
@[simp] theorem issue_clock (c : Command) (rest : List Command) : (issue c rest s).clock = s.clock + c.advance := rfl
@[simp] theorem issue_hold (c : Command) (rest : List Command) : (issue c rest s).hold = s.hold := rfl
@[simp] theorem issue_events (c : Command) (rest : List Command) : (issue c rest s).events = s.events := rfl
@[simp] theorem issue_env (c : Command) (rest : List Command) : (issue c rest s).env = { s.env with pending := rest, slots := c.slots } := rfl

/-! `resetState` -/

@[simp] theorem resetState_cfg : (resetState s).cfg = s.cfg := rfl
@[simp] theorem resetState_events : (resetState s).events = s.events := rfl

/-! `markReceived` -/

@[simp] theorem markReceived_cfg (us : Word) : (markReceived us s).cfg = s.cfg := by
  unfold markReceived; cases s.link.connected <;> rfl
@[simp] theorem markReceived_crc (us : Word) : (markReceived us s).crc = s.crc := by
  unfold markReceived; cases s.link.connected <;> rfl
@[simp] theorem markReceived_asm (us : Word) : (markReceived us s).asm = s.asm := by
  unfold markReceived; cases s.link.connected <;> rfl
@[simp] theorem markReceived_chan (us : Word) : (markReceived us s).chan = s.chan := by
  unfold markReceived; cases s.link.connected <;> rfl
@[simp] theorem markReceived_baud (us : Word) : (markReceived us s).baud = s.baud := by
  unfold markReceived; cases s.link.connected <;> rfl
@[simp] theorem markReceived_pw (us : Word) : (markReceived us s).pw = s.pw := by
  unfold markReceived; cases s.link.connected <;> rfl
@[simp] theorem markReceived_tx (us : Word) : (markReceived us s).tx = s.tx := by
  unfold markReceived; cases s.link.connected <;> rfl
@[simp] theorem markReceived_sync (us : Word) : (markReceived us s).sync = s.sync := by
  unfold markReceived; cases s.link.connected <;> rfl
@[simp] theorem markReceived_pins (us : Word) : (markReceived us s).pins = s.pins := by
  unfold markReceived; cases s.link.connected <;> rfl
@[simp] theorem markReceived_line (us : Word) : (markReceived us s).line = s.line := by
  unfold markReceived; cases s.link.connected <;> rfl
@[simp] theorem markReceived_clock (us : Word) : (markReceived us s).clock = s.clock := by
  unfold markReceived; cases s.link.connected <;> rfl
@[simp] theorem markReceived_hold (us : Word) : (markReceived us s).hold = s.hold := by
  unfold markReceived; cases s.link.connected <;> rfl
@[simp] theorem markReceived_env (us : Word) : (markReceived us s).env = s.env := by
  unfold markReceived; cases s.link.connected <;> rfl

/-! `pwEnable` -/

@[simp] theorem pwEnable_cfg : (pwEnable s).cfg = s.cfg := by
  unfold pwEnable; split <;> rfl
@[simp] theorem pwEnable_crc : (pwEnable s).crc = s.crc := by
  unfold pwEnable; split <;> rfl
@[simp] theorem pwEnable_asm : (pwEnable s).asm = s.asm := by
  unfold pwEnable; split <;> rfl
@[simp] theorem pwEnable_chan : (pwEnable s).chan = s.chan := by
  unfold pwEnable; split <;> rfl
@[simp] theorem pwEnable_link : (pwEnable s).link = s.link := by
  unfold pwEnable; split <;> rfl
@[simp] theorem pwEnable_baud : (pwEnable s).baud = s.baud := by
  unfold pwEnable; split <;> rfl
@[simp] theorem pwEnable_tx : (pwEnable s).tx = s.tx := by
  unfold pwEnable; split <;> rfl
@[simp] theorem pwEnable_sync : (pwEnable s).sync = s.sync := by
  unfold pwEnable; split <;> rfl
@[simp] theorem pwEnable_pins : (pwEnable s).pins = s.pins := by
  unfold pwEnable; split <;> rfl
@[simp] theorem pwEnable_line : (pwEnable s).line = s.line := by
  unfold pwEnable; split <;> rfl
@[simp] theorem pwEnable_clock : (pwEnable s).clock = s.clock := by
  unfold pwEnable; split <;> rfl
@[simp] theorem pwEnable_hold : (pwEnable s).hold = s.hold := by
  unfold pwEnable; split <;> rfl
@[simp] theorem pwEnable_events : (pwEnable s).events = s.events := by
  unfold pwEnable; split <;> rfl
@[simp] theorem pwEnable_env : (pwEnable s).env = s.env := by
  unfold pwEnable; split <;> rfl

/-! `crcnRebuild` -/

@[simp] theorem crcnRebuild_cfg : (crcnRebuild s).cfg = s.cfg := by
  unfold crcnRebuild; split <;> rfl
@[simp] theorem crcnRebuild_asm : (crcnRebuild s).asm = s.asm := by
  unfold crcnRebuild; split <;> rfl
@[simp] theorem crcnRebuild_chan : (crcnRebuild s).chan = s.chan := by
  unfold crcnRebuild; split <;> rfl
@[simp] theorem crcnRebuild_link : (crcnRebuild s).link = s.link := by
  unfold crcnRebuild; split <;> rfl
@[simp] theorem crcnRebuild_baud : (crcnRebuild s).baud = s.baud := by
  unfold crcnRebuild; split <;> rfl
@[simp] theorem crcnRebuild_pw : (crcnRebuild s).pw = s.pw := by
  unfold crcnRebuild; split <;> rfl
@[simp] theorem crcnRebuild_tx : (crcnRebuild s).tx = s.tx := by
  unfold crcnRebuild; split <;> rfl
@[simp] theorem crcnRebuild_sync : (crcnRebuild s).sync = s.sync := by
  unfold crcnRebuild; split <;> rfl
@[simp] theorem crcnRebuild_pins : (crcnRebuild s).pins = s.pins := by
  unfold crcnRebuild; split <;> rfl
@[simp] theorem crcnRebuild_line : (crcnRebuild s).line = s.line := by
  unfold crcnRebuild; split <;> rfl
@[simp] theorem crcnRebuild_clock : (crcnRebuild s).clock = s.clock := by
  unfold crcnRebuild; split <;> rfl
@[simp] theorem crcnRebuild_hold : (crcnRebuild s).hold = s.hold := by
  unfold crcnRebuild; split <;> rfl
@[simp] theorem crcnRebuild_events : (crcnRebuild s).events = s.events := by
  unfold crcnRebuild; split <;> rfl
@[simp] theorem crcnRebuild_env : (crcnRebuild s).env = s.env := by
  unfold crcnRebuild; split <;> rfl

/-! `txDrain` -/

@[simp] theorem txDrain_cfg : (txDrain s).cfg = s.cfg := by
  unfold txDrain; split <;> rfl
@[simp] theorem txDrain_crc : (txDrain s).crc = s.crc := by
  unfold txDrain; split <;> rfl
@[simp] theorem txDrain_asm : (txDrain s).asm = s.asm := by
  unfold txDrain; split <;> rfl
@[simp] theorem txDrain_chan : (txDrain s).chan = s.chan := by
  unfold txDrain; split <;> rfl
@[simp] theorem txDrain_link : (txDrain s).link = s.link := by
  unfold txDrain; split <;> rfl
@[simp] theorem txDrain_baud : (txDrain s).baud = s.baud := by
  unfold txDrain; split <;> rfl
@[simp] theorem txDrain_pw : (txDrain s).pw = s.pw := by
  unfold txDrain; split <;> rfl
@[simp] theorem txDrain_tx : (txDrain s).tx = s.tx := by
  unfold txDrain; split <;> rfl
@[simp] theorem txDrain_sync : (txDrain s).sync = s.sync := by
  unfold txDrain; split <;> rfl
@[simp] theorem txDrain_pins : (txDrain s).pins = s.pins := by
  unfold txDrain; split <;> rfl
@[simp] theorem txDrain_clock : (txDrain s).clock = s.clock := by
  unfold txDrain; split <;> rfl
@[simp] theorem txDrain_hold : (txDrain s).hold = s.hold := by
  unfold txDrain; split <;> rfl
@[simp] theorem txDrain_env : (txDrain s).env = s.env := by
  unfold txDrain; split <;> rfl

/-! `enqueue` -/

@[simp] theorem enqueue_cfg (f : List Byte) : (enqueue f s).cfg = s.cfg := by
  unfold enqueue; split <;> rfl
@[simp] theorem enqueue_crc (f : List Byte) : (enqueue f s).crc = s.crc := by
  unfold enqueue; split <;> rfl
@[simp] theorem enqueue_asm (f : List Byte) : (enqueue f s).asm = s.asm := by
  unfold enqueue; split <;> rfl
@[simp] theorem enqueue_chan (f : List Byte) : (enqueue f s).chan = s.chan := by
  unfold enqueue; split <;> rfl
@[simp] theorem enqueue_link (f : List Byte) : (enqueue f s).link = s.link := by
  unfold enqueue; split <;> rfl
@[simp] theorem enqueue_baud (f : List Byte) : (enqueue f s).baud = s.baud := by
  unfold enqueue; split <;> rfl
@[simp] theorem enqueue_pw (f : List Byte) : (enqueue f s).pw = s.pw := by
  unfold enqueue; split <;> rfl
@[simp] theorem enqueue_sync (f : List Byte) : (enqueue f s).sync = s.sync := by
  unfold enqueue; split <;> rfl
@[simp] theorem enqueue_pins (f : List Byte) : (enqueue f s).pins = s.pins := by
  unfold enqueue; split <;> rfl
@[simp] theorem enqueue_line (f : List Byte) : (enqueue f s).line = s.line := by
  unfold enqueue; split <;> rfl
@[simp] theorem enqueue_clock (f : List Byte) : (enqueue f s).clock = s.clock := by
  unfold enqueue; split <;> rfl
@[simp] theorem enqueue_hold (f : List Byte) : (enqueue f s).hold = s.hold := by
  unfold enqueue; split <;> rfl
@[simp] theorem enqueue_env (f : List Byte) : (enqueue f s).env = s.env := by
  unfold enqueue; split <;> rfl

/-! `syncEmit` -/

@[simp] theorem syncEmit_cfg (ms : Word) : (syncEmit ms s).cfg = s.cfg := by
  unfold syncEmit; split
  · exact enqueue_cfg s (timingFrame s)
  · rfl
@[simp] theorem syncEmit_crc (ms : Word) : (syncEmit ms s).crc = s.crc := by
  unfold syncEmit; split
  · exact enqueue_crc s (timingFrame s)
  · rfl
@[simp] theorem syncEmit_asm (ms : Word) : (syncEmit ms s).asm = s.asm := by
  unfold syncEmit; split
  · exact enqueue_asm s (timingFrame s)
  · rfl
@[simp] theorem syncEmit_chan (ms : Word) : (syncEmit ms s).chan = s.chan := by
  unfold syncEmit; split
  · exact enqueue_chan s (timingFrame s)
  · rfl
@[simp] theorem syncEmit_link (ms : Word) : (syncEmit ms s).link = s.link := by
  unfold syncEmit; split
  · exact enqueue_link s (timingFrame s)
  · rfl
@[simp] theorem syncEmit_baud (ms : Word) : (syncEmit ms s).baud = s.baud := by
  unfold syncEmit; split
  · exact enqueue_baud s (timingFrame s)
  · rfl
@[simp] theorem syncEmit_pw (ms : Word) : (syncEmit ms s).pw = s.pw := by
  unfold syncEmit; split
  · exact enqueue_pw s (timingFrame s)
  · rfl
@[simp] theorem syncEmit_pins (ms : Word) : (syncEmit ms s).pins = s.pins := by
  unfold syncEmit; split
  · exact enqueue_pins s (timingFrame s)
  · rfl
@[simp] theorem syncEmit_line (ms : Word) : (syncEmit ms s).line = s.line := by
  unfold syncEmit; split
  · exact enqueue_line s (timingFrame s)
  · rfl
@[simp] theorem syncEmit_clock (ms : Word) : (syncEmit ms s).clock = s.clock := by
  unfold syncEmit; split
  · exact enqueue_clock s (timingFrame s)
  · rfl
@[simp] theorem syncEmit_hold (ms : Word) : (syncEmit ms s).hold = s.hold := by
  unfold syncEmit; split
  · exact enqueue_hold s (timingFrame s)
  · rfl
@[simp] theorem syncEmit_env (ms : Word) : (syncEmit ms s).env = s.env := by
  unfold syncEmit; split
  · exact enqueue_env s (timingFrame s)
  · rfl

/-! `disconnect` -/

@[simp] theorem disconnect_cfg : (disconnect s).cfg = s.cfg := by
  unfold disconnect; split <;> rfl
@[simp] theorem disconnect_crc : (disconnect s).crc = s.crc := by
  unfold disconnect; split <;> rfl
@[simp] theorem disconnect_asm : (disconnect s).asm = s.asm := by
  unfold disconnect; split <;> rfl
@[simp] theorem disconnect_chan : (disconnect s).chan = s.chan := by
  unfold disconnect; split <;> rfl
@[simp] theorem disconnect_baud : (disconnect s).baud = s.baud := by
  unfold disconnect; split <;> rfl
@[simp] theorem disconnect_pw : (disconnect s).pw = s.pw := by
  unfold disconnect; split <;> rfl
@[simp] theorem disconnect_sync : (disconnect s).sync = s.sync := by
  unfold disconnect; split <;> rfl
@[simp] theorem disconnect_pins : (disconnect s).pins = s.pins := by
  unfold disconnect; split <;> rfl
@[simp] theorem disconnect_line : (disconnect s).line = s.line := by
  unfold disconnect; split <;> rfl
@[simp] theorem disconnect_clock : (disconnect s).clock = s.clock := by
  unfold disconnect; split <;> rfl
@[simp] theorem disconnect_hold : (disconnect s).hold = s.hold := by
  unfold disconnect; split <;> rfl
@[simp] theorem disconnect_env : (disconnect s).env = s.env := by
  unfold disconnect; split <;> rfl

/-! `endBurst` -/

@[simp] theorem endBurst_cfg : (endBurst s).cfg = s.cfg := by
  unfold endBurst; split <;> simp
@[simp] theorem endBurst_crc : (endBurst s).crc = s.crc := by
  unfold endBurst; split <;> simp
@[simp] theorem endBurst_asm : (endBurst s).asm = s.asm := by
  unfold endBurst; split <;> simp
@[simp] theorem endBurst_chan : (endBurst s).chan = s.chan := by
  unfold endBurst; split <;> simp
@[simp] theorem endBurst_link : (endBurst s).link = s.link := by
  unfold endBurst; split <;> simp
@[simp] theorem endBurst_baud : (endBurst s).baud = s.baud := by
  unfold endBurst; split <;> simp
@[simp] theorem endBurst_pw : (endBurst s).pw = s.pw := by
  unfold endBurst; split <;> simp
@[simp] theorem endBurst_sync : (endBurst s).sync = s.sync := by
  unfold endBurst; split <;> simp
@[simp] theorem endBurst_line : (endBurst s).line = s.line := by
  unfold endBurst; split <;> simp
@[simp] theorem endBurst_clock : (endBurst s).clock = s.clock := by
  unfold endBurst; split <;> simp
@[simp] theorem endBurst_hold : (endBurst s).hold = s.hold := by
  unfold endBurst; split <;> simp
@[simp] theorem endBurst_env : (endBurst s).env = s.env := by
  unfold endBurst; split <;> simp

/-! `engageTransmit` -/

@[simp] theorem engageTransmit_cfg : (engageTransmit s).cfg = s.cfg := by
  unfold engageTransmit; split <;> simp
@[simp] theorem engageTransmit_crc : (engageTransmit s).crc = s.crc := by
  unfold engageTransmit; split <;> simp
@[simp] theorem engageTransmit_asm : (engageTransmit s).asm = s.asm := by
  unfold engageTransmit; split <;> simp
@[simp] theorem engageTransmit_chan : (engageTransmit s).chan = s.chan := by
  unfold engageTransmit; split <;> simp
@[simp] theorem engageTransmit_link : (engageTransmit s).link = s.link := by
  unfold engageTransmit; split <;> simp
@[simp] theorem engageTransmit_baud : (engageTransmit s).baud = s.baud := by
  unfold engageTransmit; split <;> simp
@[simp] theorem engageTransmit_pw : (engageTransmit s).pw = s.pw := by
  unfold engageTransmit; split <;> simp
@[simp] theorem engageTransmit_sync : (engageTransmit s).sync = s.sync := by
  unfold engageTransmit; split <;> simp
@[simp] theorem engageTransmit_line : (engageTransmit s).line = s.line := by
  unfold engageTransmit; split <;> simp
@[simp] theorem engageTransmit_clock : (engageTransmit s).clock = s.clock := by
  unfold engageTransmit; split <;> simp
@[simp] theorem engageTransmit_hold : (engageTransmit s).hold = s.hold := by
  unfold engageTransmit; split <;> simp
@[simp] theorem engageTransmit_env : (engageTransmit s).env = s.env := by
  unfold engageTransmit; split <;> simp

/-! `restoreReceive` -/

@[simp] theorem restoreReceive_cfg : (restoreReceive s).cfg = s.cfg := by
  unfold restoreReceive; split <;> simp
@[simp] theorem restoreReceive_crc : (restoreReceive s).crc = s.crc := by
  unfold restoreReceive; split <;> simp
@[simp] theorem restoreReceive_asm : (restoreReceive s).asm = s.asm := by
  unfold restoreReceive; split <;> simp
@[simp] theorem restoreReceive_chan : (restoreReceive s).chan = s.chan := by
  unfold restoreReceive; split <;> simp
@[simp] theorem restoreReceive_link : (restoreReceive s).link = s.link := by
  unfold restoreReceive; split <;> simp
@[simp] theorem restoreReceive_baud : (restoreReceive s).baud = s.baud := by
  unfold restoreReceive; split <;> simp
@[simp] theorem restoreReceive_pw : (restoreReceive s).pw = s.pw := by
  unfold restoreReceive; split <;> simp
@[simp] theorem restoreReceive_sync : (restoreReceive s).sync = s.sync := by
  unfold restoreReceive; split <;> simp
@[simp] theorem restoreReceive_line : (restoreReceive s).line = s.line := by
  unfold restoreReceive; split <;> simp
@[simp] theorem restoreReceive_clock : (restoreReceive s).clock = s.clock := by
  unfold restoreReceive; split <;> simp
@[simp] theorem restoreReceive_hold : (restoreReceive s).hold = s.hold := by
  unfold restoreReceive; split <;> simp
@[simp] theorem restoreReceive_env : (restoreReceive s).env = s.env := by
  unfold restoreReceive; split <;> simp

/-! `promote` -/

@[simp] theorem promote_cfg : (promote s).cfg = s.cfg := by
  unfold promote; split <;> rfl
@[simp] theorem promote_crc : (promote s).crc = s.crc := by
  unfold promote; split <;> rfl
@[simp] theorem promote_asm : (promote s).asm = s.asm := by
  unfold promote; split <;> rfl
@[simp] theorem promote_chan : (promote s).chan = s.chan := by
  unfold promote; split <;> rfl
@[simp] theorem promote_link : (promote s).link = s.link := by
  unfold promote; split <;> rfl
@[simp] theorem promote_tx : (promote s).tx = s.tx := by
  unfold promote; split <;> rfl
@[simp] theorem promote_sync : (promote s).sync = s.sync := by
  unfold promote; split <;> rfl
@[simp] theorem promote_pins : (promote s).pins = s.pins := by
  unfold promote; split <;> rfl
@[simp] theorem promote_line : (promote s).line = s.line := by
  unfold promote; split <;> rfl
@[simp] theorem promote_clock : (promote s).clock = s.clock := by
  unfold promote; split <;> rfl
@[simp] theorem promote_hold : (promote s).hold = s.hold := by
  unfold promote; split <;> rfl
@[simp] theorem promote_events : (promote s).events = s.events := by
  unfold promote; split <;> rfl
@[simp] theorem promote_env : (promote s).env = s.env := by
  unfold promote; split <;> rfl

end Sys2Proof.Machine
end

