-- ==== Sys2Proof/Laws/Store.lean ====
section
/-! SUPPORT. What the byte stores do (20_memory R70 to R74): a read after a write, the canonical form, the range of every
access, and once for each primitive everything it can answer. -/

namespace Sys2Proof.Machine

/-! ### One byte -/

/-- A read after a write: the written byte at its offset, the old content everywhere else. -/
theorem readByte_writeByte (m : Memory) (x y : Nat) (v : Byte) :
    readByte (writeByte m x v) y = if y = x then some v else readByte m y := by
  induction m with
  | nil => simp [writeByte, readByte, eq_comm]
  | cons e m ih =>
    obtain ⟨a, b⟩ := e
    simp only [writeByte]
    split
    · simp only [readByte]; by_cases h : x = y <;> simp [h, eq_comm]
    · split
      · subst_vars; simp only [readByte]; by_cases h : a = y
        · simp [h]
        · simp [h, Ne.symm h]
      · simp only [readByte, ih]; by_cases h : a = y
        · have : y ≠ x := by omega
          simp [h, this]
        · simp [h]

/-- A byte just written reads back. -/
@[simp] theorem readByte_writeByte_same (m : Memory) (x : Nat) (v : Byte) : readByte (writeByte m x v) x = some v := by
  simp [readByte_writeByte]

/-- Entries start no lower than the bound. -/
theorem wfFrom_mono {m : Memory} {lo lo' : Nat} (h : wfFrom lo m = true) (hl : lo' ≤ lo) : wfFrom lo' m = true := by
  cases m with
  | nil => rfl
  | cons e m => obtain ⟨a, b⟩ := e; simp only [wfFrom, Bool.and_eq_true, decide_eq_true_eq] at h ⊢; exact ⟨⟨by omega, h.1.2⟩, h.2⟩

/-- A write inside the store keeps the canonical form. -/
theorem wfFrom_writeByte {m : Memory} {lo x : Nat} {v : Byte} (h : wfFrom lo m = true) (hlo : lo ≤ x)
    (hx : x < storeSize) : wfFrom lo (writeByte m x v) = true := by
  induction m generalizing lo with
  | nil => simpa [writeByte, wfFrom] using ⟨hlo, hx⟩
  | cons e m ih =>
    obtain ⟨a, b⟩ := e
    simp only [wfFrom, Bool.and_eq_true, decide_eq_true_eq] at h
    simp only [writeByte]
    split
    · simp only [wfFrom, Bool.and_eq_true, decide_eq_true_eq]
      exact ⟨⟨hlo, hx⟩, ⟨by omega, h.1.2⟩, h.2⟩
    · split
      · simp only [wfFrom, Bool.and_eq_true, decide_eq_true_eq]; exact h
      · simp only [wfFrom, Bool.and_eq_true, decide_eq_true_eq]
        exact ⟨h.1, ih h.2 (by omega)⟩

/-- A write inside the store keeps the canonical form. -/
theorem wf_writeByte {m : Memory} {x : Nat} {v : Byte} (h : Memory.wf m = true) (hx : x < storeSize) :
    Memory.wf (writeByte m x v) = true := wfFrom_writeByte h (Nat.zero_le x) hx

/-- A store in canonical form holds nothing below its bound. -/
theorem readByte_of_wfFrom {m : Memory} {lo x : Nat} (h : wfFrom lo m = true) (hx : x < lo) : readByte m x = none := by
  induction m generalizing lo with
  | nil => rfl
  | cons e m ih =>
    obtain ⟨a, b⟩ := e
    simp only [wfFrom, Bool.and_eq_true, decide_eq_true_eq] at h
    simp only [readByte]
    rw [if_neg (by omega)]
    exact ih h.2 (by omega)

/-- A store in canonical form holds nothing beyond its size. -/
theorem readByte_beyond {m : Memory} {lo x : Nat} (h : wfFrom lo m = true) (hx : storeSize ≤ x) : readByte m x = none := by
  induction m generalizing lo with
  | nil => rfl
  | cons e m ih =>
    obtain ⟨a, b⟩ := e
    simp only [wfFrom, Bool.and_eq_true, decide_eq_true_eq] at h
    simp only [readByte]
    rw [if_neg (by omega)]
    exact ih h.2

/-- Stores in canonical form that read alike are the same data. -/
theorem eq_of_readByte {m m' : Memory} {lo : Nat} (h : wfFrom lo m = true) (h' : wfFrom lo m' = true)
    (hr : ∀ x, readByte m x = readByte m' x) : m = m' := by
  induction m generalizing lo m' with
  | nil =>
    cases m' with
    | nil => rfl
    | cons e m' => have := hr e.1; simp [readByte] at this
  | cons e m ih =>
    obtain ⟨a, b⟩ := e
    cases m' with
    | nil => have := hr a; simp [readByte] at this
    | cons e' m' =>
      obtain ⟨a', b'⟩ := e'
      simp only [wfFrom, Bool.and_eq_true, decide_eq_true_eq] at h h'
      have hlt : ∀ {c d : Nat} {n : Memory}, wfFrom (c + 1) n = true → d < c + 1 → readByte n d = none :=
        fun hn hd => readByte_of_wfFrom hn hd
      have haa : a = a' := by
        rcases Nat.lt_trichotomy a a' with hl | hl | hl
        · have := hr a
          simp only [readByte, if_true] at this
          rw [if_neg (by omega), hlt h'.2 (by omega)] at this
          cases this
        · exact hl
        · have := hr a'
          simp only [readByte, if_true] at this
          rw [if_neg (by omega), hlt h.2 (by omega)] at this
          cases this
      subst haa
      have hb := hr a
      simp only [readByte, if_true, Option.some.injEq] at hb
      subst hb
      congr 1
      refine ih h.2 h'.2 fun x => ?_
      by_cases hx : a = x
      · subst hx; rw [hlt h.2 (by omega), hlt h'.2 (by omega)]
      · have := hr x
        simpa only [readByte, if_neg hx] using this

/-! ### Runs of bytes -/

/-- The store holds these bytes from an offset on. -/
def holdsAt (m : Memory) (off : Nat) (bs : List Byte) : Prop := ∀ i, i < bs.length → readByte m (off + i) = bs[i]?

theorem holdsAt_nil (m : Memory) (off : Nat) : holdsAt m off [] := fun i h => absurd h (Nat.not_lt_zero i)

theorem holdsAt_cons {m : Memory} {off : Nat} {b : Byte} {bs : List Byte} :
    holdsAt m off (b :: bs) ↔ readByte m off = some b ∧ holdsAt m (off + 1) bs := by
  constructor
  · intro h
    refine ⟨by simpa using h 0 (by simp), fun i hi => ?_⟩
    have := h (i + 1) (by simpa using hi)
    rwa [show off + (i + 1) = off + 1 + i by omega, List.getElem?_cons_succ] at this
  · rintro ⟨h0, h⟩ i hi
    cases i with
    | zero => simpa using h0
    | succ i =>
      rw [show off + (i + 1) = off + 1 + i by omega, List.getElem?_cons_succ]
      exact h i (by simpa using hi)

/-- Everything a run of reads can answer: the bytes held. -/
theorem readBytes_eq_ok {m : Memory} {off n : Nat} {bs : List Byte} :
    readBytes m off n = .ok bs ↔ bs.length = n ∧ holdsAt m off bs := by
  induction n generalizing off bs with
  | zero =>
    simp only [readBytes, Except.ok.injEq]
    constructor
    · rintro rfl; exact ⟨rfl, holdsAt_nil m off⟩
    · rintro ⟨h, -⟩; exact (List.length_eq_zero_iff.mp h).symm
  | succ n ih =>
    simp only [readBytes]
    cases hr : readByte m off with
    | none =>
      simp only [reduceCtorEq, false_iff, not_and]
      intro hl hh
      cases bs with
      | nil => simp at hl
      | cons b bs => have := (holdsAt_cons.mp hh).1; rw [hr] at this; cases this
    | some b =>
      cases hrest : readBytes m (off + 1) n with
      | error e =>
        simp only [andThen, reduceCtorEq, false_iff, not_and]
        intro hl hh
        cases bs with
        | nil => simp at hl
        | cons c bs =>
          have := (ih (bs := bs)).mpr ⟨by simpa using hl, (holdsAt_cons.mp hh).2⟩
          rw [hrest] at this; cases this
      | ok rest =>
        simp only [andThen, Except.ok.injEq]
        have hi := ih.mp hrest
        constructor
        · rintro rfl; exact ⟨by simp [hi.1], holdsAt_cons.mpr ⟨hr, hi.2⟩⟩
        · rintro ⟨hl, hh⟩
          cases bs with
          | nil => simp at hl
          | cons c cs =>
            obtain ⟨h1, h2⟩ := holdsAt_cons.mp hh
            rw [hr, Option.some.injEq] at h1
            subst h1
            have := (ih (bs := cs)).mpr ⟨by simpa using hl, h2⟩
            rw [hrest, Except.ok.injEq] at this
            rw [this]

/-- A run of writes: the new bytes in its range, the old content outside. -/
theorem readByte_writeBytes (m : Memory) (off : Nat) (v : List Byte) (y : Nat) :
    readByte (writeBytes m off v) y = if off ≤ y ∧ y < off + v.length then v[y - off]? else readByte m y := by
  induction v generalizing m off with
  | nil => simp only [writeBytes, List.length_nil]; rw [if_neg (by omega)]
  | cons b v ih =>
    simp only [writeBytes, ih, List.length_cons, readByte_writeByte]
    by_cases h1 : y = off
    · subst h1; simp
    · by_cases h2 : off + 1 ≤ y ∧ y < off + 1 + v.length
      · have : y - off = (y - (off + 1)) + 1 := by omega
        rw [if_pos h2, if_pos (by omega), this, List.getElem?_cons_succ]
      · rw [if_neg h2, if_neg h1, if_neg (by omega)]

/-- A run of writes keeps the canonical form. -/
theorem wf_writeBytes {m : Memory} {off : Nat} {v : List Byte} (h : Memory.wf m = true)
    (hr : off + v.length ≤ storeSize) : Memory.wf (writeBytes m off v) = true := by
  induction v generalizing m off with
  | nil => exact h
  | cons b v ih =>
    simp only [List.length_cons] at hr
    exact ih (wf_writeByte h (by omega)) (by omega)

/-- What was written is held. -/
theorem holdsAt_writeBytes (m : Memory) (off : Nat) (v : List Byte) : holdsAt (writeBytes m off v) off v := by
  intro i hi
  rw [readByte_writeBytes, if_pos (by omega), show off + i - off = i by omega]

/-- A run of writes leaves bytes before it. -/
theorem holdsAt_writeBytes_before {m : Memory} {off o : Nat} {v bs : List Byte} (h : holdsAt m o bs)
    (hb : o + bs.length ≤ off) : holdsAt (writeBytes m off v) o bs := by
  intro i hi
  rw [readByte_writeBytes, if_neg (by omega)]
  exact h i hi

theorem holdsAt_append {m : Memory} {off : Nat} {as bs : List Byte} :
    holdsAt m off (as ++ bs) ↔ holdsAt m off as ∧ holdsAt m (off + as.length) bs := by
  induction as generalizing off with
  | nil => simp [holdsAt_nil]
  | cons a as ih =>
    simp only [List.cons_append, holdsAt_cons, ih, List.length_cons, and_assoc]
    rw [show off + 1 + as.length = off + (as.length + 1) by omega]

/-! ### The primitives of the pseudocode -/

/-- Everything `MemRead` can answer (R72). -/
theorem memRead_eq_ok {m : Memory} {off n : Nat} {bs : List Byte} :
    memRead m off n = .ok bs ↔ off + n ≤ storeSize ∧ bs.length = n ∧ holdsAt m off bs := by
  unfold memRead
  split
  · rw [readBytes_eq_ok]; tauto
  · simp only [reduceCtorEq, false_iff, not_and]; omega

/-- `MemRead` stops only with a fault. -/
theorem readBytes_eq_error {m : Memory} {off n : Nat} {e : Stop} (h : readBytes m off n = .error e) :
    e = .fault .storeUnwritten := by
  induction n generalizing off with
  | zero => simp [readBytes] at h
  | succ n ih =>
    simp only [readBytes] at h
    cases hr : readByte m off with
    | none => simp only [hr, Except.error.injEq] at h; exact h.symm
    | some b =>
      simp only [hr] at h
      cases hx : readBytes m (off + 1) n with
      | error e' => simp only [hx, andThen, Except.error.injEq] at h; subst h; exact ih hx
      | ok r => simp [hx, andThen] at h

/-- Part of what is held can be read (R72). -/
theorem memRead_part {m : Memory} {n o k : Nat} {bs : List Byte} (h : memRead m 0 n = .ok bs) (hk : o + k ≤ n) :
    memRead m o k = .ok ((bs.drop o).take k) := by
  obtain ⟨h1, h2, h3⟩ := memRead_eq_ok.mp h
  refine memRead_eq_ok.mpr ⟨by omega, by simp; omega, fun i hi => ?_⟩
  simp only [List.length_take, List.length_drop] at hi
  have := h3 (o + i) (by omega)
  rw [Nat.zero_add] at this
  rw [this, List.getElem?_take, if_pos (by omega), List.getElem?_drop]

/-- One byte of what is held. -/
theorem memByte_of_holds {m : Memory} {n o : Nat} {bs : List Byte} (h : memRead m 0 n = .ok bs) (ho : o < n) :
    memByte m o = .ok (bs.getD o 0) := by
  have hl := (memRead_eq_ok.mp h).2.1
  unfold memByte
  rw [memRead_part h (show o + 1 ≤ n by omega)]
  have : o < bs.length := by omega
  rw [List.drop_eq_getElem_cons this, List.getD_eq_getElem?_getD, List.getElem?_eq_getElem this]
  rfl

/-- Everything `MemWrite` can answer (R73): inside the store it writes, keeping the form; outside it faults. -/
theorem memWrite_eq_ok {m m' : Memory} {off : Nat} {v : List Byte} :
    memWrite m off v = .ok m' ↔ off + v.length ≤ storeSize ∧ m' = writeBytes m off v := by
  unfold memWrite
  split
  · simp only [Except.ok.injEq]; constructor
    · rintro rfl; exact ⟨by assumption, rfl⟩
    · rintro ⟨-, rfl⟩; rfl
  · simp only [reduceCtorEq, false_iff, not_and]; omega

/-- `MemShiftLeft` on a store that holds `bs` from 0 on, dropping the first `i` (R74): it succeeds, the rest stands at the
front, the form is kept, and offsets from `n` on keep their content. -/
theorem memShiftLeft_holds {m : Memory} {bs : List Byte} {n i : Nat} (hm : Memory.wf m = true)
    (h : memRead m 0 n = .ok bs) (hi : i ≤ n) :
    ∃ m', memShiftLeft m i (n - i) = .ok m' ∧ Memory.wf m' = true ∧ memRead m' 0 (n - i) = .ok (bs.drop i)
      ∧ ∀ x, n - i ≤ x → readByte m' x = readByte m x := by
  obtain ⟨h1, h2, h3⟩ := memRead_eq_ok.mp h
  have hread := memRead_part h (show i + (n - i) ≤ n by omega)
  have htake : (bs.drop i).take (n - i) = bs.drop i := List.take_of_length_le (by simp; omega)
  rw [htake] at hread
  unfold memShiftLeft
  split
  · rename_i hc
    refine ⟨m, rfl, hm, ?_, fun _ _ => rfl⟩
    rcases hc with hc | hc
    · subst hc; simpa using h
    · have : bs.drop i = [] := List.drop_eq_nil_of_le (by omega)
      rw [this, hc]; exact memRead_eq_ok.mpr ⟨by simp, rfl, holdsAt_nil _ _⟩
  · rw [hread]
    have hlen : (bs.drop i).length = n - i := by simp; omega
    refine ⟨writeBytes m 0 (bs.drop i), ?_, ?_, ?_, ?_⟩
    · exact memWrite_eq_ok.mpr ⟨by omega, rfl⟩
    · exact wf_writeBytes hm (by omega)
    · exact memRead_eq_ok.mpr ⟨by omega, hlen, holdsAt_writeBytes _ _ _⟩
    · intro x hx; rw [readByte_writeBytes, if_neg (by omega)]

/-! ### Every memory operation keeps the canonical form -/

/-- A write that succeeds keeps the form (R73). -/
theorem memWrite_wf {m m' : Memory} {off : Nat} {v : List Byte} (hm : Memory.wf m = true)
    (h : memWrite m off v = .ok m') : Memory.wf m' = true := by
  obtain ⟨h1, rfl⟩ := memWrite_eq_ok.mp h
  exact wf_writeBytes hm h1

/-- A shift that succeeds keeps the form (R74). -/
theorem memShiftLeft_wf {m m' : Memory} {i n : Nat} (hm : Memory.wf m = true) (h : memShiftLeft m i n = .ok m') :
    Memory.wf m' = true := by
  unfold memShiftLeft at h
  split at h
  · simp only [Except.ok.injEq] at h; exact h ▸ hm
  · cases hr : memRead m i n with
    | error e => simp [hr, andThen] at h
    | ok bs => rw [hr] at h; exact memWrite_wf hm h

/-- Both stores are in canonical form after reset. -/
theorem reset_stores_wf : Memory.wf State.reset.asm.buf = true ∧ Memory.wf State.reset.tx.stage = true := ⟨rfl, rfl⟩

end Sys2Proof.Machine
end

