-- ==== Sys2Proof/Laws/Queue.lean ====
section
/-! SUPPORT. The output queue and the staging register (45_scheduler): what a push, a pop and a hand-over can do, and that
each keeps the queue a concatenation of whole records (R270). -/

namespace Sys2Proof.Machine

/-! ### Records -/

@[simp] theorem record_length (f : List Byte) : (record f).length = 1 + f.length := by simp [record, Nat.add_comm]

/-- A frame of at most 64 bytes has a length byte that reads back. -/
theorem lengthByte_toNat {n : Nat} (h : n ≤ 64) : (BitVec.ofNat 8 n).toNat = n := by
  simp only [BitVec.toNat_ofNat]; omega

/-- The queue is empty exactly when no frame waits. -/
theorem flatMap_record_eq_nil {frames : List (List Byte)} : frames.flatMap record = [] ↔ frames = [] := by
  cases frames <;> simp [record]

/-! ### Push (R261) -/

theorem queueAccepts_iff {f : List Byte} {s : State} :
    queueAccepts f s = true ↔ 1 ≤ f.length ∧ f.length ≤ 64 ∧ 1 + f.length ≤ s.cfg.outqCapacity - s.tx.outq.length := by
  simp only [queueAccepts, Bool.and_eq_true, decide_eq_true_eq, and_assoc]
  exact Iff.rfl

/-- Everything `ENQUEUE` can do: the whole record is pushed, or the queue is unchanged and the error is raised. -/
theorem enqueue_cases (f : List Byte) (s : State) :
    (queueAccepts f s = true ∧ enqueue f s = qPush (record f) s)
      ∨ (queueAccepts f s = false ∧ enqueue f s = raiseError (.queueFull f.length) s) := by
  unfold enqueue
  cases h : queueAccepts f s <;> simp

theorem enqueue_tx (f : List Byte) (s : State) :
    (enqueue f s).tx = if queueAccepts f s then { s.tx with outq := s.tx.outq ++ record f } else s.tx := by
  rcases enqueue_cases f s with ⟨h, e⟩ | ⟨h, e⟩ <;> simp [h, e]

theorem enqueue_events (f : List Byte) (s : State) :
    (enqueue f s).events = if queueAccepts f s then s.events else s.events ++ [.err (.queueFull f.length)] := by
  rcases enqueue_cases f s with ⟨h, e⟩ | ⟨h, e⟩ <;> simp [h, e]

/-- A push keeps the transmit side sound. -/
theorem txOk_push {cfg : Config} {x : TxState} {f : List Byte} (h : TxOk cfg x) (h1 : 1 ≤ f.length)
    (h64 : f.length ≤ 64) (hc : 1 + f.length ≤ cfg.outqCapacity - x.outq.length) :
    TxOk cfg { x with outq := x.outq ++ record f } where
  records := by
    obtain ⟨frames, hq, hl⟩ := h.records
    refine ⟨frames ++ [f], by simp [hq], ?_⟩
    intro g hg
    rcases List.mem_append.mp hg with hg | hg
    · exact hl g hg
    · rw [List.mem_singleton.mp hg]; exact ⟨h1, h64⟩
  capacity := by simp; omega
  form := h.form
  staged := h.staged

theorem txOk_enqueue {f : List Byte} {s : State} (h : TxOk s.cfg s.tx) : TxOk s.cfg (enqueue f s).tx := by
  rw [enqueue_tx]
  split
  · rename_i ha
    obtain ⟨h1, h2, h3⟩ := queueAccepts_iff.mp ha
    exact txOk_push h h1 h2 h3
  · exact h

/-- A flush keeps the transmit side sound. -/
theorem txOk_flush {cfg : Config} {x : TxState} (h : TxOk cfg x) : TxOk cfg { x with outq := [] } where
  records := ⟨[], rfl, by simp⟩
  capacity := Nat.zero_le _
  form := h.form
  staged := h.staged

theorem txOk_transmitting {cfg : Config} {x : TxState} {v : Bool} (h : TxOk cfg x) :
    TxOk cfg { x with transmitting := v } where
  records := h.records
  capacity := h.capacity
  form := h.form
  staged := h.staged

/-! ### Pop (R266) -/

/-- The state after the record of `f` was popped and `q` is left. -/
def popped (f q : List Byte) (s : State) : State :=
  { s with tx := { s.tx with outq := q, stage := writeBytes s.tx.stage 0 f, rem := f.length, off := 0 } }

/-- A queue that begins with a whole record gives it up whole. -/
theorem popRecord_of_record {s : State} {f q : List Byte} (hq : s.tx.outq = record f ++ q) (h1 : 1 ≤ f.length)
    (h64 : f.length ≤ 64) : popRecord s = .ok (popped f q s) := by
  unfold popRecord
  rw [hq]
  simp only [record, List.cons_append, lengthByte_toNat h64]
  rw [if_neg (by simp only [List.length_append]; omega)]
  have hw : memWrite s.tx.stage 0 f = .ok (writeBytes s.tx.stage 0 f) := memWrite_eq_ok.mpr ⟨by simpa using h64, rfl⟩
  simp [hw, andThen, popped]

/-- After a pop the frame stands staged whole. -/
theorem popped_staged {s : State} {f q : List Byte} (h64 : f.length ≤ 64) :
    memRead (popped f q s).tx.stage (popped f q s).tx.off (popped f q s).tx.rem = .ok f :=
  memRead_eq_ok.mpr ⟨by simpa [popped] using h64, rfl, holdsAt_writeBytes _ _ _⟩

theorem txOk_popped {cfg : Config} {s : State} {f : List Byte} {frames : List (List Byte)} (h : TxOk cfg s.tx)
    (hq : s.tx.outq = (f :: frames).flatMap record)
    (hl : ∀ g ∈ f :: frames, 1 ≤ g.length ∧ g.length ≤ maxFrame) : TxOk cfg (popped f (frames.flatMap record) s).tx where
  records := ⟨frames, rfl, fun g hg => hl g (List.mem_cons_of_mem _ hg)⟩
  capacity := by
    have := h.capacity
    rw [hq] at this
    simp only [List.flatMap_cons, List.length_append] at this
    simp only [popped]; omega
  form := wf_writeBytes h.form (by simpa using (hl f List.mem_cons_self).2)
  staged := ⟨f, popped_staged (hl f List.mem_cons_self).2⟩

/-- Everything a pop can do on a sound transmit side: nothing to pop is a fault; otherwise one whole record leaves. -/
theorem popRecord_cases {s : State} {frames : List (List Byte)} (hq : s.tx.outq = frames.flatMap record)
    (hl : ∀ g ∈ frames, 1 ≤ g.length ∧ g.length ≤ maxFrame) :
    (frames = [] ∧ popRecord s = .error (.fault .queueRecord))
      ∨ ∃ f rest, frames = f :: rest ∧ popRecord s = .ok (popped f (rest.flatMap record) s) := by
  cases frames with
  | nil => left; refine ⟨rfl, ?_⟩; unfold popRecord; rw [hq]; rfl
  | cons f rest =>
    right
    refine ⟨f, rest, rfl, popRecord_of_record (by simpa using hq) (hl f List.mem_cons_self).1 ?_⟩
    exact (hl f List.mem_cons_self).2

/-! ### Hand-over (R266) -/

/-- The staged bytes, split where a hand-over of `w` cuts them. -/
theorem staged_split {x : TxState} {bs : List Byte} {w : Nat} (h : memRead x.stage x.off x.rem = .ok bs) (hw : w ≤ x.rem) :
    memRead x.stage x.off w = .ok (bs.take w) ∧ memRead x.stage (x.off + w) (x.rem - w) = .ok (bs.drop w) := by
  obtain ⟨h1, h2, h3⟩ := memRead_eq_ok.mp h
  have hsplit : holdsAt x.stage x.off (bs.take w ++ bs.drop w) := by rw [List.take_append_drop]; exact h3
  obtain ⟨ha, hb⟩ := holdsAt_append.mp hsplit
  have hlen : (bs.take w).length = w := by simp; omega
  rw [hlen] at hb
  exact ⟨memRead_eq_ok.mpr ⟨by omega, hlen, ha⟩, memRead_eq_ok.mpr ⟨by omega, by simp; omega, hb⟩⟩

theorem txOk_handOver {cfg : Config} {s : State} {bs hd : List Byte} {w : Nat} (h : TxOk cfg s.tx)
    (hb : memRead s.tx.stage s.tx.off s.tx.rem = .ok bs) (hw : w ≤ s.tx.rem) (hd' : hd.length = w) :
    TxOk cfg (handOver hd s).tx where
  records := h.records
  capacity := h.capacity
  form := h.form
  staged := ⟨bs.drop w, by simpa [hd'] using (staged_split hb hw).2⟩

end Sys2Proof.Machine
end

