-- ==== Sys2Proof/Laws/Invariant.lean ====
section
/-! SUPPORT. Every shared operation keeps the safe states safe, operation by operation. -/

namespace Sys2Proof.Machine

/-! ### Outputs and free values: nothing the invariant speaks of -/

theorem inv_emit {s : State} (e : Event) (h : Inv s) : Inv (emit e s) := { h with }
theorem inv_raiseError {s : State} (e : ErrorInfo) (h : Inv s) : Inv (raiseError e s) := { h with }
theorem inv_reply {s : State} (r : Reply) (h : Inv s) : Inv (reply r s) := { h with }
theorem inv_drawn {s : State} (h : Inv s) : Inv (drawn s) := { h with }
theorem inv_receiveBytes {s : State} (bs : List Byte) (h : Inv s) : Inv (receiveBytes bs s) := { h with }
theorem inv_stampRc {s : State} (us : Word) (h : Inv s) : Inv (stampRc us s) :=
  { h with counts := ⟨h.counts.good, h.counts.bad⟩ }
theorem inv_issue {s : State} (c : Command) (rest : List Command) (h : Inv s) : Inv (issue c rest s) := { h with }

/-! ### The configuration's constraints (R10), one by one -/

theorem configOk_iff {cfg : Config} : configOk cfg = true ↔
    cfg.crc8Poly ≠ 0 ∧ (1 ≤ cfg.rcIntervalUs ∧ 1 ≤ cfg.syncWindowMax
      ∧ cfg.rcIntervalUs * cfg.syncScale * (cfg.syncWindowMax + 1) < 2 ^ 31)
    ∧ (cfg.deviceName.length + 21 ≤ 64 ∧ ∀ b ∈ cfg.deviceName, b ≠ 0) ∧ 65 ≤ cfg.outqCapacity
    ∧ (cfg.baudTable ≠ [] ∧ ∀ b ∈ legalBauds cfg, 1 ≤ b ∧ b < 2 ^ 32)
    ∧ (1 ≤ cfg.numCh ∧ chBytes cfg ≤ 60) ∧ (3 ≤ cfg.edgeMin ∧ 1 ≤ cfg.pwBits)
    ∧ (1 ≤ cfg.wdtIntervalMs ∧ 1 ≤ cfg.telemFifoSize) ∧ ∀ e ∈ cfg.windowTable, 1 ≤ e.2 := by
  simp [configOk, and_assoc]

/-! ### The receive side -/

theorem inv_setAsm {s : State} {m : Memory} {n : Nat} (ha : AsmOk { buf := m, cursor := n }) (h : Inv s) :
    Inv (setAsm m n s) := { h with asm := ha }

theorem inv_setChan {s : State} (k : Nat) (v : Chan) (h : Inv s) : Inv (setChan k v s) :=
  { h with chan := by simpa using h.chan }

theorem countUp_lt (cfg : Config) (n : Nat) : countUp cfg n < 2 ^ cfg.cntBits := Nat.mod_lt _ (Nat.two_pow_pos _)

theorem inv_countGood {s : State} (h : Inv s) : Inv (countGood s) :=
  { h with counts := ⟨countUp_lt _ _, h.counts.bad⟩ }

theorem inv_countBad {s : State} (h : Inv s) : Inv (countBad s) :=
  { h with counts := ⟨h.counts.good, countUp_lt _ _⟩ }

theorem inv_endCheck {s : State} (ms : Word) (h : Inv s) : Inv (endCheck ms s) :=
  { h with counts := ⟨Nat.two_pow_pos _, Nat.two_pow_pos _⟩ }

theorem inv_markReceived {s : State} (us : Word) (h : Inv s) : Inv (markReceived us s) := by
  have h' : Inv { s with link := { s.link with tLastRx := us, connected := true } } :=
    { h with counts := ⟨h.counts.good, h.counts.bad⟩ }
  unfold markReceived
  cases s.link.connected
  · exact inv_emit _ h'
  · exact h'

/-! ### The transmit side -/

theorem inv_qFlush {s : State} (h : Inv s) : Inv (qFlush s) := { h with tx := txOk_flush h.tx }

theorem inv_enqueue {s : State} (f : List Byte) (h : Inv s) : Inv (enqueue f s) := by
  have ht : TxOk s.cfg (enqueue f s).tx := txOk_enqueue h.tx
  rcases enqueue_cases f s with ⟨-, e⟩ | ⟨-, e⟩
  · rw [e] at ht ⊢; exact { h with tx := ht }
  · rw [e]; exact inv_raiseError _ h

theorem inv_setTransmitting {s : State} (h : Inv s) : Inv (setTransmitting true s) :=
  { h with tx := txOk_transmitting h.tx, burst := fun _ _ => rfl }

/-- Receive mode may be marked only when nothing waits for the serializer. -/
theorem inv_setTransmitting_false {s : State} (ht : s.line.txhw = []) (h : Inv s) : Inv (setTransmitting false s) :=
  { h with tx := txOk_transmitting h.tx, burst := fun _ hn => absurd ht hn }

theorem inv_setReceive {s : State} (v : Bool) (h : Inv s) : Inv (setReceive v s) where
  config := by simpa using h.config
  crc := by simpa using h.crc
  asm := by simpa using h.asm
  chan := by simpa using h.chan
  counts := by simpa using h.counts
  baud := by simpa using h.baud
  pulse := by simpa using h.pulse
  tx := by simpa using h.tx
  sync := by simpa using h.sync
  pins := fun _ => Or.inl (by simp)
  burst := by simpa using h.burst
  hold := by simpa using h.hold

theorem inv_setTransmit {s : State} (v : Bool) (h : Inv s) : Inv (setTransmit v s) where
  config := by simpa using h.config
  crc := by simpa using h.crc
  asm := by simpa using h.asm
  chan := by simpa using h.chan
  counts := by simpa using h.counts
  baud := by simpa using h.baud
  pulse := by simpa using h.pulse
  tx := by simpa using h.tx
  sync := by simpa using h.sync
  pins := fun _ => Or.inr (by simp)
  burst := by simpa using h.burst
  hold := by simpa using h.hold

/-- The polarity reaches the pins of a full-duplex line only, of which `Inv` says nothing (`FullDuplexPins` does). -/
theorem inv_followPolarity {s : State} (v : Bool) (hh : s.cfg.halfDuplex = false) (h : Inv s) : Inv (followPolarity v s) where
  config := by simpa using h.config
  crc := by simpa using h.crc
  asm := by simpa using h.asm
  chan := by simpa using h.chan
  counts := by simpa using h.counts
  baud := by simpa using h.baud
  pulse := by simpa using h.pulse
  tx := by simpa using h.tx
  sync := by simpa using h.sync
  pins := fun hd => by simp [hh] at hd
  burst := by simpa using h.burst
  hold := by simpa using h.hold

/-- On a full-duplex line the pins are in R196's row again once they have followed the polarity. -/
theorem followPolarity_fullDuplex {s : State} (v : Bool) (h : FullDuplexPins s.pins) :
    FullDuplexPins (followPolarity v s).pins := by
  obtain ⟨hm, hd, -, hr, ht⟩ := h
  simp [FullDuplexPins, hm, hd, hr, ht]

theorem inv_engageTransmit {s : State} (h : Inv s) : Inv (engageTransmit s) := by
  unfold engageTransmit
  split
  · exact inv_setTransmitting (inv_setTransmit _ h)
  · exact h

theorem inv_endBurst {s : State} (hh : ¬ held s) (h : Inv s) : Inv (endBurst s) := by
  unfold endBurst
  split
  · rename_i hc
    simp only [Bool.and_eq_true] at hc
    have ht : s.line.txhw = [] := by
      by_contra hn
      exact hh ⟨hc.1, hc.2, hn⟩
    exact inv_setTransmitting_false (by simpa using ht) (inv_setReceive _ h)
  · exact h

/-- Bytes are handed over only in a burst (half-duplex), and only bytes that were staged. -/
theorem inv_handOver {s : State} {bs hd : List Byte} {w : Nat} (h : Inv s)
    (hb : memRead s.tx.stage s.tx.off s.tx.rem = .ok bs) (hw : w ≤ s.tx.rem) (hl : hd.length = w)
    (hburst : s.cfg.halfDuplex = true → s.tx.transmitting = true) : Inv (handOver hd s) :=
  { h with tx := txOk_handOver h.tx hb hw hl, burst := fun hd _ => hburst hd }

theorem inv_popped {s : State} {f : List Byte} {frames : List (List Byte)} (h : Inv s)
    (hq : s.tx.outq = (f :: frames).flatMap record)
    (hl : ∀ g ∈ f :: frames, 1 ≤ g.length ∧ g.length ≤ maxFrame) : Inv (popped f (frames.flatMap record) s) :=
  { h with tx := txOk_popped h.tx hq hl }

theorem inv_txDrain {s : State} (h : Inv s) : Inv (txDrain s) := by
  unfold txDrain
  split
  · exact h
  · rename_i b rest he
    exact { h with burst := fun hh _ => h.burst hh (by simp [he]) }

theorem inv_times {f : State → State} (hf : ∀ s, Inv s → Inv (f s)) (n : Nat) {s : State} (h : Inv s) :
    Inv (times f n s) := by
  induction n generalizing s with
  | zero => exact h
  | succ n ih => exact ih (hf s h)

theorem inv_txDrainAll {s : State} (h : Inv s) : Inv (txDrainAll s) := inv_times (fun _ => inv_txDrain) _ h

/-! ### The pulse-width timer -/

theorem pwMax_pos {cfg : Config} (h : configOk cfg = true) : 1 ≤ pwMax cfg := by
  have := (configOk_iff.mp h).2.2.2.2.2.2.1.2
  have h2 : 2 ^ 1 ≤ 2 ^ cfg.pwBits := Nat.pow_le_pow_right (by omega) this
  simp only [pwMax]; omega

theorem pulseOk_step {cfg : Config} {p : PulseTimer} (hm : 1 ≤ pwMax cfg) (h : PulseOk cfg p) (level : Bool) :
    PulseOk cfg (pwStep (pwMax cfg) level p) := by
  obtain ⟨h1, ⟨h2, h3⟩, ⟨h4, h5⟩, h6, h7⟩ := h
  unfold pwStep pwEdge
  split
  · split
    · exact ⟨h1, ⟨h2, h3⟩, ⟨h4, h5⟩, Nat.min_le_right _ _, fun _ => by simp only; omega⟩
    · refine ⟨Nat.min_le_right _ _, ?_, ?_, hm, fun _ => Nat.le_refl 1⟩
      · simp only
        split
        · rename_i hc
          simp only [Bool.and_eq_true] at hc
          have := h7 hc.1
          omega
        · exact ⟨h2, h3⟩
      · simp only
        split
        · rename_i hc
          simp only [Bool.and_eq_true] at hc
          have := h7 hc.1
          omega
        · exact ⟨h4, h5⟩
  · exact ⟨h1, ⟨h2, h3⟩, ⟨h4, h5⟩, h6, h7⟩

theorem inv_pwEnable {s : State} (h : Inv s) : Inv (pwEnable s) := by
  have hm := pwMax_pos h.config
  unfold pwEnable
  split
  · exact h
  · exact { h with pulse := ⟨Nat.zero_le _, ⟨hm, Nat.le_refl _⟩, ⟨hm, Nat.le_refl _⟩, Nat.zero_le _, by simp⟩ }

theorem inv_closeWindow {s : State} (h : Inv s) : Inv { s with pw := { s.pw with en := false } } :=
  { h with pulse := ⟨h.pulse.edges, h.pulse.low, h.pulse.high, h.pulse.run, h.pulse.whole⟩ }

/-! ### The sync estimator -/

theorem syncOk_sample {cfg : Config} {y : SyncState} {gap : Nat} (hr : 1 ≤ cfg.rcIntervalUs)
    (hw : 1 ≤ cfg.syncWindowMax) (h : SyncOk cfg y) : SyncOk cfg (syncSample cfg gap y) := by
  unfold syncSample
  split
  · refine ⟨Nat.zero_le _, by simp [syncLate], fun _ => ?_⟩
    simp only [syncLate]
    have : gap % cfg.rcIntervalUs * cfg.syncScale ≤ (cfg.rcIntervalUs - 1) * cfg.syncScale :=
      Nat.mul_le_mul_right _ (by have := Nat.mod_lt gap (show 0 < cfg.rcIntervalUs by omega); omega)
    omega
  · rename_i hgap
    obtain ⟨h1, h2, h3⟩ := h
    have hg : gap * cfg.syncScale ≤ cfg.rcIntervalUs * cfg.syncScale := Nat.mul_le_mul_right _ (by omega)
    refine ⟨Nat.min_le_right _ _, fun _ => ?_, fun h0 => by simp only [syncOnTime] at h0; omega⟩
    simp only [syncOnTime]
    set w : Nat := min (y.window + 1) cfg.syncWindowMax with hwdef
    have hwpos : 1 ≤ w := by omega
    have hnum0 : (0 : Int) ≤ y.offset * ((w : Int) - 1) := by
      rcases Nat.eq_zero_or_pos y.window with hz | hp
      · have : w = 1 := by omega
        simp [this]
      · exact mul_nonneg (h2 hp).1 (by omega)
    have hnum1 : y.offset * ((w : Int) - 1) ≤ ((cfg.rcIntervalUs * cfg.syncScale : Nat) : Int) * ((w : Int) - 1) := by
      rcases Nat.eq_zero_or_pos y.window with hz | hp
      · have : w = 1 := by omega
        simp [this]
      · exact mul_le_mul_of_nonneg_right (h2 hp).2 (by omega)
    have hle : y.offset * ((w : Int) - 1) + ((gap * cfg.syncScale : Nat) : Int)
        ≤ ((cfg.rcIntervalUs * cfg.syncScale : Nat) : Int) * (w : Int) := by
      have : ((gap * cfg.syncScale : Nat) : Int) ≤ ((cfg.rcIntervalUs * cfg.syncScale : Nat) : Int) := by exact_mod_cast hg
      nlinarith
    have hnn : (0 : Int) ≤ y.offset * ((w : Int) - 1) + ((gap * cfg.syncScale : Nat) : Int) := by positivity
    refine ⟨Int.tdiv_nonneg hnn (by omega), ?_⟩
    rw [Int.tdiv_eq_ediv_of_nonneg hnn]
    exact Int.ediv_le_of_le_mul (by omega) hle

theorem inv_sync {s : State} {y : SyncState} (hy : SyncOk s.cfg y) (h : Inv s) : Inv { s with sync := y } :=
  { h with sync := hy }

theorem syncOk_sent {cfg : Config} {y : SyncState} {ms : Word} (h : SyncOk cfg y) :
    SyncOk cfg { y with tSent := ms, force := false } := ⟨h.window, h.averaging, h.late⟩

theorem inv_syncEmit {s : State} (ms : Word) (h : Inv s) : Inv (syncEmit ms s) := by
  unfold syncEmit
  split
  · have h' := inv_enqueue (timingFrame s) h
    exact inv_sync (syncOk_sent h'.sync) h'
  · exact h

/-! ### The CRC engine -/

theorem inv_crcnRebuild {s : State} (h : Inv s) : Inv (crcnRebuild s) := by
  unfold crcnRebuild
  split
  · exact { h with crc := ⟨h.crc.tab8, h.crc.bits, fun _ => rfl⟩ }
  · exact h

end Sys2Proof.Machine
end

