-- ==== Sys2Proof/Laws/Interleave.lean ====
section
/-! SUPPORT. What the other agents can do at an interleave point (00_scope R13, 20_memory R86): said once, for one
operation, for a point, and for any number of points. -/

namespace Sys2Proof.Machine

/-- From `s` to `t` only the callback, the line receiver, the serializer, the pulse-width timer and the collaborator have
stepped. -/
structure Others (s t : State) : Prop where
  cfg : t.cfg = s.cfg
  asm : t.asm = s.asm
  chan : t.chan = s.chan
  link : t.link = s.link
  baud : t.baud = s.baud
  pins : t.pins = s.pins
  clock : t.clock = s.clock
  hold : t.hold = s.hold
  pending : t.env.pending = s.env.pending
  stage : t.tx.stage = s.tx.stage
  rem : t.tx.rem = s.tx.rem
  off : t.tx.off = s.tx.off
  transmitting : t.tx.transmitting = s.tx.transmitting
  tSent : t.sync.tSent = s.sync.tSent
  window : t.pw.en = s.pw.en
  tab8 : t.crc.tab8 = s.crc.tab8
  txhw : ∃ k, t.line.txhw = s.line.txhw.drop k
  rxhw : ∃ bs, t.line.rxhw = s.line.rxhw ++ bs
  outq : ∃ frames : List (List Byte), t.tx.outq = s.tx.outq ++ frames.flatMap record
  events : ∃ es, t.events = s.events ++ es
  replies : ∃ rs, t.env.replies = s.env.replies ++ rs

namespace Others

theorem refl (s : State) : Others s s where
  cfg := rfl
  asm := rfl
  chan := rfl
  link := rfl
  baud := rfl
  pins := rfl
  clock := rfl
  hold := rfl
  pending := rfl
  stage := rfl
  rem := rfl
  off := rfl
  transmitting := rfl
  tSent := rfl
  window := rfl
  tab8 := rfl
  txhw := ⟨0, rfl⟩
  rxhw := ⟨[], by simp⟩
  outq := ⟨[], by simp⟩
  events := ⟨[], by simp⟩
  replies := ⟨[], by simp⟩

theorem trans {s t u : State} (h : Others s t) (h' : Others t u) : Others s u where
  cfg := h'.cfg.trans h.cfg
  asm := h'.asm.trans h.asm
  chan := h'.chan.trans h.chan
  link := h'.link.trans h.link
  baud := h'.baud.trans h.baud
  pins := h'.pins.trans h.pins
  clock := h'.clock.trans h.clock
  hold := h'.hold.trans h.hold
  pending := h'.pending.trans h.pending
  stage := h'.stage.trans h.stage
  rem := h'.rem.trans h.rem
  off := h'.off.trans h.off
  transmitting := h'.transmitting.trans h.transmitting
  tSent := h'.tSent.trans h.tSent
  window := h'.window.trans h.window
  tab8 := h'.tab8.trans h.tab8
  txhw := by
    obtain ⟨k, hk⟩ := h.txhw
    obtain ⟨j, hj⟩ := h'.txhw
    exact ⟨k + j, by rw [hj, hk, List.drop_drop]⟩
  rxhw := by
    obtain ⟨a, ha⟩ := h.rxhw
    obtain ⟨b, hb⟩ := h'.rxhw
    exact ⟨a ++ b, by rw [hb, ha, List.append_assoc]⟩
  outq := by
    obtain ⟨a, ha⟩ := h.outq
    obtain ⟨b, hb⟩ := h'.outq
    exact ⟨a ++ b, by rw [hb, ha, List.append_assoc, List.flatMap_append]⟩
  events := by
    obtain ⟨a, ha⟩ := h.events
    obtain ⟨b, hb⟩ := h'.events
    exact ⟨a ++ b, by rw [hb, ha, List.append_assoc]⟩
  replies := by
    obtain ⟨a, ha⟩ := h.replies
    obtain ⟨b, hb⟩ := h'.replies
    exact ⟨a ++ b, by rw [hb, ha, List.append_assoc]⟩

end Others

/-! ### The shapes an operation of another agent can have -/

/-- An operation that returns a value and changes nothing. -/
theorem others_reply {s : State} (r : Reply) : Others s (reply r s) :=
  { Others.refl s with replies := ⟨[r], rfl⟩ }

theorem others_drawn {s : State} : Others s (drawn s) := { Others.refl s with }

theorem others_receiveBytes {s : State} (bs : List Byte) : Others s (receiveBytes bs s) :=
  { Others.refl s with rxhw := ⟨bs, rfl⟩ }

theorem others_txDrain {s : State} : Others s (txDrain s) := by
  unfold txDrain
  split
  · exact Others.refl s
  · rename_i b rest he
    exact { Others.refl s with txhw := ⟨1, by simp [he]⟩, events := ⟨[.lineTx b], rfl⟩ }

theorem others_times {f : State → State} (hf : ∀ s, Others s (f s)) (n : Nat) (s : State) : Others s (times f n s) := by
  induction n generalizing s with
  | zero => exact Others.refl s
  | succ n ih => exact (hf s).trans (ih (f s))

theorem others_txDrainAll {s : State} : Others s (txDrainAll s) := others_times (fun _ => others_txDrain) _ s

theorem pwStep_en (mx : Nat) (level : Bool) (p : PulseTimer) : (pwStep mx level p).en = p.en := by
  unfold pwStep pwEdge
  split
  · split <;> rfl
  · rfl

theorem others_enqueue {s : State} (f : List Byte) : Others s (enqueue f s) := by
  rcases enqueue_cases f s with ⟨-, e⟩ | ⟨-, e⟩
  · rw [e]; exact { Others.refl s with outq := ⟨[f], by simp⟩ }
  · rw [e]; exact { Others.refl s with events := ⟨[.err (.queueFull f.length)], rfl⟩ }

theorem syncSample_tSent (cfg : Config) (gap : Nat) (y : SyncState) : (syncSample cfg gap y).tSent = y.tSent := by
  unfold syncSample syncLate syncOnTime
  split <;> rfl

theorem others_crcnRebuild {s : State} : Others s (crcnRebuild s) := by
  unfold crcnRebuild
  split
  · exact { Others.refl s with }
  · exact Others.refl s

/-! ### One operation -/

/-- What another agent's operation leads to, by cases on whether it happens. -/
theorem afterOr_cases {P : State → Prop} {s : State} {o : Out} (hs : P s) (hn : ∀ t, o = .next t → P t) :
    P (afterOr s o) := by
  cases o with
  | next t => exact hn t rfl
  | fault f => exact hs
  | refused r => exact hs

/-- Where an operation of this list goes on, it does this (`Others`), and safe states stay safe. -/
theorem asyncOp_spec (i : Instr) (s : State) : Others s (asyncOp i s) ∧ (Inv s → Inv (asyncOp i s)) := by
  have triv : Others s s ∧ (Inv s → Inv s) := ⟨Others.refl s, id⟩
  have rep : ∀ r, Others s (reply r s) ∧ (Inv s → Inv (reply r s)) := fun r => ⟨others_reply r, inv_reply r⟩
  have enq : ∀ (f : List Byte) (r : Reply),
      Others s (reply r (enqueue f s)) ∧ (Inv s → Inv (reply r (enqueue f s))) := fun f r =>
    ⟨(others_enqueue f).trans (others_reply r), fun h => inv_reply r (inv_enqueue f h)⟩
  cases i <;> try exact triv
  case lineRx b =>
    refine afterOr_cases (P := fun t => Others s t ∧ (Inv s → Inv t)) triv fun t ht => ?_
    simp only [execLineRx] at ht
    split at ht <;> cases ht
    exact ⟨others_receiveBytes _, inv_receiveBytes _⟩
  case txDrain => exact ⟨others_txDrain, inv_txDrain⟩
  case pwTick l =>
    refine ⟨{ Others.refl s with window := pwStep_en _ _ _ }, fun h => ?_⟩
    exact { h with pulse := pulseOk_step (pwMax_pos h.config) h.pulse l }
  case crc8Byte b => exact rep _
  case crc8Buf b x => exact rep _
  case crcnConfig n p =>
    refine afterOr_cases (P := fun t => Others s t ∧ (Inv s → Inv t)) triv fun t ht => ?_
    simp only [execCrcnConfig] at ht
    split at ht <;> cases ht
    refine ⟨{ Others.refl s with }, fun h => { h with crc := ⟨h.crc.tab8, Or.inr ?_, h.crc.tabN⟩ }⟩
    constructor <;> simp only <;> omega
  case crcnCalc b x =>
    refine afterOr_cases (P := fun t => Others s t ∧ (Inv s → Inv t)) triv fun t ht => ?_
    simp only [execCrcnCalc] at ht
    split at ht
    · cases ht
    · split at ht <;> cases ht
      · exact ⟨(others_crcnRebuild.trans others_drawn).trans (others_reply _),
          fun h => inv_reply _ (inv_drawn (inv_crcnRebuild h))⟩
      · exact ⟨others_crcnRebuild.trans (others_reply _), fun h => inv_reply _ (inv_crcnRebuild h)⟩
  case decodeHeader b =>
    refine afterOr_cases (P := fun t => Others s t ∧ (Inv s → Inv t)) triv fun t ht => ?_
    simp only [execDecodeHeader] at ht
    split at ht <;> cases ht
    exact rep _
  case computeCrc b n =>
    refine afterOr_cases (P := fun t => Others s t ∧ (Inv s → Inv t)) triv fun t ht => ?_
    simp only [execComputeCrc] at ht
    split at ht <;> cases ht
    exact rep _
  case isValid b n =>
    refine afterOr_cases (P := fun t => Others s t ∧ (Inv s → Inv t)) triv fun t ht => ?_
    simp only [execIsValid] at ht
    split at ht <;> cases ht
    exact rep _
  case unpackChannels p =>
    refine afterOr_cases (P := fun t => Others s t ∧ (Inv s → Inv t)) triv fun t ht => ?_
    simp only [execUnpackChannels] at ht
    split at ht <;> cases ht
    exact rep _
  case packChannels v =>
    refine afterOr_cases (P := fun t => Others s t ∧ (Inv s → Inv t)) triv fun t ht => ?_
    simp only [execPackChannels] at ht
    split at ht <;> cases ht
    exact rep _
  case encodeExt a d o p =>
    refine afterOr_cases (P := fun t => Others s t ∧ (Inv s → Inv t)) triv fun t ht => ?_
    simp only [execEncodeExt, encodeExt] at ht
    split at ht <;> cases ht
    exact rep _
  case encodeDevinfo =>
    refine afterOr_cases (P := fun t => Others s t ∧ (Inv s → Inv t)) triv fun t ht => ?_
    simp only [execEncodeDevinfo, encodeDevinfo, encodeExt] at ht
    split at ht <;> cases ht
    exact rep _
  case packVersion a b c => exact rep _
  case readChannel k =>
    refine afterOr_cases (P := fun t => Others s t ∧ (Inv s → Inv t)) triv fun t ht => ?_
    simp only [execReadChannel] at ht
    split at ht <;> cases ht
    exact rep _
  case getLastRcTs => exact rep _
  case enqueue f => exact enq _ _
  case sendTelemetry b =>
    refine afterOr_cases (P := fun t => Others s t ∧ (Inv s → Inv t)) triv fun t ht => ?_
    simp only [execSendTelemetry] at ht
    split at ht <;> cases ht
    exact enq _ _
  case notifyTx u =>
    refine ⟨{ Others.refl s with tSent := syncSample_tSent _ _ _ }, fun h => ?_⟩
    have hc := configOk_iff.mp h.config
    exact inv_sync (syncOk_sample hc.2.1.1 hc.2.1.2.1 h.sync) h

/-! ### One point -/

theorem asyncOps_spec (is : List Instr) (s : State) : Others s (asyncOps is s) ∧ (Inv s → Inv (asyncOps is s)) := by
  induction is generalizing s with
  | nil => exact ⟨Others.refl s, id⟩
  | cons i is ih =>
    have h1 := asyncOp_spec i s
    have h2 := ih (asyncOp i s)
    exact ⟨h1.1.trans h2.1, fun h => h2.2 (h1.2 h)⟩

/-- An interleave point: only the other agents step. -/
theorem others_interleave (s : State) : Others s (interleave s) := by
  unfold interleave
  split
  · exact Others.refl s
  · rename_i ops rest _
    have h0 : Others s { s with env := { s.env with slots := rest } } := { Others.refl s with }
    exact h0.trans (asyncOps_spec ops _).1

/-- An interleave point keeps safe states safe. -/
theorem inv_interleave {s : State} (h : Inv s) : Inv (interleave s) := by
  unfold interleave
  split
  · exact h
  · rename_i ops rest _
    have h0 : Inv { s with env := { s.env with slots := rest } } := { h with }
    exact (asyncOps_spec ops _).2 h0

/-- With no choice left to the environment nothing happens at an interleave point. -/
@[simp] theorem interleave_nil {s : State} (h : s.env.slots = []) : interleave s = s := by
  unfold interleave; rw [h]

end Sys2Proof.Machine
end

