-- ==== Sys2Proof/Laws/Service.lean ====
section
/-! SUPPORT. The scheduler's service (45_scheduler R264 to R266): it always completes on a safe state, and what it hands
over is the front of the pending bytes. -/

namespace Sys2Proof.Machine

/-! ### Sequencing -/

@[simp] theorem andThen_ok {α β : Type} (a : α) (k : α → Run β) : andThen (.ok a) k = k a := rfl
@[simp] theorem andThen_error {α β : Type} (e : Stop) (k : α → Run β) : andThen (.error e) k = .error e := rfl
@[simp] theorem finish_ok (s : State) : finish (.ok s) = .next s := rfl
@[simp] theorem finishWith_ok {α : Type} (mk : α → Reply) (s : State) (a : α) :
    finishWith mk (.ok (s, a)) = .next (reply (mk a) s) := rfl

theorem andThen_eq_ok {α β : Type} {x : Run α} {k : α → Run β} {b : β} :
    andThen x k = .ok b ↔ ∃ a, x = .ok a ∧ k a = .ok b := by
  cases x <;> simp [andThen]

/-! ### What a service leaves alone -/

/-- The parts a service call never touches. -/
structure Serviced (s t : State) : Prop where
  cfg : t.cfg = s.cfg
  asm : t.asm = s.asm
  chan : t.chan = s.chan
  link : t.link = s.link
  baud : t.baud = s.baud
  clock : t.clock = s.clock
  hold : t.hold = s.hold
  pending : t.env.pending = s.env.pending

theorem Serviced.refl (s : State) : Serviced s s := by constructor <;> rfl

theorem Serviced.trans {s t u : State} (h : Serviced s t) (h' : Serviced t u) : Serviced s u :=
  ⟨h'.cfg.trans h.cfg, h'.asm.trans h.asm, h'.chan.trans h.chan, h'.link.trans h.link, h'.baud.trans h.baud,
    h'.clock.trans h.clock, h'.hold.trans h.hold, h'.pending.trans h.pending⟩

theorem Others.serviced {s t : State} (h : Others s t) : Serviced s t :=
  ⟨h.cfg, h.asm, h.chan, h.link, h.baud, h.clock, h.hold, h.pending⟩

theorem serviced_engageTransmit (s : State) : Serviced s (engageTransmit s) := by constructor <;> simp

theorem serviced_syncEmit (ms : Word) (s : State) : Serviced s (syncEmit ms s) := by constructor <;> simp

theorem serviced_handOver (bs : List Byte) (s : State) : Serviced s (handOver bs s) := by constructor <;> simp

theorem serviced_qFlush (s : State) : Serviced s (qFlush s) := by constructor <;> simp

theorem engageTransmit_burst (s : State) :
    (engageTransmit s).cfg.halfDuplex = true → (engageTransmit s).tx.transmitting = true := by
  intro hh
  simp only [engageTransmit_cfg] at hh
  unfold engageTransmit
  cases ht : s.tx.transmitting <;> simp [hh, ht]

/-! ### Progress -/

/-- Something is left to hand over. -/
def hasPending (s : State) : Prop := s.tx.rem ≠ 0 ∨ s.tx.outq ≠ []

theorem hasOutput_iff {s : State} : hasOutput s = true ↔ hasPending s := by
  unfold hasOutput hasPending
  simp only [Bool.or_eq_true, decide_eq_true_eq, Bool.not_eq_true', List.isEmpty_eq_false_iff, Nat.pos_iff_ne_zero]

/-- With something pending, the pop completes: a safe state, nothing of the receive side touched. -/
theorem popIfIdle_total {s : State} (h : Inv s) (hp : hasPending s) :
    ∃ t, popIfIdle s = .ok t ∧ Inv t ∧ Serviced s t ∧ t.tx.transmitting = s.tx.transmitting := by
  unfold popIfIdle
  split
  · rename_i hr
    obtain ⟨frames, hq, hl⟩ := h.tx.records
    rcases popRecord_cases hq hl with ⟨rfl, -⟩ | ⟨f, rest, rfl, hpop⟩
    · exact absurd hq (by rcases hp with hp | hp <;> [exact absurd hr hp; simpa using hp])
    · rw [hpop]
      have ho := others_interleave (popped f (rest.flatMap record) s)
      refine ⟨_, rfl, inv_interleave (inv_popped h hq hl), ?_, ho.transmitting⟩
      have k0 : Serviced s (popped f (rest.flatMap record) s) := by constructor <;> rfl
      exact k0.trans ho.serviced
  · exact ⟨s, rfl, h, Serviced.refl s, rfl⟩

/-- The drain loop completes on a safe state, whatever the other agents do meanwhile. -/
theorem drain_total (fuel budget : Nat) {s : State} (h : Inv s)
    (hb : s.cfg.halfDuplex = true → s.tx.transmitting = true) (hp : hasPending s) :
    ∃ t bs, drain fuel budget s = .ok (t, bs) ∧ Inv t ∧ Serviced s t := by
  induction fuel generalizing budget s with
  | zero => exact ⟨s, [], rfl, h, Serviced.refl s⟩
  | succ fuel ih =>
    obtain ⟨s1, e1, h1, k1, t1⟩ := popIfIdle_total h hp
    obtain ⟨bs, hbs⟩ := h1.tx.staged
    have hread := (staged_split hbs (Nat.min_le_left s1.tx.rem budget)).1
    have hlen := (memRead_eq_ok.mp hread).2.1
    have hb1 : s1.cfg.halfDuplex = true → s1.tx.transmitting = true := by rw [k1.cfg, t1]; exact hb
    have h2 := inv_handOver h1 hbs (Nat.min_le_left _ _) hlen hb1
    have ho := others_interleave (handOver (bs.take (min s1.tx.rem budget)) s1)
    have h3 := inv_interleave h2
    have k3 := (k1.trans (serviced_handOver _ _)).trans ho.serviced
    simp only [drain, e1, andThen_ok, hread]
    split
    · exact ⟨_, _, rfl, h3, k3⟩
    · rename_i hc
      have hq : hasPending (interleave (handOver (bs.take (min s1.tx.rem budget)) s1)) := by
        right
        intro he
        exact hc (Or.inr (by rw [he]; rfl))
      have hb3 : (interleave (handOver (bs.take (min s1.tx.rem budget)) s1)).cfg.halfDuplex = true →
          (interleave (handOver (bs.take (min s1.tx.rem budget)) s1)).tx.transmitting = true := by
        rw [ho.cfg, ho.transmitting]; simpa using hb1
      obtain ⟨t, r, e4, h4, k4⟩ := ih (budget - (bs.take (min s1.tx.rem budget)).length) h3 hb3 hq
      rw [e4]
      exact ⟨t, _, rfl, h4, k3.trans k4⟩

/-- A service call completes on a safe state, whatever the other agents do meanwhile. -/
theorem serviceOutput_total (received : Nat) (ms : Word) {s : State} (h : Inv s) :
    ∃ t bs, serviceOutput received ms s = .ok (t, bs) ∧ Inv t ∧ Serviced s t := by
  unfold serviceOutput
  split
  · exact ⟨_, _, rfl, inv_qFlush h, serviced_qFlush s⟩
  · have h1 : Inv (if hasOutput s then s else syncEmit ms s) := by
      split
      · exact h
      · exact inv_syncEmit ms h
    have k1 : Serviced s (if hasOutput s then s else syncEmit ms s) := by
      split
      · exact Serviced.refl s
      · exact serviced_syncEmit ms s
    generalize (if hasOutput s then s else syncEmit ms s) = s1 at h1 k1
    have h2 := inv_interleave h1
    have k2 := k1.trans (others_interleave s1).serviced
    simp only
    split
    · rename_i hp
      have h3 := inv_engageTransmit h2
      have ho := others_interleave (engageTransmit (interleave s1))
      have hpend : hasPending (interleave (engageTransmit (interleave s1))) := by
        have hp0 := hasOutput_iff.mp hp
        have e1 : (engageTransmit (interleave s1)).tx.rem = (interleave s1).tx.rem := by
          unfold engageTransmit; split <;> simp
        have e2 : (engageTransmit (interleave s1)).tx.outq = (interleave s1).tx.outq := by
          unfold engageTransmit; split <;> simp
        rcases hp0 with hp0 | hp0
        · left; rw [ho.rem, e1]; exact hp0
        · right
          obtain ⟨fs, hfs⟩ := ho.outq
          rw [hfs, e2]
          simp [hp0]
      have hb : (interleave (engageTransmit (interleave s1))).cfg.halfDuplex = true →
          (interleave (engageTransmit (interleave s1))).tx.transmitting = true := by
        rw [ho.cfg, ho.transmitting]; exact engageTransmit_burst _
      obtain ⟨t, bs, e, h5, k5⟩ := drain_total (budgetOf received (interleave s1)) (budgetOf received (interleave s1))
        (inv_interleave h3) hb hpend
      exact ⟨t, bs, e, h5, ((k2.trans (serviced_engageTransmit _)).trans ho.serviced).trans k5⟩
    · exact ⟨_, _, rfl, h2, k2⟩

/-! ### What is handed over when nothing steps in between -/

/-- The bytes waiting to be handed over, in order: the staged rest, then the queued frames (R270 (d)). -/
def pendingIs (s : State) (bs : List Byte) (frames : List (List Byte)) : Prop := stageHolds s bs ∧ queueHolds s frames

/-- The pop with no interleaving: afterwards something is staged, and the pending bytes are the same. -/
theorem popIfIdle_quiet {s : State} {bs : List Byte} {frames : List (List Byte)} (hs : s.env.slots = [])
    (hst : stageHolds s bs) (hqu : queueHolds s frames) (hp : bs ≠ [] ∨ frames ≠ []) :
    ∃ x bs' n, popIfIdle s = .ok { s with tx := x } ∧ memRead x.stage x.off x.rem = .ok bs' ∧ bs' ≠ []
      ∧ x.outq = (frames.drop n).flatMap record ∧ bs' ++ (frames.drop n).flatten = bs ++ frames.flatten
      ∧ x.transmitting = s.tx.transmitting
      ∧ ∀ a, (∀ f ∈ frames.take n, f.length ≤ a) → readByte x.stage a = readByte s.tx.stage a := by
  have hlen := (memRead_eq_ok.mp hst).2.1
  unfold popIfIdle
  by_cases hr : s.tx.rem = 0
  · rw [if_pos hr]
    have hbs : bs = [] := List.length_eq_zero_iff.mp (by omega)
    subst hbs
    rcases popRecord_cases hqu.1 hqu.2 with ⟨rfl, -⟩ | ⟨f, rest, rfl, hpop⟩
    · simp at hp
    · rw [hpop, andThen_ok, interleave_nil (by simpa [popped] using hs)]
      have hf := hqu.2 f List.mem_cons_self
      refine ⟨_, f, 1, rfl, popped_staged hf.2, ?_, rfl, by simp, rfl, fun a ha => ?_⟩
      · intro h; rw [h] at hf; simp at hf
      · have := ha f (by simp)
        exact (readByte_writeBytes s.tx.stage 0 f a).trans (if_neg (by omega))
  · rw [if_neg hr]
    refine ⟨s.tx, bs, 0, rfl, hst, ?_, by simpa using hqu.1, by simp, rfl, fun _ _ => rfl⟩
    intro h; rw [h] at hlen; simp at hlen; omega

/-- The drain with no interleaving: the first `budget` pending bytes are handed over, in order, and the rest stays. -/
theorem drain_quiet (fuel budget : Nat) {s : State} {bs : List Byte} {frames : List (List Byte)} (hf : budget ≤ fuel)
    (hs : s.env.slots = []) (hst : stageHolds s bs) (hqu : queueHolds s frames) (hp : bs ≠ [] ∨ frames ≠ []) :
    ∃ x bs' n, drain fuel budget s
        = .ok ({ s with line := { s.line with txhw := s.line.txhw ++ (bs ++ frames.flatten).take budget }, tx := x },
            (bs ++ frames.flatten).take budget)
      ∧ memRead x.stage x.off x.rem = .ok bs' ∧ x.outq = (frames.drop n).flatMap record
      ∧ bs' ++ (frames.drop n).flatten = (bs ++ frames.flatten).drop budget ∧ x.transmitting = s.tx.transmitting
      ∧ ∀ a, (∀ f ∈ frames.take n, f.length ≤ a) → readByte x.stage a = readByte s.tx.stage a := by
  induction fuel generalizing budget s bs frames with
  | zero =>
    have : budget = 0 := by omega
    subst this
    exact ⟨s.tx, bs, 0, by simp [drain], hst, by simpa using hqu.1, by simp, rfl, fun _ _ => rfl⟩
  | succ fuel ih =>
    obtain ⟨x1, b1, n1, e1, hb1, hne, ho1, hcat, ht1, hk1⟩ := popIfIdle_quiet hs hst hqu hp
    have hl1 := (memRead_eq_ok.mp hb1).2.1
    have hpos : 0 < b1.length := List.length_pos_iff.mpr hne
    obtain ⟨hr, hrest⟩ := staged_split hb1 (Nat.min_le_left x1.rem budget)
    have hwlen : (b1.take (min x1.rem budget)).length = min x1.rem budget := (memRead_eq_ok.mp hr).2.1
    have hs2 : (handOver (b1.take (min x1.rem budget)) { s with tx := x1 }).env.slots = [] := hs
    simp only [drain, e1, andThen_ok, hr, interleave_nil hs2, hwlen]
    rw [← hcat]
    split
    · rename_i hc
      have hcov : (b1 ++ (frames.drop n1).flatten).take budget = b1.take (min x1.rem budget)
          ∧ (b1 ++ (frames.drop n1).flatten).drop budget = b1.drop (min x1.rem budget) ++ (frames.drop n1).flatten := by
        rcases hc with hc | hc
        · have : min x1.rem budget = budget := by omega
          rw [this, List.take_append_of_le_length (by omega), List.drop_append_of_le_length (by omega)]
          exact ⟨rfl, rfl⟩
        · have hfr : frames.drop n1 = [] := by
            apply flatMap_record_eq_nil.mp
            rw [← ho1]
            exact List.isEmpty_iff.mp hc
          rw [hfr]
          simp only [List.flatten_nil, List.append_nil]
          rcases Nat.le_total x1.rem budget with hle | hle
          · rw [Nat.min_eq_left hle, List.take_of_length_le (by omega), List.take_of_length_le (by omega),
              List.drop_of_length_le (by omega), List.drop_of_length_le (by omega)]
            exact ⟨rfl, rfl⟩
          · rw [Nat.min_eq_right hle]; exact ⟨rfl, rfl⟩
      refine ⟨(handOver (b1.take (min x1.rem budget)) { s with tx := x1 }).tx, b1.drop (min x1.rem budget), n1,
        by rw [hcov.1]; rfl, ?_, ho1, hcov.2.symm, ht1, hk1⟩
      simp only [handOver, hwlen]
      exact hrest
    · rename_i hc
      have hleft : budget - min x1.rem budget ≠ 0 := fun h => hc (Or.inl h)
      have hw : min x1.rem budget = b1.length := by omega
      have hfr : frames.drop n1 ≠ [] := by
        intro h
        refine hc (Or.inr ?_)
        simp only [handOver, ho1, h, List.flatMap_nil, List.isEmpty_nil]
      have hall : b1.take (min x1.rem budget) = b1 := List.take_of_length_le (by omega)
      rw [hall, hw]
      have hst2 : stageHolds (handOver b1 { s with tx := x1 }) [] := by
        refine memRead_eq_ok.mpr ⟨?_, ?_, holdsAt_nil _ _⟩
        · have := (memRead_eq_ok.mp hb1).1
          simp only [handOver]; omega
        · simp only [handOver, List.length_nil]; omega
      have hqu2 : queueHolds (handOver b1 { s with tx := x1 }) (frames.drop n1) :=
        ⟨ho1, fun g hg => hqu.2 g (List.mem_of_mem_drop hg)⟩
      obtain ⟨x, b', n, e, hx1, hx2, hx3, hx4, hx5⟩ := ih (budget - b1.length) (by omega) (by rw [hall] at hs2; exact hs2)
        hst2 hqu2 (Or.inr hfr)
      rw [e]
      have htk : (b1 ++ (frames.drop n1).flatten).take budget
          = b1 ++ (frames.drop n1).flatten.take (budget - b1.length) := by
        rw [List.take_append, List.take_of_length_le (by omega)]
      have hdr : (b1 ++ (frames.drop n1).flatten).drop budget = (frames.drop n1).flatten.drop (budget - b1.length) := by
        rw [List.drop_append, List.drop_of_length_le (by omega), List.nil_append]
      refine ⟨x, b', n1 + n, ?_, hx1, by rw [hx2, List.drop_drop], ?_, by rw [hx4]; exact ht1, fun a ha => ?_⟩
      · rw [htk]
        simp only [andThen_ok, List.nil_append, handOver, List.append_assoc]
      · rw [hdr, ← List.drop_drop, hx3, List.nil_append]
      · rw [List.take_add] at ha
        rw [hx5 a fun f hf => ha f (List.mem_append_right _ hf)]
        exact hk1 a fun f hf => ha f (List.mem_append_left _ hf)

end Sys2Proof.Machine
end

