-- ==== Sys2Proof/Laws/Assembly.lean ====
section
/-! SUPPORT. Byte assembly and frame handling (43_assembly): what the fill, the search and the removal do to the buffered
bytes, and that a poll completes on every safe state, whatever the other agents do meanwhile. -/

namespace Sys2Proof.Machine

/-! ### Frame arithmetic -/

/-- The CRC test over buffered bytes is the CRC byte's own (R104, R162). -/
theorem legalLen_iff {n : Nat} : legalLen n = true ↔ 4 ≤ n ∧ n ≤ 64 := by simp [legalLen]

theorem be32_length (v : Word) : (be32 v).length = 4 := rfl

theorem devinfoPayload_length (cfg : Config) : (devinfoPayload cfg).length = cfg.deviceName.length + 15 := by
  simp [devinfoPayload, be32Nat, be32]

/-- Under R10 (c) the device-info frame can always be built. -/
theorem encodeDevinfo_ok {s : State} (h : configOk s.cfg = true) :
    encodeDevinfo s
      = .ok (extFrame s typeDeviceInfo s.cfg.addrRadio s.cfg.addrModule (devinfoPayload s.cfg)) := by
  have := (configOk_iff.mp h).2.2.1.1
  unfold encodeDevinfo encodeExt
  rw [if_neg (by rw [devinfoPayload_length]; omega)]

/-! ### The search for a marker -/

/-- Where the first marker stands, and what is left from there on (R201). -/
theorem firstMarker_spec (cfg : Config) (bs : List Byte) :
    match firstMarker cfg bs with
    | some j => j < bs.length ∧ aligned cfg bs = bs.drop j
    | none => aligned cfg bs = [] := by
  induction bs with
  | nil => simp [firstMarker, aligned]
  | cons b bs ih =>
    simp only [firstMarker]
    by_cases hb : isMarker cfg b = true
    · simp [hb, aligned]
    · have ha : aligned cfg (b :: bs) = aligned cfg bs := by simp [aligned, hb]
      rw [if_neg hb, ha]
      cases hf : firstMarker cfg bs with
      | none => simpa [hf] using ih
      | some j => rw [hf] at ih; simpa using ih

/-- A nonempty aligned sequence begins with a marker. -/
theorem isMarker_head_aligned {cfg : Config} {bs rest : List Byte} {b : Byte} (h : aligned cfg bs = b :: rest) :
    isMarker cfg b = true := by
  have := List.head?_dropWhile_not (p := fun b => !isMarker cfg b) (l := bs)
  unfold aligned at h
  rw [h] at this
  simpa using this

/-! ### Fill, drop, search -/

/-- `RX_FILL` (R200): the buffered bytes become as many as fit of those buffered and received. -/
theorem rxFill_spec {s : State} {bs : List Byte} (hf : Memory.wf s.asm.buf = true) (h : asmHolds s bs) :
    ∃ m, rxFill s = .ok { s with
        asm := { buf := m, cursor := ((bs ++ s.line.rxhw).take 64).length }
        line := { s.line with rxhw := s.line.rxhw.drop (64 - bs.length) } }
      ∧ Memory.wf m = true ∧ memRead m 0 ((bs ++ s.line.rxhw).take 64).length = .ok ((bs ++ s.line.rxhw).take 64)
      ∧ ∀ x, ((bs ++ s.line.rxhw).take 64).length ≤ x → readByte m x = readByte s.asm.buf x := by
  obtain ⟨h1, h2, h3⟩ := memRead_eq_ok.mp h
  simp only [storeSize, Nat.zero_add] at h1
  set n := min s.line.rxhw.length (64 - s.asm.cursor) with hn
  have hlen : (s.line.rxhw.take n).length = n := by simp; omega
  have htk : (bs ++ s.line.rxhw).take 64 = bs ++ s.line.rxhw.take n := by
    rw [List.take_append, List.take_of_length_le (by omega)]
    congr 1
    rw [hn, h2]
    rcases Nat.le_total s.line.rxhw.length (64 - s.asm.cursor) with hle | hle
    · rw [Nat.min_eq_left hle, List.take_of_length_le hle, List.take_of_length_le (Nat.le_refl _)]
    · rw [Nat.min_eq_right hle]
  have hdr : s.line.rxhw.drop n = s.line.rxhw.drop (64 - bs.length) := by
    rw [h2, hn]
    rcases Nat.le_total s.line.rxhw.length (64 - s.asm.cursor) with hle | hle
    · rw [Nat.min_eq_left hle, List.drop_of_length_le hle, List.drop_of_length_le (Nat.le_refl _)]
    · rw [Nat.min_eq_right hle]
  have hw : memWrite s.asm.buf s.asm.cursor (s.line.rxhw.take n)
      = .ok (writeBytes s.asm.buf s.asm.cursor (s.line.rxhw.take n)) :=
    memWrite_eq_ok.mpr ⟨by rw [hlen]; simp only [storeSize]; omega, rfl⟩
  refine ⟨writeBytes s.asm.buf s.asm.cursor (s.line.rxhw.take n), ?_, ?_, ?_, fun x hx => ?_⟩
  · unfold rxFill
    simp only [maxFrame]
    rw [← hn, hw, htk]
    simp only [andThen_ok, List.length_append, h2, hlen, hdr, setAsm]
  · exact wf_writeBytes hf (by rw [hlen]; simp only [storeSize]; omega)
  · rw [htk]
    refine memRead_eq_ok.mpr ⟨by simp only [List.length_append, hlen, storeSize]; omega, rfl, holdsAt_append.mpr ⟨?_, ?_⟩⟩
    · exact holdsAt_writeBytes_before h3 (by omega)
    · rw [Nat.zero_add, h2]; exact holdsAt_writeBytes _ _ _
  · rw [htk, List.length_append, hlen] at hx
    rw [readByte_writeBytes, if_neg (by omega)]

/-- Removal (R204): the first `i` buffered bytes are gone. -/
theorem dropFront_spec {s : State} {bs : List Byte} {i : Nat} (hf : Memory.wf s.asm.buf = true) (h : asmHolds s bs)
    (hi : i ≤ bs.length) :
    ∃ m, dropFront i s = .ok { s with asm := { buf := m, cursor := (bs.drop i).length } }
      ∧ Memory.wf m = true ∧ memRead m 0 (bs.drop i).length = .ok (bs.drop i)
      ∧ ∀ x, (bs.drop i).length ≤ x → readByte m x = readByte s.asm.buf x := by
  have h2 := (memRead_eq_ok.mp h).2.1
  obtain ⟨m, e, hm, hr, hk⟩ := memShiftLeft_holds hf h (by omega : i ≤ s.asm.cursor)
  have hl : (bs.drop i).length = s.asm.cursor - i := by simp; omega
  refine ⟨m, ?_, hm, by rw [hl]; exact hr, by rw [hl]; exact hk⟩
  unfold dropFront
  rw [e, hl]; rfl

/-- `ALIGN` (R201): the buffered bytes become those from the first marker on, at or after the start. -/
theorem alignFrom_spec {s : State} {bs : List Byte} {start : Nat} (hf : Memory.wf s.asm.buf = true) (h : asmHolds s bs)
    (h1 : start ≤ 1) :
    ∃ m, alignFrom start s = .ok { s with asm := { buf := m, cursor := (aligned s.cfg (bs.drop start)).length } }
      ∧ Memory.wf m = true
      ∧ memRead m 0 (aligned s.cfg (bs.drop start)).length = .ok (aligned s.cfg (bs.drop start))
      ∧ ∀ x, (aligned s.cfg (bs.drop start)).length ≤ x → readByte m x = readByte s.asm.buf x := by
  obtain ⟨ha, hb, hc⟩ := memRead_eq_ok.mp h
  have hread : memRead s.asm.buf start (s.asm.cursor - start) = .ok (bs.drop start) := by
    rcases Nat.lt_or_ge s.asm.cursor start with hlt | hge
    · have : bs.drop start = [] := List.drop_eq_nil_of_le (by omega)
      rw [this, Nat.sub_eq_zero_of_le (by omega)]
      exact memRead_eq_ok.mpr ⟨by simp only [storeSize]; omega, rfl, holdsAt_nil _ _⟩
    · have := memRead_part h (show start + (s.asm.cursor - start) ≤ s.asm.cursor by omega)
      rwa [List.take_of_length_le (by simp; omega)] at this
  have hm := firstMarker_spec s.cfg (bs.drop start)
  unfold alignFrom
  rw [hread, andThen_ok]
  cases hfm : firstMarker s.cfg (bs.drop start) with
  | none =>
    rw [hfm] at hm
    simp only at hm
    rw [hm]
    exact ⟨s.asm.buf, rfl, hf, memRead_eq_ok.mpr ⟨by simp, rfl, holdsAt_nil _ _⟩, fun _ _ => rfl⟩
  | some j =>
    rw [hfm] at hm
    obtain ⟨hj, hal⟩ := hm
    simp only [List.length_drop] at hj
    rw [hal, List.drop_drop]
    exact dropFront_spec hf h (by omega)

/-! ### Frame handling -/

/-- The parts that handling a frame never touches. -/
structure Handled (s t : State) : Prop where
  cfg : t.cfg = s.cfg
  asm : t.asm = s.asm
  baud : t.baud = s.baud
  clock : t.clock = s.clock
  hold : t.hold = s.hold
  pending : t.env.pending = s.env.pending
  counts : t.link.goodCnt = s.link.goodCnt ∧ t.link.badCnt = s.link.badCnt

theorem Handled.refl (s : State) : Handled s s := ⟨rfl, rfl, rfl, rfl, rfl, rfl, rfl, rfl⟩

theorem Handled.trans {s t u : State} (h : Handled s t) (h' : Handled t u) : Handled s u :=
  ⟨h'.cfg.trans h.cfg, h'.asm.trans h.asm, h'.baud.trans h.baud, h'.clock.trans h.clock, h'.hold.trans h.hold,
    h'.pending.trans h.pending, h'.counts.1.trans h.counts.1, h'.counts.2.trans h.counts.2⟩

theorem Serviced.handled {s t : State} (h : Serviced s t) : Handled s t :=
  ⟨h.cfg, h.asm, h.baud, h.clock, h.hold, h.pending, by rw [h.link], by rw [h.link]⟩

theorem Others.handled {s t : State} (h : Others s t) : Handled s t := h.serviced.handled

theorem handled_markReceived (us : Word) (s : State) : Handled s (markReceived us s) := by
  refine ⟨by simp, by simp, by simp, by simp, by simp, by simp, ?_, ?_⟩ <;>
    (unfold markReceived; cases s.link.connected <;> rfl)

theorem handled_setChan (k : Nat) (v : Chan) (s : State) : Handled s (setChan k v s) := by constructor <;> simp

theorem writeChannels_spec (k : Nat) (vs : List Chan) {s : State} :
    Handled s (writeChannels k vs s) ∧ (Inv s → Inv (writeChannels k vs s)) := by
  induction vs generalizing k s with
  | nil => exact ⟨Handled.refl s, id⟩
  | cons v vs ih =>
    have h := ih (k + 1) (s := setChan k v (interleave s))
    exact ⟨((others_interleave s).handled.trans (handled_setChan _ _ _)).trans h.1,
      fun hi => h.2 (inv_setChan _ _ (inv_interleave hi))⟩

theorem drawChannels_spec (n k : Nat) {s : State} :
    Handled s (drawChannels n k s) ∧ (Inv s → Inv (drawChannels n k s)) := by
  induction n generalizing k s with
  | zero => exact ⟨Handled.refl s, id⟩
  | succ n ih =>
    have h := ih (k + 1)
      (s := setChan k (Config.freeChannel (interleave s).env.drawn) (drawn (interleave s)))
    exact ⟨(((others_interleave s).handled.trans others_drawn.handled).trans (handled_setChan _ _ _)).trans h.1,
      fun hi => h.2 (inv_setChan _ _ (inv_drawn (inv_interleave hi)))⟩

/-- The bytes a frame handler reads stand before the frame's end. -/
theorem updateChannels_total {s : State} {bs : List Byte} {n : Nat} (h : Inv s) (hb : asmHolds s bs)
    (hn : n ≤ bs.length) : ∃ t, updateChannels n s = .ok t ∧ Inv t ∧ Handled s t := by
  unfold updateChannels
  split
  · rename_i hw
    simp only [rcPayloadWhole, decide_eq_true_eq] at hw
    have hl := (memRead_eq_ok.mp hb).2.1
    have hn1 := (configOk_iff.mp h.config).2.2.2.2.2.1.1
    have hpos : 0 < chBytes s.cfg := by simp only [chBytes, chBits]; omega
    rw [memRead_part hb (by omega : 3 + chBytes s.cfg ≤ s.asm.cursor), andThen_ok]
    have := writeChannels_spec 0 (unpackChannels s.cfg.numCh ((bs.drop 3).take (chBytes s.cfg))) (s := s)
    exact ⟨_, rfl, this.2 h, this.1⟩
  · have := drawChannels_spec s.cfg.numCh 0 (s := s)
    exact ⟨_, rfl, this.2 h, this.1⟩

theorem handled_stampRc (us : Word) (s : State) : Handled s (stampRc us s) := by constructor <;> simp

theorem handled_emit (e : Event) (s : State) : Handled s (emit e s) := by constructor <;> simp

theorem asmHolds_of_handled {s t : State} {bs : List Byte} (h : Handled s t) (hb : asmHolds s bs) : asmHolds t bs := by
  unfold asmHolds; rw [h.asm]; exact hb

/-- An RC-channels frame is always handled (R206). -/
theorem handleRc_total {s : State} {bs : List Byte} {n : Nat} (us ms : Word) (h : Inv s) (hb : asmHolds s bs)
    (hn : n ≤ bs.length) : ∃ t, handleRc n us ms s = .ok t ∧ Inv t ∧ Handled s t := by
  have h1 := inv_stampRc us h
  obtain ⟨t2, e2, h2, k2⟩ := updateChannels_total h1 (asmHolds_of_handled (handled_stampRc us s) hb) hn
  obtain ⟨t3, bs3, e3, h3, k3⟩ := serviceOutput_total n ms (inv_emit .rcData (inv_interleave h2))
  refine ⟨t3, ?_, h3, ?_⟩
  · unfold handleRc; rw [e2, andThen_ok, e3, andThen_ok]
  · exact (((handled_stampRc us s).trans k2).trans (others_interleave t2).handled).trans
      ((handled_emit _ _).trans k3.handled)

/-- A device ping is always handled (R207). -/
theorem handlePing_total {s : State} {bs : List Byte} {n : Nat} (h : Inv s) (hb : asmHolds s bs) (hn : n ≤ bs.length) :
    ∃ t, handlePing n s = .ok t ∧ Inv t ∧ Handled s t := by
  unfold handlePing
  split
  · exact ⟨s, rfl, h, Handled.refl s⟩
  · have hl := (memRead_eq_ok.mp hb).2.1
    rw [memByte_of_holds hb (by omega : 3 < s.asm.cursor), andThen_ok]
    split
    · rw [encodeDevinfo_ok h.config, andThen_ok]
      exact ⟨_, rfl, inv_enqueue _ h, (others_enqueue _).handled⟩
    · exact ⟨s, rfl, h, Handled.refl s⟩

/-- A command frame is always handled (R208). -/
theorem handleCommand_total {s : State} {bs : List Byte} {n : Nat} (h : Inv s) (hb : asmHolds s bs)
    (hn : n ≤ bs.length) : ∃ t, handleCommand n s = .ok t ∧ Inv t ∧ Handled s t := by
  unfold handleCommand
  split
  · exact ⟨s, rfl, h, Handled.refl s⟩
  · have hl := (memRead_eq_ok.mp hb).2.1
    rw [memByte_of_holds hb (by omega : 3 < s.asm.cursor), memByte_of_holds hb (by omega : 5 < s.asm.cursor),
      memByte_of_holds hb (by omega : 6 < s.asm.cursor)]
    simp only [andThen_ok]
    split
    · unfold commandEvent
      split
      · rename_i hc
        rw [memByte_of_holds hb (by omega : 7 < s.asm.cursor), andThen_ok]
        exact ⟨_, rfl, inv_emit _ h, handled_emit _ _⟩
      · split
        · exact ⟨_, rfl, inv_emit _ h, handled_emit _ _⟩
        · exact ⟨s, rfl, h, Handled.refl s⟩
    · exact ⟨s, rfl, h, Handled.refl s⟩

/-- `HANDLE_FRAME` completes on every safe state whose buffer holds the frame (R205 to R209). -/
theorem handleFrame_total {s : State} {bs : List Byte} {n : Nat} (us ms : Word) (h : Inv s) (hb : asmHolds s bs)
    (h4 : 4 ≤ n) (hn : n ≤ bs.length) : ∃ t, handleFrame n us ms s = .ok t ∧ Inv t ∧ Handled s t := by
  have k1 := (handled_markReceived us s).trans (others_interleave (markReceived us s)).handled
  have h1 := inv_interleave (inv_markReceived us h)
  unfold handleFrame
  generalize hg : interleave (markReceived us s) = s1 at k1 h1
  have hb1 := asmHolds_of_handled k1 hb
  have hl := (memRead_eq_ok.mp hb1).2.1
  simp only
  rw [memByte_of_holds hb1 (by omega : 2 < s1.asm.cursor), andThen_ok]
  have key : ∃ t, dispatchFrame (bs.getD 2 0) n us ms s1 = .ok t ∧ Inv t ∧ Handled s1 t := by
    unfold dispatchFrame
    split
    · exact handleRc_total us ms h1 hb1 hn
    · split
      · exact handlePing_total h1 hb1 hn
      · split
        · exact handleCommand_total h1 hb1 hn
        · exact ⟨s1, rfl, h1, Handled.refl s1⟩
  obtain ⟨t, e, ht, kt⟩ := key
  exact ⟨t, e, ht, k1.trans kt⟩

/-! ### The poll -/

theorem asmOk_of {m : Memory} {n : Nat} {bs : List Byte} (hf : Memory.wf m = true) (h : memRead m 0 n = .ok bs) :
    AsmOk { buf := m, cursor := n } := ⟨hf, bs, h⟩

/-- The frame is handled or counted bad, and removed either way (R203, R204). -/
theorem takeFrame_total {s : State} {bs : List Byte} {n : Nat} (us ms : Word) (h : Inv s) (hb : asmHolds s bs)
    (h4 : 4 ≤ n) (hn : n ≤ bs.length) :
    ∃ t o, takeFrame n us ms s = .ok (t, o) ∧ Inv t ∧ asmHolds t (bs.drop n) ∧ t.cfg = s.cfg := by
  have hl := (memRead_eq_ok.mp hb).2.1
  unfold takeFrame
  rw [memRead_part hb (by omega : 0 + n ≤ s.asm.cursor), andThen_ok]
  split
  · have hb1 : asmHolds (countGood s) bs := hb
    obtain ⟨t, e, ht, kt⟩ := handleFrame_total us ms (inv_countGood h) hb1 h4 hn
    have hbt := asmHolds_of_handled kt hb1
    obtain ⟨m, em, hm, hr, -⟩ := dropFront_spec ht.asm.form hbt hn
    rw [e, andThen_ok, em, andThen_ok]
    exact ⟨_, _, rfl, { ht with asm := asmOk_of hm hr }, hr, kt.cfg⟩
  · have h1 := inv_raiseError (.crc (((bs.drop 0).take n).getD 2 0) n) (inv_countBad h)
    obtain ⟨m, em, hm, hr, -⟩ := dropFront_spec h1.asm.form (show asmHolds _ bs from hb) hn
    rw [em, andThen_ok]
    exact ⟨_, _, rfl, { h1 with asm := asmOk_of hm hr }, hr, rfl⟩

/-- The extraction decision completes (R203). -/
theorem extract_total {s : State} {bs : List Byte} (us ms : Word) (h : Inv s) (hb : asmHolds s bs) (h3 : 3 ≤ bs.length) :
    ∃ t o, extract us ms s = .ok (t, o) ∧ Inv t ∧ t.cfg = s.cfg := by
  have hl := (memRead_eq_ok.mp hb).2.1
  unfold extract
  rw [memByte_of_holds hb (by omega : 0 < s.asm.cursor), memByte_of_holds hb (by omega : 1 < s.asm.cursor)]
  simp only [andThen_ok]
  split
  · have h1 := inv_raiseError (.framing (bs.getD 0 0) (bs.getD 1 0)) h
    obtain ⟨m, em, hm, hr, -⟩ := alignFrom_spec h1.asm.form (show asmHolds _ bs from hb) (Nat.le_refl 1)
    rw [em, andThen_ok]
    exact ⟨_, _, rfl, { h1 with asm := asmOk_of hm hr }, rfl⟩
  · rename_i hlegal
    split
    · exact ⟨s, _, rfl, h, rfl⟩
    · rename_i hc
      simp only [Bool.not_eq_true', Bool.not_eq_false] at hlegal
      obtain ⟨t, o, e, ht, -, hcfg⟩ := takeFrame_total us ms h hb (legalLen_iff.mp hlegal).1 (by omega)
      exact ⟨t, o, e, ht, hcfg⟩

/-- `POLL_RX` completes on every safe state, whatever the other agents do meanwhile. -/
theorem pollRx_total {s : State} (us ms : Word) (h : Inv s) :
    ∃ t o, pollRx us ms s = .ok (t, o) ∧ Inv t ∧ t.cfg = s.cfg := by
  unfold pollRx
  split
  · exact ⟨s, _, rfl, h, rfl⟩
  · rename_i hnh
    have hheld : ¬ held s := by
      rintro ⟨ha, hb, hc⟩
      apply hnh
      simp [ha, hb, txIdle, hc]
    have h1 := inv_interleave (inv_endBurst hheld h)
    have c1 : (interleave (endBurst s)).cfg = s.cfg := by rw [(others_interleave _).cfg]; simp
    generalize interleave (endBurst s) = s1 at h1 c1
    obtain ⟨bs, hb⟩ := h1.asm.bytes
    obtain ⟨m, em, hm, hr, -⟩ := rxFill_spec h1.asm.form hb
    rw [em, andThen_ok]
    have h2 : Inv { s1 with
        asm := { buf := m, cursor := ((bs ++ s1.line.rxhw).take 64).length }
        line := { s1.line with rxhw := s1.line.rxhw.drop (64 - bs.length) } } := { h1 with asm := asmOk_of hm hr }
    have h3 := inv_interleave h2
    have o3 := others_interleave { s1 with
        asm := { buf := m, cursor := ((bs ++ s1.line.rxhw).take 64).length }
        line := { s1.line with rxhw := s1.line.rxhw.drop (64 - bs.length) } }
    have c3 := o3.cfg.trans c1
    generalize interleave { s1 with
        asm := { buf := m, cursor := ((bs ++ s1.line.rxhw).take 64).length }
        line := { s1.line with rxhw := s1.line.rxhw.drop (64 - bs.length) } } = s3 at h3 c3
    obtain ⟨bs3, hb3⟩ := h3.asm.bytes
    obtain ⟨m4, em4, hm4, hr4, -⟩ := alignFrom_spec h3.asm.form hb3 (Nat.zero_le 1)
    rw [em4, andThen_ok]
    have h5 : Inv { s3 with asm := { buf := m4, cursor := (aligned s3.cfg (bs3.drop 0)).length } } :=
      { h3 with asm := asmOk_of hm4 hr4 }
    split
    · exact ⟨_, _, rfl, h5, c3⟩
    · rename_i hlt
      obtain ⟨t, o, e, ht, hcfg⟩ := extract_total us ms h5 hr4 (by simpa using hlt)
      exact ⟨t, o, e, ht, hcfg.trans c3⟩

end Sys2Proof.Machine
end

