-- ==== Sys2Proof/Laws/Frames.lean ====
section
/-! SUPPORT. What arriving bytes can do: a poll, or nothing where the environment does not deliver them. -/

namespace Sys2Proof.Machine

/-- All that arriving bytes can do (R214, R202, U7). -/
theorem arrive_cases (bytes : List Byte) (s : State) :
    (s.pins.rxConnected = true ∧ arrive bytes s = execPollRx (nowUs s) (nowMs s) (receiveBytes bytes s))
      ∨ (s.pins.rxConnected = false ∧ arrive bytes s = .refused .receiveDetached) := by
  unfold arrive
  cases h : s.pins.rxConnected
  · right; simp
  · left; simp

/-- Bytes on the line need no row of the opcode table (R115). -/
@[simp] theorem undecoded_frame (bytes : List Byte) (e : DecodeError) (s : State) :
    undecoded (.frame bytes) e s = arrive bytes s := rfl

/-- What is no operation is refused on the operation port (R121). -/
@[simp] theorem undecoded_op (bytes : List Byte) (e : DecodeError) (s : State) :
    undecoded (.op bytes) e s = .refused (.undecodable e) := rfl

end Sys2Proof.Machine
end

