-- ==== Sys2Proof/Laws/PerInstr.lean ====
section
/-! SUPPORT. The per-instruction family `OpByte`: the encoding of every instruction carries the `match` value of its row
of the opcode table (R120: an operation's first byte is its `op` code; a frame's third byte is its type code, R105). -/

namespace Sys2Proof.Laws.OpByte

/-- The row's match value: the `op` code, or the frame's type (under the row's mask, the low byte of the header). -/
def code : Instr → Byte
  | .reset => 0x00
  | .lineRx _ => 0x01
  | .txDrain => 0x02
  | .pwTick _ => 0x03
  | .crc8Byte _ => 0x10
  | .crc8Buf _ _ => 0x11
  | .crcnConfig _ _ => 0x12
  | .crcnCalc _ _ => 0x13
  | .decodeHeader _ => 0x20
  | .computeCrc _ _ => 0x21
  | .isValid _ _ => 0x22
  | .unpackChannels _ => 0x23
  | .packChannels _ => 0x24
  | .encodeExt _ _ _ _ => 0x25
  | .encodeDevinfo => 0x26
  | .packVersion _ _ _ => 0x27
  | .setRx _ => 0x30
  | .setTx _ => 0x31
  | .pollRx _ _ => 0x40
  | .align _ => 0x41
  | .handleFrame _ _ _ => 0x42
  | .readChannel _ => 0x43
  | .getLastRcTs => 0x44
  | .wdtCheck _ => 0x50
  | .autobaudEstimate => 0x51
  | .pwEnable => 0x52
  | .enqueue _ => 0x60
  | .flushQueue => 0x61
  | .sendTelemetry _ => 0x62
  | .serviceOutput _ _ => 0x63
  | .notifyTx _ => 0x70
  | .syncEmit _ => 0x71
  | .frameLinkStats _ _ _ _ => 0x14
  | .frameRcChannels _ _ _ _ => 0x16
  | .framePing _ _ _ _ _ _ => 0x28
  | .frameDeviceInfo _ _ _ _ _ _ => 0x29
  | .frameCommand _ _ _ _ _ _ => 0x32
  | .frameTiming _ _ _ _ _ _ => 0x3A

/-- The instruction is one of the wire-frame rows. -/
def isFrame : Instr → Bool
  | .reset => false
  | .lineRx _ => false
  | .txDrain => false
  | .pwTick _ => false
  | .crc8Byte _ => false
  | .crc8Buf _ _ => false
  | .crcnConfig _ _ => false
  | .crcnCalc _ _ => false
  | .decodeHeader _ => false
  | .computeCrc _ _ => false
  | .isValid _ _ => false
  | .unpackChannels _ => false
  | .packChannels _ => false
  | .encodeExt _ _ _ _ => false
  | .encodeDevinfo => false
  | .packVersion _ _ _ => false
  | .setRx _ => false
  | .setTx _ => false
  | .pollRx _ _ => false
  | .align _ => false
  | .handleFrame _ _ _ => false
  | .readChannel _ => false
  | .getLastRcTs => false
  | .wdtCheck _ => false
  | .autobaudEstimate => false
  | .pwEnable => false
  | .enqueue _ => false
  | .flushQueue => false
  | .sendTelemetry _ => false
  | .serviceOutput _ _ => false
  | .notifyTx _ => false
  | .syncEmit _ => false
  | .frameLinkStats _ _ _ _ => true
  | .frameRcChannels _ _ _ _ => true
  | .framePing _ _ _ _ _ _ => true
  | .frameDeviceInfo _ _ _ _ _ _ => true
  | .frameCommand _ _ _ _ _ _ => true
  | .frameTiming _ _ _ _ _ _ => true

/-- The instruction's packet carries its row's match value where the row's mask looks. -/
def Statement (i : Instr) : Prop :=
  (isFrame i = false ∧ ∃ operands, encode i = .op (code i :: operands))
    ∨ (isFrame i = true ∧ ∃ address size rest, encode i = .frame (address :: size :: code i :: rest))

theorem reset : Statement (.reset) := .inl ⟨rfl, _, rfl⟩
theorem lineRx (b : Byte) : Statement (.lineRx b) := .inl ⟨rfl, _, rfl⟩
theorem txDrain : Statement (.txDrain) := .inl ⟨rfl, _, rfl⟩
theorem pwTick (level : Bool) : Statement (.pwTick level) := .inl ⟨rfl, _, rfl⟩
theorem crc8Byte (b : Byte) : Statement (.crc8Byte b) := .inl ⟨rfl, _, rfl⟩
theorem crc8Buf (buf : List Byte) (seed : Byte) : Statement (.crc8Buf buf seed) := .inl ⟨rfl, _, rfl⟩
theorem crcnConfig (bits : Nat) (poly : Half) : Statement (.crcnConfig bits poly) := .inl ⟨rfl, _, rfl⟩
theorem crcnCalc (buf : List Byte) (seed : Half) : Statement (.crcnCalc buf seed) := .inl ⟨rfl, _, rfl⟩
theorem decodeHeader (buf : List Byte) : Statement (.decodeHeader buf) := .inl ⟨rfl, _, rfl⟩
theorem computeCrc (buf : List Byte) (totalLen : Nat) : Statement (.computeCrc buf totalLen) := .inl ⟨rfl, _, rfl⟩
theorem isValid (buf : List Byte) (totalLen : Nat) : Statement (.isValid buf totalLen) := .inl ⟨rfl, _, rfl⟩
theorem unpackChannels (payload : List Byte) : Statement (.unpackChannels payload) := .inl ⟨rfl, _, rfl⟩
theorem packChannels (v : List Nat) : Statement (.packChannels v) := .inl ⟨rfl, _, rfl⟩
theorem encodeExt (type dest orig : Byte) (payload : List Byte) :
    Statement (.encodeExt type dest orig payload) := .inl ⟨rfl, _, rfl⟩
theorem encodeDevinfo : Statement (.encodeDevinfo) := .inl ⟨rfl, _, rfl⟩
theorem packVersion (major minor patch : Nat) : Statement (.packVersion major minor patch) := .inl ⟨rfl, _, rfl⟩
theorem setRx (inv : Bool) : Statement (.setRx inv) := .inl ⟨rfl, _, rfl⟩
theorem setTx (inv : Bool) : Statement (.setTx inv) := .inl ⟨rfl, _, rfl⟩
theorem pollRx (nowUs nowMs : Word) : Statement (.pollRx nowUs nowMs) := .inl ⟨rfl, _, rfl⟩
theorem align (start : Nat) : Statement (.align start) := .inl ⟨rfl, _, rfl⟩
theorem handleFrame (totalLen : Nat) (nowUs nowMs : Word) :
    Statement (.handleFrame totalLen nowUs nowMs) := .inl ⟨rfl, _, rfl⟩
theorem readChannel (k : Nat) : Statement (.readChannel k) := .inl ⟨rfl, _, rfl⟩
theorem getLastRcTs : Statement (.getLastRcTs) := .inl ⟨rfl, _, rfl⟩
theorem wdtCheck (nowMs : Word) : Statement (.wdtCheck nowMs) := .inl ⟨rfl, _, rfl⟩
theorem autobaudEstimate : Statement (.autobaudEstimate) := .inl ⟨rfl, _, rfl⟩
theorem pwEnable : Statement (.pwEnable) := .inl ⟨rfl, _, rfl⟩
theorem enqueue (frame : List Byte) : Statement (.enqueue frame) := .inl ⟨rfl, _, rfl⟩
theorem flushQueue : Statement (.flushQueue) := .inl ⟨rfl, _, rfl⟩
theorem sendTelemetry (buffer : List Byte) : Statement (.sendTelemetry buffer) := .inl ⟨rfl, _, rfl⟩
theorem serviceOutput (received : Nat) (nowMs : Word) :
    Statement (.serviceOutput received nowMs) := .inl ⟨rfl, _, rfl⟩
theorem notifyTx (nowUs : Word) : Statement (.notifyTx nowUs) := .inl ⟨rfl, _, rfl⟩
theorem syncEmit (nowMs : Word) : Statement (.syncEmit nowMs) := .inl ⟨rfl, _, rfl⟩
theorem frameLinkStats (address size : Byte) (payload : List Byte) (crc : Option Byte) :
    Statement (.frameLinkStats address size payload crc) := .inr ⟨rfl, _, _, _, rfl⟩
theorem frameRcChannels (address size : Byte) (payload : List Byte) (crc : Option Byte) :
    Statement (.frameRcChannels address size payload crc) := .inr ⟨rfl, _, _, _, rfl⟩
theorem framePing (address size : Byte) (dest orig : Option Byte) (payload : List Byte) (crc : Option Byte) :
    Statement (.framePing address size dest orig payload crc) := .inr ⟨rfl, _, _, _, rfl⟩
theorem frameDeviceInfo (address size : Byte) (dest orig : Option Byte) (payload : List Byte) (crc : Option Byte) :
    Statement (.frameDeviceInfo address size dest orig payload crc) := .inr ⟨rfl, _, _, _, rfl⟩
theorem frameCommand (address size : Byte) (dest orig : Option Byte) (payload : List Byte) (crc : Option Byte) :
    Statement (.frameCommand address size dest orig payload crc) := .inr ⟨rfl, _, _, _, rfl⟩
theorem frameTiming (address size : Byte) (dest orig : Option Byte) (payload : List Byte) (crc : Option Byte) :
    Statement (.frameTiming address size dest orig payload crc) := .inr ⟨rfl, _, _, _, rfl⟩

end Sys2Proof.Laws.OpByte
end

