-- ==== Sys2Proof/Laws/Watchdog.lean ====
section
/-! SUPPORT. The baud estimator and the watchdog (44_autobaud_watchdog): what one estimator call can do, where its answer
comes from, what a hold can do, and that a check keeps safe states safe. -/

namespace Sys2Proof.Machine

/-! ### The nearest table entry (R238) -/

theorem snapFrom_mem (target best : Nat) (bs : List Nat) : snapFrom target best bs ∈ best :: bs := by
  induction bs generalizing best with
  | nil => simp [snapFrom]
  | cons b bs ih =>
    simp only [snapFrom]
    have := ih (if absDiff b target < absDiff best target then b else best)
    split at this <;> rename_i hc
    · rw [if_pos hc]; exact List.mem_cons_of_mem _ this
    · rw [if_neg hc]
      rcases List.mem_cons.mp this with h | h
      · rw [h]; exact List.mem_cons_self
      · exact List.mem_cons_of_mem _ (List.mem_cons_of_mem _ h)

theorem snap_mem {table : List Nat} (h : table ≠ []) (target : Nat) : snap table target ∈ table := by
  cases table with
  | nil => exact absurd rfl h
  | cons b bs => exact snapFrom_mem target b bs

/-! ### One estimator call (R239) -/

/-- Everything one estimator call can do: the four rows of R239's table, and the call that finds `MEASURED`. -/
theorem estimate_cases (s : State) :
    (s.baud.phase = .init ∧ enoughEdges s = false
        ∧ estimate s = (setPhase .init s.baud.inverted (pwEnable s), s.cfg.probeBaud))
      ∨ (s.baud.phase = .init ∧ enoughEdges s = true
        ∧ estimate s = (setPhase .inverted (!s.baud.inverted) { s with pw := { s.pw with en := false } }, s.cfg.reqBaud))
      ∨ (s.baud.phase = .measured ∧ estimate s = (setPhase .inverted (!s.baud.inverted) s, s.cfg.reqBaud))
      ∨ (s.baud.phase = .inverted
        ∧ estimate s = (setPhase .init (!s.baud.inverted) s, snap s.cfg.baudTable (baudOfWidths s.pw.low s.pw.high))) := by
  unfold estimate promote
  cases hp : s.baud.phase with
  | init =>
    cases he : enoughEdges s with
    | false => left; refine ⟨rfl, rfl, ?_⟩; simp [estimateIn, hp]
    | true => right; left; refine ⟨rfl, rfl, ?_⟩; simp [estimateIn, setPhase]
  | measured => right; right; left; refine ⟨rfl, ?_⟩; simp [enoughEdges, hp, estimateIn]
  | inverted => right; right; right; refine ⟨rfl, ?_⟩; simp [enoughEdges, hp, estimateIn]

/-- What an estimator call leaves alone, and where its answer comes from. -/
structure Estimated (s t : State) : Prop where
  cfg : t.cfg = s.cfg
  link : t.link = s.link
  line : t.line = s.line
  cur : t.baud.cur = s.baud.cur
  winBytes : t.baud.winBytes = s.baud.winBytes
  clock : t.clock = s.clock
  hold : t.hold = s.hold
  env : t.env = s.env
  tx : t.tx = s.tx
  pins : t.pins = s.pins
  events : t.events = s.events
  asm : t.asm = s.asm
  chan : t.chan = s.chan
  crc : t.crc = s.crc
  sync : t.sync = s.sync

theorem estimated_setPhase (p : AbPhase) (v : Bool) (s : State) : Estimated s (setPhase p v s) := by constructor <;> rfl

theorem estimate_spec (s : State) : Estimated s (estimate s).1
    ∧ (s.cfg.baudTable ≠ [] → (estimate s).2 ∈ legalBauds s.cfg) := by
  have hprobe : s.cfg.probeBaud ∈ legalBauds s.cfg := by simp [legalBauds]
  have hreq : s.cfg.reqBaud ∈ legalBauds s.cfg := by simp [legalBauds]
  rcases estimate_cases s with ⟨-, -, e⟩ | ⟨-, -, e⟩ | ⟨-, e⟩ | ⟨-, e⟩ <;> rw [e]
  · exact ⟨by constructor <;> simp, fun _ => hprobe⟩
  · exact ⟨by constructor <;> rfl, fun _ => hreq⟩
  · exact ⟨estimated_setPhase _ _ _, fun _ => hreq⟩
  · exact ⟨estimated_setPhase _ _ _, fun h => List.mem_cons_of_mem _ (List.mem_cons_of_mem _ (snap_mem h _))⟩

theorem inv_setPhase {s : State} {p : AbPhase} (v : Bool) (hp : p ≠ .measured) (h : Inv s) : Inv (setPhase p v s) :=
  { h with baud := ⟨hp, h.baud.cur, h.baud.winBytes⟩ }

theorem inv_estimate {s : State} (h : Inv s) : Inv (estimate s).1 := by
  rcases estimate_cases s with ⟨-, -, e⟩ | ⟨-, -, e⟩ | ⟨-, e⟩ | ⟨-, e⟩ <;> rw [e]
  · have := inv_setPhase (p := .init) s.baud.inverted (by simp) (inv_pwEnable h)
    exact this
  · exact inv_setPhase _ (by simp) (inv_closeWindow h)
  · exact inv_setPhase _ (by simp) h
  · exact inv_setPhase _ (by simp) h

/-! ### The line reconfigured (R243) -/

theorem lookup_mem {l : List (Nat × Nat)} {k v : Nat} (h : l.lookup k = some v) : (k, v) ∈ l := by
  induction l with
  | nil => simp at h
  | cons e l ih =>
    obtain ⟨a, b⟩ := e
    rw [List.lookup_cons] at h
    split at h
    · rename_i hk
      have : k = a := by simpa using hk
      cases h; rw [this]; exact List.mem_cons_self
    · exact List.mem_cons_of_mem _ (ih h)

/-- A window budget is a positive natural (R30, R260). -/
theorem windowBytes_pos {cfg : Config} (h : configOk cfg = true) (baud : Nat) : 1 ≤ windowBytes cfg baud := by
  have hw := (configOk_iff.mp h).2.2.2.2.2.2.2.2
  unfold windowBytes
  cases hl : cfg.windowTable.lookup baud with
  | none => simp only [Option.getD_none, defaultWindowBytes]; omega
  | some v => exact hw _ (lookup_mem hl)

theorem txDrain_txhw (s : State) : (txDrain s).line.txhw = s.line.txhw.drop 1 := by
  unfold txDrain
  split
  · rename_i h; rw [h]; rfl
  · rename_i b rest h; rw [h]; rfl

theorem times_txDrain_txhw (n : Nat) (s : State) : (times txDrain n s).line.txhw = s.line.txhw.drop n := by
  induction n generalizing s with
  | zero => rfl
  | succ n ih => rw [times, ih, txDrain_txhw, List.drop_drop, Nat.add_comm]

/-- After `TX_DRAIN*` nothing waits (R123). -/
theorem txDrainAll_txhw (s : State) : (txDrainAll s).line.txhw = [] := by
  unfold txDrainAll; rw [times_txDrain_txhw]; simp

theorem inv_restoreReceive {s : State} (ht : s.line.txhw = []) (h : Inv s) : Inv (restoreReceive s) := by
  unfold restoreReceive
  split
  · exact inv_setTransmitting_false (by simpa using ht) (inv_setReceive _ h)
  · rename_i hh
    exact inv_followPolarity _ (by simpa using hh) h

theorem inv_configureLine {s : State} {c : Nat} (hc : c ∈ legalBauds s.cfg) (h : Inv s) : Inv (configureLine c s) := by
  have hb := (configOk_iff.mp h.config).2.2.2.2.1.2 c hc
  refine inv_emit _ { h with baud := ⟨h.baud.phase, ?_, h.baud.winBytes⟩ }
  simp only [BitVec.toNat_ofNat]
  rw [Nat.mod_eq_of_lt hb.2]
  exact hc

theorem inv_disconnect {s : State} (h : Inv s) : Inv (disconnect s) := by
  unfold disconnect
  split
  · have h1 : Inv { s with link := { s.link with connected := false } } :=
      { h with counts := ⟨h.counts.good, h.counts.bad⟩ }
    exact inv_qFlush (inv_emit _ (inv_raiseError _ h1))
  · exact h

/-- Steps 1 and 2 keep safe states safe. -/
theorem prepareLine_spec (c : Nat) {s : State} (h : Inv s) : Inv (prepareLine c s) ∧ (prepareLine c s).cfg = s.cfg := by
  have h1 : Inv { s with baud := { s.baud with winBytes := windowBytes s.cfg c } } :=
    { h with baud := ⟨h.baud.phase, h.baud.cur, windowBytes_pos h.config c⟩ }
  refine ⟨inv_interleave (inv_qFlush (inv_interleave h1)), ?_⟩
  unfold prepareLine
  rw [(others_interleave _).cfg, qFlush_cfg, (others_interleave _).cfg]

/-- The other agents take bytes from `txhw` and give it none, so an idle transmitter stays idle. -/
theorem txhw_interleave {s : State} (ht : s.line.txhw = []) : (interleave s).line.txhw = [] := by
  obtain ⟨k, hk⟩ := (others_interleave s).txhw
  rw [hk]; simp [ht]

/-- Steps 4 to 6 keep safe states safe, from an idle transmitter on, whatever the other agents do meanwhile. -/
theorem renewLine_spec {c : Nat} {s : State} (h : Inv s) (ht : s.line.txhw = []) (hc : c ∈ legalBauds s.cfg) :
    Inv (renewLine c s) ∧ (renewLine c s).cfg = s.cfg ∧ (renewLine c s).hold = s.hold := by
  have h1 : Inv (interleave (configureLine c s)) := inv_interleave (inv_configureLine hc h)
  have t1 : (interleave (configureLine c s)).line.txhw = [] := txhw_interleave (by simpa using ht)
  have o1 := others_interleave (configureLine c s)
  have o2 := others_interleave (restoreReceive (interleave (configureLine c s)))
  refine ⟨{ inv_interleave (inv_restoreReceive t1 h1) with }, ?_, ?_⟩
  · show (interleave _).cfg = _
    rw [o2.cfg, restoreReceive_cfg, o1.cfg, configureLine_cfg]
  · show (interleave _).hold = _
    rw [o2.hold, restoreReceive_hold, o1.hold, configureLine_hold]

/-- What is left of a check after its hold keeps safe states safe. -/
theorem finishCheck_spec {c : Nat} (ms : Word) {s : State} (h : Inv s) (ht : s.line.txhw = []) (hc : c ∈ legalBauds s.cfg) :
    Inv (finishCheck c ms s) ∧ (finishCheck c ms s).cfg = s.cfg ∧ (finishCheck c ms s).hold = s.hold := by
  have o := others_interleave s
  have r := renewLine_spec (inv_interleave h) (txhw_interleave ht) (by rw [o.cfg]; exact hc)
  exact ⟨inv_endCheck ms r.1, r.2.1.trans o.cfg, r.2.2.trans o.hold⟩

/-! ### The hold (R12, R243 step 3) -/

/-- All that a check which reaches its hold can do: go on to its end where nothing waits, or be kept, with nothing else
changed. -/
theorem holdUntilIdle_cases (c : Nat) (ms : Word) (s : State) :
    (s.line.txhw = [] ∧ holdUntilIdle c ms s = (finishCheck c ms s, some .triggered))
      ∨ (s.line.txhw ≠ [] ∧ holdUntilIdle c ms s
          = ({ s with hold := some { baud := c, nowMs := ms, slots := s.env.slots }, env := { s.env with slots := [] } },
              none)) := by
  unfold holdUntilIdle txIdle
  cases h : s.line.txhw <;> simp

@[simp] theorem answerWdt_some (o : WdtOutcome) (s : State) : answerWdt (some o) s = reply (.wdt o) s := rfl
@[simp] theorem answerWdt_none (s : State) : answerWdt none s = s := rfl

theorem inv_answerWdt {s : State} (o : Option WdtOutcome) (h : Inv s) : Inv (answerWdt o s) := by
  cases o with
  | none => exact h
  | some o => exact inv_reply _ h

theorem holdUntilIdle_spec {c : Nat} (ms : Word) {s : State} (h : Inv s) (hc : c ∈ legalBauds s.cfg) :
    Inv (holdUntilIdle c ms s).1 ∧ (holdUntilIdle c ms s).1.cfg = s.cfg := by
  rcases holdUntilIdle_cases c ms s with ⟨ht, e⟩ | ⟨-, e⟩ <;> rw [e]
  · have r := finishCheck_spec ms h ht hc
    exact ⟨r.1, r.2.1⟩
  · refine ⟨{ h with hold := fun g hg => ?_ }, rfl⟩
    obtain rfl : _ = g := by simpa using hg
    exact hc

/-- A check that holds is released only when the transmitter is idle. -/
theorem holdOver_eq_some {s : State} {h : Hold} : holdOver s = some h ↔ s.hold = some h ∧ s.line.txhw = [] := by
  unfold holdOver txIdle
  cases s.line.txhw <;> simp

/-- With no check holding, none is released. -/
@[simp] theorem holdOver_none {s : State} (h : s.hold = none) : holdOver s = none := by simp [holdOver, h]

/-- With no check holding, no command waits. -/
@[simp] theorem waitsForHold_none {s : State} (p : Packet) (h : s.hold = none) : waitsForHold p s = false := by
  simp [waitsForHold, h]

/-- A check released from its hold leaves a safe state, and no hold. -/
theorem releaseHold_spec {s : State} {g : Hold} (h : Inv s) (hg : holdOver s = some g) :
    Inv (releaseHold g s) ∧ (releaseHold g s).cfg = s.cfg ∧ (releaseHold g s).hold = none := by
  obtain ⟨hh, ht⟩ := holdOver_eq_some.mp hg
  have h0 : Inv { s with hold := none, env := { s.env with slots := g.slots } } := { h with hold := by simp }
  have r := finishCheck_spec (c := g.baud) g.nowMs h0 ht (h.hold g hh)
  exact ⟨inv_reply _ r.1, r.2⟩

/-! ### One check (R240) -/

/-- A watchdog check keeps safe states safe, whether it ends or holds, whatever the other agents do meanwhile. -/
theorem wdtCheck_spec (ms : Word) {s : State} (h : Inv s) :
    Inv (wdtCheck ms s).1 ∧ (wdtCheck ms s).1.cfg = s.cfg := by
  unfold wdtCheck
  split
  · exact ⟨h, rfl⟩
  · split
    · unfold recoverLink
      have h1 := inv_interleave (inv_disconnect h)
      have o1 := others_interleave (disconnect s)
      have c1 : (interleave (disconnect s)).cfg = s.cfg := by rw [o1.cfg]; simp
      generalize interleave (disconnect s) = s1 at h1 c1
      have h2 := inv_estimate h1
      obtain ⟨e1, e2⟩ := estimate_spec s1
      have hl := e2 (configOk_iff.mp h1.config).2.2.2.2.1.1
      simp only
      split
      · exact ⟨inv_endCheck ms h2, e1.cfg.trans c1⟩
      · have p := prepareLine_spec (estimate s1).2 h2
        have r := holdUntilIdle_spec (c := (estimate s1).2) ms p.1 (by rw [p.2, e1.cfg]; exact hl)
        exact ⟨r.1, r.2.trans (p.2.trans (e1.cfg.trans c1))⟩
    · exact ⟨inv_endCheck ms h, rfl⟩

end Sys2Proof.Machine
end

