-- ==== Sys2Proof/Tests/Slice0.lean ====
section
/-! SUPPORT. The model's own tests. Expected values come from the spec: the encodings of 30_encoding (R120, R100, R101), the
vectors V1 to V60 of 95_test_vectors, the worked examples of the rules. The `witness_` theorems show, for each statement
with hypotheses, a state and operands that meet them. -/

namespace Sys2Proof.Tests

open Sys2Proof.Machine

/-! ### Well-formedness: one ill-formed term for each check -/


theorem test_illFormed_crcnConfig_low : Instr.wellFormed (.crcnConfig 8 0x07) = false := by decide
theorem test_illFormed_crcnConfig_high : Instr.wellFormed (.crcnConfig 17 0x1021) = false := by decide
theorem test_illFormed_decodeHeader : Instr.wellFormed (.decodeHeader [0xC8, 0x18]) = false := by decide
theorem test_illFormed_computeCrc_low : Instr.wellFormed (.computeCrc [0xC8, 0x04, 0x28] 2) = false := by decide
theorem test_illFormed_computeCrc_high : Instr.wellFormed (.computeCrc [0xC8, 0x04, 0x28] 4) = false := by decide
theorem test_illFormed_isValid_low : Instr.wellFormed (.isValid [0xC8, 0x04, 0x28] 2) = false := by decide
theorem test_illFormed_isValid_high : Instr.wellFormed (.isValid [0xC8, 0x04, 0x28] 4) = false := by decide
theorem test_illFormed_encodeExt :
    Instr.wellFormed (.encodeExt 0x2D 0xC8 0xEA (List.replicate 59 0)) = false := by decide
theorem test_illFormed_align : Instr.wellFormed (.align 2) = false := by decide
theorem test_illFormed_handleFrame_low : Instr.wellFormed (.handleFrame 3 0 0) = false := by decide
theorem test_illFormed_handleFrame_high : Instr.wellFormed (.handleFrame 65 0 0) = false := by decide
theorem test_illFormed_sendTelemetry_short : Instr.wellFormed (.sendTelemetry [0xEA]) = false := by decide
theorem test_illFormed_sendTelemetry_size : Instr.wellFormed (.sendTelemetry [0xEA, 0x0C, 0x14]) = false := by decide
theorem test_illFormed_linkStats_size :
    Instr.wellFormed (.frameLinkStats 0xC8 0x0B [0x10, 0x20, 0x64, 0xF6, 0x00, 0x04, 0x03, 0x30, 0x5A, 0x05] (some 0x81)) = false := by decide
theorem test_illFormed_linkStats_length :
    Instr.wellFormed (.frameLinkStats 0xC8 0x03 [0x10] (some 0x81)) = false := by decide
theorem test_illFormed_rcChannels_size :
    Instr.wellFormed (.frameRcChannels 0xC8 0x04 [0x01, 0x02, 0x03] (some 0xDA)) = false := by decide
theorem test_illFormed_rcChannels_length :
    Instr.wellFormed (.frameRcChannels 0xC8 0x3F (List.replicate 61 0) (some 0x00)) = false := by decide
theorem test_illFormed_ping_size : Instr.wellFormed (.framePing 0xC8 0x05 (some 0xEE) (some 0xEA) [] (some 0x97)) = false := by decide
theorem test_illFormed_ping_length :
    Instr.wellFormed (.framePing 0xC8 0x3F (some 0xEE) (some 0xEA) (List.replicate 59 0) (some 0x97)) = false := by decide
theorem test_illFormed_deviceInfo_length :
    Instr.wellFormed (.frameDeviceInfo 0xC8 0x04 (some 0xEA) (some 0xEE) [] (some 0x0B)) = false := by decide
theorem test_illFormed_command_length :
    Instr.wellFormed (.frameCommand 0xC8 0x05 (some 0xEE) (some 0xEA) [0x10] (some 0xC1)) = false := by decide
theorem test_illFormed_deviceInfo_size :
    Instr.wellFormed (.frameDeviceInfo 0xC8 0x14 (some 0xEA) (some 0xEE) (List.replicate 15 0) (some 0x0B)) = false := by decide
theorem test_illFormed_command_size :
    Instr.wellFormed (.frameCommand 0xC8 0x08 (some 0xEE) (some 0xEA) [0x10, 0x05, 0x03] (some 0xC1)) = false := by decide
theorem test_illFormed_timing_size :
    Instr.wellFormed (.frameTiming 0xC8 0x0C (some 0xEA) (some 0xEE) [0x10, 0, 0, 0x9C, 0x40, 0xFF, 0xFF, 0xFC, 0x18] (some 0xEC)) = false := by decide
theorem test_illFormed_timing_length :
    Instr.wellFormed (.frameTiming 0xC8 0x05 (some 0xEA) (some 0xEE) [0x10] (some 0xEC)) = false := by decide
theorem test_illFormed_timing_subcommand :
    Instr.wellFormed (.frameTiming 0xC8 0x0D (some 0xEA) (some 0xEE) [0x11, 0, 0, 0x9C, 0x40, 0xFF, 0xFF, 0xFC, 0x18] (some 0xEC)) = false := by decide
theorem test_illFormed_ping_short :
    Instr.wellFormed (.framePing 0xC8 0x03 (some 0xEE) none [] (some 0x93)) = false := by decide
theorem test_illFormed_rcChannels_noCrc : Instr.wellFormed (.frameRcChannels 0xC8 0x01 [] none) = false := by decide
theorem test_wellFormed_ping : Instr.wellFormed (.framePing 0xC8 0x04 (some 0xEE) (some 0xEA) [] (some 0x97)) = true := by decide

/-! ### Decoding: a word written out from the encoding, for every constructor (R120, R100, R101; 95 section 3) -/

theorem test_decode_reset : decode (.op [0x00]) = .ok (.reset) := by decide
theorem test_decode_lineRx : decode (.op [0x01, 0x11]) = .ok (.lineRx 0x11) := by decide
theorem test_decode_txDrain : decode (.op [0x02]) = .ok (.txDrain) := by decide
theorem test_decode_pwTick : decode (.op [0x03, 0x01]) = .ok (.pwTick true) := by decide
theorem test_decode_crc8Byte : decode (.op [0x10, 0xFF]) = .ok (.crc8Byte 0xFF) := by decide
theorem test_decode_crc8Buf :
    decode (.op [0x11, 0x02, 0x01, 0x02, 0x5A])
      = .ok (.crc8Buf [0x01, 0x02] 0x5A) := by decide
theorem test_decode_crcnConfig : decode (.op [0x12, 0x0E, 0x2E, 0x57]) = .ok (.crcnConfig 14 0x2E57) := by decide
theorem test_decode_crcnCalc :
    decode (.op [0x13, 0x01, 0x31, 0x3F, 0xFE])
      = .ok (.crcnCalc [0x31] 0x3FFE) := by decide
theorem test_decode_decodeHeader :
    decode (.op [0x20, 0x03, 0xEE, 0x04, 0x28])
      = .ok (.decodeHeader [0xEE, 0x04, 0x28]) := by decide
theorem test_decode_computeCrc :
    decode (.op [0x21, 0x04, 0xC8, 0x02, 0x16, 0xD3, 0x04])
      = .ok (.computeCrc [0xC8, 0x02, 0x16, 0xD3] 4) := by decide
theorem test_decode_isValid :
    decode (.op [0x22, 0x04, 0xC8, 0x02, 0x16, 0xD3, 0x03])
      = .ok (.isValid [0xC8, 0x02, 0x16, 0xD3] 3) := by decide
theorem test_decode_unpackChannels :
    decode (.op [0x23, 0x02, 0xE0, 0x03])
      = .ok (.unpackChannels [0xE0, 0x03]) := by decide
theorem test_decode_packChannels :
    decode (.op [0x24, 0x02, 0xE0, 0x07, 0x05])
      = .ok (.packChannels [992, 5]) := by decide
theorem test_decode_encodeExt :
    decode (.op [0x25, 0x28, 0xEE, 0xEA, 0x01, 0x07])
      = .ok (.encodeExt 0x28 0xEE 0xEA [0x07]) := by decide
theorem test_decode_encodeDevinfo : decode (.op [0x26]) = .ok (.encodeDevinfo) := by decide
theorem test_decode_packVersion :
    decode (.op [0x27, 0xAC, 0x02, 0x01, 0x80, 0x02])
      = .ok (.packVersion 300 1 256) := by decide
theorem test_decode_setRx : decode (.op [0x30, 0x01]) = .ok (.setRx true) := by decide
theorem test_decode_setTx : decode (.op [0x31, 0x00]) = .ok (.setTx false) := by decide
theorem test_decode_pollRx :
    decode (.op [0x40, 0x00, 0x00, 0x03, 0xE8, 0x00, 0x00, 0x00, 0x01])
      = .ok (.pollRx 1000 1) := by decide
theorem test_decode_align : decode (.op [0x41, 0x01]) = .ok (.align 1) := by decide
theorem test_decode_handleFrame :
    decode (.op [0x42, 0x06, 0x00, 0x00, 0x03, 0xE8, 0x00, 0x00, 0x00, 0x01])
      = .ok (.handleFrame 6 1000 1) := by decide
theorem test_decode_readChannel : decode (.op [0x43, 0x0F]) = .ok (.readChannel 15) := by decide
theorem test_decode_getLastRcTs : decode (.op [0x44]) = .ok (.getLastRcTs) := by decide
theorem test_decode_wdtCheck : decode (.op [0x50, 0x00, 0x00, 0x03, 0xE8]) = .ok (.wdtCheck 1000) := by decide
theorem test_decode_autobaudEstimate : decode (.op [0x51]) = .ok (.autobaudEstimate) := by decide
theorem test_decode_pwEnable : decode (.op [0x52]) = .ok (.pwEnable) := by decide
theorem test_decode_enqueue : decode (.op [0x60, 0x02, 0xAA, 0xBB]) = .ok (.enqueue [0xAA, 0xBB]) := by decide
theorem test_decode_flushQueue : decode (.op [0x61]) = .ok (.flushQueue) := by decide
theorem test_decode_sendTelemetry :
    decode (.op [0x62, 0x03, 0xEA, 0x01, 0x14])
      = .ok (.sendTelemetry [0xEA, 0x01, 0x14]) := by decide
theorem test_decode_serviceOutput :
    decode (.op [0x63, 0x1A, 0x00, 0x00, 0x00, 0x64])
      = .ok (.serviceOutput 26 100) := by decide
theorem test_decode_notifyTx : decode (.op [0x70, 0x00, 0x00, 0x01, 0xF4]) = .ok (.notifyTx 500) := by decide
theorem test_decode_syncEmit : decode (.op [0x71, 0x00, 0x00, 0x00, 0xC8]) = .ok (.syncEmit 200) := by decide
theorem test_decode_frameLinkStats :
    decode (.frame [0xC8, 0x0C, 0x14, 0x10, 0x20, 0x64, 0xF6, 0x00, 0x04, 0x03, 0x30, 0x5A, 0x05, 0x81])
      = .ok (.frameLinkStats 0xC8 0x0C [0x10, 0x20, 0x64, 0xF6, 0x00, 0x04, 0x03, 0x30, 0x5A, 0x05] (some 0x81)) := by decide
theorem test_decode_frameRcChannels :
    decode (.frame [0xC8, 0x05, 0x16, 0x01, 0x02, 0x03, 0xDA])
      = .ok (.frameRcChannels 0xC8 0x05 [0x01, 0x02, 0x03] (some 0xDA)) := by decide
theorem test_decode_framePing :
    decode (.frame [0xC8, 0x04, 0x28, 0xEE, 0xEA, 0x97])
      = .ok (.framePing 0xC8 0x04 (some 0xEE) (some 0xEA) [] (some 0x97)) := by decide
theorem test_decode_frameDeviceInfo :
    decode (.frame [0xC8, 0x04, 0x29, 0xEA, 0xEE, 0x11])
      = .ok (.frameDeviceInfo 0xC8 0x04 (some 0xEA) (some 0xEE) [] (some 0x11)) := by decide
theorem test_decode_frameCommand :
    decode (.frame [0xC8, 0x07, 0x32, 0xEE, 0xEA, 0x10, 0x05, 0x03, 0xC1])
      = .ok (.frameCommand 0xC8 0x07 (some 0xEE) (some 0xEA) [0x10, 0x05, 0x03] (some 0xC1)) := by decide
theorem test_decode_frameTiming :
    decode (.frame [0xEA, 0x0D, 0x3A, 0xEA, 0xEE, 0x10, 0x00, 0x00, 0x9C, 0x40, 0xFF, 0xFF, 0xFC, 0x18, 0xEC])
      = .ok (.frameTiming 0xEA 0x0D (some 0xEA) (some 0xEE) [0x10, 0x00, 0x00, 0x9C, 0x40, 0xFF, 0xFF, 0xFC, 0x18] (some 0xEC)) := by decide
theorem test_decode_reserved : decode (.op [0x04]) = .error (.reservedOp 0x04) := by decide
theorem test_decode_trailing : decode (.op [0x61, 0x00]) = .error .trailing := by decide
theorem test_decode_short : decode (.op [0x01]) = .error .short := by decide
theorem test_decode_notABit : decode (.op [0x03, 0x02]) = .error (.notABit 0x02) := by decide
theorem test_decode_nonMinimal : decode (.op [0x43, 0x80, 0x00]) = .error .nonMinimal := by decide
theorem test_decode_unknownFrame : decode (.frame [0xC8, 0x02, 0x17, 0x06]) = .error (.unknownFrameType 0x17) := by decide
/-- V27 (d): five bytes, too short for the addressing pair; the length is read from the size byte alone (R114). -/
theorem test_decode_shortPing : decode (.frame [0xC8, 0x03, 0x28, 0xEE, 0x93])
    = .ok (.framePing 0xC8 0x03 (some 0xEE) none [] (some 0x93)) := by decide
theorem test_decode_longerPing : decode (.frame [0xC8, 0x03, 0x28, 0xEE, 0xEA, 0x97]) = .error .trailing := by decide
/-- A table word runs as the next instruction. -/
theorem test_tableWord_flush : decodeTableWord 8 0x61 = some .flushQueue := by decide
theorem test_tableWord_ping : decodeTableWord 24 0xC80428 = some (.framePing 0xC8 0x04 (some 0x00) (some 0x00) [] (some 0x00)) := by decide
theorem test_tableWord_match : decodeTableWord 24 0x000016 = some (.frameRcChannels 0x00 0x00 [] none) := by decide
theorem test_tableWord_longest : (decodeTableWord 24 0xC8FF3A).isSome = true := by decide +kernel

/-! ### Single steps -/

/-- What a test looks at in a next state. -/
def got {α : Type} (f : State → α) : Out → Option α
  | .next t => some (f t)
  | .fault _ => none
  | .refused _ => none

/-- Why an operation was refused. -/
def why : Out → Option Refusal
  | .next _ => none
  | .fault _ => none
  | .refused r => some r

/-- The last value returned. -/
def result (o : Out) : Option (Option Reply) := got (fun t => t.env.replies.getLast?) o

/-- The state after reset. -/
abbrev r : State := State.reset

/-- After reset, with the link up. -/
def linked : State := { r with link := { r.link with connected := true } }

/-- After reset, with these bytes received. -/
def received (bs : List Byte) : State := { r with line := { r.line with rxhw := bs } }

/-- After reset, with these bytes buffered. -/
def buffered (bs : List Byte) : State := { r with asm := { buf := writeBytes [] 0 bs, cursor := bs.length } }

/-- Linked, with these frames queued. -/
def queued (frames : List (List Byte)) : State := { linked with tx := { linked.tx with outq := frames.flatMap record } }

/-- The spec's `RC992`. -/
def rc992 : List Byte :=
  [0xC8, 0x18, 0x16, 0xE0, 0x03, 0x1F, 0xF8, 0xC0, 0x07, 0x3E, 0xF0, 0x81, 0x0F, 0x7C, 0xE0, 0x03, 0x1F, 0xF8, 0xC0, 0x07,
    0x3E, 0xF0, 0x81, 0x0F, 0x7C, 0xAD]

/-- The spec's `PING`. -/
def ping : List Byte := [0xC8, 0x04, 0x28, 0xEE, 0xEA, 0x97]

/-- The spec's `DEVINFO`. -/
def devinfo : List Byte :=
  [0xEA, 0x16, 0x29, 0xEA, 0xEE, 0x44, 0x45, 0x56, 0x00, 0x12, 0x34, 0x56, 0x78, 0x00, 0x00, 0x00, 0x01, 0x00, 0x01, 0x02,
    0x03, 0x00, 0x00, 0x0B]

/-- The spec's `LSTAT`. -/
def lstat : List Byte := [0xEA, 0x0C, 0x14, 0x10, 0x20, 0x64, 0xF6, 0x00, 0x04, 0x03, 0x30, 0x5A, 0x05, 0x81]

/-- A model-select command for index 3 (V28). -/
def command : List Byte := [0xC8, 0x07, 0x32, 0xEE, 0xEA, 0x10, 0x05, 0x03, 0xC1]

/-- The timing frame for offset 0 (R295), with a marker as its address. -/
def timing : List Byte := [0xC8, 0x0D, 0x3A, 0xEA, 0xEE, 0x10, 0x00, 0x00, 0x9C, 0x40, 0xFF, 0xFF, 0xFC, 0x18, 0xEC]

/-- A watchdog check holds for 115200 in a burst, with these bytes waiting and these operation packets pending. -/
def holding (waiting : List Byte) (ops : List (List Byte)) : State :=
  { r with
    tx := { r.tx with transmitting := true }
    line := { r.line with txhw := waiting, rxhw := [0xC8] }
    hold := some { baud := 115200, nowMs := 1000, slots := [] }
    env := { r.env with pending := ops.map fun bs => { advance := 0, packet := .op bs, slots := [] } } }

/-- R340, R45. -/
theorem test_reset : got (fun t => (t.baud.cur, t.baud.winBytes, t.chan, t.pw.low, t.pins)) (exec .reset (queued [ping]))
    = some (400000, 800, List.replicate 16 0, 1048575, r.pins) := by decide
/-- R214. -/
theorem test_lineRx : got (fun t => t.line.rxhw) (exec (.lineRx 0x22) (received [0x11])) = some [0x11, 0x22] := by decide
/-- R268. -/
theorem test_txDrain : got (fun t => (t.line.txhw, t.events))
    (exec .txDrain { r with line := { r.line with txhw := [0x01, 0x02] } }) = some ([0x02], [.lineTx 0x01]) := by decide
/-- R232: an edge ends a low pulse of 3 ticks. -/
theorem test_pwTick : got (fun t => (t.pw.edges, t.pw.low, t.pw.high, t.pw.run))
    (exec (.pwTick true) { r with pw := { r.pw with en := true, synced := true, prev := false, run := 3, edges := 1 } })
    = some (2, 3, 1048575, 1) := by decide
/-- V1. -/
theorem test_crc8Byte : result (exec (.crc8Byte 0x80) r) = some (some (.byte 0xEF)) := by decide
theorem test_crc8Buf : result (exec (.crc8Buf [0x31, 0x32, 0x33, 0x34, 0x35, 0x36, 0x37, 0x38, 0x39] 0x00) r)
    = some (some (.byte 0xBC)) := by decide
/-- V5. -/
theorem test_crcnConfig : got (fun t => (t.crc.bits, t.crc.poly)) (exec (.crcnConfig 14 0x2E57) r)
    = some (14, 0x2E57) := by decide
theorem test_crcnCalc : result (exec (.crcnCalc [0x01, 0x02] 0)
    { r with crc := { r.crc with bits := 14, poly := 0x2E57 } }) = some (some (.crcn 0x105D)) := by decide
theorem test_crcnCalc_unconfigured : why (exec (.crcnCalc [0x01] 0) r) = some .crcnUnconfigured := by decide
/-- V7. -/
theorem test_decodeHeader : result (exec (.decodeHeader [0x11, 0xFF, 0x00, 0x77]) r)
    = some (some (.header 0x11 0xFF 0x00)) := by decide
/-- V8. -/
theorem test_computeCrc : result (exec (.computeCrc [0xC8, 0x04, 0x28, 0xEE, 0xEA, 0x97] 5) r)
    = some (some (.byte 0x93)) := by decide
theorem test_isValid : result (exec (.isValid ping 6) r) = some (some (.flag true)) := by decide
theorem test_isValid_flipped : result (exec (.isValid [0xC8, 0x04, 0x29, 0xEE, 0xEA, 0x97] 6) r)
    = some (some (.flag false)) := by decide
/-- V10. -/
theorem test_unpackChannels : result (exec (.unpackChannels ((rc992.drop 3).take 22)) r)
    = some (some (.channels (List.replicate 16 992))) := by decide
/-- R166's worked example. -/
theorem test_packChannels : result (exec (.packChannels [0, 1, 2, 3, 4, 5, 6, 7, 8, 9, 10, 11, 12, 13, 14, 15]) r)
    = some (some (.bytes [0x00, 0x08, 0x80, 0x00, 0x06, 0x40, 0x80, 0x02, 0x18, 0xE0, 0x00, 0x08, 0x48, 0x80, 0x02, 0x16,
        0xC0, 0x80, 0x06, 0x38, 0xE0, 0x01])) := by decide
/-- V13. -/
theorem test_encodeExt : result (exec (.encodeExt 0x28 0xEE 0xEA []) r)
    = some (some (.bytes [0xEE, 0x04, 0x28, 0xEE, 0xEA, 0x97])) := by decide
/-- V15. -/
theorem test_encodeDevinfo : result (exec .encodeDevinfo r) = some (some (.bytes devinfo)) := by decide +kernel
/-- R169. -/
theorem test_packVersion : result (exec (.packVersion 300 1 256) r) = some (some (.version 0xFF01FF)) := by decide
theorem test_packVersion_zero : result (exec (.packVersion 0 9 7) r) = some (some (.version 0x010000)) := by decide
/-- R191. -/
theorem test_setRx : got (fun t => (t.events, t.pins.pull)) (exec (.setRx true) r)
    = some ([.txPath false false, .pinDir .input, .pinPull .down, .rxPath true true], .down) := by decide
theorem test_setRx_busy : why (exec (.setRx false) { r with line := { r.line with txhw := [0x01] } }) = some .setRxBusy := by
  decide
/-- R192. -/
theorem test_setTx : got (fun t => (t.events, t.pins.level, t.pins.mode)) (exec (.setTx true) r)
    = some ([.rxPath false false, .pinLevel .low, .pinPull .none, .pinDir .output, .txPath true true], .low, .tx) := by
  decide
/-- V21, V25. -/
theorem test_pollRx_reject : got (fun t => (t.asm.cursor, t.events, t.env.replies))
    (exec (.pollRx 1000 1) (received [0xC8, 0x3F, 0x16, 0x01]))
    = some (0, [.err (.framing 0xC8 0x3F)], [.poll .rejectLen]) := by decide
theorem test_pollRx_bad : got (fun t => (t.asm.cursor, t.events, t.link.badCnt))
    (exec (.pollRx 1000 1) (received [0xC8, 0x02, 0x33, 0x44, 0x55])) = some (1, [.err (.crc 0x33 4)], 1) := by decide
/-- R201's worked example. -/
theorem test_align : got (fun t => (t.asm.cursor, t.asm.buf.take 3))
    (exec (.align 0) (buffered [0x11, 0x22, 0xC8, 0x18, 0x16, 0x01, 0x02, 0x03, 0x04]))
    = some (7, [(0, 0xC8), (1, 0x18), (2, 0x16)]) := by decide
theorem test_align_again : got (fun t => t.asm.cursor) (exec (.align 1) (buffered [0xC8, 0x18, 0x16])) = some 0 := by decide
/-- V27, V28. -/
theorem test_handleFrame_ping : got (fun t => (t.tx.outq, t.events)) (exec (.handleFrame 6 1000 1) (buffered ping))
    = some (0x18 :: devinfo, [.connected]) := by decide +kernel
theorem test_handleFrame_rc : got (fun t => (t.chan, t.link.tLastRc, t.link.rcSeen, t.events))
    (exec (.handleFrame 26 1000 1) (buffered rc992))
    = some (List.replicate 16 992, 1000, true, [.connected, .rcData]) := by decide +kernel
/-- R212, R213. -/
theorem test_readChannel : result (exec (.readChannel 1) { r with chan := [5, 6] ++ List.replicate 14 0 })
    = some (some (.channel 6)) := by decide
theorem test_getLastRcTs : result (exec .getLastRcTs { r with link := { r.link with tLastRc := 3000, rcSeen := true } })
    = some (some (.rcTimestamp 3000 true)) := by decide
/-- V33. -/
theorem test_wdtCheck : got (fun t => (t.events, t.tx.outq, t.pw.en, t.env.replies))
    (exec (.wdtCheck 1000) (queued [ping]))
    = some ([.err (.linkLost 0 0), .disconnected, .lineConfig 400000 false, .txPath false false, .pinDir .input,
        .pinPull .up, .rxPath true false], [], true, [.wdt .triggered]) := by decide
/-- R190, R196, R243 step 5: a full-duplex line takes up the polarity, each write an event (assumption log 22). -/
theorem test_wdtCheck_fullDuplex : got (fun t => (t.events, t.pins))
    (exec (.wdtCheck 1000) { State.resetOf { halfDuplex := false } with
      baud := { r.baud with phase := .inverted }, pw := { r.pw with low := 87, high := 86 } })
    = some ([.lineConfig 921600 true, .pinPull .down, .rxPath true true, .txPath true true],
        { r.pins with pull := .down, txConnected := true, rxInvert := true, txInvert := true }) := by decide +kernel
theorem test_wdtCheck_wrap : result (exec (.wdtCheck 0x2E7)
    { linked with link := { linked.link with wdtLastMs := 0xFFFFFF00, goodCnt := 1 } }) = some (some (.wdt .notDue)) := by
  decide
/-- R12, R243 step 3: with a byte waiting the check holds before it configures the line, and answers nothing. -/
theorem test_wdtCheck_holds : got (fun t => (t.hold, t.line.txhw, t.events, t.env.replies))
    (exec (.wdtCheck 1000) { r with line := { r.line with txhw := [0x01] } })
    = some (some { baud := 400000, nowMs := 1000, slots := [] }, [0x01], [], []) := by decide
/-- R239, V31. -/
theorem test_autobaud_promoted : got (fun t => (t.baud.phase, t.baud.inverted, t.pw.en, t.env.replies))
    (exec .autobaudEstimate { r with pw := { r.pw with en := true, edges := 300 } })
    = some (.inverted, true, false, [.baud 400000]) := by decide
theorem test_autobaud_measured : got (fun t => (t.baud.phase, t.baud.inverted, t.env.replies))
    (exec .autobaudEstimate { r with baud := { r.baud with phase := .inverted, inverted := true },
                                     pw := { r.pw with low := 87, high := 86 } })
    = some (.init, false, [.baud 921600]) := by decide +kernel
/-- R231. -/
theorem test_pwEnable : got (fun t => (t.pw.en, t.pw.edges, t.pw.low, t.pw.prev))
    (exec .pwEnable { r with pw := { r.pw with edges := 7, low := 5, prev := false } }) = some (true, 0, 1048575, false) := by
  decide
/-- V40. -/
theorem test_enqueue : got (fun t => t.tx.outq) (exec (.enqueue [0xAA, 0xBB]) r) = some [0x02, 0xAA, 0xBB] := by decide
theorem test_enqueue_empty : got (fun t => (t.tx.outq, t.events)) (exec (.enqueue []) r)
    = some ([], [.err (.queueFull 0)]) := by decide
/-- R262. -/
theorem test_flushQueue : got (fun t => (t.tx.outq, t.line.txhw))
    (exec .flushQueue { queued [ping] with line := { r.line with txhw := [0x01] } }) = some ([], [0x01]) := by decide
/-- V40. -/
theorem test_sendTelemetry : got (fun t => t.tx.outq) (exec (.sendTelemetry (lstat ++ [0xAA, 0xBB])) r)
    = some (0x0E :: lstat) := by decide
/-- V43. -/
theorem test_serviceOutput : got (fun t => (t.line.txhw, t.tx.rem, t.tx.off))
    (exec (.serviceOutput 26 1) { queued [devinfo] with baud := { r.baud with winBytes := 30 } })
    = some ([0xEA, 0x16, 0x29, 0xEA, 0xEE, 0x44, 0x45, 0x56, 0x00, 0x12], 14, 10) := by decide
theorem test_serviceOutput_unlinked : got (fun t => (t.tx.outq, t.line.txhw, t.events))
    (exec (.serviceOutput 26 1) { queued [devinfo] with link := r.link }) = some ([], [], []) := by decide
/-- V52, V53. -/
theorem test_notifyTx_late : got (fun t => t.sync) (exec (.notifyTx 9300) r)
    = some { offset := -13000, window := 0, tSent := 0, force := true } := by decide
theorem test_notifyTx_onTime : got (fun t => t.sync)
    (exec (.notifyTx 1) { r with sync := { r.sync with window := 2, offset := 5000 } })
    = some { offset := 3336, window := 3, tSent := 0, force := false } := by decide
/-- R295's worked example. -/
theorem test_syncEmit : got (fun t => (t.tx.outq, t.sync.tSent))
    (exec (.syncEmit 200) { linked with sync := { linked.sync with offset := -13000 } })
    = some ([0x0F, 0xEA, 0x0D, 0x3A, 0xEA, 0xEE, 0x10, 0x00, 0x00, 0x9C, 0x40, 0xFF, 0xFF, 0xC9, 0x50, 0x7A], 200) := by decide +kernel
/-- R112, D26: the packet rate is ten times the interval in microseconds, whatever `SYNC_SCALE` is (assumption log 23). -/
theorem test_timingPayload_rate :
    timingPayload { Config.default with syncScale := 7 } 0
      = [0x10, 0x00, 0x00, 0x9C, 0x40, 0xFF, 0xFF, 0xFC, 0x18] := by decide
/-- V28, V29 (b), V27: the frame rows. -/
theorem test_frameCommand : got (fun t => t.events) (exec (.frameCommand 0xC8 0x07 (some 0xEE) (some 0xEA) [0x10, 0x05, 0x03] (some 0xC1)) r)
    = some [.connected, .modelSelect 3] := by decide
theorem test_frameLinkStats : got (fun t => (t.events, t.env.replies))
    (exec (.frameLinkStats 0xC8 0x0C [0x10, 0x20, 0x64, 0xF6, 0x00, 0x04, 0x03, 0x30, 0x5A, 0x05] (some 0x81)) r)
    = some ([.connected], [.poll .good]) := by decide +kernel
theorem test_framePing : got (fun t => t.tx.outq) (exec (.framePing 0xC8 0x04 (some 0xEE) (some 0xEA) [] (some 0x97)) r)
    = some (0x18 :: devinfo) := by decide +kernel
theorem test_frameRcChannels : got (fun t => (t.chan, t.events))
    (exec (.frameRcChannels 0xC8 0x18 ((rc992.drop 3).take 22) (some 0xAD)) r)
    = some (List.replicate 16 992, [.connected, .rcData]) := by decide +kernel
theorem test_frameDeviceInfo : got (fun t => (t.events, t.tx.outq, t.env.replies))
    (exec (.frameDeviceInfo 0xC8 0x16 (some 0xEA) (some 0xEE) ((devinfo.drop 5).take 18) (some 0x0B)) r)
    = some ([.connected], [], [.poll .good]) := by decide +kernel
theorem test_frameTiming : got (fun t => (t.events, t.sync, t.env.replies))
    (exec (.frameTiming 0xC8 0x0D (some 0xEA) (some 0xEE) [0x10, 0x00, 0x00, 0x9C, 0x40, 0xFF, 0xFF, 0xFC, 0x18] (some 0xEC)) r)
    = some ([.connected], r.sync, [.poll .good]) := by decide +kernel
/-- V27 (d), R105 "any other", R115 (d): a short ping and a frame of a type without a row are good frames that do no more. -/
theorem test_step_shortPing : got (fun t => (t.events, t.tx.outq, t.env.replies))
    (step (issueFirst (.frame [0xC8, 0x03, 0x28, 0xEE, 0x93]) r)) = some ([.connected], [], [.poll .good]) := by
  decide +kernel
theorem test_step_otherFrame : got (fun t => (t.events, t.link.goodCnt, t.env.replies))
    (step (issueFirst (.frame [0xC8, 0x02, 0x17, 0x06]) r)) = some ([.connected], 1, [.poll .good]) := by decide +kernel
/-- R12, R194, R243 step 3, U17: while a check holds a poll has no step; once nothing waits the check goes on to its end, and
bytes received during the hold are discarded. -/
theorem test_hold_pollWaits : got (fun t => (t.hold.isSome, t.line.txhw, t.env.replies, t.env.pending.length))
    (step (holding [0x01] [[0x40, 0, 0, 0, 1, 0, 0, 0, 1]])) = some (true, [0x01], [], 1) := by decide +kernel
theorem test_hold_ends : got (fun t => (t.hold, t.line.rxhw, t.env.replies, t.events.take 1))
    (step (holding [] [])) = some (none, [], [.wdt .triggered], [.lineConfig 115200 false]) := by decide +kernel
/-- R9, D2: `SYNC_WINDOW_MAX` follows `RC_INTERVAL_US`, and `REQ_BAUD` follows `PROBE_BAUD`, where they are not given. -/
theorem test_config_defaults : ({ rcIntervalUs := 9000 } : Config).syncWindowMax = 2
    ∧ ({ rcIntervalUs := 30000 } : Config).syncWindowMax = 1 ∧ Config.default.syncWindowMax = 5
    ∧ ({ probeBaud := 115200 } : Config).reqBaud = 115200 := by decide
/-- A table word is fetched and run by the very next step. -/
theorem test_withFetchWord : got (fun t => t.tx.outq) (step ((queued [ping]).withFetchWord 8 0x61)) = some [] := by decide

/-! ### Witnesses: states and operands that meet the hypotheses of the statements -/

/-- The safe parts that the witness states share with the state after reset. -/
theorem crcOk_r : CrcOk r.cfg r.crc := ⟨rfl, .inl rfl, fun h => absurd h (by decide)⟩
theorem baudOk_r : BaudOk r.cfg r.baud := ⟨by decide, by decide, by decide⟩
theorem pulseOk_r : PulseOk r.cfg r.pw := ⟨by decide, by decide, by decide, by decide, by decide⟩
theorem syncOk_r : SyncOk r.cfg r.sync := ⟨by decide, by decide, by decide⟩
theorem counts_r : r.link.goodCnt < 2 ^ r.cfg.cntBits ∧ r.link.badCnt < 2 ^ r.cfg.cntBits := by decide
theorem room_r : r.tx.outq.length ≤ r.cfg.outqCapacity := by decide
theorem pinsOk_r : PinsOk r.pins := .inl ⟨rfl, rfl, rfl, rfl, rfl⟩

/-- A witness state is safe when what it changes is. -/
theorem inv_witness {s : State} {bs st : List Byte} {frames : List (List Byte)}
    (same : s.cfg = r.cfg ∧ s.crc = r.crc ∧ s.chan = r.chan ∧ s.baud = r.baud ∧ s.pw = r.pw ∧ s.sync = r.sync)
    (hm : Memory.wf s.asm.buf = true) (ha : memRead s.asm.buf 0 s.asm.cursor = .ok bs)
    (hc : s.link.goodCnt < 2 ^ r.cfg.cntBits ∧ s.link.badCnt < 2 ^ r.cfg.cntBits)
    (hq : s.tx.outq = frames.flatMap record) (hl : ∀ f ∈ frames, 1 ≤ f.length ∧ f.length ≤ maxFrame)
    (hn : s.tx.outq.length ≤ r.cfg.outqCapacity) (hw : Memory.wf s.tx.stage = true)
    (hs : memRead s.tx.stage s.tx.off s.tx.rem = .ok st) (hp : PinsOk s.pins)
    (hb : s.line.txhw = [] ∨ s.tx.transmitting = true) (hh : s.hold = none := by rfl) : Inv s := by
  obtain ⟨e1, e2, e3, e4, e5, e6⟩ := same
  exact {
    config := by rw [e1]; decide
    crc := by rw [e1, e2]; exact crcOk_r
    asm := ⟨hm, bs, ha⟩
    chan := by rw [e1, e3]; rfl
    counts := by rw [e1]; exact ⟨hc.1, hc.2⟩
    baud := by rw [e1, e4]; exact baudOk_r
    pulse := by rw [e1, e5]; exact pulseOk_r
    tx := ⟨⟨frames, hq, hl⟩, by rw [e1]; exact hn, hw, st, hs⟩
    sync := by rw [e1, e6]; exact syncOk_r
    pins := fun _ => hp
    burst := fun _ h => hb.resolve_left h
    hold := by rw [hh]; simp }

/-- Received bytes leave a state safe. -/
theorem inv_received (bs : List Byte) : Inv (received bs) :=
  inv_witness (bs := []) (st := []) (frames := []) ⟨rfl, rfl, rfl, rfl, rfl, rfl⟩ rfl rfl counts_r rfl (by simp) room_r
    rfl rfl pinsOk_r (.inl rfl)

/-- Buffered bytes that fit leave a state safe. -/
theorem inv_buffered (bs : List Byte) (h : bs.length ≤ 64) : Inv (buffered bs) :=
  inv_witness (bs := bs) (st := []) (frames := []) ⟨rfl, rfl, rfl, rfl, rfl, rfl⟩ (wf_writeBytes rfl (by simpa using h))
    (memRead_eq_ok.mpr ⟨by simpa [buffered] using h, rfl, holdsAt_writeBytes _ _ _⟩) counts_r rfl (by simp) room_r
    rfl rfl pinsOk_r (.inl rfl)

theorem holds_buffered (bs : List Byte) (h : bs.length ≤ 64) : asmHolds (buffered bs) bs :=
  memRead_eq_ok.mpr ⟨by simpa [buffered] using h, rfl, holdsAt_writeBytes _ _ _⟩

/-- Queued frames that fit leave a state safe. -/
theorem inv_queued (frames : List (List Byte)) (hl : ∀ f ∈ frames, 1 ≤ f.length ∧ f.length ≤ maxFrame)
    (hn : (frames.flatMap record).length ≤ 256) : Inv (queued frames) :=
  inv_witness (bs := []) (st := []) (frames := frames) ⟨rfl, rfl, rfl, rfl, rfl, rfl⟩ rfl rfl counts_r rfl hl hn
    rfl rfl pinsOk_r (.inl rfl)

/-- A burst is still leaving: transmit mode, one byte waiting. -/
def bursting : State :=
  { linked with
    tx := { linked.tx with transmitting := true }
    pins := transmitPins false r.pins
    line := { r.line with txhw := [0x01] } }

theorem inv_bursting : Inv bursting :=
  inv_witness (bs := []) (st := []) (frames := []) ⟨rfl, rfl, rfl, rfl, rfl, rfl⟩ rfl rfl counts_r rfl (by simp) room_r
    rfl rfl (.inr ⟨rfl, rfl, rfl, rfl, rfl, rfl⟩) (.inr rfl)

theorem notHeld_r {s : State} (h : s.tx.transmitting = false) : ¬ held s := fun ⟨_, ht, _⟩ => by simp [h] at ht

/-- A 64-byte frame of type 0, all payload bytes 0: its CRC byte is 0. -/
def longFrame : List Byte := [0xC8, 0x3E] ++ List.replicate 62 0

/-- An RC-channels frame one byte too short for 16 channels. -/
def shortRc : List Byte := [0xC8, 0x17, 0x16] ++ List.replicate 21 0 ++ [0x80]

theorem witness_StepRunsDecodedInstruction :
    configOk r.cfg = true ∧ decode (.op [0x61]) = .ok .flushQueue
      ∧ (issueFirst (.op [0x61]) r).env.pending = { advance := 0, packet := .op [0x61], slots := [] } :: []
      ∧ (issueFirst (.op [0x61]) r).hold = none
      ∧ (decode (.op [0x02]) = .ok .txDrain ∧ asynchronous .txDrain = true ∧ (holding [0x01] [[0x02]]).hold ≠ none
        ∧ (holding [0x01] [[0x02]]).line.txhw ≠ [] ∧ configOk (holding [0x01] [[0x02]]).cfg = true
        ∧ (holding [0x01] [[0x02]]).env.pending = { advance := 0, packet := .op [0x02], slots := [] } :: [])
      ∧ asynchronous .flushQueue = false ∧ Instr.flushQueue ≠ .reset
      ∧ (holding [0x01] [[0x61]]).env.pending = { advance := 0, packet := .op [0x61], slots := [] } :: [] :=
  ⟨by decide, by decide, rfl, rfl, ⟨by decide, rfl, by simp [holding], by simp [holding], by decide, rfl⟩, rfl, by decide, rfl⟩
theorem witness_StepStopsOnlyByName :
    (configOk r.cfg = true ∧ r.hold = none ∧ r.env.pending = [])
      ∧ ((holding [0x01] []).line.txhw ≠ [] ∧ (holding [0x01] []).env.pending = [])
      ∧ decode (.op [0x04]) = .error (.reservedOp 0x04)
      ∧ (issueFirst (.op [0x04]) r).env.pending = { advance := 0, packet := .op [0x04], slots := [] } :: []
      ∧ configOk (State.resetOf { crc8Poly := 0 }).cfg = false := ⟨by decide, by decide, by decide, rfl, by decide⟩
theorem witness_DecodeInvertsEncode :
    Instr.wellFormed (.framePing 0xC8 0x04 (some 0xEE) (some 0xEA) [] (some 0x97)) = true ∧ Instr.wellFormed (.align 1) = true
      ∧ Instr.encodable (.frameRcChannels 0xC8 0x01 [] none) = true
      ∧ Instr.encodable (.framePing 0xC8 0x03 (some 0xEE) none [] (some 0x93)) = true
      ∧ Instr.encodable (.frameCommand 0xC8 0x04 (some 0xEE) (some 0xEA) [] (some 0x00)) = true := by decide
theorem witness_EncodeInvertsDecode :
    decode (.op [0x43, 0x80, 0x01]) = .ok (.readChannel 128)
      ∧ (0x28 : Byte) ∈ ([0x14, 0x16, 0x28, 0x29, 0x32, 0x3A] : List Byte)
      ∧ ([0xEE, 0x93] : List Byte).length + 3 = max ((0x03 : Byte).toNat + 2) 3
      ∧ ([] : List Byte).length + 3 = max ((0x00 : Byte).toNat + 2) 3 := by decide
theorem witness_ReservedCodesAreRefused :
    configOk r.cfg = true ∧ r.hold = none ∧ decode (.op [0x04]) = .error (.reservedOp 0x04)
      ∧ decode (.op [0xFF, 0x00]) = .error (.reservedOp 0xFF)
      ∧ decode (.op [0x61]) = .ok .flushQueue ∧ decode (.op ([0x61] ++ [])) = .ok .flushQueue := by decide
theorem witness_ResetStateIsSafe :
    configOk Config.default = true ∧ configOk { halfDuplex := false, numCh := 1 } = true
      ∧ ({ halfDuplex := false, numCh := 1 } : Config).halfDuplex = false := by decide
theorem witness_SafeStatesAreKept :
    Inv (issueFirst (.op [0x61]) (queued [ping])) ∧ ∃ t, step (issueFirst (.op [0x61]) (queued [ping])) = .next t :=
  ⟨{ inv_queued [ping] (by decide) (by decide) with }, _, rfl⟩
theorem witness_EveryOperationIsDefined :
    Inv (received []) ∧ inDomain (.readChannel 15) (received []) ∧ ¬ inDomain (.readChannel 16) (received [])
      ∧ inDomain (.align 1) (received []) ∧ ¬ inDomain (.align 2) (received []) :=
  ⟨inv_received [], by unfold inDomain; decide, by unfold inDomain; decide, by unfold inDomain; decide,
    by unfold inDomain; decide⟩
theorem witness_OtherAgentsLeavePollingState :
    (asynchronous (.lineRx 0x11) = true ∧ ∃ t, exec (.lineRx 0x11) r = .next t)
      ∧ (holding [0x01] [[0x02]]).hold ≠ none ∧ (holding [0x01] [[0x02]]).line.txhw ≠ []
      ∧ ∃ t, step (holding [0x01] [[0x02]]) = .next t :=
  ⟨⟨rfl, _, rfl⟩, by simp [holding], by simp [holding], _, rfl⟩
theorem witness_ElementsHaveTheirWriters :
    (∃ t, exec (.enqueue [0x01]) r = .next t) ∧ receives (.enqueue [0x01]) = false ∧ Instr.enqueue [0x01] ≠ .reset
      ∧ Instr.enqueue [0x01] ≠ .autobaudEstimate ∧ (∀ ms, Instr.enqueue [0x01] ≠ .wdtCheck ms)
      ∧ (∀ v, Instr.wdtCheck 1000 ≠ .setRx v) ∧ (∀ v, Instr.wdtCheck 1000 ≠ .setTx v)
      ∧ (∃ t, exec (.wdtCheck 1000) (State.resetOf { halfDuplex := false }) = .next t)
      ∧ FullDuplexPins (State.resetOf { halfDuplex := false }).pins
      ∧ configOk (holding [] []).cfg = true ∧ (holding [] []).line.txhw = []
      ∧ (holding [] []).hold = some { baud := 115200, nowMs := 1000, slots := [] } :=
  ⟨⟨_, rfl⟩, rfl, by decide, by decide, by simp, by simp, by simp, ⟨_, rfl⟩, ⟨rfl, rfl, rfl, rfl, rfl⟩, by decide, rfl, rfl⟩
theorem witness_Crc8IsTheBitwiseCrc : r.crc.tab8 = crc8Table r.cfg.crc8Poly := crcOk_r.tab8
theorem witness_Crc8Laws :
    ([0x12, 0x34] : List Byte).length = ([0x9A, 0xBC] : List Byte).length ∧ (0xD5 : Byte).getLsbD 0 = true
      ∧ (0x01 : Byte) ≠ 0x02 := by decide
theorem witness_CrcnConfigRecordsThePair : (9 ≤ 9 ∧ 9 ≤ 16) ∧ (9 ≤ 16 ∧ 16 ≤ 16) ∧ 8 < 9 ∧ 16 < 17 := by decide

/-- After reset, with this CRC pair configured. -/
def configured (n : Nat) (poly : Half) : State := { r with crc := { r.crc with bits := n, poly := poly } }

theorem crcOk_configured {n : Nat} (poly : Half) (h : 9 ≤ n ∧ n ≤ 16) :
    CrcOk (configured n poly).cfg (configured n poly).crc := ⟨rfl, .inr h, fun h => absurd (show false = true from h) (by decide)⟩

theorem witness_CrcnIsTheBitwiseCrc :
    (CrcOk (configured 9 0x0119).cfg (configured 9 0x0119).crc ∧ (configured 9 0x0119).crc.bits ≠ 0
        ∧ (configured 9 0x0119).crc.poly &&& maskN 9 ≠ 0)
      ∧ CrcOk (configured 16 0x1021).cfg (configured 16 0x1021).crc ∧ (configured 16 0x1021).crc.bits ≠ 0
        ∧ (configured 16 0x1021).crc.poly &&& maskN 16 ≠ 0 :=
  ⟨⟨crcOk_configured _ (by decide), by decide, by decide⟩, crcOk_configured _ (by decide), by decide, by decide⟩
theorem witness_CrcnWithoutPolynomial :
    CrcOk (configured 14 0x4000).cfg (configured 14 0x4000).crc ∧ (configured 14 0x4000).crc.bits ≠ 0
      ∧ (configured 14 0x4000).crc.poly &&& maskN 14 = 0 ∧ r.crc.bits = 0 :=
  ⟨crcOk_configured _ (by decide), by decide, by decide, rfl⟩
theorem witness_HeaderIsTheFirstThreeBytes : ([0xC8, 0x18] : List Byte).length < 3 := by decide
theorem witness_FrameCrcCoversTypeToPayload :
    r.crc.tab8 = crc8Table r.cfg.crc8Poly ∧ 2 < 3 ∧ ([0xC8, 0x01, 0x00] : List Byte).length < 4 := ⟨rfl, by decide, by decide⟩
theorem witness_OneChangedByteIsDetected :
    r.crc.tab8 = crc8Table r.cfg.crc8Poly ∧ r.cfg.crc8Poly.getLsbD 0 = true
      ∧ exec (.isValid ([0xC8, 0x04] ++ ([0x28] ++ 0xEE :: [0xEA]) ++ 0x97 :: []) 6) r = .next (reply (.flag true) r)
      ∧ (0xEE : Byte) ≠ 0xEF ∧ (0x97 : Byte) ≠ 0x96 := by
  refine ⟨rfl, by decide, ?_, by decide, by decide⟩
  show execIsValid _ _ _ = _
  unfold execIsValid
  rw [if_pos (by decide), show frameValid r _ 6 = true by decide]
theorem witness_UnpackingReadsTheBitStream :
    (11 * r.cfg.numCh + 7) / 8 ≤ (List.replicate 22 (0 : Byte)).length
      ∧ (List.replicate 21 (0 : Byte)).length < (11 * r.cfg.numCh + 7) / 8 := by decide
theorem witness_PackingWritesTheBitStream :
    (List.replicate 16 2048).length = r.cfg.numCh ∧ (List.replicate 17 0).length ≠ r.cfg.numCh := by decide
theorem witness_ChannelsRoundTrip :
    ((List.replicate 16 2047).length = r.cfg.numCh ∧ ∀ x ∈ List.replicate 16 2047, x < 2048)
      ∧ (List.replicate 22 (0xFF : Byte)).length = (11 * r.cfg.numCh + 7) / 8
      ∧ payloadNat (List.replicate 22 0xFF) < 2 ^ (11 * r.cfg.numCh) := by decide
theorem witness_ExtendedFrameIsBuilt :
    r.crc.tab8 = crc8Table r.cfg.crc8Poly ∧ (List.replicate 58 (0 : Byte)).length ≤ 58
      ∧ 58 < (List.replicate 59 (0 : Byte)).length := ⟨rfl, by decide, by decide⟩
theorem witness_DeviceInfoFrameIsBuilt : configOk r.cfg = true ∧ r.crc.tab8 = crc8Table r.cfg.crc8Poly := ⟨by decide, rfl⟩
theorem witness_DuplexModesAreSetInOrder : r.line.txhw = [] ∧ bursting.line.txhw ≠ [] := by decide
theorem witness_AlignKeepsFromTheMarker :
    Memory.wf (buffered [0xC8, 0xC8, 0x16]).asm.buf = true ∧ asmHolds (buffered [0xC8, 0xC8, 0x16]) [0xC8, 0xC8, 0x16]
      ∧ 0 ≤ 1 ∧ 1 ≤ 1 ∧ 1 < 2 := ⟨rfl, rfl, by decide⟩
theorem witness_PollWaitsForTheTransmitter :
    held bursting ∧ (bursting.cfg.halfDuplex = true ∧ bursting.tx.transmitting = true) ∧ r.tx.transmitting = false :=
  ⟨⟨rfl, rfl, by decide⟩, ⟨rfl, rfl⟩, rfl⟩
theorem witness_PollWaitsForMoreBytes :
    (Inv (received [0x11, 0xC8, 0x18]) ∧ (received [0x11, 0xC8, 0x18]).env.slots = [] ∧ ¬ held (received [0x11, 0xC8, 0x18])
        ∧ asmHolds (received [0x11, 0xC8, 0x18]) [] ∧ (polled (received [0x11, 0xC8, 0x18]) []).length < 3)
      ∧ (Inv (received [0xC8, 0x02, 0x16]) ∧ asmHolds (received [0xC8, 0x02, 0x16]) []
        ∧ 3 ≤ (polled (received [0xC8, 0x02, 0x16]) []).length ∧ (polled (received [0xC8, 0x02, 0x16]) [])[1]? = some 0x02
        ∧ 4 ≤ (0x02 : Byte).toNat + 2 ∧ (polled (received [0xC8, 0x02, 0x16]) []).length < (0x02 : Byte).toNat + 2)
      ∧ (polled (received [0xC8, 0x3E, 0x16]) [])[1]? = some 0x3E ∧ (0x3E : Byte).toNat + 2 ≤ 64
        ∧ (polled (received [0xC8, 0x3E, 0x16]) []).length < (0x3E : Byte).toNat + 2 :=
  ⟨⟨inv_received _, rfl, notHeld_r rfl, rfl, by decide⟩, ⟨inv_received _, rfl, by decide⟩, by decide⟩
theorem witness_PollRejectsIllegalLength :
    (Inv (received [0xC8, 0x01, 0x16]) ∧ (received [0xC8, 0x01, 0x16]).env.slots = [] ∧ ¬ held (received [0xC8, 0x01, 0x16])
        ∧ asmHolds (received [0xC8, 0x01, 0x16]) [] ∧ polled (received [0xC8, 0x01, 0x16]) [] = 0xC8 :: 0x01 :: [0x16]
        ∧ (0x01 : Byte).toNat + 2 < 4)
      ∧ polled (received [0xC8, 0x3F, 0x16]) [] = 0xC8 :: 0x3F :: [0x16] ∧ 64 < (0x3F : Byte).toNat + 2 :=
  ⟨⟨inv_received _, rfl, notHeld_r rfl, rfl, by decide⟩, by decide⟩

/-- The state's poll finds a whole frame of this size. -/
def findsFrame (s : State) (size : Byte) : Prop :=
  Inv s ∧ s.env.slots = [] ∧ ¬ held s ∧ asmHolds s [] ∧ (polled s [])[1]? = some size ∧ 4 ≤ size.toNat + 2
    ∧ size.toNat + 2 ≤ 64 ∧ size.toNat + 2 ≤ (polled s []).length

theorem findsFrame_of (bs : List Byte) (size : Byte)
    (h : (polled (received bs) [])[1]? = some size ∧ 4 ≤ size.toNat + 2 ∧ size.toNat + 2 ≤ 64
      ∧ size.toNat + 2 ≤ (polled (received bs) []).length) : findsFrame (received bs) size :=
  ⟨inv_received bs, rfl, notHeld_r rfl, rfl, h⟩

theorem witness_PollDropsCorruptFrame :
    (findsFrame (received [0xC8, 0x02, 0x33, 0x44]) 0x02 ∧ (polled (received [0xC8, 0x02, 0x33, 0x44]) [])[2]? = some 0x33
        ∧ ¬ crcRight r.cfg ((polled (received [0xC8, 0x02, 0x33, 0x44]) []).take 4))
      ∧ findsFrame (received (longFrame.dropLast ++ [0x01])) 0x3E
        ∧ ¬ crcRight r.cfg ((polled (received (longFrame.dropLast ++ [0x01])) []).take 64) :=
  ⟨⟨findsFrame_of _ _ (by decide), by decide, by unfold crcRight; decide⟩, findsFrame_of _ _ (by decide +kernel),
    by unfold crcRight; decide +kernel⟩
theorem witness_PollTakesGoodFrame :
    (findsFrame (received [0xC8, 0x02, 0x14, 0xAC]) 0x02
        ∧ crcRight r.cfg ((polled (received [0xC8, 0x02, 0x14, 0xAC]) []).take 4))
      ∧ findsFrame (received longFrame) 0x3E ∧ crcRight r.cfg ((polled (received longFrame) []).take 64) :=
  ⟨⟨findsFrame_of _ _ (by decide), by unfold crcRight; decide⟩, findsFrame_of _ _ (by decide +kernel),
    by unfold crcRight; decide +kernel⟩
theorem witness_GarbageThenFrameResynchronises :
    Inv (received (List.replicate 58 0 ++ ping)) ∧ (received (List.replicate 58 0 ++ ping)).env.slots = []
      ∧ ¬ held (received (List.replicate 58 0 ++ ping)) ∧ (received (List.replicate 58 0 ++ ping)).asm.cursor = 0
      ∧ (∀ b ∈ List.replicate 58 (0 : Byte), isMarker r.cfg b = false) ∧ ping = 0xC8 :: 0x04 :: [0x28, 0xEE, 0xEA, 0x97]
      ∧ isMarker r.cfg 0xC8 = true ∧ ping.length = (0x04 : Byte).toNat + 2
      ∧ (List.replicate 58 (0 : Byte)).length + ping.length ≤ 64 ∧ crcRight r.cfg ping :=
  ⟨inv_received _, rfl, notHeld_r rfl, rfl, by decide +kernel, by decide +kernel, by decide +kernel, by decide +kernel, by decide +kernel,
    by unfold crcRight; decide +kernel⟩
theorem witness_FullBufferMakesRoom :
    (Inv (buffered longFrame) ∧ ¬ held (buffered longFrame)
        ∧ 64 ≤ (buffered longFrame).asm.cursor + (interleave (endBurst (buffered longFrame))).line.rxhw.length)
      ∧ Inv (received longFrame) ∧ ¬ held (received longFrame)
        ∧ 64 ≤ (received longFrame).asm.cursor + (interleave (endBurst (received longFrame))).line.rxhw.length :=
  ⟨⟨inv_buffered _ (by decide), notHeld_r rfl, by decide⟩, inv_received _, notHeld_r rfl, by decide⟩

/-- A valid frame stands in the buffer, nothing steps in between. -/
def framed (bs : List Byte) (n : Nat) : Prop :=
  Inv (buffered bs) ∧ (buffered bs).env.slots = [] ∧ asmHolds (buffered bs) bs ∧ 4 ≤ n ∧ n ≤ 64 ∧ n ≤ bs.length
    ∧ crcRight r.cfg (bs.take n)

theorem framed_of (bs : List Byte) (n : Nat) (hl : bs.length ≤ 64) (hn : 4 ≤ n ∧ n ≤ bs.length)
    (hc : crcRight r.cfg (bs.take n)) : framed bs n :=
  ⟨inv_buffered bs hl, rfl, holds_buffered bs hl, hn.1, Nat.le_trans hn.2 hl, hn.2, hc⟩

theorem witness_OtherFramesOnlyMarkTheLink :
    (framed [0xC8, 0x02, 0x14, 0xAC] 4 ∧ ([0xC8, 0x02, 0x14, 0xAC] : List Byte)[2]? = some 0x14)
      ∧ framed longFrame 64 ∧ longFrame[2]? = some 0x00 :=
  ⟨⟨framed_of _ _ (by decide) (by decide) (by unfold crcRight; decide +kernel), by decide⟩,
    framed_of _ _ (by decide) (by decide) (by unfold crcRight; decide +kernel), by decide⟩

/-- A ping stands in the buffer behind this many queued bytes. -/
def pinged (frames : List (List Byte)) : State :=
  { buffered ping with tx := { r.tx with outq := frames.flatMap record } }

theorem inv_pinged (frames : List (List Byte)) (hl : ∀ f ∈ frames, 1 ≤ f.length ∧ f.length ≤ maxFrame)
    (hn : (frames.flatMap record).length ≤ 256) : Inv (pinged frames) :=
  inv_witness (bs := ping) (st := []) (frames := frames) ⟨rfl, rfl, rfl, rfl, rfl, rfl⟩ rfl rfl counts_r rfl hl hn
    rfl rfl pinsOk_r (.inl rfl)

/-- Three full records and one of `n + 1` bytes. -/
def threeFull (n : Nat) : List (List Byte) :=
  [List.replicate 64 0, List.replicate 64 0, List.replicate 64 0, List.replicate n 0]

theorem witness_PingIsAnswered :
    (framed ping 6 ∧ ping[2]? = some 0x28 ∧ ping[3]? = some r.cfg.addrModule)
      ∧ (framed [0xC8, 0x03, 0x28, 0xEE, 0x93] 5 ∧ 5 < 6)
      ∧ (framed [0xC8, 0x04, 0x28, 0x00, 0xEA, 0x54] 6 ∧ (0x00 : Byte) ≠ r.cfg.addrModule)
      ∧ (Inv (pinged (threeFull 35))
        ∧ (pinged (threeFull 35)).tx.outq.length + r.cfg.deviceName.length + 22 ≤ r.cfg.outqCapacity)
      ∧ Inv (pinged (threeFull 36))
        ∧ r.cfg.outqCapacity < (pinged (threeFull 36)).tx.outq.length + r.cfg.deviceName.length + 22 :=
  ⟨⟨framed_of _ _ (by decide) (by decide) (by unfold crcRight; decide +kernel), by decide, by decide⟩,
    ⟨framed_of _ _ (by decide) (by decide) (by unfold crcRight; decide +kernel), by decide⟩,
    ⟨framed_of _ _ (by decide) (by decide) (by unfold crcRight; decide +kernel), by decide⟩,
    ⟨inv_pinged _ (by decide) (by decide +kernel), by decide +kernel⟩,
    inv_pinged _ (by decide) (by decide +kernel), by decide +kernel⟩
theorem witness_CommandIsDispatched :
    (framed command 9 ∧ command[2]? = some 0x32)
      ∧ framed [0xC8, 0x06, 0x32, 0xEE, 0xEA, 0x10, 0x01, 0x8E] 8
      ∧ framed [0xC8, 0x07, 0x32, 0xEC, 0xEA, 0x10, 0x05, 0x03, 0x78] 9 :=
  ⟨⟨framed_of _ _ (by decide) (by decide) (by unfold crcRight; decide +kernel), by decide⟩,
    framed_of _ _ (by decide) (by decide) (by unfold crcRight; decide +kernel),
    framed_of _ _ (by decide) (by decide) (by unfold crcRight; decide +kernel)⟩
/-- An RC frame stands in the buffer, and a `READ_CHANNEL k` is to step when `j` channels have been written. -/
def torn (j k : Nat) : State :=
  { buffered rc992 with env := { r.env with slots := List.replicate (j + 1) [] ++ [[.readChannel k]] } }

/-- R81, U15: the reader sees the new value below the write position and the old one from it on. -/
theorem test_handleFrame_torn :
    (got (fun t => t.env.replies) (exec (.handleFrame 26 1000 1) (torn 3 2)),
      got (fun t => t.env.replies) (exec (.handleFrame 26 1000 1) (torn 3 3)))
    = (some [.channel 992], some [.channel 0]) := by decide +kernel

theorem witness_RcFrameUpdatesChannels :
    (framed rc992 26 ∧ rc992[2]? = some 0x16 ∧ (11 * r.cfg.numCh + 7) / 8 ≤ 26 - 4)
      ∧ (∀ j k, Inv (torn j k) ∧ asmHolds (torn j k) rc992
        ∧ (torn j k).env.slots = List.replicate (j + 1) [] ++ [[.readChannel k]])
      ∧ (torn 0 0).chan[0]? = some 0 ∧ (torn 16 15).chan[15]? = some 0 ∧ 16 ≤ r.cfg.numCh :=
  ⟨⟨framed_of _ _ (by decide) (by decide) (by unfold crcRight; decide +kernel), by decide, by decide⟩,
    fun _ _ => ⟨{ inv_buffered rc992 (by decide) with }, holds_buffered rc992 (by decide), rfl⟩, by decide⟩
theorem witness_ShortRcFrameLeavesChannelsOpen :
    framed shortRc 25 ∧ shortRc[2]? = some 0x16 ∧ 25 - 4 < (11 * r.cfg.numCh + 7) / 8 :=
  ⟨framed_of _ _ (by decide) (by decide) (by unfold crcRight; decide +kernel), by decide, by decide⟩
theorem witness_CollaboratorReads :
    r.chan.length = r.cfg.numCh ∧ r.chan[0]? = some 0 ∧ r.chan[15]? = some 0 ∧ r.cfg.numCh ≤ 16 := by decide
theorem witness_LineMovesOneByte :
    r.pins.rxConnected = true ∧ bursting.pins.rxConnected = false ∧ bursting.line.txhw = 0x01 :: [] ∧ r.line.txhw = [] := by
  decide

/-- After reset, with the window open behind this many edges. -/
def measuring (edges : Nat) : State := { r with pw := { r.pw with en := true, edges := edges } }

theorem witness_PulseTimerFollowsTheLine :
    r.pw.en = false ∧ (measuring 0).pw.en = true ∧ (true : Bool) = (measuring 0).pw.prev
      ∧ (false : Bool) ≠ (measuring 0).pw.prev := by decide
theorem witness_PulseOfKTicksMeasuresK :
    (measuring 0).pw.en = true ∧ (measuring 0).pw.prev = !false ∧ 1 ≤ 1 ∧ 1 ≤ 2 ^ r.cfg.pwBits - 1
      ∧ 1 ≤ 2 ^ r.cfg.pwBits - 1 ∧ 2 ^ r.cfg.pwBits - 1 ≤ 2 ^ r.cfg.pwBits - 1 := by decide
theorem witness_EstimatorFollowsItsPhases :
    (r.baud.phase = .init ∧ r.pw.en = false)
      ∧ ((measuring 299).baud.phase = .init ∧ (measuring 299).pw.en = true ∧ (measuring 299).pw.edges < r.cfg.edgeMin)
      ∧ r.cfg.edgeMin ≤ (measuring 300).pw.edges
      ∧ ({ r with baud := { r.baud with phase := .measured } } : State).baud.phase = .measured
      ∧ ({ r with baud := { r.baud with phase := .inverted } } : State).baud.phase = .inverted := by decide
theorem witness_SnapIsTheFirstNearest : ([400000] : List Nat) ≠ [] ∧ r.cfg.baudTable ≠ [] := by decide

/-- Linked, with these counts. -/
def counted (good bad : Nat) : State := { linked with link := { linked.link with goodCnt := good, badCnt := bad } }

theorem inv_counted (good bad : Nat) (h : good < 2 ^ r.cfg.cntBits ∧ bad < 2 ^ r.cfg.cntBits) : Inv (counted good bad) :=
  inv_witness (bs := []) (st := []) (frames := []) ⟨rfl, rfl, rfl, rfl, rfl, rfl⟩ rfl rfl h rfl (by simp) room_r
    rfl rfl pinsOk_r (.inl rfl)

theorem witness_WatchdogLeavesLiveLink :
    ((999 : Word) - (counted 1 0).link.wdtLastMs).toNat < r.cfg.wdtIntervalMs
      ∧ r.cfg.wdtIntervalMs ≤ ((1000 : Word) - (counted 1 0).link.wdtLastMs).toNat
      ∧ (counted 1 0).link.badCnt < (counted 1 0).link.goodCnt ∧ (counted 1 0).link.connected = true := by decide
theorem witness_WatchdogRecoversTheLine :
    (Inv (counted 3 3) ∧ (counted 3 3).env.slots = []
        ∧ r.cfg.wdtIntervalMs ≤ ((1000 : Word) - (counted 3 3).link.wdtLastMs).toNat
        ∧ (counted 3 3).link.goodCnt ≤ (counted 3 3).link.badCnt)
      ∧ (counted 3 3).line.txhw = []
      ∧ (Inv (received []) ∧ (received []).link.connected = false)
      ∧ (Inv bursting ∧ bursting.link.goodCnt ≤ bursting.link.badCnt ∧ bursting.line.txhw ≠ [])
      ∧ (configOk (holding [0x01] [[0x02]]).cfg = true
        ∧ (holding [0x01] [[0x02]]).hold = some { baud := 115200, nowMs := 1000, slots := [] }
        ∧ (holding [0x01] [[0x02]]).env.pending = [{ advance := 0, packet := .op [0x02], slots := [] }] ++ []
        ∧ decode (.op [0x02]) = .ok .txDrain ∧ 1 = (holding [0x01] [[0x02]]).line.txhw.length) :=
  ⟨⟨inv_counted _ _ (by decide), rfl, by decide, by decide⟩, rfl, ⟨inv_received [], rfl⟩,
    ⟨inv_bursting, by decide, by decide⟩, by decide, rfl, rfl, by decide, rfl⟩
theorem witness_EnqueueIsWholeOrNothing :
    (1 ≤ ([0x01] : List Byte).length ∧ ([0x01] : List Byte).length ≤ 64
        ∧ 1 + ([0x01] : List Byte).length ≤ r.cfg.outqCapacity - r.tx.outq.length)
      ∧ ((List.replicate 64 (0 : Byte)).length ≤ 64
        ∧ 1 + (List.replicate 64 (0 : Byte)).length ≤ 256 - (List.replicate 191 (0 : Byte)).length)
      ∧ ([] : List Byte).length < 1 ∧ 64 < (List.replicate 65 (0 : Byte)).length
      ∧ 256 - (List.replicate 192 (0 : Byte)).length < 1 + (List.replicate 64 (0 : Byte)).length := by decide +kernel
theorem witness_TelemetryIsQueuedAsGiven :
    ((0x0C : Byte).toNat ≤ (lstat.drop 2).length ∧ (0x0C : Byte).toNat + 2 ≤ 64
        ∧ (0x0C : Byte).toNat + 3 ≤ r.cfg.outqCapacity - r.tx.outq.length)
      ∧ ((0x3F : Byte).toNat ≤ (List.replicate 63 (0 : Byte)).length ∧ 64 < (0x3F : Byte).toNat + 2)
      ∧ 256 - (List.replicate 242 (0 : Byte)).length < (0x0C : Byte).toNat + 3
      ∧ ([0x14] : List Byte).length < (0x0C : Byte).toNat ∧ ([0xEA] : List Byte).length < 2 := by decide +kernel
theorem witness_ServiceWithNothingToSend :
    r.link.connected = false ∧ linked.link.connected = true ∧ linked.env.slots = [] ∧ linked.tx.rem = 0 ∧ linked.tx.outq = []
      ∧ linked.sync.force = false ∧ ((199 : Word) - linked.sync.tSent).toNat < 200 := by decide
theorem witness_ServiceHandsOverTheBudget :
    (Inv (queued [ping, devinfo]) ∧ (queued [ping, devinfo]).env.slots = [] ∧ (queued [ping, devinfo]).link.connected = true
        ∧ stageHolds (queued [ping, devinfo]) [] ∧ queueHolds (queued [ping, devinfo]) [ping, devinfo]
        ∧ [ping, devinfo] ≠ [])
      ∧ Inv bursting ∧ bursting.link.connected = true :=
  ⟨⟨inv_queued _ (by decide) (by decide), rfl, rfl, rfl, ⟨rfl, by decide⟩, by decide⟩, inv_bursting, rfl⟩
theorem witness_IdleServiceSendsTimingFrame :
    Inv (queued []) ∧ (queued []).env.slots = [] ∧ (queued []).link.connected = true ∧ (queued []).tx.rem = 0
      ∧ (queued []).tx.outq = [] ∧ 200 ≤ ((200 : Word) - (queued []).sync.tSent).toNat
      ∧ ({ queued [] with sync := { r.sync with force := true } } : State).sync.force = true :=
  ⟨inv_queued _ (by decide) (by decide), rfl, rfl, rfl, rfl, by decide, rfl⟩
theorem witness_FrameLeavesInCeilCalls :
    Inv (queued [devinfo]) ∧ (queued [devinfo]).env.slots = [] ∧ (queued [devinfo]).link.connected = true
      ∧ (queued [devinfo]).tx.rem = 0 ∧ queueHolds (queued [devinfo]) [devinfo]
      ∧ 0 ≤ (devinfo.length + 10 - 1) / 10 ∧ 3 ≤ (devinfo.length + 10 - 1) / 10 :=
  ⟨inv_queued _ (by decide) (by decide), rfl, rfl, rfl, ⟨rfl, by decide⟩, by decide, by decide⟩
theorem witness_NotificationFoldsTheGap :
    r.cfg.rcIntervalUs < ((4001 : Word) - r.link.tLastRx).toNat
      ∧ ((4000 : Word) - r.link.tLastRx).toNat ≤ r.cfg.rcIntervalUs := by decide
theorem witness_ConstantGapHoldsTheOffset :
    1 ≤ r.cfg.syncWindowMax ∧ r.sync.window = 0 ∧ ((4000 : Word) - r.link.tLastRx).toNat ≤ r.cfg.rcIntervalUs ∧ 1 ≤ 1 := by
  decide
theorem witness_TimingFrameIsRateLimited :
    linked.crc.tab8 = crc8Table linked.cfg.crc8Poly ∧ linked.link.connected = true
      ∧ 200 ≤ ((200 : Word) - linked.sync.tSent).toNat ∧ 16 ≤ 256 - (List.replicate 240 (0 : Byte)).length
      ∧ 256 - (List.replicate 241 (0 : Byte)).length < 16 ∧ r.link.connected = false
      ∧ (linked.sync.force = false ∧ ((199 : Word) - linked.sync.tSent).toNat < 200) :=
  ⟨rfl, rfl, by decide +kernel, by decide +kernel, by decide +kernel, rfl, rfl, by decide +kernel⟩
theorem witness_FrameArrivesAndIsPolled :
    (bursting.pins.rxConnected = false ∧ bursting.hold = none) ∧ (r.pins.rxConnected = true ∧ r.hold = none)
      ∧ (holding [0x01] []).hold ≠ none ∧ (holding [0x01] []).line.txhw ≠ [] := by decide
theorem witness_WireFramesAreHandled :
    (Inv (received []) ∧ (received []).env.slots = [] ∧ (received []).pins.rxConnected = true
        ∧ (received []).tx.transmitting = false ∧ (received []).asm.cursor = 0 ∧ (received []).line.rxhw = []
        ∧ isMarker r.cfg 0xC8 = true)
      ∧ (crcRight r.cfg [0xC8, 0x0C, 0x14, 0x10, 0x20, 0x64, 0xF6, 0x00, 0x04, 0x03, 0x30, 0x5A, 0x05, 0x81]
        ∧ (0x0C : Byte).toNat = 10 + 2)
      ∧ (crcRight r.cfg rc992 ∧ (0x18 : Byte).toNat = 22 + 2 ∧ (11 * r.cfg.numCh + 7) / 8 ≤ 22)
      ∧ (crcRight r.cfg ping ∧ (0x04 : Byte).toNat = 0 + 4 ∧ (0xEE : Byte) = r.cfg.addrModule
        ∧ r.tx.outq.length + r.cfg.deviceName.length + 22 ≤ r.cfg.outqCapacity)
      ∧ crcRight r.cfg ([0xC8] ++ devinfo.drop 1) ∧ crcRight r.cfg command ∧ crcRight r.cfg timing
      ∧ (0x3E : Byte).toNat + 2 ≤ 64 := by
  refine ⟨⟨inv_received [], rfl, rfl, rfl, rfl, rfl, by decide⟩, ?_, ?_, ?_, ?_, ?_, ?_, by decide⟩ <;> unfold crcRight <;>
    decide +kernel

end Sys2Proof.Tests
end

/-! The scope's statements (00_scope R12 to R14): when a step issues the next command, what a triggered watchdog
check does where nothing steps in between, and how a hold runs out. -/

namespace Sys2Proof.Machine

/-! ### When a step issues the next command (R12, R13) -/

/-- With bytes still waiting, no hold is over. -/
theorem holdOver_of_waiting {s : State} (ht : s.line.txhw ≠ []) : holdOver s = none := by
  simp [holdOver, txIdle, ht]

/-- An instruction that decodes steps in a hold when it is another agent's, or `RESET`. -/
theorem stepsInHold_of_decode {p : Packet} {i : Instr} (hd : decode p = .ok i) :
    stepsInHold p = (asynchronous i || i == .reset) := by
  simp [stepsInHold, hd]

/-- A step that neither releases a check nor waits for one runs the next command's instruction. -/
theorem step_issue {s : State} {c : Command} {rest : List Command} {i : Instr} (hcfg : configOk s.cfg = true)
    (hover : holdOver s = none) (hp : s.env.pending = c :: rest) (hw : waitsForHold c.packet s = false)
    (hd : decode c.packet = .ok i) : step s = exec i (issue c rest s) := by
  simp [step, hcfg, hover, hp, hw, hd]

/-- A command that waits for a check that holds has no step. -/
theorem step_waits {s : State} {c : Command} {rest : List Command} (hcfg : configOk s.cfg = true)
    (hover : holdOver s = none) (hp : s.env.pending = c :: rest) (hw : waitsForHold c.packet s = true) :
    step s = .next s := by
  simp [step, hcfg, hover, hp, hw]

/-- A check whose hold is over goes on before anything else. -/
theorem step_releases {s : State} {h : Hold} (hcfg : configOk s.cfg = true) (hh : s.hold = some h)
    (ht : s.line.txhw = []) : step s = .next (releaseHold h s) := by
  simp [step, hcfg, holdOver_eq_some.mpr ⟨hh, ht⟩]

/-- Settles O1: by whether a check holds, and, while one does, by whose operation the next command is. -/
theorem stepRunsDecodedInstruction : Obligations.StepRunsDecodedInstruction := by
  intro s c rest i hcfg hp hd
  refine ⟨fun hnone => ?_, fun _ ht hown => ?_, fun hhold ht hloop hreset => ?_⟩
  · exact step_issue hcfg (holdOver_none hnone) hp (waitsForHold_none _ hnone) hd
  · have hw : waitsForHold c.packet s = false := by
      rcases hown with hi | hi <;> simp [waitsForHold, stepsInHold_of_decode hd, hi]
    exact step_issue hcfg (holdOver_of_waiting ht) hp hw hd
  · have hw : waitsForHold c.packet s = true := by
      simp [waitsForHold, stepsInHold_of_decode hd, Option.isSome_iff_ne_none, hhold, hloop, hreset]
    exact step_waits hcfg (holdOver_of_waiting ht) hp hw

/-! ### The end of a check, with nothing stepping in between (R243 steps 4 to 6, R244) -/

/-- R191 in one piece: the pins and the events of receive mode. -/
theorem setReceive_eq (v : Bool) (s : State) :
    setReceive v s = { s with pins := receivePins v s.pins, events := s.events ++ receiveEvents v s.pins } := by
  have hev : (setReceive v s).events = s.events ++ receiveEvents v s.pins := by simp [receiveEvents, idlePull]
  rw [← hev]; rfl

/-- R243 step 5 on a full-duplex line in one piece. -/
theorem followPolarity_eq (v : Bool) (s : State) :
    followPolarity v s = { s with pins := polarityPins v s.pins, events := s.events ++ polarityEvents v s.pins } := by
  have hev : (followPolarity v s).events = s.events ++ polarityEvents v s.pins := by simp [polarityEvents, idlePull]
  rw [← hev]; rfl

/-- R243 steps 4 to 6, R244 and the answer, on a half-duplex or a full-duplex line (R243 step 5). -/
theorem reply_finishCheck_quiet {s : State} (c : Nat) (ms : Word) (hs : s.env.slots = []) :
    reply (.wdt .triggered) (finishCheck c ms s) = recovered c ms s := by
  have hquiet : finishCheck c ms s
      = endCheck ms { restoreReceive (configureLine c s) with
          line := { (restoreReceive (configureLine c s)).line with rxhw := [] } } := by
    simp [finishCheck, renewLine, hs]
  rw [hquiet]
  cases hd : s.cfg.halfDuplex with
  | true =>
    have hr : restoreReceive (configureLine c s)
        = setTransmitting false (setReceive s.baud.inverted (configureLine c s)) := by simp [restoreReceive, hd]
    rw [hr, setReceive_eq]
    simp only [recovered, hd]; rfl
  | false =>
    have hr : restoreReceive (configureLine c s) = followPolarity s.baud.inverted (configureLine c s) := by
      simp [restoreReceive, hd]
    rw [hr, followPolarity_eq]
    simp only [recovered, hd]; rfl

/-- R243 step 3: what a check that was kept does once its hold is over. -/
theorem releaseHold_quiet {s : State} {h : Hold} (hs : h.slots = []) :
    releaseHold h s = recovered h.baud h.nowMs { s with hold := none, env := { s.env with slots := [] } } := by
  rw [releaseHold, answerWdt_some, hs]
  exact reply_finishCheck_quiet _ _ rfl

/-! ### A triggered check up to its hold (R240 to R243) -/

/-- The events that report the loss of a link; none where the link was down already (R242). -/
def lossEvents (l : LinkState) : List Event :=
  if l.connected then [.err (.linkLost l.goodCnt l.badCnt), .disconnected] else []

/-- Where a triggered check stands at R243 step 3, with nothing stepping in between. -/
def atHold (s : State) : State :=
  { s with
    link := { s.link with connected := false }
    pw := (estimate s).1.pw
    baud := { (estimate s).1.baud with winBytes := windowBytes s.cfg (estimate s).2 }
    tx := { s.tx with outq := [] }
    events := s.events ++ lossEvents s.link }

/-- R242 in one piece. -/
theorem disconnect_eq (s : State) :
    disconnect s = { s with
      link := { s.link with connected := false }
      tx := if s.link.connected then { s.tx with outq := [] } else s.tx
      events := s.events ++ lossEvents s.link } := by
  cases hc : s.link.connected with
  | true =>
    have hev : (disconnect s).events = s.events ++ lossEvents s.link := by simp [disconnect, lossEvents, hc]
    rw [← hev]; simp only [disconnect, hc]; rfl
  | false =>
    have hl : { s.link with connected := false } = s.link := by rw [← hc]
    simp [disconnect, lossEvents, hc, hl]

/-- An estimator call writes the timer and the baud state alone (R234 to R237). -/
theorem estimate_eq (s : State) :
    (estimate s).1 = { s with pw := (estimate s).1.pw, baud := (estimate s).1.baud } := by
  rcases estimate_cases s with ⟨-, -, e⟩ | ⟨-, -, e⟩ | ⟨-, e⟩ | ⟨-, e⟩ <;> rw [e]
  case inl => by_cases hen : s.pw.en = true <;> simp only [pwEnable, hen] <;> rfl
  all_goals rfl

/-- Two states that agree in all the estimator reads: the configuration, the baud state and the timer (R234 to R238). -/
structure SameRegisters (s t : State) : Prop where
  cfg : t.cfg = s.cfg
  baud : t.baud = s.baud
  pw : t.pw = s.pw

theorem sameRegisters_setPhase {s t : State} (p : AbPhase) (v : Bool) (h : SameRegisters s t) :
    SameRegisters (setPhase p v s) (setPhase p v t) :=
  ⟨h.cfg, by simp [h.baud], h.pw⟩

theorem sameRegisters_pwEnable {s t : State} (h : SameRegisters s t) : SameRegisters (pwEnable s) (pwEnable t) := by
  refine ⟨by simp [h.cfg], by simp [h.baud], ?_⟩
  unfold pwEnable
  rw [h.pw, h.cfg]
  split <;> simp [h.pw]

theorem sameRegisters_promote {s t : State} (h : SameRegisters s t) : SameRegisters (promote s) (promote t) := by
  have hedges : enoughEdges t = enoughEdges s := by simp only [enoughEdges, h.cfg, h.baud, h.pw]
  unfold promote
  rw [hedges, h.baud]
  split
  · exact ⟨h.cfg, by simp [h.baud], by simp [h.pw]⟩
  · exact h

theorem sameRegisters_estimateIn {s t : State} (h : SameRegisters s t) :
    SameRegisters (estimateIn s).1 (estimateIn t).1 ∧ (estimateIn t).2 = (estimateIn s).2 := by
  unfold estimateIn
  rw [h.baud, h.cfg, h.pw]
  cases s.baud.phase with
  | init => exact ⟨sameRegisters_setPhase _ _ (sameRegisters_pwEnable h), rfl⟩
  | measured => exact ⟨sameRegisters_setPhase _ _ h, rfl⟩
  | inverted => exact ⟨sameRegisters_setPhase _ _ h, rfl⟩

/-- R242 writes nothing that the estimator reads, so its call after it leaves the same registers and gives the same answer. -/
theorem estimate_disconnect (s : State) :
    SameRegisters (estimate s).1 (estimate (disconnect s)).1 ∧ (estimate (disconnect s)).2 = (estimate s).2 :=
  sameRegisters_estimateIn (sameRegisters_promote ⟨disconnect_cfg s, disconnect_baud s, disconnect_pw s⟩)

/-- A legal baud rate is not 0 (R10). -/
theorem estimate_ne_zero {s : State} (h : Inv s) : (estimate s).2 ≠ 0 := by
  obtain ⟨-, -, -, -, ⟨htable, hbauds⟩, -⟩ := configOk_iff.mp h.config
  have := hbauds _ ((estimate_spec s).2 htable)
  omega

/-- Steps 1 and 2 of R243, from the lost link and the estimator's answer on, lead to `atHold`. -/
theorem prepareLine_quiet {s : State} (hs : s.env.slots = []) :
    prepareLine (estimate s).2 (estimate (disconnect s)).1 = atHold s := by
  obtain ⟨⟨-, hbaud, hpw⟩, -⟩ := estimate_disconnect s
  have hquiet : (estimate (disconnect s)).1.env.slots = [] := by
    rw [(estimate_spec _).1.env, disconnect_env, hs]
  have hstep : prepareLine (estimate s).2 (estimate (disconnect s)).1
      = qFlush { (estimate (disconnect s)).1 with
          baud := { (estimate (disconnect s)).1.baud with
            winBytes := windowBytes (estimate (disconnect s)).1.cfg (estimate s).2 } } := by
    simp [prepareLine, hquiet]
  rw [hstep, estimate_eq (disconnect s), hpw, hbaud, disconnect_eq]
  cases hc : s.link.connected <;> rfl

/-- A triggered check reaches its hold in `atHold`. -/
theorem recoverLink_quiet {s : State} (ms : Word) (h : Inv s) (hs : s.env.slots = []) :
    recoverLink ms s = holdUntilIdle (estimate s).2 ms (atHold s) := by
  obtain ⟨-, hsame⟩ := estimate_disconnect s
  have hquiet : interleave (disconnect s) = disconnect s := interleave_nil (by simpa using hs)
  simp only [recoverLink, hquiet, hsame, if_neg (estimate_ne_zero h), prepareLine_quiet hs]

/-- R240, R241: a due check of a silent or failing link recovers it. -/
theorem wdtCheck_triggered {s : State} {ms : Word} (hdue : s.cfg.wdtIntervalMs ≤ (ms - s.link.wdtLastMs).toNat)
    (hbad : s.link.goodCnt ≤ s.link.badCnt ∨ s.link.connected = false) : wdtCheck ms s = recoverLink ms s := by
  have hd : wdtDue ms s = true := decide_eq_true hdue
  have ht : wdtTriggers s = true := by simpa [wdtTriggers] using hbad
  simp [wdtCheck, hd, ht]

/-- A triggered check issued as an operation: it recovers the line at once, or holds and answers nothing. -/
theorem exec_wdtCheck_triggered {s : State} {ms : Word} (h : Inv s) (hs : s.env.slots = [])
    (hdue : s.cfg.wdtIntervalMs ≤ (ms - s.link.wdtLastMs).toNat)
    (hbad : s.link.goodCnt ≤ s.link.badCnt ∨ s.link.connected = false) :
    (s.line.txhw = [] → exec (.wdtCheck ms) s = .next (recovered (estimate s).2 ms (atHold s)))
      ∧ (s.line.txhw ≠ [] → exec (.wdtCheck ms) s
          = .next { atHold s with hold := some { baud := (estimate s).2, nowMs := ms, slots := [] } }) := by
  have hrun : wdtCheck ms s = holdUntilIdle (estimate s).2 ms (atHold s) :=
    (wdtCheck_triggered hdue hbad).trans (recoverLink_quiet ms h hs)
  have hexec : exec (.wdtCheck ms) s = .next (answerWdt (wdtCheck ms s).2 (wdtCheck ms s).1) := rfl
  rw [hexec, hrun]
  rcases holdUntilIdle_cases (estimate s).2 ms (atHold s) with ⟨ht, e⟩ | ⟨ht, e⟩ <;> rw [e]
  · refine ⟨fun _ => ?_, fun hne => absurd ht hne⟩
    exact congrArg _ (reply_finishCheck_quiet _ _ hs)
  · refine ⟨fun hnil => absurd hnil ht, fun _ => ?_⟩
    have henv : { (atHold s).env with slots := [] } = (atHold s).env := by rw [← hs]; rfl
    have hslots : (atHold s).env.slots = [] := hs
    simp only [answerWdt_none, henv, hslots]

/-! ### A hold runs out (R12, R306) -/

/-- A step that completes, and the steps after it. -/
theorem stepTimes_succ {s t : State} {n : Nat} (h : step s = .next t) : stepTimes (n + 1) s = stepTimes n t := by
  rw [stepTimes, h]

/-- The state after a command that drains the byte `b` and leaves `bs` waiting (R268). -/
def drained (d : Command) (rest : List Command) (b : Byte) (bs : List Byte) (s : State) : State :=
  emit (.lineTx b) { issue d rest s with line := { s.line with txhw := bs } }

/-- One `TX_DRAIN` of the serializer while a check holds: the oldest byte leaves, and the hold lasts. -/
theorem step_txDrain_in_hold {s : State} {d : Command} {rest : List Command} {b : Byte} {bs : List Byte}
    (hcfg : configOk s.cfg = true) (ht : s.line.txhw = b :: bs) (hp : s.env.pending = d :: rest)
    (hd : decode d.packet = .ok .txDrain) :
    step s = .next (drained d rest b bs s) := by
  have hover : holdOver s = none := holdOver_of_waiting (by simp [ht])
  have hw : waitsForHold d.packet s = false := by simp [waitsForHold, stepsInHold_of_decode hd, asynchronous]
  have hdrain : txDrain (issue d rest s) = drained d rest b bs s := by simp [txDrain, drained, ht]
  rw [step_issue hcfg hover hp hw hd, ← hdrain]
  rfl

/-- As many `TX_DRAIN`s as bytes wait, and one step more: every byte is on the line, and the check has ended. -/
theorem stepTimes_drains {h : Hold} {rest : List Command} (hs : h.slots = []) (drains : List Command) {s : State}
    (hcfg : configOk s.cfg = true) (hh : s.hold = some h) (hp : s.env.pending = drains ++ rest)
    (hd : ∀ d ∈ drains, decode d.packet = .ok .txDrain) (hlen : drains.length = s.line.txhw.length) :
    stepTimes (drains.length + 1) s
      = .next (recovered h.baud h.nowMs { s with
          line := { s.line with txhw := [] }
          clock := s.clock + (drains.map Command.advance).sum
          events := s.events ++ s.line.txhw.map .lineTx
          hold := none
          env := { s.env with pending := rest, slots := [] } }) := by
  induction drains generalizing s with
  | nil =>
    have ht : s.line.txhw = [] := List.eq_nil_of_length_eq_zero hlen.symm
    have hrest : s.env.pending = rest := hp
    have hline : { s.line with txhw := [] } = s.line := by rw [← ht]
    rw [List.length_nil, stepTimes_succ (step_releases hcfg hh ht), stepTimes, releaseHold_quiet hs]
    simp [hline, ht, ← hrest]
  | cons d ds ih =>
    obtain ⟨b, bs, ht⟩ : ∃ b bs, s.line.txhw = b :: bs := List.exists_cons_of_length_pos (by simp at hlen; omega)
    have hlen' : ds.length = bs.length := by simpa [ht] using hlen
    have hstep : step s = .next (drained d (ds ++ rest) b bs s) :=
      step_txDrain_in_hold hcfg ht hp (hd d List.mem_cons_self)
    rw [List.length_cons, stepTimes_succ hstep,
      ih (s := drained d (ds ++ rest) b bs s) hcfg hh rfl (fun e he => hd e (List.mem_cons_of_mem _ he)) hlen']
    simp [drained, ht, Nat.add_assoc]

/-- Settles O48: the check up to its hold, and the hold to the check's end. -/
theorem watchdogRecoversTheLine : Obligations.WatchdogRecoversTheLine :=
  ⟨fun _ _ h hs hdue hbad => exec_wdtCheck_triggered h hs hdue hbad,
    fun _ _ drains _ hcfg hh hs hp hd hlen => stepTimes_drains hs drains hcfg hh hp hd hlen⟩

end Sys2Proof.Machine

/-! The state's statements (10_state): the steps that stay or refuse by name, and the state after reset is safe. -/

namespace Sys2Proof.Machine

/-! ### The steps that stay or refuse (R12, R21, U9, U10) -/

/-- No check goes on when none holds, or while its hold lasts. -/
theorem holdOver_eq_none {s : State} (h : s.hold = none ∨ s.line.txhw ≠ []) : holdOver s = none :=
  h.elim holdOver_none holdOver_of_waiting

/-- With no command pending nothing steps. -/
theorem step_idle {s : State} (hcfg : configOk s.cfg = true) (hover : holdOver s = none) (hp : s.env.pending = []) :
    step s = .next s := by
  simp [step, hcfg, hover, hp]

/-- An operation packet that is no operation waits for no check that holds. -/
theorem waitsForHold_of_undecodable {s : State} {bytes : List Byte} {e : DecodeError}
    (hd : decode (.op bytes) = .error e) : waitsForHold (.op bytes) s = false := by
  simp [waitsForHold, stepsInHold, hd]

/-- A command that does not decode, and waits for no check, is left to `undecoded`. -/
theorem step_undecoded {s : State} {c : Command} {rest : List Command} {e : DecodeError} (hcfg : configOk s.cfg = true)
    (hover : holdOver s = none) (hp : s.env.pending = c :: rest) (hw : waitsForHold c.packet s = false)
    (hd : decode c.packet = .error e) : step s = undecoded c.packet e (issue c rest s) := by
  simp [step, hcfg, hover, hp, hw, hd]

/-- A configuration that is not admitted has no step. -/
theorem step_badConfiguration {s : State} (hcfg : configOk s.cfg = false) : step s = .refused .badConfiguration := by
  simp [step, hcfg]

/-- Settles O2: nothing pending, a packet that is no operation, a configuration that is not admitted. -/
theorem stepStopsOnlyByName : Obligations.StepStopsOnlyByName := by
  refine ⟨fun s hcfg hhold hp => ?_, fun s c rest bytes e hcfg hhold hp hop hd => ?_, fun s hcfg => ?_⟩
  · exact step_idle hcfg (holdOver_eq_none hhold) hp
  · have hdc : decode c.packet = .error e := hop ▸ hd
    have hw : waitsForHold c.packet s = false := hop ▸ waitsForHold_of_undecodable hd
    rw [step_undecoded hcfg (holdOver_eq_none hhold) hp hw hdc, hop, undecoded_op]
  · exact step_badConfiguration hcfg

/-! ### The reset values are safe, part by part (R45, R340)

The values that R340 leaves open (the table tags, the level the pulse timer samples) are any. -/

/-- The 8-bit table is built, the N-bit table is not. -/
theorem crcOk_atReset (cfg : Config) (tabBits : Nat) (tabPoly : Half) : CrcOk cfg (CrcState.atReset cfg tabBits tabPoly) where
  tab8 := rfl
  bits := .inl rfl
  tabN := fun h => Bool.noConfusion h

theorem asmOk_atReset : AsmOk AsmBuffer.atReset := asmOk_of (bs := []) rfl rfl

theorem countsOk_atReset (cfg : Config) : CountsOk cfg LinkState.atReset := ⟨Nat.two_pow_pos _, Nat.two_pow_pos _⟩

/-- The probe rate fits the 32 bits of `baud_cur`, so it is read back as it was configured. -/
theorem baudOk_atReset {cfg : Config} (h : configOk cfg = true) : BaudOk cfg (BaudState.atReset cfg) where
  phase := AbPhase.noConfusion
  cur := by
    obtain ⟨-, -, -, -, ⟨-, hbauds⟩, -⟩ := configOk_iff.mp h
    have hprobe : cfg.probeBaud ∈ legalBauds cfg := List.mem_cons_self
    have hread : (BitVec.ofNat 32 cfg.probeBaud).toNat = cfg.probeBaud := Nat.mod_eq_of_lt (hbauds _ hprobe).2
    exact hread.symm ▸ hprobe
  winBytes := windowBytes_pos h _

/-- The shortest pulses start at the ceiling, which is a tick at least. -/
theorem pulseOk_atReset {cfg : Config} (h : configOk cfg = true) (level : Bool) :
    PulseOk cfg (PulseTimer.atReset cfg level) where
  edges := Nat.zero_le _
  low := ⟨pwMax_pos h, Nat.le_refl _⟩
  high := ⟨pwMax_pos h, Nat.le_refl _⟩
  run := Nat.zero_le _
  whole := fun h => Bool.noConfusion h

theorem txOk_atReset (cfg : Config) : TxOk cfg TxState.atReset where
  records := ⟨[], rfl, List.forall_mem_nil _⟩
  capacity := Nat.zero_le _
  form := rfl
  staged := ⟨[], rfl⟩

/-- The offset starts at 0 with an empty window. -/
theorem syncOk_atReset (cfg : Config) : SyncOk cfg SyncState.atReset where
  window := Nat.zero_le _
  averaging := fun h => absurd h (Nat.not_succ_le_zero 0)
  late := fun _ => ⟨Int.neg_nonpos_of_nonneg (Int.natCast_nonneg _), Int.le_refl 0⟩

/-- R196's receive row of a half-duplex line: the transmitter is disconnected. -/
theorem pinsOk_atReset {cfg : Config} (h : cfg.halfDuplex = true) : PinsOk (Pins.atReset cfg) :=
  .inl ⟨rfl, rfl, rfl, rfl, by simp [Pins.atReset, h]⟩

/-- R196's row of a full-duplex line: both ends are connected. -/
theorem fullDuplexPins_atReset {cfg : Config} (h : cfg.halfDuplex = false) : FullDuplexPins (Pins.atReset cfg) :=
  ⟨rfl, rfl, rfl, rfl, by simp [Pins.atReset, h]⟩

/-- Right after power-on with an admitted configuration every part is safe; no byte waits and no check holds. -/
theorem inv_resetOf {cfg : Config} (h : configOk cfg = true) : Inv (State.resetOf cfg) where
  config := h
  crc := crcOk_atReset cfg 0 0
  asm := asmOk_atReset
  chan := List.length_replicate
  counts := countsOk_atReset cfg
  baud := baudOk_atReset h
  pulse := pulseOk_atReset h true
  tx := txOk_atReset cfg
  sync := syncOk_atReset cfg
  pins := pinsOk_atReset
  burst := fun _ hwaiting => absurd rfl hwaiting
  hold := by simp [State.resetOf]

/-- R10 admits the default configuration of R9. -/
theorem configOk_default : configOk Config.default = true := by decide

/-- Settles O7: part by part, for every admitted configuration; the default one is admitted. -/
theorem resetStateIsSafe : Obligations.ResetStateIsSafe :=
  ⟨inv_resetOf configOk_default, fun _ hcfg => ⟨inv_resetOf hcfg, fullDuplexPins_atReset⟩⟩

end Sys2Proof.Machine

/-! The memory's statements (20_memory): every step keeps the safe states and never faults, and the other agents leave the
polling loop's elements alone. -/

namespace Sys2Proof.Machine

/-! ### Outcomes without a fault -/

/-- The outcome is no fault, and the state it goes on to, if it does, satisfies `P`. -/
def Leaves (P : State → Prop) : Out → Prop
  | .next t => P t
  | .fault _ => False
  | .refused _ => True

theorem leaves_iff {P : State → Prop} {o : Out} :
    Leaves P o ↔ (∀ t, o = .next t → P t) ∧ ∀ f, o ≠ .fault f := by
  cases o <;> simp [Leaves]

/-- An outcome that goes on only to where `P` does. -/
theorem leaves_imp {P Q : State → Prop} {o : Out} (h : Leaves P o) (hPQ : ∀ t, o = .next t → Q t) : Leaves Q o :=
  leaves_iff.mpr ⟨hPQ, (leaves_iff.mp h).2⟩

/-- A guarded operation. -/
theorem leaves_ite {P : State → Prop} {c : Prop} [Decidable c] {x y : Out} (hx : c → Leaves P x)
    (hy : ¬ c → Leaves P y) : Leaves P (if c then x else y) := by
  split
  next hc => exact hx hc
  next hc => exact hy hc

/-- A rule with a result, run as an operation. -/
theorem leaves_finishWith {P : State → Prop} {α : Type} {mk : α → Reply} {x : Run (State × α)} {t : State} {a : α}
    (hx : x = .ok (t, a)) (ht : P (reply (mk a) t)) : Leaves P (finishWith mk x) := by
  rw [hx]; exact ht

/-- An encoder answers its frame or refuses (R168); the state keeps all but the answer. -/
theorem leaves_encodeExt {P : State → Prop} {s : State} (type dest orig : Byte) (payload : List Byte)
    (h : ∀ r, P (reply r s)) :
    Leaves P (finish (andThen (encodeExt type dest orig payload s) fun f => .ok (reply (.bytes f) s))) := by
  unfold encodeExt
  split
  · trivial
  · exact h _

/-! ### An operation of another agent, issued (R13, R20, R86) -/

/-- At an interleave point an operation of another agent does what it does when it is issued. -/
theorem asyncOp_eq_exec {i : Instr} (ha : asynchronous i = true) (s : State) : asyncOp i s = afterOr s (exec i s) := by
  cases i with
  | lineRx | txDrain | pwTick | crc8Byte | crc8Buf | crcnConfig | crcnCalc | decodeHeader | computeCrc | isValid
  | unpackChannels | packChannels | encodeExt | encodeDevinfo | packVersion | readChannel | getLastRcTs | enqueue
  | sendTelemetry | notifyTx => rfl
  | reset | setRx | setTx | pollRx | align | handleFrame | wdtCheck | autobaudEstimate | pwEnable | flushQueue
  | serviceOutput | syncEmit | frameLinkStats | frameRcChannels | framePing | frameDeviceInfo | frameCommand
  | frameTiming => cases ha

/-- What `Others` leaves open of an operation of another agent: the interleaving chosen for the operation in progress stays,
and only the serializer takes from `txhw` (R268). -/
structure Aside (i : Instr) (s t : State) : Prop where
  slots : t.env.slots = s.env.slots
  txhw : i = .txDrain ∨ t.line.txhw = s.line.txhw

theorem aside_reply {i : Instr} {s t : State} (r : Reply) (h : Aside i s t) : Aside i s (reply r t) := ⟨h.slots, h.txhw⟩

theorem aside_refl (i : Instr) (s : State) : Aside i s s := ⟨rfl, .inr rfl⟩

theorem aside_enqueue (i : Instr) (f : List Byte) (s : State) : Aside i s (enqueue f s) :=
  ⟨by rw [enqueue_env], .inr (by rw [enqueue_line])⟩

theorem aside_crcnRebuild (i : Instr) (s : State) : Aside i s (crcnRebuild s) :=
  ⟨by rw [crcnRebuild_env], .inr (by rw [crcnRebuild_line])⟩

/-- No operation of another agent faults. -/
theorem exec_asynchronous_aside {i : Instr} (ha : asynchronous i = true) (s : State) : Leaves (Aside i s) (exec i s) := by
  have answers : ∀ r, Aside i s (reply r s) := fun r => aside_reply r (aside_refl i s)
  have queues : ∀ f r, Aside i s (reply r (enqueue f s)) := fun f r => aside_reply r (aside_enqueue i f s)
  cases i with
  | lineRx b => exact leaves_ite (fun _ => ⟨rfl, .inr rfl⟩) (fun _ => trivial)
  | txDrain => exact ⟨by rw [txDrain_env], .inl rfl⟩
  | pwTick level => exact ⟨rfl, .inr rfl⟩
  | crcnConfig bits poly => exact leaves_ite (fun _ => trivial) (fun _ => ⟨rfl, .inr rfl⟩)
  | crcnCalc buf seed =>
    have hr := aside_crcnRebuild (.crcnCalc buf seed) s
    exact leaves_ite (fun _ => trivial)
      (fun _ => leaves_ite (fun _ => aside_reply _ ⟨hr.slots, hr.txhw⟩) (fun _ => aside_reply _ hr))
  | decodeHeader buf =>
    simp only [exec, execDecodeHeader]
    split
    · exact answers _
    · trivial
  | computeCrc buf n => exact leaves_ite (fun _ => answers _) (fun _ => trivial)
  | isValid buf n => exact leaves_ite (fun _ => answers _) (fun _ => trivial)
  | unpackChannels p => exact leaves_ite (fun _ => trivial) (fun _ => answers _)
  | packChannels v => exact leaves_ite (fun _ => answers _) (fun _ => trivial)
  | encodeExt type dest orig p => exact leaves_encodeExt type dest orig p answers
  | encodeDevinfo => exact leaves_encodeExt _ _ _ _ answers
  | readChannel k => exact leaves_ite (fun _ => answers _) (fun _ => trivial)
  | enqueue f => exact queues _ _
  | sendTelemetry b =>
    simp only [exec, execSendTelemetry]
    split
    · exact queues _ _
    · trivial
  | notifyTx us => exact ⟨rfl, .inr rfl⟩
  | crc8Byte | crc8Buf | packVersion | getLastRcTs => exact answers _
  | reset | setRx | setTx | pollRx | align | handleFrame | wdtCheck | autobaudEstimate | pwEnable | flushQueue
  | serviceOutput | syncEmit | frameLinkStats | frameRcChannels | framePing | frameDeviceInfo | frameCommand
  | frameTiming => cases ha

/-- What holds at an interleave point (`asyncOp_spec`) holds of the operation issued. -/
theorem exec_asynchronous_others {i : Instr} {s t : State} (ha : asynchronous i = true) (he : exec i s = .next t) :
    Others s t ∧ (Inv s → Inv t) := by
  have h := asyncOp_spec i s
  rwa [asyncOp_eq_exec ha, he] at h

/-! ### Every operation keeps the safe states (R315) -/

theorem inv_resetState {s : State} (h : Inv s) : Inv (resetState s) where
  config := h.config
  crc := crcOk_atReset _ _ _
  asm := asmOk_atReset
  chan := List.length_replicate
  counts := countsOk_atReset _
  baud := baudOk_atReset h.config
  pulse := pulseOk_atReset h.config _
  tx := txOk_atReset _
  sync := syncOk_atReset _
  pins := pinsOk_atReset
  burst := fun _ hwaiting => absurd rfl hwaiting
  hold := by simp [resetState]

theorem execPollRx_inv {s : State} (us ms : Word) (h : Inv s) : Leaves Inv (execPollRx us ms s) := by
  obtain ⟨t, o, hpoll, ht, -⟩ := pollRx_total us ms h
  exact leaves_finishWith hpoll (inv_reply _ ht)

theorem arrive_inv {s : State} (bytes : List Byte) (h : Inv s) : Leaves Inv (arrive bytes s) := by
  rcases arrive_cases bytes s with ⟨-, e⟩ | ⟨-, e⟩ <;> rw [e]
  · exact execPollRx_inv _ _ (inv_receiveBytes bytes h)
  · trivial

theorem execAlign_inv {s : State} (start : Nat) (h : Inv s) : Leaves Inv (execAlign start s) := by
  refine leaves_ite (fun _ => trivial) (fun hstart => ?_)
  obtain ⟨bs, hbs⟩ := h.asm.bytes
  obtain ⟨m, halign, hform, hread, -⟩ := alignFrom_spec h.asm.form hbs (Nat.le_of_not_lt hstart)
  rw [halign]
  exact inv_setAsm (asmOk_of hform hread) h

theorem execHandleFrame_inv {s : State} (n : Nat) (us ms : Word) (h : Inv s) : Leaves Inv (execHandleFrame n us ms s) := by
  refine leaves_ite (fun hdomain => ?_) (fun _ => trivial)
  simp only [Bool.and_eq_true, legalLen_iff, decide_eq_true_eq] at hdomain
  obtain ⟨⟨h4, -⟩, hcursor⟩ := hdomain
  obtain ⟨bs, hbs⟩ := h.asm.bytes
  have hlen : bs.length = s.asm.cursor := (memRead_eq_ok.mp hbs).2.1
  rw [memRead_part hbs (by omega : 0 + n ≤ s.asm.cursor), andThen_ok]
  split
  · obtain ⟨t, hrun, ht, -⟩ := handleFrame_total us ms h hbs h4 (by omega)
    rw [hrun]; exact ht
  · trivial

theorem execServiceOutput_inv {s : State} (received : Nat) (ms : Word) (h : Inv s) :
    Leaves Inv (execServiceOutput received ms s) := by
  obtain ⟨t, bs, hrun, ht, -⟩ := serviceOutput_total received ms h
  exact leaves_finishWith hrun (inv_reply _ ht)

/-- Every operation, and every frame, from a safe state: it leaves a safe state or is refused. -/
theorem exec_inv {s : State} (i : Instr) (h : Inv s) : Leaves Inv (exec i s) := by
  by_cases ha : asynchronous i = true
  · exact leaves_imp (exec_asynchronous_aside ha s) fun t he => (exec_asynchronous_others ha he).2 h
  · cases i with
    | reset => exact inv_resetState h
    | setRx v => exact leaves_ite (fun _ => inv_setReceive v h) (fun _ => trivial)
    | setTx v => exact inv_setTransmit v h
    | pollRx us ms => exact execPollRx_inv us ms h
    | align start => exact execAlign_inv start h
    | handleFrame n us ms => exact execHandleFrame_inv n us ms h
    | wdtCheck ms => exact inv_answerWdt _ (wdtCheck_spec ms h).1
    | autobaudEstimate => exact inv_reply _ (inv_estimate h)
    | pwEnable => exact inv_pwEnable h
    | flushQueue => exact inv_qFlush h
    | serviceOutput n ms => exact execServiceOutput_inv n ms h
    | syncEmit ms => exact inv_reply _ (inv_syncEmit ms h)
    | frameLinkStats | frameRcChannels | framePing | frameDeviceInfo | frameCommand | frameTiming => exact arrive_inv _ h
    | lineRx | txDrain | pwTick | crc8Byte | crc8Buf | crcnConfig | crcnCalc | decodeHeader | computeCrc | isValid
    | unpackChannels | packChannels | encodeExt | encodeDevinfo | packVersion | readChannel | getLastRcTs | enqueue
    | sendTelemetry | notifyTx => exact absurd rfl ha

/-! ### Everything one step can be (R12, R13, R21) -/

/-- What one step of an admitted machine is. -/
inductive StepCase (s : State) : Prop where
  /-- A check whose hold is over goes on. -/
  | releases (g : Hold) (hover : holdOver s = some g) (hstep : step s = .next (releaseHold g s))
  /-- Nothing is pending, or the next command waits for the check that holds. -/
  | stays (hover : holdOver s = none) (hstep : step s = .next s)
  /-- The next packet names no instruction. -/
  | undecoded (c : Command) (rest : List Command) (e : DecodeError) (hover : holdOver s = none)
      (hpending : s.env.pending = c :: rest) (hgoes : waitsForHold c.packet s = false)
      (hdecode : decode c.packet = .error e) (hstep : step s = Machine.undecoded c.packet e (issue c rest s))
  /-- The next command's instruction is run. -/
  | runs (c : Command) (rest : List Command) (i : Instr) (hover : holdOver s = none)
      (hpending : s.env.pending = c :: rest) (hgoes : waitsForHold c.packet s = false)
      (hdecode : decode c.packet = .ok i) (hstep : step s = exec i (issue c rest s))

theorem step_cases {s : State} (hcfg : configOk s.cfg = true) : StepCase s := by
  cases hover : holdOver s with
  | some g =>
    obtain ⟨hh, ht⟩ := holdOver_eq_some.mp hover
    exact .releases g hover (step_releases hcfg hh ht)
  | none =>
    cases hp : s.env.pending with
    | nil => exact .stays hover (step_idle hcfg hover hp)
    | cons c rest =>
      cases hw : waitsForHold c.packet s with
      | true => exact .stays hover (step_waits hcfg hover hp hw)
      | false =>
        cases hd : decode c.packet with
        | error e => exact .undecoded c rest e hover hp hw hd (step_undecoded hcfg hover hp hw hd)
        | ok i => exact .runs c rest i hover hp hw hd (step_issue hcfg hover hp hw hd)

/-- What is no instruction is bytes on the line, or is refused. -/
theorem undecoded_inv {s : State} (p : Packet) (e : DecodeError) (h : Inv s) : Leaves Inv (undecoded p e s) := by
  cases p with
  | frame bytes => exact arrive_inv bytes h
  | op bytes => trivial

theorem step_inv {s : State} (h : Inv s) : Leaves Inv (step s) := by
  cases step_cases h.config with
  | releases g hover hstep => rw [hstep]; exact (releaseHold_spec h hover).1
  | stays _ hstep => rw [hstep]; exact h
  | undecoded c rest e _ _ _ _ hstep => rw [hstep]; exact undecoded_inv _ e (inv_issue c rest h)
  | runs c rest i _ _ _ _ hstep => rw [hstep]; exact exec_inv i (inv_issue c rest h)

/-- Settles O8: by what a step can be; an operation keeps the safe states whatever falls at its interleave points. -/
theorem safeStatesAreKept : Obligations.SafeStatesAreKept := fun _ h => leaves_iff.mp (step_inv h)

/-! ### The other agents and the polling loop's elements (R20, R86, R152) -/

theorem pollingKept_of_others {s t : State} (h : Others s t) : pollingKept s t := by
  obtain ⟨frames, hframes⟩ := h.outq
  exact ⟨h.cfg, h.asm, h.chan, h.link, h.baud, h.pins, h.window, h.stage, h.rem, h.off, h.transmitting, h.tSent, h.tab8,
    h.hold, h.rxhw, h.txhw, ⟨_, hframes⟩, h.events⟩

/-- To issue a command touches the trace and the clock, none of the polling loop's elements. -/
theorem pollingKept_of_issue {s t : State} {c : Command} {rest : List Command} (h : pollingKept (issue c rest s) t) :
    pollingKept s t := h

/-- In a hold an instruction that does not wait is another agent's, or `RESET` (R194, assumption log 10). -/
theorem goes_in_hold {s : State} {p : Packet} {i : Instr} (hh : s.hold ≠ none) (hgoes : waitsForHold p s = false)
    (hd : decode p = .ok i) : asynchronous i = true ∨ i = .reset := by
  have hloop : asynchronous i = false → i = .reset := by
    simpa [waitsForHold, Option.isSome_iff_ne_none, hh, stepsInHold_of_decode hd] using hgoes
  cases ha : asynchronous i with
  | true => exact .inl rfl
  | false => exact .inr (hloop ha)

/-- In a hold what is no instruction waits on the line, and is refused on the operation port. -/
theorem undecoded_in_hold {s : State} {p : Packet} {e : DecodeError} (hh : s.hold ≠ none)
    (hgoes : waitsForHold p s = false) (hd : decode p = .error e) (u : State) :
    undecoded p e u = .refused (.undecodable e) := by
  cases p with
  | op bytes => exact undecoded_op bytes e u
  | frame bytes => simp [waitsForHold, hh, stepsInHold, hd] at hgoes

/-- An operation of another agent, issued. -/
theorem exec_asynchronous_keeps {i : Instr} {s t : State} (ha : asynchronous i = true) (he : exec i s = .next t) :
    pollingKept s t ∧ t.clock = s.clock ∧ t.env.pending = s.env.pending ∧ t.env.slots = s.env.slots := by
  have ho := (exec_asynchronous_others ha he).1
  have haside := (leaves_iff.mp (exec_asynchronous_aside ha s)).1 t he
  exact ⟨pollingKept_of_others ho, ho.clock, ho.pending, haside.slots⟩

/-- What one step does while a check holds (R12, R194, R306, U17). -/
theorem step_in_hold {s t : State} (hh : s.hold ≠ none) (htx : s.line.txhw ≠ []) (hs : step s = .next t) :
    (∃ c rest, s.env.pending = c :: rest ∧ decode c.packet = .ok .reset ∧ t.hold = none)
      ∨ (pollingKept s t
        ∧ (t.line.txhw = s.line.txhw ∨ ∃ c rest, s.env.pending = c :: rest ∧ decode c.packet = .ok .txDrain)) := by
  have hcfg : configOk s.cfg = true := by
    by_contra hbad
    simp [step_badConfiguration (Bool.eq_false_iff.mpr hbad)] at hs
  cases step_cases hcfg with
  | releases g hover _ => exact absurd (holdOver_eq_some.mp hover).2 htx
  | stays _ hstep =>
    obtain rfl : s = t := by simpa [hstep] using hs
    exact .inr ⟨pollingKept_of_others (Others.refl s), .inl rfl⟩
  | undecoded c rest e _ _ hgoes hd hstep => simp [hstep, undecoded_in_hold hh hgoes hd] at hs
  | runs c rest i _ hp hgoes hd hstep =>
    rw [hstep] at hs
    rcases goes_in_hold hh hgoes hd with ha | rfl
    · refine .inr ⟨pollingKept_of_issue (exec_asynchronous_keeps ha hs).1, ?_⟩
      rcases ((leaves_iff.mp (exec_asynchronous_aside ha _)).1 t hs).txhw with rfl | hsame
      · exact .inr ⟨c, rest, hp, hd⟩
      · exact .inl hsame
    · cases hs
      exact .inl ⟨c, rest, hp, hd, rfl⟩

/-- Settles O10: the other agents' operations one by one, then by what a step can be in a hold. -/
theorem otherAgentsLeavePollingState : Obligations.OtherAgentsLeavePollingState :=
  ⟨fun _ _ _ ha he => exec_asynchronous_keeps ha he, fun _ _ hh htx hs => step_in_hold hh htx hs⟩

end Sys2Proof.Machine

/-! The encoding's statements (30_encoding R100, R101, R114, R120, R121): the decoder and the encoder are inverse to
each other, on operations and on frames, and a reserved code is refused. -/

namespace Sys2Proof

/-! ### Readers and writers of operands

Each reader of an operand answers exactly where its writer's bytes stand at the front. -/

/-- The reader takes a value off the front exactly when the writer's bytes of that value stand there. -/
def Inverts {α : Type} (r : Reader α) (w : α → List Byte) : Prop :=
  ∀ bs a rest, r bs = .ok (a, rest) ↔ bs = w a ++ rest

theorem inverts_rdByte : Inverts rdByte fun b => [b] := by
  intro bs b rest
  cases bs <;> simp [rdByte]

theorem inverts_rdBit : Inverts rdBit wrBit := by
  intro bs v rest
  cases bs with
  | nil => cases v <;> simp [rdBit, wrBit]
  | cons b bs =>
    simp only [rdBit, wrBit, BitVec.ofNat_eq_ofNat]
    split
    next h0 => cases v <;> simp [h0]
    next h0 =>
      split
      next h1 => cases v <;> simp [h1]
      next h1 => cases v <;> simp [h0, h1]

theorem wrHalf_append (a b : Byte) : wrHalf (a ++ b) = [a, b] := by
  have ha : (a ++ b).extractLsb' 8 8 = a := BitVec.extractLsb'_append_eq_left
  have hb : (a ++ b).extractLsb' 0 8 = b := BitVec.extractLsb'_append_eq_right
  exact congrArg₂ (fun x y => [x, y]) ha hb

theorem wrWord_append (a b c d : Byte) : wrWord (a ++ b ++ c ++ d) = [a, b, c, d] := by
  have high (k : Nat) : (a ++ b ++ c ++ d).extractLsb' (k + 8) 8 = (a ++ b ++ c).extractLsb' k 8 :=
    BitVec.extractLsb'_append_eq_of_le (Nat.le_add_left 8 k)
  have ha : (a ++ b ++ c ++ d).extractLsb' 24 8 = a :=
    ((high 16).trans (BitVec.extractLsb'_append_eq_of_le (by decide))).trans BitVec.extractLsb'_append_eq_left
  have hb : (a ++ b ++ c ++ d).extractLsb' 16 8 = b :=
    ((high 8).trans (BitVec.extractLsb'_append_eq_of_le (by decide))).trans BitVec.extractLsb'_append_eq_right
  have hc : (a ++ b ++ c ++ d).extractLsb' 8 8 = c := (high 0).trans BitVec.extractLsb'_append_eq_right
  have hd : (a ++ b ++ c ++ d).extractLsb' 0 8 = d := BitVec.extractLsb'_append_eq_right
  exact congr (congrArg₂ (fun x y z => x :: y :: z) ha hb) (congrArg₂ (fun x y => [x, y]) hc hd)

theorem rdHalf_wrHalf (v : Half) (rest : List Byte) : rdHalf (wrHalf v ++ rest) = .ok (v, rest) := by
  have hv : v.extractLsb' 8 8 ++ v.extractLsb' 0 8 = v := BitVec.extractLsb'_append_extractLsb'
  simp [rdHalf, wrHalf, hv]

theorem rdWord_wrWord (v : Word) (rest : List Byte) : rdWord (wrWord v ++ rest) = .ok (v, rest) := by
  have hhigh : v.extractLsb' 24 8 ++ v.extractLsb' 16 8 = v.extractLsb' 16 (8 + 8) :=
    BitVec.extractLsb'_append_extractLsb'_eq_extractLsb' rfl
  have hthree : v.extractLsb' 16 (8 + 8) ++ v.extractLsb' 8 8 = v.extractLsb' 8 (8 + 8 + 8) :=
    BitVec.extractLsb'_append_extractLsb'_eq_extractLsb' rfl
  have hv : v.extractLsb' 24 8 ++ v.extractLsb' 16 8 ++ v.extractLsb' 8 8 ++ v.extractLsb' 0 8 = v := by
    rw [hhigh, hthree]
    exact BitVec.extractLsb'_append_extractLsb'
  simp [rdWord, wrWord, hv]

theorem inverts_rdHalf : Inverts rdHalf wrHalf := by
  intro bs v rest
  refine ⟨fun h => ?_, fun h => h ▸ rdHalf_wrHalf v rest⟩
  match bs with
  | [] | [_] => simp [rdHalf] at h
  | a :: b :: bs =>
    obtain ⟨rfl, rfl⟩ : a ++ b = v ∧ bs = rest := by simpa [rdHalf] using h
    simp [wrHalf_append]

theorem inverts_rdWord : Inverts rdWord wrWord := by
  intro bs v rest
  refine ⟨fun h => ?_, fun h => h ▸ rdWord_wrWord v rest⟩
  match bs with
  | [] | [_] | [_, _] | [_, _, _] => simp [rdWord] at h
  | a :: b :: c :: d :: bs =>
    obtain ⟨rfl, rfl⟩ : a ++ b ++ c ++ d = v ∧ bs = rest := by simpa [rdWord] using h
    simp [wrWord_append]

/-! ### Naturals, base 128 -/

/-- Fuel beyond the value makes no difference. -/
theorem wrNatAux_fuel {f g n : Nat} (hf : n ≤ f) (hg : n ≤ g) : wrNatAux f n = wrNatAux g n := by
  induction f generalizing g n with
  | zero =>
    obtain rfl : n = 0 := by omega
    cases g <;> rfl
  | succ f ih =>
    cases g with
    | zero =>
      obtain rfl : n = 0 := by omega
      rfl
    | succ g =>
      simp only [wrNatAux]
      split
      · rfl
      · rw [ih (g := g) (by omega) (by omega)]

theorem wrNat_small {n : Nat} (h : n < 128) : wrNat n = [BitVec.ofNat 8 n] := by
  cases n <;> simp [wrNat, wrNatAux, h]

theorem wrNat_large {n : Nat} (h : 128 ≤ n) :
    wrNat n = BitVec.ofNat 8 (n % 128 + 128) :: wrNat (n / 128) := by
  obtain ⟨m, rfl⟩ : ∃ m, n = m + 1 := ⟨n - 1, by omega⟩
  rw [wrNat, wrNatAux, if_neg (by omega), wrNat, wrNatAux_fuel (by omega) (Nat.le_refl _)]

/-- A last digit: bit 7 is clear. -/
theorem rdNat_last {b : Byte} (h : b.toNat < 128) (bs : List Byte) : rdNat (b :: bs) = .ok (b.toNat, bs) := by
  simp [rdNat, h]

/-- A digit with more to come: the rest is a natural that is not 0. -/
theorem rdNat_more {b : Byte} (h : 128 ≤ b.toNat) {bs : List Byte} {n : Nat} {rest : List Byte} :
    rdNat (b :: bs) = .ok (n, rest)
      ↔ ∃ v, rdNat bs = .ok (v, rest) ∧ v ≠ 0 ∧ n = b.toNat - 128 + 128 * v := by
  rw [rdNat, if_neg (by omega)]
  cases hr : rdNat bs with
  | error e => simp
  | ok r =>
    obtain ⟨v, mid⟩ := r
    by_cases hv : v = 0
    · simp [hv]
    · simp only [if_neg hv, Except.ok.injEq, Prod.mk.injEq]
      grind

theorem wrNat_of_rdNat {bs : List Byte} {n : Nat} {rest : List Byte} (h : rdNat bs = .ok (n, rest)) :
    bs = wrNat n ++ rest := by
  induction bs generalizing n with
  | nil => simp [rdNat] at h
  | cons b bs ih =>
    rcases Nat.lt_or_ge b.toNat 128 with hb | hb
    · obtain ⟨rfl, rfl⟩ : b.toNat = n ∧ bs = rest := by simpa [rdNat_last hb] using h
      simp [wrNat_small hb]
    · obtain ⟨v, hv, hpos, rfl⟩ := (rdNat_more hb).mp h
      have hlt := b.isLt
      have hdigit : (b.toNat - 128 + 128 * v) % 128 + 128 = b.toNat := by omega
      have hquot : (b.toNat - 128 + 128 * v) / 128 = v := by omega
      rw [wrNat_large (by omega), hdigit, hquot, ih hv]
      simp

theorem rdNat_wrNat (n : Nat) (rest : List Byte) : rdNat (wrNat n ++ rest) = .ok (n, rest) := by
  induction n using Nat.strongRecOn with
  | ind n ih =>
    rcases Nat.lt_or_ge n 128 with hn | hn
    · have hb : (BitVec.ofNat 8 n).toNat = n := by simp; omega
      rw [wrNat_small hn, List.singleton_append, rdNat_last (by omega), hb]
    · have hb : (BitVec.ofNat 8 (n % 128 + 128)).toNat = n % 128 + 128 := by simp; omega
      rw [wrNat_large hn, List.cons_append, rdNat_more (by omega)]
      exact ⟨n / 128, ih _ (by omega), by omega, by omega⟩

theorem inverts_rdNat : Inverts rdNat wrNat := fun _ n rest =>
  ⟨wrNat_of_rdNat, fun h => h ▸ rdNat_wrNat n rest⟩

/-! ### One operand after another -/

theorem rdThen_eq_ok {α β : Type} {r : Reader α} {k : α → Reader β} {bs : List Byte} {b : β} {rest : List Byte} :
    rdThen r k bs = .ok (b, rest) ↔ ∃ a mid, r bs = .ok (a, mid) ∧ k a mid = .ok (b, rest) := by
  unfold rdThen
  cases hr : r bs with
  | error e => simp
  | ok x => obtain ⟨a, mid⟩ := x; simp

/-- An operand whose bytes stand at the front is read, and the rest is left to the next. -/
theorem rdThen_written {α β : Type} {r : Reader α} {w : α → List Byte} (h : Inverts r w) (k : α → Reader β) (a : α)
    (rest : List Byte) : rdThen r k (w a ++ rest) = k a rest := by
  rw [rdThen, (h _ a rest).mpr rfl]

theorem rdTake_eq_ok {n : Nat} {bs x rest : List Byte} :
    rdTake n bs = .ok (x, rest) ↔ x.length = n ∧ bs = x ++ rest := by
  unfold rdTake
  constructor
  · intro h
    split at h
    next hn =>
      obtain ⟨rfl, rfl⟩ : bs.take n = x ∧ bs.drop n = rest := by simpa using h
      simp [hn]
    next => simp at h
  · rintro ⟨rfl, rfl⟩
    simp

theorem inverts_rdBytes : Inverts rdBytes wrBytes := by
  intro bs x rest
  have hshape : rdBytes bs = rdThen rdNat rdTake bs := by
    simp only [rdBytes, rdThen]
    cases rdNat bs <;> rfl
  simp only [hshape, rdThen_eq_ok, inverts_rdNat _ _ _, rdTake_eq_ok, wrBytes]
  constructor
  · rintro ⟨n, mid, rfl, rfl, rfl⟩; simp
  · rintro rfl; exact ⟨x.length, x ++ rest, by simp, rfl, rfl⟩

theorem rdNatN_eq_ok {n : Nat} {bs : List Byte} {vs : List Nat} {rest : List Byte} :
    rdNatN n bs = .ok (vs, rest) ↔ vs.length = n ∧ bs = vs.flatMap wrNat ++ rest := by
  induction n generalizing bs vs rest with
  | zero => cases vs <;> simp [rdNatN]
  | succ n ih =>
    have hshape : rdNatN (n + 1) bs = rdThen rdNat (fun v => rdThen (rdNatN n) fun vs bs => .ok (v :: vs, bs)) bs := by
      simp only [rdNatN, rdThen]
      cases rdNat bs with
      | error e => rfl
      | ok x => simp only; cases rdNatN n x.2 <;> rfl
    simp only [hshape, rdThen_eq_ok, inverts_rdNat _ _ _, ih]
    constructor
    · rintro ⟨v, _, rfl, ws, _, ⟨rfl, rfl⟩, h⟩
      obtain ⟨rfl, rfl⟩ : v :: ws = vs ∧ _ = rest := by simpa using h
      simp
    · rintro ⟨hlen, rfl⟩
      obtain ⟨v, ws, rfl⟩ := List.exists_cons_of_length_eq_add_one hlen
      exact ⟨v, ws.flatMap wrNat ++ rest, by simp, ws, rest, ⟨by simpa using hlen, rfl⟩, rfl⟩

theorem inverts_rdNats : Inverts rdNats wrNats := by
  intro bs vs rest
  have hshape : rdNats bs = rdThen rdNat rdNatN bs := by
    simp only [rdNats, rdThen]
    cases rdNat bs <;> rfl
  simp only [hshape, rdThen_eq_ok, inverts_rdNat _ _ _, rdNatN_eq_ok, wrNats]
  constructor
  · rintro ⟨n, mid, rfl, rfl, rfl⟩; simp
  · rintro rfl; exact ⟨vs.length, vs.flatMap wrNat ++ rest, by simp, rfl, rfl⟩

/-! ### Operations (R120) -/

/-- Whatever the reader answers, the bytes it used, behind `pre`, are the packet of its answer. -/
def ReadsPacketOf (pre : List Byte) (r : Reader Instr) : Prop :=
  ∀ bs i rest, r bs = .ok (i, rest) → ∃ used, encode i = .op (pre ++ used) ∧ bs = used ++ rest

/-- With no operand left, the packet is complete. -/
theorem packet_done {pre : List Byte} {i : Instr} (h : encode i = .op pre) : ReadsPacketOf pre (rdDone i) := by
  intro bs j rest hr
  obtain ⟨rfl, rfl⟩ : i = j ∧ bs = rest := by simpa [rdDone] using hr
  exact ⟨[], by simpa using h, rfl⟩

/-- One operand more: its bytes join those before it. -/
theorem packet_then {α : Type} {pre : List Byte} {r : Reader α} {w : α → List Byte} {k : α → Reader Instr}
    (h : Inverts r w) (hk : ∀ a, ReadsPacketOf (pre ++ w a) (k a)) : ReadsPacketOf pre (rdThen r k) := by
  intro bs i rest hr
  obtain ⟨a, mid, ha, hmid⟩ := rdThen_eq_ok.mp hr
  obtain ⟨used, henc, rfl⟩ := hk a mid i rest hmid
  exact ⟨w a ++ used, by simpa using henc, by simpa using (h bs a _).mp ha⟩

theorem eq_code {op : Byte} {n : Nat} (h : op.toNat = n) : op = BitVec.ofNat 8 n := by simp [← h]

/-- Every row of R120's table, in its order: the operands read are those written. -/
theorem packet_rdOperands (op : Byte) : ReadsPacketOf [op] (rdOperands op) := by
  unfold rdOperands
  split
  case h_33 => intro _ _ _ h; cases h
  all_goals rename_i hcode; rw [eq_code hcode]
  · exact packet_done rfl
  · exact packet_then inverts_rdByte fun _ => packet_done rfl
  · exact packet_done rfl
  · exact packet_then inverts_rdBit fun _ => packet_done rfl
  · exact packet_then inverts_rdByte fun _ => packet_done rfl
  · exact packet_then inverts_rdBytes fun _ => packet_then inverts_rdByte fun _ => packet_done rfl
  · exact packet_then inverts_rdNat fun _ => packet_then inverts_rdHalf fun _ => packet_done rfl
  · exact packet_then inverts_rdBytes fun _ => packet_then inverts_rdHalf fun _ => packet_done rfl
  · exact packet_then inverts_rdBytes fun _ => packet_done rfl
  · exact packet_then inverts_rdBytes fun _ => packet_then inverts_rdNat fun _ => packet_done rfl
  · exact packet_then inverts_rdBytes fun _ => packet_then inverts_rdNat fun _ => packet_done rfl
  · exact packet_then inverts_rdBytes fun _ => packet_done rfl
  · exact packet_then inverts_rdNats fun _ => packet_done rfl
  · exact packet_then inverts_rdByte fun _ => packet_then inverts_rdByte fun _ =>
      packet_then inverts_rdByte fun _ => packet_then inverts_rdBytes fun _ => packet_done rfl
  · exact packet_done rfl
  · exact packet_then inverts_rdNat fun _ => packet_then inverts_rdNat fun _ =>
      packet_then inverts_rdNat fun _ => packet_done rfl
  · exact packet_then inverts_rdBit fun _ => packet_done rfl
  · exact packet_then inverts_rdBit fun _ => packet_done rfl
  · exact packet_then inverts_rdWord fun _ => packet_then inverts_rdWord fun _ => packet_done rfl
  · exact packet_then inverts_rdNat fun _ => packet_done rfl
  · exact packet_then inverts_rdNat fun _ => packet_then inverts_rdWord fun _ =>
      packet_then inverts_rdWord fun _ => packet_done rfl
  · exact packet_then inverts_rdNat fun _ => packet_done rfl
  · exact packet_done rfl
  · exact packet_then inverts_rdWord fun _ => packet_done rfl
  · exact packet_done rfl
  · exact packet_done rfl
  · exact packet_then inverts_rdBytes fun _ => packet_done rfl
  · exact packet_done rfl
  · exact packet_then inverts_rdBytes fun _ => packet_done rfl
  · exact packet_then inverts_rdNat fun _ => packet_then inverts_rdWord fun _ => packet_done rfl
  · exact packet_then inverts_rdWord fun _ => packet_done rfl
  · exact packet_then inverts_rdWord fun _ => packet_done rfl

/-- What an operation's reader answers is encoded in the bytes it used. -/
theorem encode_of_rdOp {bs : List Byte} {i : Instr} {rest : List Byte} (h : rdOp bs = .ok (i, rest)) :
    ∃ used, encode i = .op used ∧ bs = used ++ rest :=
  packet_then (pre := []) inverts_rdByte packet_rdOperands bs i rest h

section Written
variable {β : Type} (rest : List Byte)

/-! An operand whose bytes stand at the front is read, and the rest is left to the next. -/

@[simp] theorem rdDone_eq (i : Instr) : rdDone i rest = .ok (i, rest) := rfl
@[simp] theorem rdThen_byte (b : Byte) (k : Byte → Reader β) : rdThen rdByte k (b :: rest) = k b rest := rfl
@[simp] theorem rdThen_bit (v : Bool) (k : Bool → Reader β) : rdThen rdBit k (wrBit v ++ rest) = k v rest :=
  rdThen_written inverts_rdBit k v rest
@[simp] theorem rdThen_half (v : Half) (k : Half → Reader β) : rdThen rdHalf k (wrHalf v ++ rest) = k v rest :=
  rdThen_written inverts_rdHalf k v rest
@[simp] theorem rdThen_word (v : Word) (k : Word → Reader β) : rdThen rdWord k (wrWord v ++ rest) = k v rest :=
  rdThen_written inverts_rdWord k v rest
@[simp] theorem rdThen_nat (n : Nat) (k : Nat → Reader β) : rdThen rdNat k (wrNat n ++ rest) = k n rest :=
  rdThen_written inverts_rdNat k n rest
@[simp] theorem rdThen_bytes (x : List Byte) (k : List Byte → Reader β) :
    rdThen rdBytes k (wrBytes x ++ rest) = k x rest := rdThen_written inverts_rdBytes k x rest
@[simp] theorem rdThen_nats (v : List Nat) (k : List Nat → Reader β) : rdThen rdNats k (wrNats v ++ rest) = k v rest :=
  rdThen_written inverts_rdNats k v rest

end Written

/-- An operation's packet is read back, whatever follows it. -/
theorem rdOp_encode {i : Instr} {bytes : List Byte} (h : encode i = .op bytes) (rest : List Byte) :
    rdOp (bytes ++ rest) = .ok (i, rest) := by
  cases i with
  | frameLinkStats | frameRcChannels | framePing | frameDeviceInfo | frameCommand | frameTiming => cases h
  | reset | txDrain | encodeDevinfo | getLastRcTs | autobaudEstimate | pwEnable | flushQueue | lineRx | crc8Byte =>
    cases h; rfl
  | pwTick | setRx | setTx | align | readChannel | packVersion | packChannels | decodeHeader | unpackChannels | enqueue
  | sendTelemetry | crc8Buf | encodeExt | computeCrc | isValid | crcnConfig | crcnCalc | pollRx | wdtCheck | notifyTx
  | syncEmit | handleFrame | serviceOutput => cases h; simp [rdOp, rdOperands]

/-! ### Frames (R100, R101, R114) -/

/-- The types that have a row (R105). -/
def frameTypes : List Byte := [0x14, 0x16, 0x28, 0x29, 0x32, 0x3A]

/-- A plain frame's fields, put together again. -/
theorem plainTail_split (tail : List Byte) : plainTail tail.dropLast tail.getLast? = tail := by
  rcases List.eq_nil_or_concat tail with rfl | ⟨init, b, rfl⟩ <;> simp [plainTail]

/-- Two addresses as far as they are there, and what follows, put together again. -/
theorem addresses_split (l : List Byte) : l[0]?.toList ++ l[1]?.toList ++ l.drop 2 = l := by
  match l with
  | [] | [_] | _ :: _ :: _ => simp

/-- An extended frame's fields, put together again. -/
theorem extTail_split (tail : List Byte) :
    extTail tail.dropLast[0]? tail.dropLast[1]? (tail.dropLast.drop 2) tail.getLast? = tail := by
  rw [extTail, addresses_split]
  exact plainTail_split tail

/-- The CRC is the first of a plain frame's fields to be there. -/
theorem plainFits_split {size : Byte} {tail : List Byte} (h : tail.length = size.toNat - 1) :
    plainFits size tail.dropLast tail.getLast? = true := by
  rcases List.eq_nil_or_concat tail with rfl | ⟨init, b, rfl⟩ <;> simp_all [plainFits, plainTail]

theorem extFits_split {size : Byte} {tail : List Byte} (h : tail.length = size.toNat - 1) :
    extFits size tail.dropLast[0]? tail.dropLast[1]? (tail.dropLast.drop 2) tail.getLast? = true := by
  rw [extFits, extTail_split, h]
  rcases List.eq_nil_or_concat tail with rfl | ⟨init, b, rfl⟩
  · simp
  · match init with
    | [] | [_] | _ :: _ :: _ => simp

/-- A frame whose plain fields fit is taken apart into those fields. -/
theorem ofPlain_plainTail {size : Byte} {payload : List Byte} {crc : Option Byte}
    (h : plainFits size payload crc = true) (mk : List Byte → Option Byte → Instr) :
    (plainTail payload crc).length = size.toNat - 1 ∧ ofPlain mk (plainTail payload crc) = mk payload crc := by
  simp only [plainFits, Bool.and_eq_true, beq_iff_eq, Bool.or_eq_true] at h
  refine ⟨h.1, ?_⟩
  cases crc with
  | none =>
    obtain rfl : payload = [] := by simpa using h.2
    rfl
  | some c => simp [ofPlain, plainTail]

theorem ofExt_extTail {size : Byte} {dest orig crc : Option Byte} {payload : List Byte}
    (h : extFits size dest orig payload crc = true) (mk : Option Byte → Option Byte → List Byte → Option Byte → Instr) :
    (extTail dest orig payload crc).length = size.toNat - 1
      ∧ ofExt mk (extTail dest orig payload crc) = mk dest orig payload crc := by
  simp only [extFits, Bool.and_eq_true, beq_iff_eq, Bool.or_eq_true] at h
  obtain ⟨⟨⟨hlen, hcrc⟩, hdest⟩, horig⟩ := h
  refine ⟨hlen, ?_⟩
  match dest, orig, crc with
  | none, none, none | none, none, some c | some d, none, some c =>
    obtain rfl : payload = [] := by simpa using horig
    rfl
  | some d, some o, some c =>
    have htail : extTail (some d) (some o) payload (some c) = (d :: o :: payload) ++ [c] := rfl
    rw [ofExt, htail, List.dropLast_concat, List.getLast?_concat]
    rfl
  | none, some o, _ => simp at hdest
  | some d, _, none => simp at hcrc

/-- A row of R105: what its instruction is made of from the bytes behind the type. -/
structure FrameRow (address size type : Byte) (mk : List Byte → Instr) : Prop where
  reads : rdFrameBody address size type = rdRest mk size
  encode : ∀ tail, encode (mk tail) = .frame (frameBytes type address size tail)
  encodable : ∀ tail : List Byte, tail.length = size.toNat - 1 → (mk tail).encodable = true

theorem plain_encode {type address size : Byte} {mk : List Byte → Option Byte → Instr}
    (h : ∀ p c, encode (mk p c) = .frame (frameBytes type address size (plainTail p c))) (tail : List Byte) :
    encode (ofPlain mk tail) = .frame (frameBytes type address size tail) := by
  rw [ofPlain, h, plainTail_split]

theorem ext_encode {type address size : Byte} {mk : Option Byte → Option Byte → List Byte → Option Byte → Instr}
    (h : ∀ d o p c, encode (mk d o p c) = .frame (frameBytes type address size (extTail d o p c))) (tail : List Byte) :
    encode (ofExt mk tail) = .frame (frameBytes type address size tail) := by
  rw [ofExt, h, extTail_split]

/-- Every frame type that has a row (R105). -/
theorem frameRow_of_mem {type : Byte} (h : type ∈ frameTypes) (address size : Byte) :
    ∃ mk, FrameRow address size type mk := by
  simp only [frameTypes, List.mem_cons, List.not_mem_nil, or_false] at h
  rcases h with rfl | rfl | rfl | rfl | rfl | rfl
  · exact ⟨_, rfl, plain_encode fun _ _ => rfl, fun _ => plainFits_split⟩
  · exact ⟨_, rfl, plain_encode fun _ _ => rfl, fun _ => plainFits_split⟩
  · exact ⟨_, rfl, ext_encode fun _ _ _ _ => rfl, fun _ => extFits_split⟩
  · exact ⟨_, rfl, ext_encode fun _ _ _ _ => rfl, fun _ => extFits_split⟩
  · exact ⟨_, rfl, ext_encode fun _ _ _ _ => rfl, fun _ => extFits_split⟩
  · exact ⟨_, rfl, ext_encode fun _ _ _ _ => rfl, fun _ => extFits_split⟩

/-- A type without a row gives no instruction. -/
theorem rdFrameBody_unknown {type : Byte} (h : type ∉ frameTypes) (address size : Byte) :
    rdFrameBody address size type = fun _ => .error (.unknownFrameType type) := by
  unfold rdFrameBody
  split
  case h_7 => rfl
  all_goals rename_i hcode; exact absurd (by rw [eq_code hcode]; decide) h

theorem rdRest_eq_ok {mk : List Byte → Instr} {size : Byte} {bs : List Byte} {i : Instr} {rest : List Byte} :
    rdRest mk size bs = .ok (i, rest) ↔ ∃ tail, tail.length = size.toNat - 1 ∧ i = mk tail ∧ bs = tail ++ rest := by
  simp only [rdRest, rdThen_eq_ok, rdTake_eq_ok, rdDone_eq, Except.ok.injEq, Prod.mk.injEq]
  constructor
  · rintro ⟨tail, mid, ⟨hlen, rfl⟩, rfl, rfl⟩; exact ⟨tail, hlen, rfl, rfl⟩
  · rintro ⟨tail, hlen, rfl, rfl⟩; exact ⟨tail, rest, ⟨hlen, rfl⟩, rfl, rfl⟩

/-- What a frame's reader answers is encoded in the bytes it used, and its fields fill the length its size gives. -/
theorem encode_of_rdFrame {bs : List Byte} {i : Instr} {rest : List Byte} (h : rdFrame bs = .ok (i, rest)) :
    ∃ used, encode i = .frame used ∧ i.encodable = true ∧ bs = used ++ rest := by
  match bs with
  | [] | [_] | [_, _] => cases h
  | address :: size :: type :: body =>
    have hbody : rdFrameBody address size type body = .ok (i, rest) := h
    by_cases htype : type ∈ frameTypes
    · obtain ⟨mk, hrow⟩ := frameRow_of_mem htype address size
      obtain ⟨tail, hlen, rfl, rfl⟩ := rdRest_eq_ok.mp (hrow.reads ▸ hbody)
      exact ⟨_, hrow.encode tail, hrow.encodable tail hlen, rfl⟩
    · rw [rdFrameBody_unknown htype] at hbody; cases hbody

/-- The frame of a row's instruction is read back, whatever follows it. -/
theorem rdFrame_row {address size type : Byte} {mk : List Byte → Instr} {i : Instr} {tail : List Byte}
    (hreads : rdFrameBody address size type = rdRest mk size) (htail : tail.length = size.toNat - 1 ∧ mk tail = i)
    (rest : List Byte) : rdFrame (frameBytes type address size tail ++ rest) = .ok (i, rest) := by
  have hbody : rdFrame (frameBytes type address size tail ++ rest) = rdFrameBody address size type (tail ++ rest) := rfl
  rw [hbody, hreads]
  exact rdRest_eq_ok.mpr ⟨tail, htail.1, htail.2.symm, rfl⟩

/-- A frame whose fields fit is read back, whatever follows it. -/
theorem rdFrame_encode {i : Instr} {bytes : List Byte} (h : encode i = .frame bytes) (hi : i.encodable = true)
    (rest : List Byte) : rdFrame (bytes ++ rest) = .ok (i, rest) := by
  cases i with
  | frameLinkStats | frameRcChannels => cases h; exact rdFrame_row rfl (ofPlain_plainTail hi _) rest
  | framePing | frameDeviceInfo | frameCommand | frameTiming => cases h; exact rdFrame_row rfl (ofExt_extTail hi _) rest
  | _ => cases h

/-! ### The round trip (R120, R121) -/

/-- The decoder's answer is its reader's when no byte is left. -/
theorem readAll_eq_ok {r : Reader Instr} {bs : List Byte} {i : Instr} : readAll r bs = .ok i ↔ r bs = .ok (i, []) := by
  unfold readAll
  cases hr : r bs with
  | error e => simp
  | ok x => obtain ⟨j, rest⟩ := x; cases rest <;> simp

theorem decode_encode {i : Instr} (hi : i.encodable = true) : decode (encode i) = .ok i := by
  cases henc : encode i with
  | op bytes => exact readAll_eq_ok.mpr (by simpa using rdOp_encode henc [])
  | frame bytes => exact readAll_eq_ok.mpr (by simpa using rdFrame_encode henc hi [])

theorem encode_of_decode {p : Packet} {i : Instr} (h : decode p = .ok i) : encode i = p := by
  cases p with
  | op bytes => obtain ⟨used, henc, rfl⟩ := encode_of_rdOp (readAll_eq_ok.mp h); simpa using henc
  | frame bytes => obtain ⟨used, henc, -, rfl⟩ := encode_of_rdFrame (readAll_eq_ok.mp h); simpa using henc

/-- An operation's fields always fit. -/
theorem encodable_of_op {i : Instr} {bytes : List Byte} (h : encode i = .op bytes) : i.encodable = true := by
  cases i with
  | frameLinkStats | frameRcChannels | framePing | frameDeviceInfo | frameCommand | frameTiming => cases h
  | _ => rfl

theorem encodable_of_decode {p : Packet} {i : Instr} (h : decode p = .ok i) : i.encodable = true := by
  cases p with
  | op bytes => exact encodable_of_op (encode_of_decode h)
  | frame bytes => obtain ⟨used, -, hi, -⟩ := encode_of_rdFrame (readAll_eq_ok.mp h); exact hi

/-- A legal plain frame's fields fill its length (R102, R114). -/
theorem plainFits_of_shape {size : Byte} {payload : List Byte} {crc : Option Byte}
    (h : plainShape size payload crc = true) : plainFits size payload crc = true := by
  simp only [plainShape, Bool.and_eq_true, Option.isSome_iff_exists, beq_iff_eq] at h
  obtain ⟨⟨⟨c, rfl⟩, hsize⟩, -⟩ := h
  simp [plainFits, plainTail, hsize]

theorem extFits_of_shape {size : Byte} {dest orig crc : Option Byte} {payload : List Byte}
    (h : extShape size dest orig payload crc = true) : extFits size dest orig payload crc = true := by
  simp only [extShape, Bool.and_eq_true, Option.isSome_iff_exists, beq_iff_eq] at h
  obtain ⟨⟨⟨⟨⟨d, rfl⟩, o, rfl⟩, c, rfl⟩, hsize⟩, -⟩ := h
  simp [extFits, extTail, hsize]

theorem encodable_of_wellFormed {i : Instr} (h : i.wellFormed = true) : i.encodable = true := by
  cases i with
  | frameRcChannels => exact plainFits_of_shape h
  | frameLinkStats =>
    simp only [Instr.wellFormed, Bool.and_eq_true] at h
    exact plainFits_of_shape h.1
  | framePing => exact extFits_of_shape h
  | frameDeviceInfo | frameCommand =>
    simp only [Instr.wellFormed, Bool.and_eq_true] at h
    exact extFits_of_shape h.1
  | frameTiming =>
    simp only [Instr.wellFormed, Bool.and_eq_true] at h
    exact extFits_of_shape h.1.1
  | _ => rfl

/-- A frame of a type with a row decodes exactly when it is as long as its size byte says (R114). -/
theorem decode_frame_iff_length {address size type : Byte} {rest : List Byte} (htype : type ∈ frameTypes) :
    (∃ i, decode (.frame (address :: size :: type :: rest)) = .ok i) ↔ rest.length + 3 = max (size.toNat + 2) 3 := by
  obtain ⟨mk, hrow⟩ := frameRow_of_mem htype address size
  have hdecode (i : Instr) : decode (.frame (address :: size :: type :: rest)) = .ok i
      ↔ rdFrameBody address size type rest = .ok (i, []) := readAll_eq_ok
  simp only [hdecode, hrow.reads, rdRest_eq_ok, List.append_nil]
  constructor
  · rintro ⟨_, tail, hlen, -, rfl⟩; omega
  · intro hlen; exact ⟨mk rest, rest, by omega, rfl, rfl⟩

/-- Settles O3: each operand is read as its writer wrote it; a frame's fields fill the length its size gives. -/
theorem decodeInvertsEncode : Obligations.DecodeInvertsEncode :=
  ⟨fun _ h => decode_encode (encodable_of_wellFormed h), fun _ h => decode_encode h⟩

/-- Settles O4: the bytes a reader used are the packet of its answer, and a row's frame needs `size - 1` of them behind
its type. -/
theorem encodeInvertsDecode : Obligations.EncodeInvertsDecode :=
  ⟨fun _ _ h => ⟨encode_of_decode h, encodable_of_decode h⟩, fun _ _ _ _ htype => decode_frame_iff_length htype⟩

/-- Settles O5: each word is the encoding of its instruction. -/
theorem writtenWordsDecode : Obligations.WrittenWordsDecode :=
  ⟨decode_encode (i := .reset) rfl, decode_encode (i := .lineRx 0x11) rfl,
    decode_encode (i := .crc8Buf [0x01, 0x02] 0x00) rfl, decode_encode (i := .pollRx 1000 1) rfl,
    decode_encode (i := .readChannel 15) rfl, decode_encode (i := .pwEnable) rfl,
    decode_encode (i := .notifyTx 500) rfl,
    decode_encode (i := .framePing 0xC8 0x04 (some 0xEE) (some 0xEA) [] (some 0x97)) rfl,
    decode_encode (i := .framePing 0xC8 0x03 (some 0xEE) none [] (some 0x93)) rfl,
    decode_encode (i := .frameRcChannels 0xC8 0x05 [0x01, 0x02, 0x03] (some 0xDA)) rfl⟩

/-! ### Reserved codes, and no optional operands (R121) -/

/-- The operation codes of R120's table. -/
def opCodes : List Byte :=
  [0x00, 0x01, 0x02, 0x03, 0x10, 0x11, 0x12, 0x13, 0x20, 0x21, 0x22, 0x23, 0x24, 0x25, 0x26, 0x27, 0x30, 0x31,
    0x40, 0x41, 0x42, 0x43, 0x44, 0x50, 0x51, 0x52, 0x60, 0x61, 0x62, 0x63, 0x70, 0x71]

/-- No row of the reader's table is left for a reserved code. -/
theorem rdOperands_reserved {op : Byte} (h : op ∉ opCodes) : rdOperands op = fun _ => .error (.reservedOp op) := by
  unfold rdOperands
  split
  case h_33 => rfl
  all_goals rename_i hcode; exact absurd (by rw [eq_code hcode]; decide) h

theorem decode_reserved {op : Byte} (h : op ∉ opCodes) (rest : List Byte) :
    decode (.op (op :: rest)) = .error (.reservedOp op) := by
  have hread : rdOp (op :: rest) = .error (.reservedOp op) := congrFun (rdOperands_reserved h) rest
  simp only [decode, readAll, hread]

/-- Of two operation packets that both decode, neither is a proper beginning of the other. -/
theorem decode_op_complete {bs more : List Byte} {i j : Instr} (hi : decode (.op bs) = .ok i)
    (hj : decode (.op (bs ++ more)) = .ok j) : more = [] := by
  have hshort : rdOp (bs ++ more) = .ok (i, more) := rdOp_encode (encode_of_decode hi) more
  have hlong : rdOp (bs ++ more) = .ok (j, []) := readAll_eq_ok.mp hj
  rw [hshort] at hlong
  simpa using And.right (by simpa using hlong)

/-- Settles O6: the reader's last arm, and a packet is read back whatever follows it. -/
theorem reservedCodesAreRefused : Obligations.ReservedCodesAreRefused :=
  ⟨fun _ rest hop => ⟨decode_reserved hop rest, fun s c cs hcfg hhold hp hpacket =>
      Machine.stepStopsOnlyByName.2.1 s c cs _ _ hcfg hhold hp hpacket (decode_reserved hop rest)⟩,
    fun _ _ _ _ hi hj => decode_op_complete hi hj⟩

end Sys2Proof

/-! What the table CRC and the channel decoder compute (40_crc R142, R143; 20_memory R77; 41_frame_codec R165). -/

namespace Sys2Proof.Machine

/-! ### The table CRC is the bitwise one (R143) -/

/-- The table read at a byte is that byte's own entry. -/
theorem tabAt_crc8Table (poly i : Byte) : tabAt (crc8Table poly) i = crc8Entry poly i := by
  have hi := i.isLt
  simp [tabAt, crc8Table, List.getD_eq_getElem?_getD, hi]

/-- Through the table of the polynomial the CRC is the one taken a bit at a time. -/
theorem crc8_eq_bitwise {s : State} (h : s.crc.tab8 = crc8Table s.cfg.crc8Poly) (seed : Byte) (buf : List Byte) :
    crc8 s seed buf = crc8Bitwise s.cfg.crc8Poly seed buf := by
  simp only [crc8, crc8Fold, crc8Bitwise, h, tabAt_crc8Table, crc8Entry]

/-- A frame whose last byte is its CRC is valid at its own length (R162). -/
theorem frameValid_of_crcRight {s : State} {frame : List Byte} (h : s.crc.tab8 = crc8Table s.cfg.crc8Poly)
    (hcrc : crcRight s.cfg frame) : frameValid s frame frame.length = true := by
  unfold crcRight at hcrc
  obtain ⟨init, c, rfl⟩ : ∃ init c, frame = init ++ [c] := by
    rcases List.eq_nil_or_concat frame with rfl | h
    · simp at hcrc
    · simpa using h
  simp only [List.getLast?_concat, List.dropLast_concat, Option.some.injEq] at hcrc
  simp [frameValid, frameCrc, crcCovered, crcByteOf, crc8_eq_bitwise h, hcrc]

/-- An encoder's frame in the bitwise form (R168). -/
theorem extFrame_eq_builtFrame {s : State} (h : s.crc.tab8 = crc8Table s.cfg.crc8Poly) (type dest orig : Byte)
    (payload : List Byte) : extFrame s type dest orig payload = builtFrame s.cfg type dest orig payload := by
  simp [extFrame, builtFrame, crc8_eq_bitwise h]

/-! ### The channels of a packed payload (R77, R165) -/

/-- The bits still to come: `n` of them in the register, the others in the bytes not yet read. -/
def bitsAhead (acc n : Nat) (bs : List Byte) : Nat := acc + 2 ^ n * payloadNat bs

/-- A register below `2^n` takes a byte in above its `n` bits. -/
theorem register_or {acc n : Nat} (h : acc < 2 ^ n) (b : Byte) : acc ||| (b.toNat <<< n) = acc + 2 ^ n * b.toNat := by
  rw [Nat.or_comm, Nat.shiftLeft_eq, Nat.mul_comm b.toNat, ← Nat.two_pow_add_eq_or_of_lt h, Nat.add_comm]

/-- Filling the register keeps the bits ahead and their number, and, while bytes last, gathers 11 bits at least. -/
theorem fillRegister_spec {acc n : Nat} {bs : List Byte} (hacc : acc < 2 ^ n) (hbits : chBits ≤ n + 8 * bs.length) :
    ∃ acc' n' bs', fillRegister acc n bs = (acc', n', bs') ∧ acc' < 2 ^ n' ∧ chBits ≤ n'
      ∧ n' + 8 * bs'.length = n + 8 * bs.length ∧ bitsAhead acc' n' bs' = bitsAhead acc n bs := by
  induction bs generalizing acc n with
  | nil => exact ⟨acc, n, [], rfl, hacc, by simpa using hbits, rfl, rfl⟩
  | cons b bs ih =>
    rw [fillRegister]
    split
    next =>
      have hb := b.isLt
      have hpow : 2 ^ (n + 8) = 2 ^ n * 256 := Nat.pow_add 2 n 8
      have hacc' : acc ||| (b.toNat <<< n) < 2 ^ (n + 8) := by rw [register_or hacc, hpow]; nlinarith
      obtain ⟨acc', n', bs', hfill, hlt, hge, hcount, hahead⟩ := ih hacc' (by simp at hbits ⊢; omega)
      refine ⟨acc', n', bs', hfill, hlt, hge, by simp at hcount ⊢; omega, hahead.trans ?_⟩
      rw [bitsAhead, bitsAhead, register_or hacc, hpow, payloadNat]
      ring
    next hn => exact ⟨acc, n, b :: bs, rfl, hacc, by omega, rfl, rfl⟩

/-- The low 11 bits ahead are the register's, once it holds as many. -/
theorem ofNat_bitsAhead {acc n : Nat} (hn : chBits ≤ n) (bs : List Byte) :
    BitVec.ofNat 11 (bitsAhead acc n bs) = BitVec.ofNat 11 acc := by
  obtain ⟨k, rfl⟩ := Nat.exists_eq_add_of_le hn
  apply BitVec.eq_of_toNat_eq
  simp [bitsAhead, chBits, Nat.pow_add, Nat.mul_assoc, Nat.add_mul_mod_self_left]

/-- A channel taken out of the register leaves the bits ahead shifted by 11. -/
theorem bitsAhead_shift {acc n : Nat} (hn : chBits ≤ n) (bs : List Byte) :
    bitsAhead (acc >>> chBits) (n - chBits) bs = bitsAhead acc n bs >>> chBits := by
  obtain ⟨k, rfl⟩ := Nat.exists_eq_add_of_le hn
  simp only [bitsAhead, Nat.shiftRight_eq_div_pow, Nat.add_sub_cancel_left, Nat.pow_add, Nat.mul_assoc]
  rw [Nat.add_mul_div_left _ _ (Nat.two_pow_pos _)]

/-- R165's loop in closed form: channel `j` is 11 bits of the bits ahead, from bit `11 j` on. -/
theorem unpackFrom_eq {k acc n : Nat} {bs : List Byte} (hacc : acc < 2 ^ n) (hbits : chBits * k ≤ n + 8 * bs.length) :
    unpackFrom k acc n bs = (List.range k).map fun j => BitVec.ofNat 11 (bitsAhead acc n bs >>> (chBits * j)) := by
  induction k generalizing acc n bs with
  | zero => rfl
  | succ k ih =>
    obtain ⟨acc', n', bs', hfill, hlt, hge, hcount, hahead⟩ :=
      fillRegister_spec hacc (show chBits ≤ n + 8 * bs.length by simp at hbits ⊢; omega)
    have hrest : acc' >>> chBits < 2 ^ (n' - chBits) := by
      rw [Nat.shiftRight_eq_div_pow, Nat.div_lt_iff_lt_mul (Nat.two_pow_pos _), ← Nat.pow_add, Nat.sub_add_cancel hge]
      exact hlt
    rw [unpackFrom, hfill, List.range_succ_eq_map, List.map_cons, List.map_map]
    simp only
    rw [ih hrest (by simp at hbits hcount hge ⊢; omega), bitsAhead_shift hge, hahead]
    congr 1
    · rw [← hahead, Nat.mul_zero, Nat.shiftRight_zero, ofNat_bitsAhead hge]
    · refine List.map_congr_left fun j _ => ?_
      rw [← Nat.shiftRight_add, Function.comp, Nat.mul_succ, Nat.add_comm]

theorem payloadNat_append (as bs : List Byte) :
    payloadNat (as ++ bs) = payloadNat as + 2 ^ (8 * as.length) * payloadNat bs := by
  induction as with
  | nil => simp [payloadNat]
  | cons a as ih =>
    rw [List.cons_append, payloadNat, payloadNat, ih, List.length_cons, Nat.mul_succ, Nat.pow_add]
    ring

/-- Bits from `m` on do not reach 11 bits that end before. -/
theorem ofNat_shift_add_high {a b i m : Nat} (h : i + chBits ≤ m) :
    BitVec.ofNat 11 ((a + 2 ^ m * b) >>> i) = BitVec.ofNat 11 (a >>> i) := by
  obtain ⟨k, rfl⟩ := Nat.exists_eq_add_of_le h
  have hpow : 2 ^ (i + chBits + k) * b = 2 ^ i * (2 ^ 11 * (2 ^ k * b)) := by
    rw [Nat.pow_add, Nat.pow_add, Nat.mul_assoc, Nat.mul_assoc]
  apply BitVec.eq_of_toNat_eq
  rw [hpow, Nat.shiftRight_eq_div_pow, Nat.shiftRight_eq_div_pow, Nat.add_mul_div_left _ _ (Nat.two_pow_pos _),
    BitVec.toNat_ofNat, BitVec.toNat_ofNat, Nat.add_mul_mod_self_left]

/-- R77, R165: the channels read from the first `CH_BYTES` bytes of a payload, in closed form. -/
theorem unpackChannels_eq {cfg : Config} {payload : List Byte} (h : chBytes cfg ≤ payload.length) :
    unpackChannels cfg.numCh (payload.take (chBytes cfg))
      = (List.range cfg.numCh).map fun k => BitVec.ofNat 11 (payloadNat payload >>> (11 * k)) := by
  have hlen : (payload.take (chBytes cfg)).length = chBytes cfg := List.length_take_of_le h
  have hbits : chBits * cfg.numCh ≤ 8 * chBytes cfg := by simp only [chBytes, chBits]; omega
  rw [unpackChannels, unpackFrom_eq Nat.one_pos (by omega)]
  refine List.map_congr_left fun k hk => ?_
  have hk' : k < cfg.numCh := List.mem_range.mp hk
  have hfit : 11 * k + chBits ≤ 8 * (payload.take (chBytes cfg)).length := by simp only [chBits] at *; omega
  conv_rhs => rw [← List.take_append_drop (chBytes cfg) payload, payloadNat_append, ofNat_shift_add_high hfit]
  simp [bitsAhead]

end Sys2Proof.Machine

/-! The wire frames' statements (30_encoding R105, R107 to R112, R115): bytes on the line arrive and are polled for, and
what each row's frame does when it arrives whole at an idle receiver. -/

namespace Sys2Proof.Machine

/-! ### Bytes on the line (R100, R101, R115, R214) -/

/-- A frame row's instruction is the arrival of its frame. -/
theorem exec_of_encode_frame {i : Instr} {bytes : List Byte} (h : encode i = .frame bytes) (s : State) :
    exec i s = arrive bytes s := by
  cases i with
  | frameLinkStats | frameRcChannels | framePing | frameDeviceInfo | frameCommand | frameTiming => cases h; rfl
  | _ => cases h

theorem arrive_detached {s : State} (h : s.pins.rxConnected = false) (bytes : List Byte) :
    arrive bytes s = .refused .receiveDetached := by
  simp [arrive, h]

theorem arrive_connected {s : State} (h : s.pins.rxConnected = true) (bytes : List Byte) :
    arrive bytes s = execPollRx (nowUs s) (nowMs s) (receiveBytes bytes s) := by
  simp [arrive, h]

/-- No frame on the line steps in a hold: it waits with the polling loop (assumption log 11). -/
theorem stepsInHold_frame (bytes : List Byte) : stepsInHold (.frame bytes) = false := by
  cases hd : decode (.frame bytes) with
  | error e => simp [stepsInHold, hd]
  | ok i =>
    rw [stepsInHold_of_decode hd]
    have henc : encode i = .frame bytes := encode_of_decode hd
    cases i with
    | frameLinkStats | frameRcChannels | framePing | frameDeviceInfo | frameCommand | frameTiming => rfl
    | _ => cases henc

/-- Bytes on the line arrive and are polled for, whether they are a row's frame or not. -/
theorem step_frame {s : State} {c : Command} {rest : List Command} {bytes : List Byte} (hcfg : configOk s.cfg = true)
    (hhold : s.hold = none) (hp : s.env.pending = c :: rest) (hpacket : c.packet = .frame bytes) :
    step s = arrive bytes (issue c rest s) := by
  have hover : holdOver s = none := holdOver_none hhold
  have hw : waitsForHold c.packet s = false := waitsForHold_none _ hhold
  cases hd : decode c.packet with
  | ok i =>
    rw [step_issue hcfg hover hp hw hd]
    exact exec_of_encode_frame ((encode_of_decode hd).trans hpacket) _
  | error e => rw [step_undecoded hcfg hover hp hw hd, hpacket, undecoded_frame]

/-- While a check holds, bytes on the line wait. -/
theorem step_frame_in_hold {s : State} {c : Command} {rest : List Command} {bytes : List Byte}
    (hcfg : configOk s.cfg = true) (hhold : s.hold ≠ none) (ht : s.line.txhw ≠ []) (hp : s.env.pending = c :: rest)
    (hpacket : c.packet = .frame bytes) : step s = .next s := by
  have hw : waitsForHold c.packet s = true := by
    simp [waitsForHold, hpacket, stepsInHold_frame, Option.isSome_iff_ne_none, hhold]
  exact step_waits hcfg (holdOver_of_waiting ht) hp hw

/-- Settles O59: a row's instruction is its frame's arrival, and arriving bytes are polled for. -/
theorem frameArrivesAndIsPolled : Obligations.FrameArrivesAndIsPolled := by
  intro s a z d o c p polledWith
  have polled {u : State} (h : u.pins.rxConnected = true) (bytes : List Byte) : arrive bytes u = polledWith u bytes :=
    arrive_connected h bytes
  have plain (t : Byte) : frameBytes t a z (plainTail p c) = [a, z, t] ++ p ++ c.toList := by
    simp [frameBytes, plainTail]
  have ext (t : Byte) : frameBytes t a z (extTail d o p c) = [a, z, t] ++ d.toList ++ o.toList ++ p ++ c.toList := by
    simp [frameBytes, extTail]
  refine ⟨fun h => ?_, fun h => ?_, fun cmd rest bytes hcfg hp hpacket => ?_⟩
  · exact ⟨arrive_detached h _, arrive_detached h _, arrive_detached h _, arrive_detached h _, arrive_detached h _,
      arrive_detached h _⟩
  · rw [← plain, ← plain, ← ext, ← ext, ← ext, ← ext]
    exact ⟨polled h _, polled h _, polled h _, polled h _, polled h _, polled h _⟩
  · exact ⟨fun hhold h => (step_frame hcfg hhold hp hpacket).trans (arrive_detached (s := issue cmd rest s) h bytes),
      fun hhold h => (step_frame hcfg hhold hp hpacket).trans (polled (u := issue cmd rest s) h bytes),
      fun hhold ht => step_frame_in_hold hcfg hhold ht hp hpacket⟩

/-! ### A valid frame marks the link (R203, R205) -/

@[simp] theorem markReceived_link (us : Word) (s : State) :
    (markReceived us s).link = { s.link with tLastRx := us, connected := true } := by
  unfold markReceived; cases s.link.connected <;> rfl

@[simp] theorem markReceived_events (us : Word) (s : State) :
    (markReceived us s).events = s.events ++ (if s.link.connected then [] else [.connected]) := by
  cases h : s.link.connected <;> simp [markReceived, h]

/-- A state that has taken `n` bytes into its buffer, counted them a good frame and marked the link, before the frame's
type is looked at. -/
def frameMarked (us : Word) (buf : Memory) (n : Nat) (s : State) : State :=
  markReceived us (countGood { s with asm := { buf := buf, cursor := n } })

section FrameMarked
variable (us : Word) (buf : Memory) (n : Nat) (s : State)

@[simp] theorem frameMarked_cfg : (frameMarked us buf n s).cfg = s.cfg := by simp [frameMarked]
@[simp] theorem frameMarked_asm : (frameMarked us buf n s).asm = { buf := buf, cursor := n } := by simp [frameMarked]
@[simp] theorem frameMarked_chan : (frameMarked us buf n s).chan = s.chan := by simp [frameMarked]
@[simp] theorem frameMarked_link : (frameMarked us buf n s).link
    = { s.link with goodCnt := countUp s.cfg s.link.goodCnt, tLastRx := us, connected := true } := by simp [frameMarked]
@[simp] theorem frameMarked_baud : (frameMarked us buf n s).baud = s.baud := by simp [frameMarked]
@[simp] theorem frameMarked_tx : (frameMarked us buf n s).tx = s.tx := by simp [frameMarked]
@[simp] theorem frameMarked_sync : (frameMarked us buf n s).sync = s.sync := by simp [frameMarked]
@[simp] theorem frameMarked_pins : (frameMarked us buf n s).pins = s.pins := by simp [frameMarked]
@[simp] theorem frameMarked_line : (frameMarked us buf n s).line = s.line := by simp [frameMarked]
@[simp] theorem frameMarked_env : (frameMarked us buf n s).env = s.env := by simp [frameMarked]
@[simp] theorem frameMarked_events : (frameMarked us buf n s).events
    = s.events ++ (if s.link.connected then [] else [.connected]) := markReceived_events _ _

end FrameMarked

theorem Handled.symm {s t : State} (h : Handled s t) : Handled t s :=
  ⟨h.cfg.symm, h.asm.symm, h.baud.symm, h.clock.symm, h.hold.symm, h.pending.symm, h.counts.1.symm, h.counts.2.symm⟩

/-- With nothing stepping in between, handling goes on from the marked link with the frame's type (R205). -/
theorem handleFrame_quiet {s : State} {frame : List Byte} {type : Byte} (us ms : Word) (hs : s.env.slots = [])
    (hb : asmHolds s frame) (htype : frame[2]? = some type) :
    handleFrame frame.length us ms s = dispatchFrame type frame.length us ms (markReceived us s) := by
  have hquiet : interleave (markReceived us s) = markReceived us s := interleave_nil (by simpa using hs)
  obtain ⟨-, hlen, -⟩ := memRead_eq_ok.mp hb
  have h2 : 2 < frame.length := (List.getElem?_eq_some_iff.mp htype).1
  have hbyte : memByte (markReceived us s).asm.buf 2 = .ok type := by
    rw [markReceived_asm, memByte_of_holds hb (by omega), List.getD_eq_getElem?_getD, htype]; rfl
  rw [handleFrame, hquiet]
  simp only [hbyte, andThen_ok]

/-! ### A whole valid frame at an idle receiver (R200 to R205) -/

/-- A receiver that no byte has reached, on a line that is not transmitting, with nothing stepping in between. -/
structure IdleReceiver (s : State) : Prop where
  safe : Inv s
  slots : s.env.slots = []
  connected : s.pins.rxConnected = true
  transmitting : s.tx.transmitting = false
  cursor : s.asm.cursor = 0
  rxhw : s.line.rxhw = []

/-- A frame of this type that begins with a marker, is as long as its size byte says, and has the right CRC. -/
structure WholeFrame (cfg : Config) (type : Byte) (frame : List Byte) : Prop where
  shape : ∃ marker size tail, frame = marker :: size :: type :: tail ∧ isMarker cfg marker = true
    ∧ frame.length = totalLenOf size
  legal : 4 ≤ frame.length ∧ frame.length ≤ 64
  crc : crcRight cfg frame

theorem aligned_of_marker {cfg : Config} {b : Byte} (h : isMarker cfg b = true) (bs : List Byte) :
    aligned cfg (b :: bs) = b :: bs := by
  simp [aligned, h]

/-- The fill takes a whole frame into the empty buffer, and leaves nothing on the line (R200). -/
theorem rxFill_frame {s : State} {frame : List Byte} (h : IdleReceiver s) (h64 : frame.length ≤ 64) :
    ∃ m, rxFill (receiveBytes frame s) = .ok { s with asm := { buf := m, cursor := frame.length } }
      ∧ Memory.wf m = true ∧ memRead m 0 frame.length = .ok frame := by
  have hempty : asmHolds (receiveBytes frame s) [] := by
    simp only [asmHolds, receiveBytes_asm, h.cursor]; rfl
  have htaken : ([] ++ (receiveBytes frame s).line.rxhw).take 64 = frame := by
    simp [h.rxhw, List.take_of_length_le h64]
  have hleft : (receiveBytes frame s).line.rxhw.drop (64 - ([] : List Byte).length) = s.line.rxhw := by
    simp [h.rxhw, h64]
  obtain ⟨m, hfill, hwf, hread, -⟩ := rxFill_spec (s := receiveBytes frame s) h.safe.asm.form hempty
  rw [htaken] at hread
  rw [htaken, hleft] at hfill
  exact ⟨m, hfill, hwf, hread⟩

/-- The search leaves a frame at the front where it is (R201). -/
theorem alignFrom_frame {s : State} {type : Byte} {frame : List Byte} (hwf : Memory.wf s.asm.buf = true)
    (hb : asmHolds s frame) (hf : WholeFrame s.cfg type frame) :
    ∃ m, alignFrom 0 s = .ok { s with asm := { buf := m, cursor := frame.length } }
      ∧ Memory.wf m = true ∧ memRead m 0 frame.length = .ok frame := by
  obtain ⟨marker, size, tail, hshape, hmarker, -⟩ := hf.shape
  have haligned : aligned s.cfg (frame.drop 0) = frame := by
    rw [List.drop_zero, hshape]; exact aligned_of_marker hmarker _
  obtain ⟨m, halign, hwf', hread, -⟩ := alignFrom_spec hwf hb (Nat.zero_le 1)
  rw [haligned] at halign hread
  exact ⟨m, halign, hwf', hread⟩

/-- A frame that stands whole in the buffer is taken (R203). -/
theorem extract_frame {s : State} {type : Byte} {frame : List Byte} (us ms : Word) (hb : asmHolds s frame)
    (hf : WholeFrame s.cfg type frame) : extract us ms s = takeFrame frame.length us ms s := by
  obtain ⟨marker, size, tail, hshape, -, hlen⟩ := hf.shape
  obtain ⟨h4, h64⟩ := hf.legal
  obtain ⟨-, hcursor, -⟩ := memRead_eq_ok.mp hb
  have hsize : frame.getD 1 0 = size := by rw [hshape]; rfl
  have hlegal : legalLen frame.length = true := legalLen_iff.mpr ⟨h4, h64⟩
  rw [extract, memByte_of_holds hb (by omega), memByte_of_holds hb (by omega)]
  simp only [andThen_ok, hsize, ← hlen, hlegal]
  simp [← hcursor]

/-- The poll takes the frame up whole, and has it at the front of the buffer. -/
theorem pollRx_takes_frame {s : State} {type : Byte} {frame : List Byte} (us ms : Word) (h : IdleReceiver s)
    (hf : WholeFrame s.cfg type frame) :
    ∃ m, Memory.wf m = true ∧ memRead m 0 frame.length = .ok frame
      ∧ pollRx us ms (receiveBytes frame s)
        = takeFrame frame.length us ms { s with asm := { buf := m, cursor := frame.length } } := by
  have hnoburst : endBurst (receiveBytes frame s) = receiveBytes frame s := by simp [endBurst, h.transmitting]
  have h3 : ¬ frame.length < 3 := by have := hf.legal; omega
  obtain ⟨m₁, hfill, hwf₁, hread₁⟩ := rxFill_frame h hf.legal.2
  obtain ⟨m₂, halign, hwf₂, hread₂⟩ :=
    alignFrom_frame (s := { s with asm := { buf := m₁, cursor := frame.length } }) hwf₁ hread₁ hf
  refine ⟨m₂, hwf₂, hread₂, ?_⟩
  rw [← extract_frame us ms (s := { s with asm := { buf := m₂, cursor := frame.length } }) hread₂ hf]
  simp [pollRx, hnoburst, h.transmitting, h.slots, hfill, halign, h3]

/-- A valid frame in the buffer is counted, handled by its type, and removed (R203 to R205). -/
theorem takeFrame_valid {s : State} {type : Byte} {frame : List Byte} (us ms : Word) (hi : Inv s)
    (hs : s.env.slots = []) (hb : asmHolds s frame) (hf : WholeFrame s.cfg type frame) :
    ∃ t m, dispatchFrame type frame.length us ms (markReceived us (countGood s)) = .ok t
      ∧ Handled (countGood s) t ∧ takeFrame frame.length us ms s = .ok (setAsm m 0 t, .good) := by
  obtain ⟨marker, size, tail, hshape, -, -⟩ := hf.shape
  have htype : frame[2]? = some type := by rw [hshape]; rfl
  have hb' : asmHolds (countGood s) frame := hb
  obtain ⟨-, hcursor, -⟩ := memRead_eq_ok.mp hb
  obtain ⟨t, hrun, ht, hkept⟩ := handleFrame_total us ms (inv_countGood hi) hb' hf.legal.1 (Nat.le_refl _)
  obtain ⟨m, hdrop, -⟩ := dropFront_spec ht.asm.form (asmHolds_of_handled hkept hb') (Nat.le_refl _)
  refine ⟨t, m, ?_, hkept, ?_⟩
  · rw [← handleFrame_quiet (s := countGood s) us ms hs hb' htype]; exact hrun
  · have hread : memRead s.asm.buf 0 frame.length = .ok frame := hcursor ▸ hb
    rw [takeFrame, hread, andThen_ok, if_pos (frameValid_of_crcRight hi.crc.tab8 hf.crc), hrun, andThen_ok, hdrop,
      List.drop_length]
    rfl

/-- What the arrival of a whole frame at an idle receiver does: the frame's type is dispatched from the marked link, and
then the frame is gone. -/
theorem arrive_frame {s : State} {type : Byte} {frame : List Byte} (h : IdleReceiver s)
    (hf : WholeFrame s.cfg type frame) :
    ∃ m t m', Inv (frameMarked (nowUs s) m frame.length s) ∧ asmHolds (frameMarked (nowUs s) m frame.length s) frame
      ∧ dispatchFrame type frame.length (nowUs s) (nowMs s) (frameMarked (nowUs s) m frame.length s) = .ok t
      ∧ Handled (frameMarked (nowUs s) m frame.length s) t
      ∧ arrive frame s = .next (reply (.poll .good) (setAsm m' 0 t)) := by
  obtain ⟨m, hwf, hread, hpoll⟩ := pollRx_takes_frame (nowUs s) (nowMs s) h hf
  have hi : Inv { s with asm := { buf := m, cursor := frame.length } } := { h.safe with asm := asmOk_of hwf hread }
  obtain ⟨t, m', hdispatch, hkept, htake⟩ := takeFrame_valid (nowUs s) (nowMs s) hi h.slots hread hf
  refine ⟨m, t, m', inv_markReceived _ (inv_countGood hi), ?_, hdispatch, ?_, ?_⟩
  · rw [frameMarked, asmHolds, markReceived_asm]; exact hread
  · exact (handled_markReceived _ _).symm.trans hkept
  · rw [arrive_connected h.connected, execPollRx, hpoll, htake]
    rfl

/-! ### The three rows that are handled (R206, R207, R208) -/

/-- With nothing stepping in between the channels are written one after another, and nothing else (R206). -/
theorem writeChannels_quiet {s : State} (hs : s.env.slots = []) {vs : List Chan} {k : Nat}
    (hlen : s.chan.length = k + vs.length) : writeChannels k vs s = { s with chan := s.chan.take k ++ vs } := by
  induction vs generalizing k s with
  | nil =>
    have hall : s.chan.take k = s.chan := List.take_of_length_le (Nat.le_of_eq hlen)
    rw [List.append_nil, hall]; rfl
  | cons v vs ih =>
    have hk : k < s.chan.length := by simp at hlen; omega
    have hwritten : (s.chan.set k v).take (k + 1) = s.chan.take k ++ [v] := by
      rw [List.take_add_one, List.take_set_of_le (Nat.le_refl k), List.getElem?_set_self hk]
      rfl
    rw [writeChannels, interleave_nil hs, ih (s := setChan k v s) hs (by simp at hlen ⊢; omega)]
    simp [hwritten, setChan]

/-- A whole channel payload is written to the channels, in the closed form of R77. -/
theorem updateChannels_whole {s : State} {marker size type : Byte} {payload tail : List Byte} {n : Nat} (h : Inv s)
    (hs : s.env.slots = []) (hb : asmHolds s (marker :: size :: type :: (payload ++ tail)))
    (hwhole : chBytes s.cfg ≤ payload.length) (hn : payload.length + 4 = n) :
    updateChannels n s = .ok { s with
      chan := (List.range s.cfg.numCh).map fun k => BitVec.ofNat 11 (payloadNat payload >>> (11 * k)) } := by
  obtain ⟨-, hlen, -⟩ := memRead_eq_ok.mp hb
  simp only [List.length_cons, List.length_append] at hlen
  have hrc : rcPayloadWhole s.cfg n = true := decide_eq_true (by omega)
  have hread : memRead s.asm.buf 3 (chBytes s.cfg) = .ok (payload.take (chBytes s.cfg)) := by
    rw [memRead_part hb (by omega)]
    simp [List.take_append_of_le_length hwhole]
  rw [updateChannels, if_pos hrc, hread, andThen_ok, unpackChannels_eq hwhole,
    writeChannels_quiet hs (by simp [h.chan]), List.take_zero, List.nil_append]

/-- The input queue and the interleaving still to come are as they were. -/
structure SameInput (s t : State) : Prop where
  rxhw : t.line.rxhw = s.line.rxhw
  slots : t.env.slots = s.env.slots

theorem SameInput.trans {s t u : State} (h : SameInput s t) (h' : SameInput t u) : SameInput s u :=
  ⟨h'.rxhw.trans h.rxhw, h'.slots.trans h.slots⟩

theorem popRecord_sameInput {s t : State} (h : popRecord s = .ok t) : SameInput s t := by
  unfold popRecord at h
  split at h
  · cases h
  · split at h
    · cases h
    · obtain ⟨stage, -, hstage⟩ := andThen_eq_ok.mp h
      cases hstage
      exact ⟨rfl, rfl⟩

theorem popIfIdle_sameInput {s t : State} (hs : s.env.slots = []) (h : popIfIdle s = .ok t) : SameInput s t := by
  unfold popIfIdle at h
  split at h
  · obtain ⟨u, hpop, hu⟩ := andThen_eq_ok.mp h
    have hkept := popRecord_sameInput hpop
    rw [interleave_nil (hkept.slots.trans hs)] at hu
    cases hu
    exact hkept
  · cases h
    exact ⟨rfl, rfl⟩

/-- With nothing stepping in between, a drain leaves the input queue alone. -/
theorem drain_sameInput {fuel budget : Nat} {s t : State} {bs : List Byte} (hs : s.env.slots = [])
    (h : drain fuel budget s = .ok (t, bs)) : SameInput s t := by
  induction fuel generalizing budget s bs with
  | zero => cases h; exact ⟨rfl, rfl⟩
  | succ fuel ih =>
    obtain ⟨u, hpop, h⟩ := andThen_eq_ok.mp h
    obtain ⟨bytes, -, h⟩ := andThen_eq_ok.mp h
    have hpopped := popIfIdle_sameInput hs hpop
    have hquiet : (handOver bytes u).env.slots = [] := hpopped.slots.trans hs
    have hhanded : SameInput s (handOver bytes u) := hpopped.trans ⟨rfl, rfl⟩
    simp only [interleave_nil hquiet] at h
    split at h
    · cases h; exact hhanded
    · obtain ⟨⟨v, more⟩, hdrain, hv⟩ := andThen_eq_ok.mp h
      cases hv
      exact hhanded.trans (ih hquiet hdrain)

/-- With nothing stepping in between, a service call leaves the input queue alone. -/
theorem serviceOutput_sameInput {received : Nat} {ms : Word} {s t : State} {bs : List Byte} (hs : s.env.slots = [])
    (h : serviceOutput received ms s = .ok (t, bs)) : SameInput s t := by
  unfold serviceOutput at h
  split at h
  · cases h; exact ⟨rfl, rfl⟩
  · have hemitted : SameInput s (if hasOutput s then s else syncEmit ms s) := by
      split
      · exact ⟨rfl, rfl⟩
      · exact ⟨by simp, by simp⟩
    generalize (if hasOutput s then s else syncEmit ms s) = u at h hemitted
    have hquiet : u.env.slots = [] := hemitted.slots.trans hs
    have hengaged : SameInput s (engageTransmit u) := hemitted.trans ⟨by simp, by simp⟩
    have hquiet' : (engageTransmit u).env.slots = [] := hengaged.slots.trans hs
    simp only [interleave_nil hquiet, interleave_nil hquiet'] at h
    split at h
    · exact hengaged.trans (drain_sameInput hquiet' h)
    · cases h; exact hemitted

/-- A service call from a safe state leaves the channels and the link alone. -/
theorem serviced_of_serviceOutput {received : Nat} {ms : Word} {s t : State} {bs : List Byte} (h : Inv s)
    (hrun : serviceOutput received ms s = .ok (t, bs)) : Serviced s t := by
  obtain ⟨u, more, htotal, -, hkept⟩ := serviceOutput_total received ms h
  cases hrun.symm.trans htotal
  exact hkept

/-- An RC-channels frame with a whole payload: the channels and the RC timestamp are written, and the service call that
follows leaves them, the link and the input queue alone (R206). -/
theorem handleRc_whole {s t : State} {marker size type : Byte} {payload tail : List Byte} {n : Nat} {us ms : Word}
    (h : Inv s) (hs : s.env.slots = []) (hb : asmHolds s (marker :: size :: type :: (payload ++ tail)))
    (hwhole : chBytes s.cfg ≤ payload.length) (hn : payload.length + 4 = n) (hrun : handleRc n us ms s = .ok t) :
    t.chan = ((List.range s.cfg.numCh).map fun k => BitVec.ofNat 11 (payloadNat payload >>> (11 * k)))
      ∧ t.link = { s.link with tLastRc := us, rcSeen := true } ∧ t.line.rxhw = s.line.rxhw := by
  have hstamped : Inv (stampRc us s) := inv_stampRc us h
  have hchan := updateChannels_whole hstamped hs hb hwhole hn
  rw [handleRc, hchan, andThen_ok, interleave_nil (by simpa using hs)] at hrun
  obtain ⟨⟨u, bs⟩, hservice, hu⟩ := andThen_eq_ok.mp hrun
  cases hu
  have hwritten : Inv { stampRc us s with
      chan := (List.range s.cfg.numCh).map fun k => BitVec.ofNat 11 (payloadNat payload >>> (11 * k)) } :=
    { hstamped with chan := by simp }
  obtain ⟨-, -, hchannels, hlink, -⟩ := serviced_of_serviceOutput (inv_emit .rcData hwritten) hservice
  obtain ⟨hinput, -⟩ := serviceOutput_sameInput (by simpa using hs) hservice
  exact ⟨hchannels, hlink, hinput⟩

theorem devinfoFrame_length (cfg : Config) : (devinfoFrame cfg).length = cfg.deviceName.length + 21 := by
  simp [devinfoFrame, builtFrame, devinfoPayload_length]

/-- A ping to this device queues the device-info frame, where the queue has room (R207). -/
theorem handlePing_addressed {s : State} {marker size type dest : Byte} {rest : List Byte} (h : Inv s)
    (hb : asmHolds s (marker :: size :: type :: dest :: rest)) (hrest : 2 ≤ rest.length)
    (hdest : dest = s.cfg.addrModule)
    (hroom : s.tx.outq.length + s.cfg.deviceName.length + 22 ≤ s.cfg.outqCapacity) :
    handlePing (rest.length + 4) s
      = .ok (qPush (BitVec.ofNat 8 (s.cfg.deviceName.length + 21) :: devinfoFrame s.cfg) s) := by
  obtain ⟨-, hlen, -⟩ := memRead_eq_ok.mp hb
  simp only [List.length_cons] at hlen
  have hname : s.cfg.deviceName.length + 21 ≤ 64 := by
    obtain ⟨-, -, ⟨hname, -⟩, -⟩ := configOk_iff.mp h.config
    exact hname
  have haccepts : queueAccepts (devinfoFrame s.cfg) s = true :=
    queueAccepts_iff.mpr (by rw [devinfoFrame_length]; omega)
  have hbyte : memByte s.asm.buf 3 = .ok dest := memByte_of_holds hb (by omega)
  have hrecord : record (devinfoFrame s.cfg) = BitVec.ofNat 8 (s.cfg.deviceName.length + 21) :: devinfoFrame s.cfg := by
    rw [record, devinfoFrame_length]
  rw [handlePing, if_neg (by omega), hbyte, andThen_ok, if_pos hdest, encodeDevinfo_ok h.config, andThen_ok,
    extFrame_eq_builtFrame h.crc.tab8, ← devinfoFrame, enqueue, if_pos haccepts, hrecord]

/-- A model-select command to this device reports its index (R208). -/
theorem handleCommand_modelSelect {s : State} {marker size type dest orig index : Byte} {rest : List Byte}
    (hb : asmHolds s (marker :: size :: type :: dest :: orig :: subcmdRx :: subcmdRxModelSelect :: index :: rest))
    (hrest : 1 ≤ rest.length) (hdest : dest = s.cfg.addrModule) :
    handleCommand (rest.length + 8) s = .ok (emit (.modelSelect index) s) := by
  obtain ⟨-, hlen, -⟩ := memRead_eq_ok.mp hb
  simp only [List.length_cons] at hlen
  have h3 : memByte s.asm.buf 3 = .ok dest := memByte_of_holds hb (by omega)
  have h5 : memByte s.asm.buf 5 = .ok subcmdRx := memByte_of_holds hb (by omega)
  have h6 : memByte s.asm.buf 6 = .ok subcmdRxModelSelect := memByte_of_holds hb (by omega)
  have h7 : memByte s.asm.buf 7 = .ok index := memByte_of_holds hb (by omega)
  rw [handleCommand, if_neg (by omega), h3, andThen_ok, h5, andThen_ok, h6, andThen_ok, if_pos ⟨hdest, rfl⟩,
    commandEvent, if_pos ⟨rfl, by omega⟩, h7, andThen_ok]

/-- Every other type: nothing more (R209). -/
theorem dispatchFrame_other {type : Byte} (h1 : type ≠ typeRcChannels) (h2 : type ≠ typeDevicePing)
    (h3 : type ≠ typeCommand) (n : Nat) (us ms : Word) (s : State) : dispatchFrame type n us ms s = .ok s := by
  simp only [dispatchFrame, if_neg h1, if_neg h2, if_neg h3]

/-! ### Each row's frame (R105, R107 to R112) -/

/-- What every valid frame does: it is counted good, stamps `t_last_rx`, raises the link, is consumed (R203, R205). -/
def FrameCounted (s t : State) : Prop :=
  t.env.replies.getLast? = some (.poll .good) ∧ t.asm.cursor = 0 ∧ t.line.rxhw = [] ∧ t.link.tLastRx = nowUs s
    ∧ t.link.connected = true ∧ t.link.goodCnt = (s.link.goodCnt + 1) % 2 ^ s.cfg.cntBits
    ∧ t.link.badCnt = s.link.badCnt ∧ t.baud = s.baud ∧ t.cfg = s.cfg

/-- What a frame that is not handled further leaves as it was (R209). -/
def FrameIgnored (s t : State) : Prop :=
  FrameCounted s t ∧ t.chan = s.chan ∧ t.tx = s.tx ∧ t.pins = s.pins ∧ t.line = s.line ∧ t.sync = s.sync
    ∧ t.link.tLastRc = s.link.tLastRc ∧ t.events = s.events ++ (if s.link.connected then [] else [.connected])

/-- The frame's type decides neither the link's mark nor what becomes of the bytes. -/
theorem frameCounted_of_handled {s t : State} {m m' : Memory} {n : Nat} (h : IdleReceiver s)
    (hkept : Handled (frameMarked (nowUs s) m n s) t) (hrx : t.link.tLastRx = nowUs s) (hlink : t.link.connected = true)
    (hline : t.line.rxhw = s.line.rxhw) : FrameCounted s (reply (.poll .good) (setAsm m' 0 t)) := by
  obtain ⟨hcfg, -, hbaud, -, -, -, hgood, hbad⟩ := hkept
  simp only [frameMarked_link, frameMarked_cfg, frameMarked_baud] at hcfg hbaud hgood hbad
  exact ⟨by simp, rfl, hline.trans h.rxhw, hrx, hlink, hgood, hbad, hbaud, hcfg⟩

/-- A frame of a type that is not handled further is counted, and nothing more. -/
theorem arrive_ignored {s : State} {type : Byte} {frame : List Byte} (h : IdleReceiver s)
    (hf : WholeFrame s.cfg type frame) (h1 : type ≠ typeRcChannels) (h2 : type ≠ typeDevicePing)
    (h3 : type ≠ typeCommand) : ∃ t, arrive frame s = .next t ∧ FrameIgnored s t := by
  obtain ⟨m, t, m', -, -, hdispatch, hkept, harrive⟩ := arrive_frame h hf
  rw [dispatchFrame_other h1 h2 h3] at hdispatch
  cases hdispatch
  refine ⟨_, harrive, frameCounted_of_handled h hkept ?_ ?_ ?_, ?_⟩ <;> simp

/-- An RC-channels frame with a whole payload. -/
theorem arrive_rcChannels {s : State} {marker size : Byte} {payload tail : List Byte} (h : IdleReceiver s)
    (hf : WholeFrame s.cfg typeRcChannels (marker :: size :: typeRcChannels :: (payload ++ tail)))
    (htail : tail.length = 1) (hwhole : chBytes s.cfg ≤ payload.length) :
    ∃ t, arrive (marker :: size :: typeRcChannels :: (payload ++ tail)) s = .next t ∧ FrameCounted s t
      ∧ t.link.tLastRc = nowUs s ∧ t.link.rcSeen = true
      ∧ t.chan = (List.range s.cfg.numCh).map fun k => BitVec.ofNat 11 (payloadNat payload >>> (11 * k)) := by
  obtain ⟨m, t, m', hi, hb, hdispatch, hkept, harrive⟩ := arrive_frame h hf
  obtain ⟨hchan, hlink, hrx⟩ := handleRc_whole hi (by simpa using h.slots) hb (by simpa using hwhole) (by simp [htail])
    hdispatch
  refine ⟨_, harrive, frameCounted_of_handled h hkept ?_ ?_ ?_, ?_⟩ <;> simp [hchan, hlink, hrx]

/-- A ping to this device: the device-info frame is queued, where the queue has room. -/
theorem arrive_ping {s : State} {marker size dest : Byte} {rest : List Byte} (h : IdleReceiver s)
    (hf : WholeFrame s.cfg typeDevicePing (marker :: size :: typeDevicePing :: dest :: rest)) (hrest : 2 ≤ rest.length)
    (hdest : dest = s.cfg.addrModule)
    (hroom : s.tx.outq.length + s.cfg.deviceName.length + 22 ≤ s.cfg.outqCapacity) :
    ∃ t, arrive (marker :: size :: typeDevicePing :: dest :: rest) s = .next t ∧ FrameCounted s t ∧ t.chan = s.chan
      ∧ t.tx = { s.tx with
          outq := s.tx.outq ++ (BitVec.ofNat 8 (s.cfg.deviceName.length + 21) :: devinfoFrame s.cfg) } := by
  obtain ⟨m, t, m', hi, hb, hdispatch, hkept, harrive⟩ := arrive_frame h hf
  have hping := handlePing_addressed hi hb hrest (by simpa using hdest) (by simpa using hroom)
  cases hdispatch.symm.trans hping
  refine ⟨_, harrive, frameCounted_of_handled h hkept ?_ ?_ ?_, ?_⟩ <;> simp

/-- A model-select command to this device: its index is reported. -/
theorem arrive_modelSelect {s : State} {marker size dest orig index : Byte} {rest : List Byte} (h : IdleReceiver s)
    (hf : WholeFrame s.cfg typeCommand
      (marker :: size :: typeCommand :: dest :: orig :: subcmdRx :: subcmdRxModelSelect :: index :: rest))
    (hrest : 1 ≤ rest.length) (hdest : dest = s.cfg.addrModule) :
    ∃ t, arrive (marker :: size :: typeCommand :: dest :: orig :: subcmdRx :: subcmdRxModelSelect :: index :: rest) s
        = .next t ∧ FrameCounted s t ∧ t.chan = s.chan ∧ t.tx = s.tx
      ∧ t.events = s.events ++ (if s.link.connected then [] else [.connected]) ++ [.modelSelect index] := by
  obtain ⟨m, t, m', hi, hb, hdispatch, hkept, harrive⟩ := arrive_frame h hf
  have hcommand := handleCommand_modelSelect hb hrest (by simpa using hdest)
  cases hdispatch.symm.trans hcommand
  refine ⟨_, harrive, frameCounted_of_handled h hkept ?_ ?_ ?_, ?_⟩ <;> simp

/-- A frame row's frame, of the length its size byte says, is a whole frame. -/
theorem wholeFrame_of_size {cfg : Config} {marker size type : Byte} {tail : List Byte}
    (hmarker : isMarker cfg marker = true) (hlen : tail.length + 1 = size.toNat) (htail : tail ≠ [])
    (h64 : size.toNat + 2 ≤ 64) (hcrc : crcRight cfg (marker :: size :: type :: tail)) : WholeFrame cfg type (marker :: size :: type :: tail) where
  shape := ⟨marker, size, tail, rfl, hmarker, by simp [totalLenOf]; omega⟩
  legal := by
    have := List.length_pos_iff.mpr htail
    simp only [List.length_cons]
    omega
  crc := hcrc

/-- Settles O60: a whole frame at an idle receiver is dispatched from the marked link, and each type's own handling
follows. -/
theorem wireFramesAreHandled : Obligations.WireFramesAreHandled := by
  intro s a z d o c p hinv hslots hconn htrans hcursor hrx hmarker h64 us marked quiet
  have hidle : IdleReceiver s := ⟨hinv, hslots, hconn, htrans, hcursor, hrx⟩
  refine ⟨fun hz => ?_, fun hz => ?_⟩
  · have whole {type : Byte} (hcrc : crcRight s.cfg ([a, z, type] ++ p ++ [c])) :
        WholeFrame s.cfg type (a :: z :: type :: (p ++ [c])) :=
      wholeFrame_of_size hmarker (by simp; omega) (by simp) h64 hcrc
    refine ⟨fun hcrc => ?_, fun hcrc hpayload => ?_⟩
    · exact arrive_ignored hidle (whole hcrc) (by decide) (by decide) (by decide)
    · exact arrive_rcChannels hidle (whole hcrc) rfl hpayload
  · have whole {type : Byte} (hcrc : crcRight s.cfg ([a, z, type, d, o] ++ p ++ [c])) :
        WholeFrame s.cfg type (a :: z :: type :: d :: o :: (p ++ [c])) :=
      wholeFrame_of_size hmarker (by simp; omega) (by simp) h64 hcrc
    refine ⟨fun hcrc hdest hroom => ?_, fun hcrc => ?_, fun index rest hp hcrc hdest => ?_, fun hcrc => ?_⟩
    · exact arrive_ping hidle (whole hcrc) (by simp) hdest hroom
    · exact arrive_ignored hidle (whole hcrc) (by decide) (by decide) (by decide)
    · subst hp
      exact arrive_modelSelect hidle (whole hcrc) (by simp) hdest
    · exact arrive_ignored hidle (whole hcrc) (by decide) (by decide) (by decide)

end Sys2Proof.Machine

/-! The CRC engine's statements (40_crc): the 8-bit CRC and its laws, and the N-bit CRC with its lazily rebuilt table. -/

namespace Sys2Proof.Machine

/-! ### Linear feedback, at any width

A shift register's step is linear over xor, and so is every number of its steps. -/

theorem times_eq_iterate {α : Type} (f : α → α) (n : Nat) (a : α) : times f n a = f^[n] a := by
  induction n generalizing a with
  | zero => rfl
  | succ n ih => exact ih (f a)

theorem times_xor {w : Nat} {f : BitVec w → BitVec w} (hf : ∀ a b, f (a ^^^ b) = f a ^^^ f b) (n : Nat)
    (a b : BitVec w) : times f n (a ^^^ b) = times f n a ^^^ times f n b := by
  induction n generalizing a b with
  | zero => rfl
  | succ n ih => simp only [times, hf, ih]

/-- A polynomial applied under a xor of two conditions. -/
theorem feedback_xor {w : Nat} (p : BitVec w) (x y : Bool) :
    (if (x ^^ y) = true then p else 0) = (if x = true then p else 0) ^^^ (if y = true then p else 0) := by
  cases x <;> cases y <;> simp

/-! ### The 8-bit shift register (R140, R143) -/

theorem crc8Shift_eq (poly c : Byte) : crc8Shift poly c = (c <<< 1) ^^^ (if c.msb = true then poly else 0) := by
  unfold crc8Shift
  split <;> simp

theorem crc8Shift_xor (poly a b : Byte) : crc8Shift poly (a ^^^ b) = crc8Shift poly a ^^^ crc8Shift poly b := by
  simp only [crc8Shift_eq, BitVec.msb_xor, feedback_xor, BitVec.shiftLeft_xor_distrib]
  ac_rfl

theorem crc8Entry_xor (poly a b : Byte) : crc8Entry poly (a ^^^ b) = crc8Entry poly a ^^^ crc8Entry poly b :=
  times_xor (crc8Shift_xor poly) 8 a b

theorem crc8Entry_zero (poly : Byte) : crc8Entry poly 0#8 = 0#8 := by
  simpa using crc8Entry_xor poly 0#8 0#8

/-- The shift leaves bit 0 clear, and the polynomial sets it exactly when it is applied. -/
theorem getLsbD_zero_crc8Shift {poly : Byte} (hpoly : poly.getLsbD 0 = true) (c : Byte) :
    (crc8Shift poly c).getLsbD 0 = c.msb := by
  rw [crc8Shift_eq, BitVec.getLsbD_xor, BitVec.getLsbD_shiftLeft]
  split <;> simp_all [-BitVec.getLsbD_eq_getElem]

/-- Bit 0 of the polynomial set, the bit that falls out can be read back, so no two registers meet. -/
theorem crc8Shift_injective {poly : Byte} (hpoly : poly.getLsbD 0 = true) : Function.Injective (crc8Shift poly) := by
  intro a b hab
  have hmsb : a.msb = b.msb := by
    simpa only [getLsbD_zero_crc8Shift hpoly] using congrArg (·.getLsbD 0) hab
  have hshift : a <<< 1 = b <<< 1 := by simpa [crc8Shift_eq, hmsb] using hab
  refine BitVec.eq_of_getLsbD_eq fun i hi => ?_
  by_cases htop : i = 7
  · subst htop
    simpa [BitVec.msb_eq_getLsbD_last] using hmsb
  · have hbit := congrArg (·.getLsbD (i + 1)) hshift
    simpa [hi, show i + 1 < 8 by omega] using hbit

theorem crc8Entry_injective {poly : Byte} (hpoly : poly.getLsbD 0 = true) : Function.Injective (crc8Entry poly) := by
  have h := (crc8Shift_injective hpoly).iterate 8
  exact fun a b hab => h (by simpa only [crc8Entry, times_eq_iterate] using hab)

/-! ### The 8-bit CRC (R141 to R144) -/

@[simp] theorem crc8Bitwise_nil (poly s : Byte) : crc8Bitwise poly s [] = s := rfl

@[simp] theorem crc8Bitwise_cons (poly s b : Byte) (bs : List Byte) :
    crc8Bitwise poly s (b :: bs) = crc8Bitwise poly (crc8Entry poly (s ^^^ b)) bs := rfl

/-- R144 (b). -/
theorem crc8Bitwise_append (poly s : Byte) (a b : List Byte) :
    crc8Bitwise poly s (a ++ b) = crc8Bitwise poly (crc8Bitwise poly s a) b := List.foldl_append

/-- R144 (g). -/
theorem crc8Bitwise_leading_zero (poly : Byte) (a : List Byte) : crc8Bitwise poly 0 (0 :: a) = crc8Bitwise poly 0 a := by
  rw [crc8Bitwise_cons, BitVec.xor_self, crc8Entry_zero]
  rfl

/-- R144 (c). -/
theorem crc8Bitwise_xor (poly : Byte) {a b : List Byte} (hlen : a.length = b.length) (s t : Byte) :
    crc8Bitwise poly (s ^^^ t) (List.zipWith (· ^^^ ·) a b) = crc8Bitwise poly s a ^^^ crc8Bitwise poly t b := by
  induction a generalizing b s t with
  | nil =>
    obtain rfl : b = [] := List.length_eq_zero_iff.mp hlen.symm
    rfl
  | cons x a ih =>
    cases b with
    | nil => simp at hlen
    | cons y b =>
      have hbyte : s ^^^ t ^^^ (x ^^^ y) = (s ^^^ x) ^^^ (t ^^^ y) := by ac_rfl
      simp only [List.zipWith_cons_cons, crc8Bitwise_cons, hbyte, crc8Entry_xor]
      exact ih (by simpa using hlen) _ _

/-- R144 (d). -/
theorem crc8Bitwise_residue (poly s : Byte) (a : List Byte) : crc8Bitwise poly s (a ++ [crc8Bitwise poly s a]) = 0 := by
  rw [crc8Bitwise_append, crc8Bitwise_cons, BitVec.xor_self, crc8Entry_zero]
  rfl

theorem crc8Bitwise_seed_injective {poly : Byte} (hpoly : poly.getLsbD 0 = true) (bs : List Byte) :
    Function.Injective (crc8Bitwise poly · bs) := by
  induction bs with
  | nil => exact fun _ _ h => h
  | cons b bs ih => exact fun s t h => BitVec.xor_left_inj b |>.mp (crc8Entry_injective hpoly (ih h))

/-- R144 (e). -/
theorem crc8Bitwise_ne_of_byte_ne {poly : Byte} (hpoly : poly.getLsbD 0 = true) (a b : List Byte) {x y : Byte} (s : Byte)
    (hxy : x ≠ y) : crc8Bitwise poly s (a ++ x :: b) ≠ crc8Bitwise poly s (a ++ y :: b) := by
  intro h
  simp only [crc8Bitwise_append, crc8Bitwise_cons] at h
  have hentry := crc8Entry_injective hpoly (crc8Bitwise_seed_injective hpoly b h)
  exact hxy ((BitVec.xor_right_inj _).mp hentry)

/-- Settles O14: chaining is the fold's, linearity and the residue the register's, sensitivity its injectivity. -/
theorem crc8Laws : Obligations.Crc8Laws := fun poly =>
  ⟨fun a b s => crc8Bitwise_append poly s a b, fun _ _ s t hlen => crc8Bitwise_xor poly hlen s t,
    fun a s => crc8Bitwise_residue poly s a, fun hpoly a b _ _ s hxy => crc8Bitwise_ne_of_byte_ne hpoly a b s hxy,
    crc8Bitwise_leading_zero poly⟩

/-- Settles O13: the table's entry at a byte is the register after that byte's eight steps. -/
theorem crc8IsTheBitwiseCrc : Obligations.Crc8IsTheBitwiseCrc := by
  intro s htab
  refine ⟨fun buf seed => ⟨⟨_, rfl⟩, ?_⟩, fun b => ⟨⟨_, rfl⟩, ?_⟩⟩
  · show execCrc8Buf buf seed s = _
    rw [execCrc8Buf, crc8_eq_bitwise htab]
  · show execCrc8Byte b s = _
    rw [execCrc8Byte, htab, tabAt_crc8Table]
    simp

/-! ### The mask of N bits (R146) -/

theorem getLsbD_maskN {n : Nat} (hn : n ≤ 16) (i : Nat) : (maskN n).getLsbD i = decide (i < n) := by
  simp only [maskN, BitVec.getLsbD_ofNat, Nat.testBit_two_pow_sub_one, Bool.and_eq_right_iff_imp, decide_eq_true_eq]
  omega

theorem and_maskN_lt (c : Half) {n : Nat} (hn : n ≤ 16) : (c &&& maskN n).toNat < 2 ^ n := by
  refine Nat.lt_pow_two_of_testBit _ fun i hi => ?_
  rw [← BitVec.getLsbD, BitVec.getLsbD_and, getLsbD_maskN hn]
  simp [hi]

theorem getLsbD_of_toNat_lt {c : Half} {n i : Nat} (hc : c.toNat < 2 ^ n) (hi : n ≤ i) : c.getLsbD i = false :=
  Nat.testBit_lt_two_pow (hc.trans_le (Nat.pow_le_pow_right (by decide) hi))

theorem and_maskN_of_lt {c : Half} {n : Nat} (hn : n ≤ 16) (hc : c.toNat < 2 ^ n) : c &&& maskN n = c := by
  refine BitVec.eq_of_getLsbD_eq fun i _ => ?_
  rw [BitVec.getLsbD_and, getLsbD_maskN hn]
  by_cases hi : i < n
  · simp [hi]
  · simp [getLsbD_of_toNat_lt hc (Nat.le_of_not_lt hi)]

theorem xor_and_maskN (a b : Half) (n : Nat) : (a ^^^ b) &&& maskN n = (a &&& maskN n) ^^^ (b &&& maskN n) :=
  BitVec.eq_of_getLsbD_eq fun i _ => by simp only [BitVec.getLsbD_and, BitVec.getLsbD_xor, Bool.and_xor_distrib_right]

/-! ### The N-bit shift register (R146, R148) -/

theorem crcnShift_eq (n : Nat) (p c : Half) :
    crcnShift n p c = ((c <<< 1) ^^^ (if c.getLsbD (n - 1) = true then p else 0)) &&& maskN n := by
  unfold crcnShift
  split <;> simp

theorem crcnShift_xor (n : Nat) (p a b : Half) : crcnShift n p (a ^^^ b) = crcnShift n p a ^^^ crcnShift n p b := by
  simp only [crcnShift_eq, BitVec.getLsbD_xor, feedback_xor, BitVec.shiftLeft_xor_distrib, xor_and_maskN]
  ac_rfl

theorem times_crcnShift_lt {n : Nat} (hn : n ≤ 16) (p : Half) (k : Nat) (c : Half) :
    (times (crcnShift n p) (k + 1) c).toNat < 2 ^ n := by
  rw [times_eq_iterate, Function.iterate_succ_apply', crcnShift_eq]
  exact and_maskN_lt _ hn

/-- Nothing falls out of the register while its content stays below bit N: the polynomial has no part in these steps. -/
theorem times_crcnShift_of_lt {n : Nat} (hn : n ≤ 16) (p : Half) {k : Nat} (hk : k ≤ n) {c : Half}
    (hc : c.toNat < 2 ^ (n - k)) : times (crcnShift n p) k c = c <<< k := by
  induction k generalizing c with
  | zero => simp [times]
  | succ k ih =>
    have hdouble : 2 ^ (n - k) = 2 * 2 ^ (n - (k + 1)) := by rw [← Nat.pow_succ']; congr 1; omega
    have hwidth : 2 ^ (n - k) ≤ 2 ^ n := Nat.pow_le_pow_right (by decide) (by omega)
    have hhalf : 2 ^ n ≤ 2 ^ 16 := Nat.pow_le_pow_right (by decide) hn
    have hnext : (c <<< 1).toNat < 2 ^ (n - k) := by
      rw [BitVec.toNat_shiftLeft, Nat.shiftLeft_eq]
      exact (Nat.mod_le _ _).trans_lt (by omega)
    have hstep : crcnShift n p c = c <<< 1 := by
      rw [crcnShift_eq, getLsbD_of_toNat_lt hc (by omega)]
      simpa using and_maskN_of_lt hn (hnext.trans_le hwidth)
    rw [times, hstep, ih (by omega) hnext, ← BitVec.shiftLeft_add, Nat.add_comm]

/-! ### One byte of the N-bit CRC (R147, R148)

The register splits into the bits that fall out in eight steps, which the byte meets and the table knows, and the bits
below, which only move up. -/

/-- R148: one byte taken a bit at a time. -/
def crcnByte (n : Nat) (poly c : Half) (b : Byte) : Half :=
  times (crcnShift n (poly &&& maskN n)) 8 (c ^^^ ((b.setWidth 16 : Half) <<< (n - 8)))

/-- R147: one byte taken through the table. -/
def crcnTabByte (tab : List Half) (n : Nat) (c : Half) (b : Byte) : Half :=
  ((c <<< 8) ^^^ tabAt tab (crcnIndex n c b)) &&& maskN n

theorem crcnBitwise_eq_foldl (n : Nat) (poly seed : Half) (buf : List Byte) :
    crcnBitwise n poly seed buf = buf.foldl (crcnByte n poly) (seed &&& maskN n) := rfl

theorem crcnFold_eq_foldl (tab : List Half) (n : Nat) (seed : Half) (buf : List Byte) :
    crcnFold tab n seed buf = buf.foldl (crcnTabByte tab n) (seed &&& maskN n) := rfl

theorem crcnByte_lt {n : Nat} (hn : n ≤ 16) (poly c : Half) (b : Byte) : (crcnByte n poly c b).toNat < 2 ^ n :=
  times_crcnShift_lt hn _ 7 _

theorem tabAt_crcnTable (n : Nat) (poly : Half) (i : Byte) : tabAt (crcnTable n poly) i = crcnEntry n poly i.toNat := by
  have hi := i.isLt
  simp [tabAt, crcnTable, List.getD_eq_getElem?_getD, hi]

theorem crcnEntry_toNat {n : Nat} (hlo : 8 ≤ n) (hn : n ≤ 16) (poly : Half) (i : Byte) :
    crcnEntry n poly i.toNat = times (crcnShift n (poly &&& maskN n)) 8 ((i.setWidth 16 : Half) <<< (n - 8)) := by
  have hword : BitVec.ofNat 16 i.toNat = i.setWidth 16 := BitVec.ofNat_toNat 16 i
  have hbelow : ((i.setWidth 16 : Half) <<< (n - 8)) &&& maskN n = (i.setWidth 16 : Half) <<< (n - 8) := by
    refine BitVec.eq_of_getLsbD_eq fun j hj => ?_
    rw [BitVec.getLsbD_and, getLsbD_maskN hn]
    by_cases hjn : j < n
    · simp [hjn]
    · simp [BitVec.getLsbD_of_ge i (j - (n - 8)) (by omega)]
  rw [crcnEntry, hword, hbelow]

/-- A register of N bits met by a byte, as its low part and the table index. -/
theorem xor_byte_eq_low_xor_index {n : Nat} (hlo : 8 ≤ n) (hn : n ≤ 16) {c : Half} (hc : c.toNat < 2 ^ n) (b : Byte) :
    c ^^^ ((b.setWidth 16 : Half) <<< (n - 8))
      = (c &&& maskN (n - 8)) ^^^ (((crcnIndex n c b).setWidth 16 : Half) <<< (n - 8)) := by
  refine BitVec.eq_of_getLsbD_eq fun i hi => ?_
  simp only [crcnIndex, BitVec.getLsbD_xor, BitVec.getLsbD_and, BitVec.getLsbD_shiftLeft, BitVec.getLsbD_setWidth,
    BitVec.getLsbD_ushiftRight, getLsbD_maskN (show n - 8 ≤ 16 by omega)]
  by_cases hlow : i < n - 8
  · simp [hlow]
  · have hplace : n - 8 + (i - (n - 8)) = i := by omega
    by_cases hin : i < n
    · simp [hlow, hi, hplace, show i - (n - 8) < 8 by omega, show i - (n - 8) < 16 by omega]
    · simp [hlow, hplace, getLsbD_of_toNat_lt hc (Nat.le_of_not_lt hin), show ¬ i - (n - 8) < 8 by omega]

theorem shiftLeft_and_maskN {n : Nat} (hlo : 8 ≤ n) (hn : n ≤ 16) (c : Half) :
    (c <<< 8) &&& maskN n = (c &&& maskN (n - 8)) <<< 8 := by
  refine BitVec.eq_of_getLsbD_eq fun i hi => ?_
  simp only [BitVec.getLsbD_and, BitVec.getLsbD_shiftLeft, getLsbD_maskN hn, getLsbD_maskN (show n - 8 ≤ 16 by omega)]
  by_cases hmoved : i < 8
  · simp [hmoved]
  · simp [hmoved, hi, show i - 8 < n - 8 ↔ i < n by omega]

/-- R148, one byte. -/
theorem crcnTabByte_eq_crcnByte {n : Nat} (hlo : 8 ≤ n) (hn : n ≤ 16) (poly : Half) {c : Half} (hc : c.toNat < 2 ^ n)
    (b : Byte) : crcnTabByte (crcnTable n poly) n c b = crcnByte n poly c b := by
  have hentry : crcnEntry n poly (crcnIndex n c b).toNat &&& maskN n = crcnEntry n poly (crcnIndex n c b).toNat :=
    and_maskN_of_lt hn (times_crcnShift_lt hn _ 7 _)
  have hlow : times (crcnShift n (poly &&& maskN n)) 8 (c &&& maskN (n - 8)) = (c &&& maskN (n - 8)) <<< 8 :=
    times_crcnShift_of_lt hn _ hlo (and_maskN_lt c (by omega))
  calc crcnTabByte (crcnTable n poly) n c b
      = ((c <<< 8) &&& maskN n) ^^^ crcnEntry n poly (crcnIndex n c b).toNat := by
        rw [crcnTabByte, tabAt_crcnTable, xor_and_maskN, hentry]
    _ = times (crcnShift n (poly &&& maskN n)) 8 (c &&& maskN (n - 8))
          ^^^ times (crcnShift n (poly &&& maskN n)) 8 (((crcnIndex n c b).setWidth 16 : Half) <<< (n - 8)) := by
        rw [shiftLeft_and_maskN hlo hn, hlow, crcnEntry_toNat hlo hn]
    _ = crcnByte n poly c b := by
        rw [← times_xor (crcnShift_xor n _), ← xor_byte_eq_low_xor_index hlo hn hc, crcnByte]

/-! ### The N-bit CRC (R147, R148) -/

/-- Through the table of the pair the CRC is the one taken a bit at a time (R148). -/
theorem crcnFold_eq_bitwise {n : Nat} (hlo : 8 ≤ n) (hn : n ≤ 16) (poly seed : Half) (buf : List Byte) :
    crcnFold (crcnTable n poly) n seed buf = crcnBitwise n poly seed buf := by
  rw [crcnFold_eq_foldl, crcnBitwise_eq_foldl]
  have hstart := and_maskN_lt seed hn
  generalize seed &&& maskN n = c at hstart
  induction buf generalizing c with
  | nil => rfl
  | cons b bs ih =>
    rw [List.foldl_cons, List.foldl_cons, crcnTabByte_eq_crcnByte hlo hn poly hstart]
    exact ih _ (crcnByte_lt hn poly c b)

theorem crcnBitwise_lt {n : Nat} (hn : n ≤ 16) (poly seed : Half) (buf : List Byte) :
    (crcnBitwise n poly seed buf).toNat < 2 ^ n := by
  rw [crcnBitwise_eq_foldl]
  exact List.foldlRecOn buf (crcnByte n poly) (motive := fun c => c.toNat < 2 ^ n) (and_maskN_lt seed hn)
    fun c _ b _ => crcnByte_lt hn poly c b

/-! ### The lazy table (R146) -/

/-- The engine with the configured pair's table and its tag. -/
def crcnBuilt (c : CrcState) : CrcState :=
  { c with tabN := crcnTable c.bits c.poly, tabBits := c.bits, tabPoly := c.poly, tabValid := true }

theorem crcnStale_eq_false {c : CrcState} :
    crcnStale c = false ↔ c.tabValid = true ∧ c.tabBits = c.bits ∧ c.tabPoly = c.poly := by
  simp [crcnStale, and_assoc]

/-- A table that is not stale is already the configured pair's. -/
theorem crcnBuilt_of_fresh {cfg : Config} {c : CrcState} (hok : CrcOk cfg c) (hfresh : crcnStale c = false) :
    crcnBuilt c = c := by
  obtain ⟨_, bits, poly, _, tabBits, tabPoly, tabValid⟩ := c
  obtain ⟨rfl, rfl, rfl⟩ : tabValid = true ∧ tabBits = bits ∧ tabPoly = poly := crcnStale_eq_false.mp hfresh
  rw [crcnBuilt, ← hok.tabN rfl]

theorem crcnRebuild_eq {s : State} (hok : CrcOk s.cfg s.crc) : crcnRebuild s = { s with crc := crcnBuilt s.crc } := by
  unfold crcnRebuild
  split
  next => rfl
  next hfresh => rw [crcnBuilt_of_fresh hok (by simpa using hfresh)]

/-! ### The operations (R145, R147, R150) -/

theorem CrcOk.configured {cfg : Config} {c : CrcState} (hok : CrcOk cfg c) (hbits : c.bits ≠ 0) :
    9 ≤ c.bits ∧ c.bits ≤ 16 := hok.bits.resolve_left hbits

/-- R147 with a configured pair: the table is built first, whatever the polynomial. -/
theorem execCrcnCalc_configured {s : State} (hok : CrcOk s.cfg s.crc) (hbits : s.crc.bits ≠ 0) (buf : List Byte)
    (seed : Half) :
    execCrcnCalc buf seed s =
      if s.crc.poly &&& maskN s.crc.bits = 0 then
        .next (reply (.crcn (Config.freeCrc s.env.drawn &&& maskN s.crc.bits)) (drawn { s with crc := crcnBuilt s.crc }))
      else
        .next (reply (.crcn (crcnFold (crcnTable s.crc.bits s.crc.poly) s.crc.bits seed buf))
          { s with crc := crcnBuilt s.crc }) := by
  obtain ⟨hmin, hmax⟩ := hok.configured hbits
  rw [execCrcnCalc, if_neg (not_or.mpr ⟨hmin.not_gt, hmax.not_gt⟩), crcnRebuild_eq hok]
  simp only [crcnPolyZero, crcnBuilt, beq_iff_eq]

/-- Settles O16: the fold through the built table, whatever the table was before, is the bitwise CRC. -/
theorem crcnIsTheBitwiseCrc : Obligations.CrcnIsTheBitwiseCrc := by
  intro s buf seed hok hbits hpoly
  obtain ⟨hmin, hmax⟩ := hok.configured hbits
  refine ⟨?_, crcnBitwise_lt hmax _ _ _⟩
  show execCrcnCalc buf seed s = _
  rw [execCrcnCalc_configured hok hbits, if_neg hpoly, crcnFold_eq_bitwise (by omega) hmax]
  rfl

/-- Settles O17: the value drawn is cut to N bits; without a configured width the operation's guard refuses. -/
theorem crcnWithoutPolynomial : Obligations.CrcnWithoutPolynomial := by
  refine ⟨fun s buf seed hok hbits hpoly => ?_, fun s buf seed hbits => ?_⟩
  · refine ⟨Config.freeCrc s.env.drawn &&& maskN s.crc.bits, and_maskN_lt _ (hok.configured hbits).2, ?_⟩
    show execCrcnCalc buf seed s = _
    rw [execCrcnCalc_configured hok hbits, if_pos hpoly]
    rfl
  · show execCrcnCalc buf seed s = _
    rw [execCrcnCalc, if_pos (.inl (by rw [hbits]; decide))]

/-- Settles O15: by the operation's guard. -/
theorem crcnConfigRecordsThePair : Obligations.CrcnConfigRecordsThePair := by
  refine fun s bits poly => ⟨⟨_, rfl⟩, fun hmin hmax => ?_, fun hout => ?_⟩ <;> show execCrcnConfig bits poly s = _
  · rw [execCrcnConfig, if_neg (by simp only [crcnMin, crcnMax]; omega)]
  · rw [execCrcnConfig, if_pos hout]

end Sys2Proof.Machine

/-! The frame codec's statements (41_frame_codec R160 to R162, R165 to R169, R171): header, frame CRC, channel packing, the
encoders and the version word. -/

namespace Sys2Proof.Machine

/-! ### The frame's CRC (R104, R161, R162) -/

/-- In a buffer `address size body crc rest` with the length ending at `crc`, the covered bytes are the body. -/
theorem crcCovered_split (address size crc : Byte) (body rest : List Byte) :
    crcCovered ([address, size] ++ body ++ crc :: rest) (body.length + 3) = body := by
  simp [crcCovered]

theorem crcByteOf_split (address size crc : Byte) (body rest : List Byte) :
    crcByteOf ([address, size] ++ body ++ crc :: rest) (body.length + 3) = crc := by
  simp [crcByteOf]

theorem frameCrc_split {s : State} (htab : s.crc.tab8 = crc8Table s.cfg.crc8Poly) (address size crc : Byte)
    (body rest : List Byte) :
    frameCrc s ([address, size] ++ body ++ crc :: rest) (body.length + 3)
      = crc8Bitwise s.cfg.crc8Poly s.cfg.crc8Seed body := by
  rw [frameCrc, crcCovered_split, crc8_eq_bitwise htab]

theorem lengthInDomain_iff {buf : List Byte} {n : Nat} : lengthInDomain buf n = true ↔ 3 ≤ n ∧ n ≤ buf.length := by
  simp [lengthInDomain]

theorem lengthInDomain_split (address size crc : Byte) (body rest : List Byte) :
    lengthInDomain ([address, size] ++ body ++ crc :: rest) (body.length + 3) = true :=
  lengthInDomain_iff.mpr ⟨by omega, by simp⟩

/-- R161 over a split buffer. -/
theorem exec_computeCrc_split {s : State} (htab : s.crc.tab8 = crc8Table s.cfg.crc8Poly) (address size crc : Byte)
    (body rest : List Byte) :
    exec (.computeCrc ([address, size] ++ body ++ crc :: rest) (body.length + 3)) s
      = .next (reply (.byte (crc8Bitwise s.cfg.crc8Poly s.cfg.crc8Seed body)) s) := by
  show execComputeCrc _ _ s = _
  rw [execComputeCrc, if_pos (lengthInDomain_split ..), frameCrc_split htab]

/-- R162 over a split buffer. -/
theorem exec_isValid_split {s : State} (htab : s.crc.tab8 = crc8Table s.cfg.crc8Poly) (address size crc : Byte)
    (body rest : List Byte) :
    exec (.isValid ([address, size] ++ body ++ crc :: rest) (body.length + 3)) s
      = .next (reply (.flag (crc8Bitwise s.cfg.crc8Poly s.cfg.crc8Seed body == crc)) s) := by
  show execIsValid _ _ s = _
  rw [execIsValid, if_pos (lengthInDomain_split ..), frameValid, frameCrc_split htab, crcByteOf_split]

/-- Settles O19: the covered bytes of the split buffer are its body; other lengths fail the operations' guard. -/
theorem frameCrcCoversTypeToPayload : Obligations.FrameCrcCoversTypeToPayload := by
  refine fun s htab => ⟨fun address size crc body rest => ⟨exec_computeCrc_split htab .., exec_isValid_split htab ..⟩,
    fun buf n => ⟨⟨_, rfl⟩, ⟨_, rfl⟩, fun hout => ?_⟩⟩
  have hguard : ¬ lengthInDomain buf n = true := by rw [lengthInDomain_iff]; omega
  exact ⟨if_neg hguard, if_neg hguard⟩

/-- Whoever issued the operation can tell its answers apart. -/
theorem next_reply_inj {a b : Reply} {s : State} :
    (Host.Outcome.next (reply a s) : Out) = .next (reply b s) ↔ a = b := by
  simp [reply]

/-- Settles O20: valid means that the CRC of the covered bytes is the CRC byte; that CRC changes with any one covered
byte. -/
theorem oneChangedByteIsDetected : Obligations.OneChangedByteIsDetected := by
  intro s address size crc x y a b rest htab hpoly hvalid
  have hlen (z : Byte) : a.length + b.length + 4 = (a ++ z :: b).length + 3 := by simp; omega
  rw [hlen x, exec_isValid_split htab, next_reply_inj, Reply.flag.injEq, beq_iff_eq] at hvalid
  refine ⟨fun hxy => ?_, fun hcrc => ?_⟩
  · have hne := crc8Bitwise_ne_of_byte_ne hpoly a b s.cfg.crc8Seed hxy
    rw [hlen y, exec_isValid_split htab, beq_false_of_ne (hvalid ▸ hne.symm)]
  · rw [hlen x, exec_isValid_split htab, hvalid, beq_false_of_ne hcrc]

/-! ### The channels of a bit stream (R77, R165) -/

/-- The first `n` channels of the bit stream `S`, channel `k` being `(S >> 11k) and 0x7FF` (R77). -/
def streamChannels (n S : Nat) : List Chan := (List.range n).map fun k => BitVec.ofNat 11 (S >>> (11 * k))

theorem streamChannels_succ (n S : Nat) :
    streamChannels (n + 1) S = BitVec.ofNat 11 S :: streamChannels n (S >>> 11) := by
  rw [streamChannels, List.range_succ_eq_map, List.map_cons, List.map_map]
  congr 1
  refine List.map_congr_left fun k _ => ?_
  rw [Function.comp, ← Nat.shiftRight_add, Nat.mul_succ, Nat.add_comm]

/-- R165 with a payload long enough. -/
theorem exec_unpackChannels {s : State} {p : List Byte} (hlen : (11 * s.cfg.numCh + 7) / 8 ≤ p.length) :
    exec (.unpackChannels p) s = .next (reply (.channels (streamChannels s.cfg.numCh (payloadNat p))) s) := by
  have hchannels : unpackChannels s.cfg.numCh p = streamChannels s.cfg.numCh (payloadNat p) := by
    rw [unpackChannels, unpackFrom_eq Nat.one_pos (by simp only [chBits]; omega)]
    simp [streamChannels, bitsAhead]
  have hlong : ¬ p.length < chBytes s.cfg := Nat.not_lt.mpr hlen
  show execUnpackChannels p s = _
  rw [execUnpackChannels, if_neg hlong, hchannels]

/-- Settles O21: the decoder's loop in closed form, from an empty register on. -/
theorem unpackingReadsTheBitStream : Obligations.UnpackingReadsTheBitStream :=
  fun _ _ => ⟨⟨_, rfl⟩, exec_unpackChannels, fun hshort => if_pos hshort⟩

/-! ### The bit stream of channel values (R166) -/

/-- The low 11 bits of each value, the first value lowest, as one number. -/
def valueStream (v : List Nat) : Nat := Nat.ofDigits 2048 (v.map (· % 2048))

@[simp] theorem valueStream_nil : valueStream [] = 0 := rfl

@[simp] theorem valueStream_cons (x : Nat) (v : List Nat) : valueStream (x :: v) = x % 2048 + 2048 * valueStream v := by
  simp [valueStream, Nat.ofDigits_cons]

/-- Spilling moves whole bytes out of the register, the lowest first, until fewer than 8 bits are left. -/
theorem spillRegister_spec {fuel acc n : Nat} (hacc : acc < 2 ^ n) (hfuel : n ≤ fuel) :
    ∃ bs acc' n', spillRegister fuel acc n = (bs, acc', n') ∧ acc' < 2 ^ n' ∧ n' < 8 ∧ 8 * bs.length + n' = n
      ∧ payloadNat bs + 2 ^ (8 * bs.length) * acc' = acc := by
  induction fuel generalizing acc n with
  | zero => exact ⟨[], acc, n, rfl, hacc, by omega, by simp, by simp [payloadNat]⟩
  | succ fuel ih =>
    rw [spillRegister]
    split
    next hn =>
      have hshift : acc >>> 8 < 2 ^ (n - 8) := by
        rw [Nat.shiftRight_eq_div_pow, Nat.div_lt_iff_lt_mul (Nat.two_pow_pos _), ← Nat.pow_add, Nat.sub_add_cancel hn]
        exact hacc
      obtain ⟨bs, acc', n', hspill, hlt, hn', hcount, hstream⟩ := ih hshift (by omega)
      refine ⟨BitVec.ofNat 8 acc :: bs, acc', n', by rw [hspill], hlt, hn', by simp; omega, ?_⟩
      have hpow : 2 ^ (8 * (bs.length + 1)) = 256 * 2 ^ (8 * bs.length) := by rw [Nat.mul_succ, Nat.pow_add]; omega
      rw [payloadNat, List.length_cons, hpow, BitVec.toNat_ofNat, Nat.mul_assoc, Nat.add_assoc, ← Nat.mul_add, hstream,
        Nat.shiftRight_eq_div_pow]
      exact Nat.mod_add_div acc 256
    next hn => exact ⟨[], acc, n, rfl, hacc, by omega, by simp, by simp [payloadNat]⟩

/-- R166's outer loop: a value joins the register above its bits, and whole bytes leave it. -/
theorem packFrom_cons {acc n v acc' n' : Nat} {bs : List Byte} (vs : List Nat)
    (h : spillRegister (n + chBits) (acc ||| ((v % 2 ^ chBits) <<< n)) (n + chBits) = (bs, acc', n')) :
    packFrom acc n (v :: vs) = bs ++ packFrom acc' n' vs := by
  rw [packFrom, h]

/-- R166's loop in closed form: the register's `n` bits, then the values' low 11 bits, then zero padding. -/
theorem packFrom_spec {acc n : Nat} (vs : List Nat) (hacc : acc < 2 ^ n) (hn : n < 8) :
    (packFrom acc n vs).length = (n + 11 * vs.length + 7) / 8
      ∧ payloadNat (packFrom acc n vs) = acc + 2 ^ n * valueStream vs := by
  induction vs generalizing acc n with
  | nil =>
    rw [packFrom]
    split
    next hpos =>
      have hbyte : acc < 256 := hacc.trans (Nat.pow_lt_pow_right Nat.one_lt_two hn)
      exact ⟨by simp; omega, by simp [payloadNat, Nat.mod_eq_of_lt hbyte]⟩
    next hzero =>
      obtain rfl : n = 0 := by omega
      exact ⟨by simp, by simp [payloadNat]; omega⟩
  | cons v vs ih =>
    have hv : v % 2048 < 2048 := Nat.mod_lt v (by decide)
    have hpow : 2 ^ (n + 11) = 2 ^ n * 2048 := Nat.pow_add 2 n 11
    have hjoin : acc ||| ((v % 2048) <<< n) = acc + 2 ^ n * (v % 2048) := by
      rw [Nat.or_comm, Nat.shiftLeft_eq, Nat.mul_comm, ← Nat.two_pow_add_eq_or_of_lt hacc, Nat.add_comm]
    have hreg : acc + 2 ^ n * (v % 2048) < 2 ^ (n + 11) := by rw [hpow]; nlinarith
    obtain ⟨bs, acc', n', hspill, hlt, hn', hcount, hstream⟩ := spillRegister_spec hreg le_rfl
    have hpack : packFrom acc n (v :: vs) = bs ++ packFrom acc' n' vs := packFrom_cons vs (hjoin ▸ hspill)
    obtain ⟨hlen, hrest⟩ := ih hlt hn'
    refine ⟨by rw [hpack, List.length_append, hlen, List.length_cons]; omega, ?_⟩
    calc payloadNat (packFrom acc n (v :: vs))
        = payloadNat bs + 2 ^ (8 * bs.length) * (acc' + 2 ^ n' * valueStream vs) := by
          rw [hpack, payloadNat_append, hrest]
      _ = payloadNat bs + 2 ^ (8 * bs.length) * acc' + 2 ^ (8 * bs.length + n') * valueStream vs := by
          rw [Nat.pow_add]; ring
      _ = acc + 2 ^ n * valueStream (v :: vs) := by rw [hstream, hcount, hpow, valueStream_cons]; ring

theorem packChannels_length (v : List Nat) : (packChannels v).length = (11 * v.length + 7) / 8 := by
  simpa [packChannels] using (packFrom_spec (acc := 0) (n := 0) v Nat.one_pos (by decide)).1

theorem payloadNat_packChannels (v : List Nat) : payloadNat (packChannels v) = valueStream v := by
  simpa [packChannels] using (packFrom_spec (acc := 0) (n := 0) v Nat.one_pos (by decide)).2

/-- R166 with `NUM_CH` values. -/
theorem exec_packChannels {s : State} {v : List Nat} (hlen : v.length = s.cfg.numCh) :
    exec (.packChannels v) s = .next (reply (.bytes (packChannels v)) s) := if_pos hlen

/-- Settles O22: the encoder's loop in closed form, from an empty register on. -/
theorem packingWritesTheBitStream : Obligations.PackingWritesTheBitStream := fun _ v =>
  ⟨⟨_, rfl⟩, fun hlen => ⟨packChannels v, exec_packChannels hlen, hlen ▸ packChannels_length v, payloadNat_packChannels v⟩,
    fun hlen => if_neg hlen⟩

/-! ### The round trip (R167) -/

/-- The stream of some values holds these values' low 11 bits as its channels. -/
theorem streamChannels_valueStream (v : List Nat) :
    streamChannels v.length (valueStream v) = v.map (BitVec.ofNat 11) := by
  induction v with
  | nil => rfl
  | cons x v ih =>
    have hlow : BitVec.ofNat 11 (valueStream (x :: v)) = BitVec.ofNat 11 x :=
      BitVec.eq_of_toNat_eq (by simp)
    have hhigh : valueStream (x :: v) >>> 11 = valueStream v := by
      rw [valueStream_cons, Nat.shiftRight_eq_div_pow]; omega
    rw [List.length_cons, streamChannels_succ, hlow, hhigh, ih, List.map_cons]

/-- A stream of `n` channels and zero padding is the stream of its channels. -/
theorem valueStream_streamChannels {n S : Nat} (hS : S < 2 ^ (11 * n)) :
    valueStream ((streamChannels n S).map BitVec.toNat) = S := by
  induction n generalizing S with
  | zero =>
    obtain rfl : S = 0 := by simpa using hS
    rfl
  | succ n ih =>
    have hpow : 2 ^ (11 * (n + 1)) = 2048 * 2 ^ (11 * n) := by rw [Nat.mul_succ, Nat.pow_add]; omega
    have hhigh : S >>> 11 < 2 ^ (11 * n) := by rw [Nat.shiftRight_eq_div_pow]; omega
    rw [streamChannels_succ, List.map_cons, valueStream_cons, ih hhigh, BitVec.toNat_ofNat, Nat.shiftRight_eq_div_pow]
    omega

/-- A bit stream and its number of bytes determine the bytes. -/
theorem payloadNat_injective {as bs : List Byte} (hlen : as.length = bs.length) (h : payloadNat as = payloadNat bs) :
    as = bs := by
  induction as generalizing bs with
  | nil => exact (List.length_eq_zero_iff.mp hlen.symm).symm
  | cons a as ih =>
    cases bs with
    | nil => simp at hlen
    | cons b bs =>
      have ha := a.isLt
      have hb := b.isLt
      rw [payloadNat, payloadNat] at h
      rw [BitVec.eq_of_toNat_eq (show a.toNat = b.toNat by omega), ih (by simpa using hlen) (by omega)]

/-- Settles O23: both operations go through the one bit stream, which determines values and padded bytes alike. -/
theorem channelsRoundTrip : Obligations.ChannelsRoundTrip := by
  refine fun s => ⟨fun v hlen _ => ⟨packChannels v, exec_packChannels hlen, ?_⟩,
    fun p hlen hpad => ⟨streamChannels s.cfg.numCh (payloadNat p), exec_unpackChannels hlen.ge, ?_⟩⟩
  · rw [exec_unpackChannels (by rw [packChannels_length, hlen]), payloadNat_packChannels, ← hlen,
      streamChannels_valueStream]
  · have hcount : ((streamChannels s.cfg.numCh (payloadNat p)).map BitVec.toNat).length = s.cfg.numCh := by
      simp [streamChannels]
    have hbytes : packChannels ((streamChannels s.cfg.numCh (payloadNat p)).map BitVec.toNat) = p :=
      payloadNat_injective (by rw [packChannels_length, hcount, hlen])
        (by rw [payloadNat_packChannels, valueStream_streamChannels hpad])
    rw [exec_packChannels hcount, hbytes]

/-! ### The encoders (R168, R171) -/

/-- A built frame is valid at its own length: its last byte is the CRC of its body (R104). -/
theorem exec_isValid_builtFrame {s : State} (htab : s.crc.tab8 = crc8Table s.cfg.crc8Poly) (type dest orig : Byte)
    (payload : List Byte) :
    exec (.isValid (builtFrame s.cfg type dest orig payload) (payload.length + 6)) s = .next (reply (.flag true) s) := by
  have h := exec_isValid_split htab dest (BitVec.ofNat 8 (payload.length + 4))
    (crc8Bitwise s.cfg.crc8Poly s.cfg.crc8Seed ([type, dest, orig] ++ payload)) ([type, dest, orig] ++ payload) []
  rwa [beq_self_eq_true] at h

/-- R168 on its domain, the CRC a bit at a time. -/
theorem execEncodeExt_ok {s : State} (htab : s.crc.tab8 = crc8Table s.cfg.crc8Poly) (type dest orig : Byte)
    {payload : List Byte} (hlen : payload.length ≤ 58) :
    execEncodeExt type dest orig payload s = .next (reply (.bytes (builtFrame s.cfg type dest orig payload)) s) := by
  rw [execEncodeExt, encodeExt, if_neg (Nat.not_lt.mpr hlen), andThen_ok, finish_ok, extFrame_eq_builtFrame htab]

/-- Settles O24: the encoder's frame in the bitwise form, which ends in the CRC of its body. -/
theorem extendedFrameIsBuilt : Obligations.ExtendedFrameIsBuilt := by
  refine fun s type dest orig payload htab => ⟨⟨_, rfl⟩,
    fun hlen => ⟨execEncodeExt_ok htab type dest orig hlen, exec_isValid_builtFrame htab type dest orig payload⟩,
    fun hlong => ?_⟩
  show execEncodeExt type dest orig payload s = _
  rw [execEncodeExt, encodeExt, if_pos hlong]
  rfl

/-! ### The version word (R169) -/

theorem packVersion_zero (minor patch : Nat) : packVersion 0 minor patch = 0x010000 := rfl

/-- Fields clamped to 8 bits do not meet in the packed word, so joining them is adding them. -/
theorem packVersion_of_ne_zero {major : Nat} (h : major ≠ 0) (minor patch : Nat) :
    packVersion major minor patch = min major 255 * 65536 + min minor 255 * 256 + min patch 255 := by
  have hma : ¬ min major 255 = 0 := by omega
  have hmi : min minor 255 <<< 8 < 2 ^ 16 := by rw [Nat.shiftLeft_eq]; omega
  have hjoin : min major 255 <<< 16 ||| min minor 255 <<< 8 = (min major 255 * 256 + min minor 255) <<< 8 := by
    rw [← Nat.shiftLeft_add_eq_or_of_lt hmi]; simp only [Nat.shiftLeft_eq]; omega
  simp only [packVersion]
  rw [if_neg hma, hjoin, ← Nat.shiftLeft_add_eq_or_of_lt (show min patch 255 < 2 ^ 8 by omega), Nat.shiftLeft_eq]
  omega

/-- The bytes of a word of three bytes, most significant first. -/
theorem be32Nat_three_bytes {a b c : Nat} (ha : a < 256) (hb : b < 256) (hc : c < 256) :
    be32Nat (a * 65536 + b * 256 + c) = [0, BitVec.ofNat 8 a, BitVec.ofNat 8 b, BitVec.ofNat 8 c] := by
  have hword : (a * 65536 + b * 256 + c) % 2 ^ 32 = a * 65536 + b * 256 + c := Nat.mod_eq_of_lt (by omega)
  have hbyte (k : Nat) : (BitVec.ofNat 32 (a * 65536 + b * 256 + c)).extractLsb' k 8
      = BitVec.ofNat 8 ((a * 65536 + b * 256 + c) / 2 ^ k) := by
    rw [BitVec.extractLsb', BitVec.toNat_ofNat, hword, Nat.shiftRight_eq_div_pow]
  rw [be32Nat, be32, hbyte, hbyte, hbyte, hbyte]
  simp only [List.cons.injEq, and_true]
  refine ⟨?_, ?_, ?_, ?_⟩ <;> refine BitVec.eq_of_toNat_eq ?_ <;>
    simp only [BitVec.ofNat_eq_ofNat, BitVec.toNat_ofNat] <;> omega

/-- The version field of the device-info payload (R110, R169). -/
theorem be32Nat_packVersion (major minor patch : Nat) :
    be32Nat (packVersion major minor patch)
      = [0] ++ (if major = 0 then [1, 0, 0]
          else [BitVec.ofNat 8 (min major 255), BitVec.ofNat 8 (min minor 255), BitVec.ofNat 8 (min patch 255)]) := by
  split
  next hzero =>
    subst hzero
    rw [packVersion_zero]
    decide
  next hpos => rw [packVersion_of_ne_zero hpos, be32Nat_three_bytes (by omega) (by omega) (by omega)]; rfl

/-- Settles O25: R10 (c) keeps the name short enough for the encoder; the payload stands between the frame's five leading
bytes and its CRC. -/
theorem deviceInfoFrameIsBuilt : Obligations.DeviceInfoFrameIsBuilt := by
  intro s hcfg htab
  obtain ⟨-, -, ⟨hname, -⟩, -⟩ := configOk_iff.mp hcfg
  refine ⟨⟨_, rfl⟩, ?_, devinfoFrame_length s.cfg, by rw [devinfoFrame_length]; exact hname, ?_⟩
  · show execEncodeDevinfo s = _
    rw [execEncodeDevinfo, encodeDevinfo_ok hcfg, andThen_ok, finish_ok, extFrame_eq_builtFrame htab, devinfoFrame]
  · have hpayload : ((devinfoFrame s.cfg).drop 5).dropLast = devinfoPayload s.cfg := by
      simp [devinfoFrame, builtFrame]
    rw [hpayload, devinfoPayload, be32Nat_packVersion, ← List.append_assoc]
    rfl

/-! ### The header and the version operation (R160, R169) -/

/-- Settles O18: by the operation's own match on the buffer. -/
theorem headerIsTheFirstThreeBytes : Obligations.HeaderIsTheFirstThreeBytes := by
  refine fun s => ⟨fun _ => ⟨_, rfl⟩, fun _ _ _ _ => rfl, fun buf hshort => ?_⟩
  match buf, hshort with
  | [], _ => rfl
  | [_], _ => rfl
  | [_, _], _ => rfl

/-- Settles O26: a leading 0, or the sum of the clamped fields. -/
theorem versionIsPacked : Obligations.VersionIsPacked := by
  refine fun s major minor patch => ⟨⟨_, rfl⟩, packVersion major minor patch, rfl, ?_⟩
  by_cases hzero : major = 0
  · subst hzero
    rw [packVersion_zero]
    exact ⟨fun _ => rfl, fun h => absurd rfl h, by decide, by decide⟩
  · rw [packVersion_of_ne_zero hzero]
    exact ⟨fun h => absurd h hzero, fun _ => rfl, by omega, by omega⟩

end Sys2Proof.Machine

/-! The duplex controller's statement (42_duplex R191, R192, R194): the two changes of the line's mode, each in one piece,
and when the first is refused. -/

namespace Sys2Proof.Machine

@[simp] theorem txIdle_iff {s : State} : txIdle s = true ↔ s.line.txhw = [] := by simp [txIdle]

/-- R191 with the transmitter idle. -/
theorem exec_setRx_idle (inv : Bool) {s : State} (h : s.line.txhw = []) :
    exec (.setRx inv) s = .next (setReceive inv s) := if_pos (txIdle_iff.mpr h)

/-- R194, U5: bytes are still leaving. -/
theorem exec_setRx_busy (inv : Bool) {s : State} (h : s.line.txhw ≠ []) :
    exec (.setRx inv) s = .refused .setRxBusy := if_neg (mt txIdle_iff.mp h)

/-- R192 in one piece, element by element: the pins and the events of transmit mode. -/
theorem setTransmit_eq (v : Bool) (s : State) :
    setTransmit v s = { s with pins := transmitPins v s.pins, events := s.events ++ transmitEvents v s.pins } := by
  rw [State.mk.injEq]
  simp [transmitPins, transmitEvents, idleLevel]

/-- Settles O27: each mode change is its pins and its events in one piece, and `SET_RX` turns on the idle transmitter. -/
theorem duplexModesAreSetInOrder : Obligations.DuplexModesAreSetInOrder := by
  refine fun s inv => ⟨⟨_, rfl⟩, ⟨_, rfl⟩, fun hidle => ?_, exec_setRx_busy inv, ?_⟩
  · rw [exec_setRx_idle inv hidle, setReceive_eq, receivePins, receiveEvents]
  · show Host.Outcome.next (setTransmit inv s) = _
    rw [setTransmit_eq, transmitPins, transmitEvents]

end Sys2Proof.Machine

/-! The assembly's statements at the line and the collaborator's side (43_assembly R202 step 1, R212 to R214, 45_scheduler
R268): a poll held back by the transmitter, one channel read, one byte moved. -/

namespace Sys2Proof.Machine

/-! ### The end of a burst (R202 step 1) -/

/-- A poll is held back exactly where its first test says so. -/
theorem held_iff {s : State} :
    held s ↔ (s.cfg.halfDuplex && s.tx.transmitting && !txIdle s) = true := by
  simp [held, txIdle, and_assoc]

/-- The first poll after a burst restores receive mode in one piece. -/
theorem endBurst_transmitting {s : State} (hd : s.cfg.halfDuplex = true) (ht : s.tx.transmitting = true) :
    endBurst s = { s with pins := receivePins s.baud.inverted s.pins
                          events := s.events ++ receiveEvents s.baud.inverted s.pins
                          tx := { s.tx with transmitting := false } } := by
  have hburst : (s.cfg.halfDuplex && s.tx.transmitting) = true := by simp [hd, ht]
  rw [endBurst, if_pos hburst, setReceive_eq]
  rfl

/-- With no burst there is none to end. -/
theorem endBurst_idle {s : State} (h : s.cfg.halfDuplex = false ∨ s.tx.transmitting = false) : endBurst s = s := by
  have hburst : (s.cfg.halfDuplex && s.tx.transmitting) = false := by rcases h with h | h <;> simp [h]
  simp [endBurst, hburst]

/-- A poll issued as an operation answers its outcome. -/
theorem exec_pollRx (us ms : Word) (s : State) : exec (.pollRx us ms) s = finishWith .poll (pollRx us ms s) := rfl

/-- Settles O29: the poll's first test, and the end of a burst in one piece. -/
theorem pollWaitsForTheTransmitter : Obligations.PollWaitsForTheTransmitter := by
  refine fun s us ms => ⟨fun hheld => ?_, endBurst_transmitting, endBurst_idle⟩
  rw [exec_pollRx, pollRx, if_pos (held_iff.mp hheld), finishWith_ok]

/-! ### The collaborator and the line (R212 to R214, R268) -/

/-- R212: a channel inside the vector is read; nothing changes but the answer. -/
theorem execReadChannel_ok {s : State} {k : Nat} {v : Chan} (hlen : s.chan.length = s.cfg.numCh)
    (hv : s.chan[k]? = some v) : execReadChannel k s = .next (reply (.channel v) s) := by
  obtain ⟨hk, -⟩ := List.getElem?_eq_some_iff.mp hv
  rw [execReadChannel, if_pos (by omega), List.getD_eq_getElem?_getD, hv, Option.getD_some]

/-- Settles O41: one channel inside the vector, a number outside it, the timestamp with its flag. -/
theorem collaboratorReads : Obligations.CollaboratorReads :=
  fun _ _ hlen => ⟨⟨_, rfl⟩, ⟨_, rfl⟩, fun _ hv => execReadChannel_ok hlen hv, fun hk => if_neg (Nat.not_lt.mpr hk), rfl⟩

/-- R268: the oldest waiting byte leaves on the line. -/
theorem txDrain_cons {s : State} {b : Byte} {rest : List Byte} (h : s.line.txhw = b :: rest) :
    txDrain s = emit (.lineTx b) { s with line := { s.line with txhw := rest } } := by
  rw [txDrain, h]

theorem txDrain_nil {s : State} (h : s.line.txhw = []) : txDrain s = s := by
  rw [txDrain, h]

/-- Settles O42: the receiver by whether its path is connected, the serializer by whether a byte waits. -/
theorem lineMovesOneByte : Obligations.LineMovesOneByte := by
  refine fun s b => ⟨⟨_, rfl⟩, ⟨_, rfl⟩, fun hconn => if_pos hconn, fun hdet => if_neg (by simp [hdet]), ?_, ?_⟩
  · exact fun x rest hwait => congrArg Host.Outcome.next (txDrain_cons hwait)
  · exact fun hidle => congrArg Host.Outcome.next (txDrain_nil hidle)

/-! ### The search issued as an operation (R201) -/

/-- Settles O28: the search's own lemma, with the start inside its domain and outside it. -/
theorem alignKeepsFromTheMarker : Obligations.AlignKeepsFromTheMarker := by
  refine fun s start => ⟨fun bs hwf hb hstart => ?_, fun hstart => if_pos hstart⟩
  obtain ⟨m, halign, hwf', hread, hkept⟩ := alignFrom_spec hwf hb hstart
  refine ⟨{ buf := m, cursor := (aligned s.cfg (bs.drop start)).length }, ?_, hread, hwf', hkept⟩
  show execAlign start s = _
  rw [execAlign, if_neg (Nat.not_lt.mpr hstart), halign, finish_ok]

end Sys2Proof.Machine

/-! The poll's statements (43_assembly R200 to R204, R211): what one poll makes of the bytes it finds, with nothing stepping
in between, and that a poll with a full buffer makes room whatever the other agents do. -/

namespace Sys2Proof.Machine

/-! ### The search for a frame (R200 to R202) -/

/-- A poll that is not held back fills, searches, and decides by what it then has (R202 steps 2 to 5). -/
theorem pollRx_searches {s u v : State} (us ms : Word) (hh : ¬ held s) (hfill : rxFill (interleave (endBurst s)) = .ok u)
    (halign : alignFrom 0 (interleave u) = .ok v) :
    pollRx us ms s = if v.asm.cursor < 3 then .ok (v, .waitHdr) else extract us ms v := by
  rw [pollRx, if_neg (mt held_iff.mpr hh), hfill, andThen_ok, halign, andThen_ok]

theorem aligned_length_le (cfg : Config) (bs : List Byte) : (aligned cfg bs).length ≤ bs.length :=
  (List.dropWhile_suffix _).length_le

/-- From the buffer `bs` of `s` a poll has come to hold `p` in the buffer `a`; the store behind the fill is as it was. -/
structure Assembled (s : State) (bs p : List Byte) (a : AsmBuffer) : Prop where
  reads : memRead a.buf 0 a.cursor = .ok p
  form : Memory.wf a.buf = true
  fits : p.length ≤ ((bs ++ s.line.rxhw).take 64).length
  beyond : ∀ x, ((bs ++ s.line.rxhw).take 64).length ≤ x → readByte a.buf x = readByte s.asm.buf x

/-- What is kept of the bytes assembled so far reaches no further than they did. -/
theorem Assembled.shorten {s : State} {bs p q : List Byte} {a : AsmBuffer} {m : Memory} (h : Assembled s bs p a)
    (hq : q.length ≤ p.length) (hwf : Memory.wf m = true) (hread : memRead m 0 q.length = .ok q)
    (hkept : ∀ x, q.length ≤ x → readByte m x = readByte a.buf x) : Assembled s bs q { buf := m, cursor := q.length } :=
  ⟨hread, hwf, Nat.le_trans hq h.fits,
    fun x hx => (hkept x (Nat.le_trans hq (Nat.le_trans h.fits hx))).trans (h.beyond x hx)⟩

/-- A search in the assembled bytes (R201). -/
theorem Assembled.align {s t : State} {bs p : List Byte} {start : Nat} (h : Assembled s bs p t.asm) (hcfg : t.cfg = s.cfg)
    (hstart : start ≤ 1) :
    ∃ a, Assembled s bs (aligned s.cfg (p.drop start)) a ∧ alignFrom start t = .ok { t with asm := a } := by
  obtain ⟨m, halign, hwf, hread, hkept⟩ := alignFrom_spec h.form h.reads hstart
  have hfound : aligned t.cfg (p.drop start) = aligned s.cfg (p.drop start) := by rw [hcfg]
  rw [hfound] at halign hread hkept
  have hle := aligned_length_le s.cfg (p.drop start)
  rw [List.length_drop] at hle
  exact ⟨_, h.shorten (Nat.le_trans hle (Nat.sub_le _ _)) hwf hread hkept, halign⟩

/-- A removal from the assembled bytes (R204). -/
theorem Assembled.dropFront {s t : State} {bs p : List Byte} {n : Nat} (h : Assembled s bs p t.asm) (hn : n ≤ p.length) :
    ∃ a, Assembled s bs (p.drop n) a ∧ dropFront n t = .ok { t with asm := a } := by
  obtain ⟨m, hdrop, hwf, hread, hkept⟩ := dropFront_spec h.form h.reads hn
  exact ⟨_, h.shorten (by rw [List.length_drop]; exact Nat.sub_le _ _) hwf hread hkept, hdrop⟩

/-- The state of a poll, from its search on: receive mode restored, the received bytes that fit taken up. -/
def polledInto (a : AsmBuffer) (bs : List Byte) (s : State) : State :=
  { endBurst s with asm := a, line := { s.line with rxhw := s.line.rxhw.drop (64 - bs.length) } }

theorem inv_polledInto {s : State} {bs p : List Byte} {a : AsmBuffer} (hi : Inv s) (hh : ¬ held s)
    (ha : Assembled s bs p a) : Inv (polledInto a bs s) :=
  { inv_endBurst hh hi with
    asm := ⟨ha.form, p, ha.reads⟩
    burst := by simpa [polledInto] using (inv_endBurst hh hi).burst }

/-- The fill of a poll that is not held back: the received bytes that fit join the buffer (R200). -/
theorem rxFill_poll {s : State} {bs : List Byte} (hi : Inv s) (hb : asmHolds s bs) :
    ∃ a, Assembled s bs ((bs ++ s.line.rxhw).take 64) a ∧ rxFill (endBurst s) = .ok (polledInto a bs s) := by
  have hb' : asmHolds (endBurst s) bs := by simpa [asmHolds] using hb
  obtain ⟨m, hfill, hwf, hread, hkept⟩ := rxFill_spec (by simpa using hi.asm.form) hb'
  simp only [endBurst_line, endBurst_asm] at hfill hread hkept
  exact ⟨_, ⟨hread, hwf, Nat.le_refl _, hkept⟩, hfill⟩

/-- With nothing stepping in between, the search finds `polled`, and decides by it. -/
theorem pollRx_quiet {s : State} {bs : List Byte} (us ms : Word) (hi : Inv s) (hs : s.env.slots = []) (hh : ¬ held s)
    (hb : asmHolds s bs) :
    ∃ a, Assembled s bs (polled s bs) a
      ∧ pollRx us ms s = if (polled s bs).length < 3 then .ok (polledInto a bs s, .waitHdr)
          else extract us ms (polledInto a bs s) := by
  have hburst : interleave (endBurst s) = endBurst s := interleave_nil (by simpa using hs)
  obtain ⟨a₁, ha₁, hfill⟩ := rxFill_poll hi hb
  have hquiet : interleave (polledInto a₁ bs s) = polledInto a₁ bs s := interleave_nil (by simpa [polledInto] using hs)
  obtain ⟨a, ha, halign⟩ := Assembled.align (t := polledInto a₁ bs s) ha₁ (endBurst_cfg s) (Nat.zero_le 1)
  refine ⟨a, ha, ?_⟩
  have hpoll := pollRx_searches us ms hh (by rw [hburst]; exact hfill) (by rw [hquiet]; exact halign)
  have hcursor : a.cursor = (polled s bs).length := (memRead_eq_ok.mp ha.reads).2.1.symm
  rw [← hcursor]
  exact hpoll

/-! ### The decision (R203) -/

theorem exists_cons_cons {p : List Byte} {b : Byte} (h : p[1]? = some b) : ∃ a rest, p = a :: b :: rest := by
  match p with
  | a :: c :: rest => exact ⟨a, rest, by simpa using h⟩

/-- The decision by the declared length of what stands at the front. -/
theorem extract_eq {s : State} {marker size : Byte} {rest : List Byte} (us ms : Word)
    (hb : asmHolds s (marker :: size :: rest)) :
    extract us ms s = if legalLen (size.toNat + 2) = true then
        if (marker :: size :: rest).length < size.toNat + 2 then .ok (s, .waitBody) else takeFrame (size.toNat + 2) us ms s
      else andThen (alignFrom 1 (raiseError (.framing marker size) s)) fun t => .ok (t, .rejectLen) := by
  obtain ⟨-, hlen, -⟩ := memRead_eq_ok.mp hb
  have h0 : memByte s.asm.buf 0 = .ok marker := memByte_of_holds hb (by simp at hlen; omega)
  have h1 : memByte s.asm.buf 1 = .ok size := memByte_of_holds hb (by simp at hlen; omega)
  rw [extract, h0, andThen_ok, h1, andThen_ok, totalLenOf, hlen]
  cases hlegal : legalLen (size.toNat + 2) <;> simp [hlegal]

/-- Settles O30: by whether the header is there; a header without its body waits in the decision. -/
theorem pollWaitsForMoreBytes : Obligations.PollWaitsForMoreBytes := by
  intro s us ms bs hi hs hh hb
  obtain ⟨a, ha, hpoll⟩ := pollRx_quiet us ms hi hs hh hb
  refine ⟨a, ha.reads, ha.form, ha.beyond, fun hshort => ?_, fun size h3 hsize h4 h64 hbody => ?_⟩
  · rw [exec_pollRx, hpoll, if_pos hshort, finishWith_ok, polledInto]
  · obtain ⟨marker, rest, hp⟩ := exists_cons_cons hsize
    have hholds : asmHolds (polledInto a bs s) (marker :: size :: rest) := hp ▸ ha.reads
    rw [exec_pollRx, hpoll, if_neg (Nat.not_lt.mpr h3), extract_eq us ms hholds, if_pos (legalLen_iff.mpr ⟨h4, h64⟩), ← hp,
      if_pos hbody, finishWith_ok, polledInto]

/-- Settles O31: the decision refuses the length, and the search goes on behind the marker. -/
theorem pollRejectsIllegalLength : Obligations.PollRejectsIllegalLength := by
  intro s us ms bs rest marker size hi hs hh hb hp hrest hillegal
  obtain ⟨a, ha, hpoll⟩ := pollRx_quiet us ms hi hs hh hb
  have hlong : ¬ (polled s bs).length < 3 := by
    have := List.length_pos_iff.mpr hrest
    simp [hp]; omega
  have hlegal : ¬ legalLen (size.toNat + 2) = true := fun h => by have := legalLen_iff.mp h; omega
  have hholds : asmHolds (polledInto a bs s) (marker :: size :: rest) := hp ▸ ha.reads
  rw [hp] at ha
  obtain ⟨a', ha', halign⟩ :=
    Assembled.align (t := raiseError (.framing marker size) (polledInto a bs s)) ha (endBurst_cfg s) (Nat.le_refl 1)
  refine ⟨a', ha'.reads, ha'.form, ha'.beyond, ?_⟩
  rw [exec_pollRx, hpoll, if_neg hlong, extract_eq us ms hholds, if_neg hlegal, halign]
  rfl

/-! ### A complete frame (R203, R204) -/

/-- A frame is valid at its own length exactly where its last byte is its CRC (R104, R162). -/
theorem frameValid_iff_crcRight {s : State} {frame : List Byte} (h : s.crc.tab8 = crc8Table s.cfg.crc8Poly)
    (hne : frame ≠ []) : frameValid s frame frame.length = true ↔ crcRight s.cfg frame := by
  refine ⟨fun hvalid => ?_, frameValid_of_crcRight h⟩
  obtain ⟨init, c, rfl⟩ : ∃ init c, frame = init ++ [c] := ⟨_, _, (List.dropLast_append_getLast hne).symm⟩
  simp [frameValid, frameCrc, crcCovered, crcByteOf, crc8_eq_bitwise h] at hvalid
  simp [crcRight, hvalid]

/-- The CRC test on the first `n` buffered bytes. -/
theorem frameValid_take {s : State} {bs : List Byte} {n : Nat} (h : s.crc.tab8 = crc8Table s.cfg.crc8Poly) (h4 : 4 ≤ n)
    (hn : n ≤ bs.length) : frameValid s (bs.take n) n = true ↔ crcRight s.cfg (bs.take n) := by
  have hlen : (bs.take n).length = n := List.length_take_of_le hn
  have hne : bs.take n ≠ [] := List.length_pos_iff.mp (by omega)
  simpa only [hlen] using frameValid_iff_crcRight h hne

/-- The first `n` buffered bytes read back. -/
theorem memRead_front {s : State} {bs : List Byte} {n : Nat} (hb : asmHolds s bs) (hn : n ≤ bs.length) :
    memRead s.asm.buf 0 n = .ok (bs.take n) := by
  obtain ⟨-, hlen, -⟩ := memRead_eq_ok.mp hb
  exact memRead_part hb (show 0 + n ≤ s.asm.cursor by omega)

/-- `HANDLE_FRAME` inside its operand domain runs the handling (R205). -/
theorem exec_handleFrame_valid {s : State} {bs : List Byte} {n : Nat} (us ms : Word)
    (htab : s.crc.tab8 = crc8Table s.cfg.crc8Poly) (hb : asmHolds s bs) (h4 : 4 ≤ n) (h64 : n ≤ 64) (hn : n ≤ bs.length)
    (hcrc : crcRight s.cfg (bs.take n)) : exec (.handleFrame n us ms) s = finish (handleFrame n us ms s) := by
  obtain ⟨-, hlen, -⟩ := memRead_eq_ok.mp hb
  have hdomain : (legalLen n && decide (n ≤ s.asm.cursor)) = true := by
    simp only [Bool.and_eq_true, decide_eq_true_eq]
    exact ⟨legalLen_iff.mpr ⟨h4, h64⟩, by omega⟩
  show execHandleFrame n us ms s = _
  rw [execHandleFrame, if_pos hdomain, memRead_front hb hn, andThen_ok, if_pos ((frameValid_take htab h4 hn).mpr hcrc)]

/-- A poll that finds a complete frame takes it. -/
theorem pollRx_complete {s : State} {bs : List Byte} {size : Byte} (us ms : Word) (hi : Inv s) (hs : s.env.slots = [])
    (hh : ¬ held s) (hb : asmHolds s bs) (hsize : (polled s bs)[1]? = some size) (h4 : 4 ≤ size.toNat + 2)
    (h64 : size.toNat + 2 ≤ 64) (hwhole : size.toNat + 2 ≤ (polled s bs).length) :
    ∃ a, Assembled s bs (polled s bs) a ∧ pollRx us ms s = takeFrame (size.toNat + 2) us ms (polledInto a bs s) := by
  obtain ⟨a, ha, hpoll⟩ := pollRx_quiet us ms hi hs hh hb
  obtain ⟨marker, rest, hp⟩ := exists_cons_cons hsize
  have hholds : asmHolds (polledInto a bs s) (marker :: size :: rest) := hp ▸ ha.reads
  refine ⟨a, ha, ?_⟩
  rw [hpoll, if_neg (by omega), extract_eq us ms hholds, if_pos (legalLen_iff.mpr ⟨h4, h64⟩), ← hp,
    if_neg (Nat.not_lt.mpr hwhole)]

/-- Settles O32: the complete frame fails the CRC test, is counted and reported, and removed. -/
theorem pollDropsCorruptFrame : Obligations.PollDropsCorruptFrame := by
  intro s us ms bs size type hi hs hh hb hsize htype h4 h64 hwhole hcrc
  obtain ⟨a, ha, hpoll⟩ := pollRx_complete us ms hi hs hh hb hsize h4 h64 hwhole
  have hcfg : (polledInto a bs s).cfg = s.cfg := endBurst_cfg s
  have hinvalid : ¬ frameValid (polledInto a bs s) ((polled s bs).take (size.toNat + 2)) (size.toNat + 2) = true := by
    rw [frameValid_take (inv_polledInto hi hh ha).crc.tab8 h4 hwhole, hcfg]; exact hcrc
  have hreported : ((polled s bs).take (size.toNat + 2)).getD 2 0 = type := by
    rw [List.getD_eq_getElem?_getD, List.getElem?_take_of_lt (by omega), htype, Option.getD_some]
  obtain ⟨a', ha', hdrop⟩ :=
    Assembled.dropFront (t := raiseError (.crc type (size.toNat + 2)) (countBad (polledInto a bs s))) ha hwhole
  refine ⟨a', ha'.reads, ha'.form, ha'.beyond, ?_⟩
  rw [exec_pollRx, hpoll, takeFrame, memRead_front (s := polledInto a bs s) ha.reads hwhole, andThen_ok, if_neg hinvalid,
    hreported, hdrop, andThen_ok, finishWith_ok]
  simp [raiseError, emit, countBad, polledInto, countUp]

/-- The link as a poll counts a good frame in it. -/
theorem countGood_polledInto (a : AsmBuffer) (bs : List Byte) (s : State) :
    countGood (polledInto a bs s)
      = { polledInto a bs s with link := { s.link with goodCnt := (s.link.goodCnt + 1) % 2 ^ s.cfg.cntBits } } := by
  simp [countGood, polledInto, countUp]

/-- A poll that finds a complete valid frame: it is counted, handled where it stands, and removed. -/
theorem pollRx_good {s : State} {bs : List Byte} {size : Byte} (us ms : Word) (hi : Inv s) (hs : s.env.slots = [])
    (hh : ¬ held s) (hb : asmHolds s bs) (hsize : (polled s bs)[1]? = some size) (h4 : 4 ≤ size.toNat + 2)
    (h64 : size.toNat + 2 ≤ 64) (hwhole : size.toNat + 2 ≤ (polled s bs).length)
    (hcrc : crcRight s.cfg ((polled s bs).take (size.toNat + 2))) :
    ∃ a a' u, Assembled s bs (polled s bs) a ∧ Assembled s bs ((polled s bs).drop (size.toNat + 2)) a'
      ∧ handleFrame (size.toNat + 2) us ms (countGood (polledInto a bs s)) = .ok u
      ∧ Handled (countGood (polledInto a bs s)) u
      ∧ pollRx us ms s = .ok ({ u with asm := a' }, .good) := by
  obtain ⟨a, ha, hpoll⟩ := pollRx_complete us ms hi hs hh hb hsize h4 h64 hwhole
  have hpolled : Inv (polledInto a bs s) := inv_polledInto hi hh ha
  have hcfg : (polledInto a bs s).cfg = s.cfg := endBurst_cfg s
  have hvalid : frameValid (polledInto a bs s) ((polled s bs).take (size.toNat + 2)) (size.toNat + 2) = true := by
    rw [frameValid_take hpolled.crc.tab8 h4 hwhole, hcfg]; exact hcrc
  obtain ⟨u, hrun, -, hhandled⟩ :=
    handleFrame_total (s := countGood (polledInto a bs s)) us ms (inv_countGood hpolled) ha.reads h4 hwhole
  obtain ⟨a', ha', hdrop⟩ := Assembled.dropFront (t := u) (by rw [hhandled.asm]; exact ha) hwhole
  refine ⟨a, a', u, ha, ha', hrun, hhandled, ?_⟩
  rw [hpoll, takeFrame, memRead_front (s := polledInto a bs s) ha.reads hwhole, andThen_ok, if_pos hvalid, hrun,
    andThen_ok, hdrop, andThen_ok]

/-- Settles O33: the complete valid frame is taken, and its handling is `HANDLE_FRAME` where the frame stands first. -/
theorem pollTakesGoodFrame : Obligations.PollTakesGoodFrame := by
  intro s us ms bs size hi hs hh hb hsize h4 h64 hwhole hcrc
  obtain ⟨a, a', u, ha, ha', hrun, -, hpoll⟩ := pollRx_good us ms hi hs hh hb hsize h4 h64 hwhole hcrc
  refine ⟨a, a', u, ha.reads, ?_, ha'.reads, ha'.form, ha'.beyond, ?_⟩
  · have hcounted := inv_countGood (inv_polledInto hi hh ha)
    have hexec := exec_handleFrame_valid us ms hcounted.crc.tab8 (show asmHolds _ (polled s bs) from ha.reads) h4 h64 hwhole
      (by simpa [polledInto] using hcrc)
    rw [hrun, finish_ok, countGood_polledInto] at hexec
    exact hexec
  · rw [exec_pollRx, hpoll, finishWith_ok]

/-! ### Room after a full buffer (R211 (c)) -/

/-- A decision leaves room: it waits only for a frame that fits, and otherwise drops a byte at least. -/
theorem extract_makes_room {s : State} {bs : List Byte} (us ms : Word) (hi : Inv s) (hb : asmHolds s bs)
    (h3 : 3 ≤ bs.length) : ∃ t o, extract us ms s = .ok (t, o) ∧ t.asm.cursor < 64 := by
  obtain ⟨hstore, hlen, -⟩ := memRead_eq_ok.mp hb
  simp only [storeSize] at hstore
  match bs with
  | marker :: size :: rest =>
    rw [extract_eq us ms hb]
    split
    next hlegal =>
      obtain ⟨h4, h64⟩ := legalLen_iff.mp hlegal
      split
      next hshort => exact ⟨s, _, rfl, by omega⟩
      next hwhole =>
        obtain ⟨t, o, htake, -, hrest, -⟩ := takeFrame_total us ms hi hb h4 (by omega)
        obtain ⟨-, hleft, -⟩ := memRead_eq_ok.mp hrest
        rw [List.length_drop] at hleft
        exact ⟨t, o, htake, by omega⟩
    next =>
      have hraised : asmHolds (raiseError (.framing marker size) s) (marker :: size :: rest) := hb
      obtain ⟨m, halign, -⟩ := alignFrom_spec (s := raiseError (.framing marker size) s) hi.asm.form hraised (Nat.le_refl 1)
      rw [halign, andThen_ok]
      refine ⟨_, _, rfl, ?_⟩
      have := aligned_length_le s.cfg (size :: rest)
      simp only [List.length_cons] at hlen this
      simp only [List.drop_succ_cons, List.drop_zero, raiseError_cfg]
      omega

/-- A fill from a safe state: safe again, and full where as many bytes are there. -/
theorem rxFill_total {s : State} (hi : Inv s) :
    ∃ u, rxFill s = .ok u ∧ Inv u ∧ u.asm.cursor = min 64 (s.asm.cursor + s.line.rxhw.length) := by
  obtain ⟨bs, hb⟩ := hi.asm.bytes
  obtain ⟨-, hlen, -⟩ := memRead_eq_ok.mp hb
  obtain ⟨m, hfill, hwf, hread, -⟩ := rxFill_spec hi.asm.form hb
  exact ⟨_, hfill, { hi with asm := asmOk_of hwf hread }, by rw [List.length_take, List.length_append, hlen]⟩

/-- A search from a safe state: safe again. -/
theorem alignFrom_total {s : State} {start : Nat} (hi : Inv s) (hstart : start ≤ 1) :
    ∃ u, alignFrom start s = .ok u ∧ Inv u := by
  obtain ⟨bs, hb⟩ := hi.asm.bytes
  obtain ⟨m, halign, hwf, hread, -⟩ := alignFrom_spec hi.asm.form hb hstart
  exact ⟨_, halign, { hi with asm := asmOk_of hwf hread }⟩

/-- Settles O35: the fill is full, and the search or the decision after it leaves room, whatever the other agents do. -/
theorem fullBufferMakesRoom : Obligations.FullBufferMakesRoom := by
  intro s us ms hi hh hfull
  obtain ⟨u, hfill, hu, hcursor⟩ := rxFill_total (inv_interleave (inv_endBurst hh hi))
  rw [(others_interleave _).asm, endBurst_asm, Nat.min_eq_left hfull] at hcursor
  obtain ⟨v, halign, hv⟩ := alignFrom_total (inv_interleave hu) (Nat.zero_le 1)
  refine ⟨⟨u, hfill, hcursor⟩, ?_⟩
  rw [exec_pollRx, pollRx_searches us ms hh hfill halign]
  split
  next hshort => exact ⟨_, rfl, Nat.lt_trans hshort (by decide)⟩
  next hlong =>
    obtain ⟨bs, hb⟩ := hv.asm.bytes
    obtain ⟨-, hlen, -⟩ := memRead_eq_ok.mp hb
    obtain ⟨t, o, hrun, hroom⟩ := extract_makes_room us ms hv hb (by omega)
    rw [hrun]
    exact ⟨_, rfl, hroom⟩

end Sys2Proof.Machine

/-! The statements about handling a frame (43_assembly R205 to R211, 20_memory R77, R81): the four branches of the
dispatch, each as an equation, and what stands of an RC-channels frame when the other agents step in between. -/

namespace Sys2Proof.Machine

/-! ### The dispatch (R205) -/

/-- R205's mark in one piece. -/
theorem markReceived_eq (us : Word) (s : State) :
    markReceived us s = { s with
      link := { s.link with tLastRx := us, connected := true }
      events := s.events ++ (if s.link.connected then [] else [.connected]) } := by
  cases hc : s.link.connected <;> simp [markReceived, hc, emit]

theorem asmHolds_markReceived {s : State} {bs : List Byte} (us : Word) (hb : asmHolds s bs) :
    asmHolds (markReceived us s) bs :=
  asmHolds_of_handled (handled_markReceived us s) hb

/-- A buffered byte read for its value. -/
theorem memByte_of_getElem? {s : State} {bs : List Byte} {i : Nat} {b : Byte} (hb : asmHolds s bs) (hi : bs[i]? = some b) :
    memByte s.asm.buf i = .ok b := by
  obtain ⟨-, hlen, -⟩ := memRead_eq_ok.mp hb
  obtain ⟨hlt, -⟩ := List.getElem?_eq_some_iff.mp hi
  rw [memByte_of_holds hb (by omega), List.getD_eq_getElem?_getD, hi, Option.getD_some]

/-- Handling goes on from the marked link, after an interleave point, by the type byte in the buffer. -/
theorem handleFrame_dispatches {s : State} {bs : List Byte} {type : Byte} (n : Nat) (us ms : Word) (hb : asmHolds s bs)
    (htype : bs[2]? = some type) :
    handleFrame n us ms s = dispatchFrame type n us ms (interleave (markReceived us s)) := by
  have hmarked : asmHolds (interleave (markReceived us s)) bs :=
    asmHolds_of_handled (others_interleave _).handled (asmHolds_markReceived us hb)
  rw [handleFrame]
  simp only [memByte_of_getElem? hmarked htype, andThen_ok]

/-- `HANDLE_FRAME` on a valid frame of a type is that type's dispatch. -/
theorem exec_handleFrame_dispatches {s : State} {bs : List Byte} {n : Nat} {type : Byte} (us ms : Word) (hi : Inv s)
    (hb : asmHolds s bs) (h4 : 4 ≤ n) (h64 : n ≤ 64) (hn : n ≤ bs.length) (hcrc : crcRight s.cfg (bs.take n))
    (htype : bs[2]? = some type) :
    exec (.handleFrame n us ms) s = finish (dispatchFrame type n us ms (interleave (markReceived us s))) := by
  rw [exec_handleFrame_valid us ms hi.crc.tab8 hb h4 h64 hn hcrc, handleFrame_dispatches n us ms hb htype]

theorem dispatchFrame_rc (n : Nat) (us ms : Word) (s : State) :
    dispatchFrame typeRcChannels n us ms s = handleRc n us ms s := if_pos rfl

theorem dispatchFrame_ping (n : Nat) (us ms : Word) (s : State) :
    dispatchFrame typeDevicePing n us ms s = handlePing n s := by
  rw [dispatchFrame, if_neg (by decide), if_pos rfl]

theorem dispatchFrame_command (n : Nat) (us ms : Word) (s : State) :
    dispatchFrame typeCommand n us ms s = handleCommand n s := by
  rw [dispatchFrame, if_neg (by decide), if_neg (by decide), if_pos rfl]

theorem interleave_markReceived_quiet {s : State} (us : Word) (hs : s.env.slots = []) :
    interleave (markReceived us s) = markReceived us s :=
  interleave_nil (by simpa using hs)

/-- Settles O36: the dispatch of another type does nothing after the mark. -/
theorem otherFramesOnlyMarkTheLink : Obligations.OtherFramesOnlyMarkTheLink := by
  intro s us ms bs n type hi hs hb h4 h64 hn hcrc htype hrc hping hcommand
  rw [exec_handleFrame_dispatches us ms hi hb h4 h64 hn hcrc htype, interleave_markReceived_quiet us hs,
    dispatchFrame_other hrc hping hcommand, finish_ok, markReceived_eq]

/-! ### A ping (R207) -/

/-- Everything a ping does: the answer is queued where it is long enough and for this device. -/
theorem handlePing_eq {s : State} {bs : List Byte} {dest : Byte} (n : Nat) (hi : Inv s) (hb : asmHolds s bs)
    (hdest : bs[3]? = some dest) :
    handlePing n s = .ok (if 6 ≤ n ∧ dest = s.cfg.addrModule then enqueue (devinfoFrame s.cfg) s else s) := by
  rw [handlePing, memByte_of_getElem? hb hdest, andThen_ok, encodeDevinfo_ok hi.config, andThen_ok,
    extFrame_eq_builtFrame hi.crc.tab8, ← devinfoFrame]
  by_cases hshort : n < 6
  · rw [if_pos hshort, if_neg (by omega)]
  · by_cases haddr : dest = s.cfg.addrModule
    · rw [if_neg hshort, if_pos haddr, if_pos ⟨Nat.not_lt.mp hshort, haddr⟩]
    · rw [if_neg hshort, if_neg haddr, if_neg (fun h => haddr h.2)]

/-- The queue takes the device-info frame exactly where it has room for the record: its length is legal (R10 (c)). -/
theorem queueAccepts_devinfo_iff {s : State} (hi : Inv s) :
    queueAccepts (devinfoFrame s.cfg) s = true
      ↔ s.tx.outq.length + s.cfg.deviceName.length + 22 ≤ s.cfg.outqCapacity := by
  obtain ⟨-, -, ⟨hname, -⟩, -⟩ := configOk_iff.mp hi.config
  rw [queueAccepts_iff, devinfoFrame_length]
  omega

/-- A ping frame handled, with nothing stepping in between. -/
theorem exec_handleFrame_ping {s : State} {bs : List Byte} {n : Nat} {dest : Byte} (us ms : Word) (hi : Inv s)
    (hs : s.env.slots = []) (hb : asmHolds s bs) (h4 : 4 ≤ n) (h64 : n ≤ 64) (hn : n ≤ bs.length)
    (hcrc : crcRight s.cfg (bs.take n)) (htype : bs[2]? = some typeDevicePing) (hdest : bs[3]? = some dest) :
    exec (.handleFrame n us ms) s = .next (if 6 ≤ n ∧ dest = s.cfg.addrModule
      then enqueue (devinfoFrame s.cfg) (markReceived us s) else markReceived us s) := by
  have hping := handlePing_eq n (inv_markReceived us hi) (asmHolds_markReceived us hb) hdest
  rw [markReceived_cfg] at hping
  rw [exec_handleFrame_dispatches us ms hi hb h4 h64 hn hcrc htype, interleave_markReceived_quiet us hs,
    dispatchFrame_ping, hping, finish_ok]

/-- Settles O37: the ping's two conditions, and, where both hold, whether the queue takes the answer. -/
theorem pingIsAnswered : Obligations.PingIsAnswered := by
  intro s us ms bs n dest hi hs hb h4 h64 hn hcrc htype hdest marked
  have hexec := exec_handleFrame_ping us ms hi hs hb h4 h64 hn hcrc htype hdest
  have hmarked : markReceived us s = marked := markReceived_eq us s
  have hroom := queueAccepts_devinfo_iff (inv_markReceived us hi)
  simp only [markReceived_cfg, markReceived_tx] at hroom
  have hlen := devinfoFrame_length s.cfg
  refine ⟨fun hnot => ?_, fun h6 haddr hfits => ?_, fun h6 haddr hfull => ?_⟩
  · rw [hexec, if_neg (by rintro ⟨h6, haddr⟩; exact hnot.elim (by omega) (absurd haddr)), hmarked]
  · rw [hexec, if_pos ⟨h6, haddr⟩, enqueue, if_pos (hroom.mpr hfits), hmarked, record, hlen]
    rfl
  · rw [hexec, if_pos ⟨h6, haddr⟩, enqueue, if_neg (fun h => by have := hroom.mp h; omega), hmarked, hlen]
    rfl

/-! ### A command (R208) -/

/-- The event of a command frame of length `n`, if it has one. -/
def commandEvents (cfg : Config) (bs : List Byte) (n : Nat) : List Event :=
  if 8 ≤ n ∧ bs[3]? = some cfg.addrModule ∧ bs[5]? = some subcmdRx then
    if bs[6]? = some subcmdRxModelSelect ∧ 9 ≤ n then [.modelSelect (bs.getD 7 0)]
    else if bs[6]? = some subcmdRxBind ∧ cfg.bindDispatch = true then [.bind] else []
  else []

/-- Everything a command frame does: its event is put out. -/
theorem handleCommand_eq {s : State} {bs : List Byte} {n : Nat} (hb : asmHolds s bs) (hn : n ≤ bs.length) :
    handleCommand n s = .ok { s with events := s.events ++ commandEvents s.cfg bs n } := by
  by_cases hshort : n < 8
  · have hnone : commandEvents s.cfg bs n = [] := if_neg (by omega)
    rw [handleCommand, if_pos hshort, hnone, List.append_nil]
  · have byte {i : Nat} (h : i < 8) : ∃ b, bs[i]? = some b := ⟨_, List.getElem?_eq_getElem (by omega)⟩
    obtain ⟨dest, hdest⟩ := byte (i := 3) (by omega)
    obtain ⟨sub, hsub⟩ := byte (i := 5) (by omega)
    obtain ⟨further, hfurther⟩ := byte (i := 6) (by omega)
    obtain ⟨index, hindex⟩ := byte (i := 7) (by omega)
    have hevents : commandEvents s.cfg bs n = if dest = s.cfg.addrModule ∧ sub = subcmdRx then
        if further = subcmdRxModelSelect ∧ 9 ≤ n then [.modelSelect index]
        else if further = subcmdRxBind ∧ s.cfg.bindDispatch = true then [.bind] else [] else [] := by
      simp only [commandEvents, hdest, hsub, hfurther, hindex, List.getD_eq_getElem?_getD, Option.getD_some,
        Option.some.injEq, Nat.not_lt.mp hshort, true_and]
    rw [handleCommand, if_neg hshort, memByte_of_getElem? hb hdest, andThen_ok, memByte_of_getElem? hb hsub, andThen_ok,
      memByte_of_getElem? hb hfurther, andThen_ok, commandEvent, memByte_of_getElem? hb hindex, andThen_ok, hevents]
    split
    next =>
      split
      next => rfl
      next =>
        split
        next => rfl
        next => rw [List.append_nil]
    next => rw [List.append_nil]

/-- Settles O38: the dispatch of a command puts out its event after the mark's. -/
theorem commandIsDispatched : Obligations.CommandIsDispatched := by
  intro s us ms bs n hi hs hb h4 h64 hn hcrc htype
  have hcommand := handleCommand_eq (asmHolds_markReceived us hb) hn
  rw [exec_handleFrame_dispatches us ms hi hb h4 h64 hn hcrc htype, interleave_markReceived_quiet us hs,
    dispatchFrame_command, hcommand, finish_ok, markReceived_eq]
  rfl

/-! ### The channels written, whatever steps in between (R206) -/

/-- The element written is the last of the first `k + 1`. -/
theorem take_succ_set {α : Type} {l : List α} {k : Nat} (hk : k < l.length) (v : α) :
    (l.set k v).take (k + 1) = l.take k ++ [v] := by
  rw [List.take_add_one, List.take_set_of_le (Nat.le_refl k), List.getElem?_set_self hk]
  rfl

/-- Each channel from `k` on has its new value; the other agents write none. -/
theorem writeChannels_chan {s : State} {k : Nat} {vs : List Chan} (hlen : s.chan.length = k + vs.length) :
    (writeChannels k vs s).chan = s.chan.take k ++ vs := by
  induction vs generalizing k s with
  | nil =>
    have hall : s.chan.take k = s.chan := List.take_of_length_le (Nat.le_of_eq hlen)
    rw [writeChannels, List.append_nil, hall]
  | cons v vs ih =>
    have hsame : (interleave s).chan = s.chan := (others_interleave s).chan
    have hk : k < s.chan.length := by rw [hlen, List.length_cons]; omega
    rw [writeChannels, ih (by simp [hsame, hlen]; omega), setChan_chan, hsame, take_succ_set hk, List.append_assoc,
      List.singleton_append]

theorem writeChannels_link (k : Nat) (vs : List Chan) (s : State) : (writeChannels k vs s).link = s.link := by
  induction vs generalizing k s with
  | nil => rfl
  | cons v vs ih => rw [writeChannels, ih, setChan_link, (others_interleave s).link]

/-- A whole channel payload at the front of the buffer is read in the closed form of R77, then written. -/
theorem updateChannels_holds {s : State} {bs : List Byte} {n : Nat} (hb : asmHolds s bs) (h4 : 4 ≤ n) (hn : n ≤ bs.length)
    (hwhole : chBytes s.cfg ≤ n - 4) :
    updateChannels n s = .ok (writeChannels 0 (streamChannels s.cfg.numCh (payloadNat (bs.drop 3))) s) := by
  obtain ⟨-, hlen, -⟩ := memRead_eq_ok.mp hb
  have hrc : rcPayloadWhole s.cfg n = true := decide_eq_true hwhole
  have hread : memRead s.asm.buf 3 (chBytes s.cfg) = .ok ((bs.drop 3).take (chBytes s.cfg)) := memRead_part hb (by omega)
  rw [updateChannels, if_pos hrc, hread, andThen_ok, unpackChannels_eq (by rw [List.length_drop]; omega), streamChannels]

/-- Once the channels are updated an RC frame reports the data and services the output, and is done. -/
theorem handleRc_updated {s u : State} {n : Nat} {us : Word} (ms : Word) (hu : Inv u)
    (hrun : updateChannels n (stampRc us s) = .ok u) :
    ∃ t out, serviceOutput n ms (emit .rcData (interleave u)) = .ok (t, out) ∧ handleRc n us ms s = .ok t
      ∧ Serviced u t := by
  obtain ⟨t, out, hservice, -, hserviced⟩ := serviceOutput_total n ms (inv_emit .rcData (inv_interleave hu))
  have hpoint := (others_interleave u).serviced
  refine ⟨t, out, hservice, ?_, hpoint.trans (.trans (by constructor <;> rfl) hserviced)⟩
  rw [handleRc, hrun, andThen_ok, hservice, andThen_ok]

/-- An RC frame with a whole payload: the stamps and the new channels stand, whatever the other agents do meanwhile. -/
theorem handleRc_stands {s : State} {bs : List Byte} {n : Nat} (us ms : Word) (hi : Inv s) (hb : asmHolds s bs)
    (h4 : 4 ≤ n) (hn : n ≤ bs.length) (hwhole : chBytes s.cfg ≤ n - 4) :
    ∃ t, handleRc n us ms s = .ok t ∧ t.chan = streamChannels s.cfg.numCh (payloadNat (bs.drop 3))
      ∧ t.link = { s.link with tLastRc := us, rcSeen := true } := by
  have hstamped := inv_stampRc us hi
  have hrun := updateChannels_holds (s := stampRc us s) hb h4 hn hwhole
  obtain ⟨t, out, -, hhandle, hserviced⟩ := handleRc_updated ms ((writeChannels_spec 0 _).2 hstamped) hrun
  refine ⟨t, hhandle, ?_, ?_⟩
  · rw [hserviced.chan, writeChannels_chan (by simp [streamChannels, hi.chan])]
    rfl
  · rw [hserviced.link, writeChannels_link]
    rfl

end Sys2Proof.Machine

/-! The statements about an RC-channels frame (43_assembly R206, 20_memory R77, R81), whole and too short, and the poll
that finds a frame behind garbage (R211). -/

namespace Sys2Proof.Machine

/-! ### A service call with nothing stepping in between changes nothing of the environment (R264) -/

/-- A service call with nothing stepping in between lists no answer and draws no value. -/
theorem serviceOutput_env {received : Nat} {ms : Word} {s t : State} {out : List Byte} (hi : Inv s) (hs : s.env.slots = [])
    (hrun : serviceOutput received ms s = .ok (t, out)) : t.env = s.env := by
  unfold serviceOutput at hrun
  split at hrun
  · cases hrun; rfl
  · have hemitted : Inv (if hasOutput s then s else syncEmit ms s)
        ∧ (if hasOutput s then s else syncEmit ms s).env = s.env := by
      split
      · exact ⟨hi, rfl⟩
      · exact ⟨inv_syncEmit ms hi, syncEmit_env s ms⟩
    generalize (if hasOutput s then s else syncEmit ms s) = u at hrun hemitted
    obtain ⟨hu, henv⟩ := hemitted
    have hquiet : u.env.slots = [] := by rw [henv, hs]
    have hquiet' : (engageTransmit u).env.slots = [] := by rw [engageTransmit_env, hquiet]
    simp only [interleave_nil hquiet, interleave_nil hquiet'] at hrun
    split at hrun
    next hout =>
      have hengaged := inv_engageTransmit hu
      obtain ⟨staged, hstaged⟩ := hengaged.tx.staged
      obtain ⟨frames, hqueue⟩ := hengaged.tx.records
      have hpending : staged ≠ [] ∨ frames ≠ [] := by
        have hrem : (engageTransmit u).tx.rem = u.tx.rem := by unfold engageTransmit; split <;> simp
        have houtq : (engageTransmit u).tx.outq = u.tx.outq := by unfold engageTransmit; split <;> simp
        obtain ⟨-, hlen, -⟩ := memRead_eq_ok.mp hstaged
        refine (hasOutput_iff.mp hout).imp (fun h hnil => ?_) (fun h hnil => ?_)
        · exact h (by rw [← hrem, ← hlen, hnil]; rfl)
        · exact h (by rw [← houtq, hqueue.1, hnil]; rfl)
      obtain ⟨x, -, -, hdrain, -⟩ := drain_quiet _ _ (Nat.le_refl _) hquiet' hstaged hqueue hpending
      cases hrun.symm.trans hdrain
      exact (engageTransmit_env u).trans henv
    next => cases hrun; exact henv

/-! ### The state of an RC frame before its service call (R206) -/

/-- The channels replaced by `c`, with `d` free values drawn. -/
def withChannels (c : List Chan) (d : Nat) (s : State) : State :=
  { s with chan := c, env := { s.env with drawn := s.env.drawn + d } }

/-- The state in which an RC frame services the output, once its channels are `c` and `d` free values are drawn. -/
def rcReported (us : Word) (c : List Chan) (d : Nat) (s : State) : State :=
  { s with
    link := { s.link with tLastRx := us, connected := true, tLastRc := us, rcSeen := true }
    chan := c
    events := s.events ++ (if s.link.connected then [] else [.connected]) ++ [.rcData]
    env := { s.env with drawn := s.env.drawn + d } }

/-- An RC frame with nothing stepping in between, from what its channels become on. -/
theorem exec_handleFrame_rc {s : State} {bs : List Byte} {n d : Nat} {c : List Chan} (us ms : Word) (hi : Inv s)
    (hs : s.env.slots = []) (hb : asmHolds s bs) (h4 : 4 ≤ n) (h64 : n ≤ 64) (hn : n ≤ bs.length)
    (hcrc : crcRight s.cfg (bs.take n)) (htype : bs[2]? = some typeRcChannels) (hc : c.length = s.cfg.numCh)
    (hrun : updateChannels n (stampRc us (markReceived us s)) = .ok (withChannels c d (stampRc us (markReceived us s)))) :
    ∃ u out, exec (.serviceOutput n ms) (rcReported us c d s) = .next (reply (.bytes out) u)
      ∧ exec (.handleFrame n us ms) s = .next u := by
  have hupdated : Inv (withChannels c d (stampRc us (markReceived us s))) :=
    { inv_stampRc us (inv_markReceived us hi) with chan := by simpa [withChannels] using hc }
  obtain ⟨u, out, hservice, hhandle, -⟩ := handleRc_updated ms hupdated hrun
  have hreported : emit .rcData (interleave (withChannels c d (stampRc us (markReceived us s)))) = rcReported us c d s := by
    rw [interleave_nil (by simpa [withChannels] using hs), markReceived_eq]
    rfl
  rw [hreported] at hservice
  refine ⟨u, out, ?_, ?_⟩
  · show finishWith .bytes (serviceOutput n ms (rcReported us c d s)) = _
    rw [hservice, finishWith_ok]
  · rw [exec_handleFrame_dispatches us ms hi hb h4 h64 hn hcrc htype, interleave_markReceived_quiet us hs,
      dispatchFrame_rc, hhandle, finish_ok]

/-- With nothing stepping in between a short frame draws a value for each of the `n` channels from `k` on (R206, U3). -/
theorem drawChannels_quiet (n k : Nat) {s : State} (hs : s.env.slots = []) :
    ∃ c, c.length = s.chan.length ∧ drawChannels n k s = withChannels c n s := by
  induction n generalizing k s with
  | zero => exact ⟨s.chan, rfl, rfl⟩
  | succ n ih =>
    obtain ⟨c, hlen, hdraw⟩ := ih (k + 1) (s := setChan k (Config.freeChannel s.env.drawn) (drawn s)) hs
    refine ⟨c, by simpa using hlen, ?_⟩
    simp only [drawChannels, interleave_nil hs, hdraw]
    simp [withChannels, setChan, drawn, Nat.add_assoc, Nat.add_comm 1 n]

/-- With nothing stepping in between an RC frame too short for the channels draws them all. -/
theorem updateChannels_short {s : State} {n : Nat} (hs : s.env.slots = []) (hshort : n - 4 < chBytes s.cfg) :
    ∃ c, c.length = s.chan.length ∧ updateChannels n s = .ok (withChannels c s.cfg.numCh s) := by
  obtain ⟨c, hlen, hdraw⟩ := drawChannels_quiet s.cfg.numCh 0 hs
  have hrc : ¬ rcPayloadWhole s.cfg n = true := by simpa [rcPayloadWhole] using hshort
  exact ⟨c, hlen, by rw [updateChannels, if_neg hrc, hdraw]⟩

/-- With nothing stepping in between a whole RC frame writes every channel and draws none. -/
theorem updateChannels_quiet {s : State} {bs : List Byte} {n : Nat} (hi : Inv s) (hs : s.env.slots = [])
    (hb : asmHolds s bs) (h4 : 4 ≤ n) (hn : n ≤ bs.length) (hwhole : chBytes s.cfg ≤ n - 4) :
    updateChannels n s = .ok (withChannels (streamChannels s.cfg.numCh (payloadNat (bs.drop 3))) 0 s) := by
  rw [updateChannels_holds hb h4 hn hwhole, writeChannels_quiet hs (by simp [streamChannels, hi.chan])]
  rfl

/-- Settles O40: every channel is drawn, and the rest is the RC frame's. -/
theorem shortRcFrameLeavesChannelsOpen : Obligations.ShortRcFrameLeavesChannelsOpen := by
  intro s us ms bs n hi hs hb h4 h64 hn hcrc htype hshort
  have hcfg : (stampRc us (markReceived us s)).cfg = s.cfg := by simp
  obtain ⟨c, hlen, hrun⟩ := updateChannels_short (s := stampRc us (markReceived us s)) (n := n) (by simpa using hs)
    (by rw [hcfg]; exact hshort)
  have hc : c.length = s.cfg.numCh := hlen.trans (by simpa using hi.chan)
  rw [hcfg] at hrun
  obtain ⟨u, out, hservice, hhandle⟩ := exec_handleFrame_rc us ms hi hs hb h4 h64 hn hcrc htype hc hrun
  exact ⟨c, u, out, hc, hservice, hhandle⟩

/-! ### A reader between two channel writes (R81, U15) -/

/-- A point at which no other agent steps. -/
theorem interleave_skip {s : State} {rest : List (List Instr)} (hs : s.env.slots = [] :: rest) :
    interleave s = { s with env := { s.env with slots := rest } } := by
  rw [interleave, hs]
  rfl

/-- A point at which the collaborator reads a channel. -/
theorem interleave_readChannel {s : State} {k : Nat} {v : Chan} {rest : List (List Instr)}
    (hs : s.env.slots = [.readChannel k] :: rest) (hlen : s.chan.length = s.cfg.numCh) (hv : s.chan[k]? = some v) :
    interleave s = reply (.channel v) { s with env := { s.env with slots := rest } } := by
  have hread : execReadChannel k { s with env := { s.env with slots := rest } }
      = .next (reply (.channel v) { s with env := { s.env with slots := rest } }) := execReadChannel_ok hlen hv
  rw [interleave, hs]
  simp only [asyncOps, asyncOp, hread, afterOr]

/-- The first `j` of the values `vs` written to the channels from `k` on; the points `rest` are left to the other agents. -/
def partlyWritten (k j : Nat) (vs : List Chan) (rest : List (List Instr)) (s : State) : State :=
  { s with chan := s.chan.take k ++ vs.take j ++ s.chan.drop (k + j), env := { s.env with slots := rest } }

/-- The first `j` writes at points where no other agent steps; the other writes are still to come. -/
theorem writeChannels_skip {j k : Nat} {vs : List Chan} {s : State} {rest : List (List Instr)}
    (hs : s.env.slots = List.replicate j [] ++ rest) (hj : j ≤ vs.length) (hlen : s.chan.length = k + vs.length) :
    writeChannels k vs s = writeChannels (k + j) (vs.drop j) (partlyWritten k j vs rest s) := by
  induction j generalizing k vs s with
  | zero =>
    have hchan : s.chan.take k ++ vs.take 0 ++ s.chan.drop (k + 0) = s.chan := by simp
    have hslots : s.env.slots = rest := hs
    rw [partlyWritten, hchan, ← hslots]
    rfl
  | succ j ih =>
    cases vs with
    | nil => exact absurd hj (by simp)
    | cons v vs =>
      have hpoint : interleave s = { s with env := { s.env with slots := List.replicate j [] ++ rest } } :=
        interleave_skip hs
      have hk : k < s.chan.length := by rw [hlen, List.length_cons]; omega
      have hahead : (s.chan.set k v).drop (k + (j + 1)) = s.chan.drop (k + (j + 1)) := List.drop_set_of_lt (by omega)
      rw [writeChannels, hpoint, ih rfl (Nat.le_of_succ_le_succ hj) (by simp [hlen]; omega)]
      simp [partlyWritten, setChan, take_succ_set hk, hahead, Nat.add_assoc, Nat.add_comm 1 j]

theorem writeChannels_env {s : State} (hs : s.env.slots = []) (k : Nat) (vs : List Chan) :
    (writeChannels k vs s).env = s.env := by
  induction vs generalizing k s with
  | nil => rfl
  | cons v vs ih => rw [writeChannels, interleave_nil hs, ih (s := setChan k v s) hs, setChan_env]

/-- Where one point is left to the other agents, it falls before the next channel write, or after the last. -/
theorem interleave_writeChannels_env {s : State} (hlast : (interleave s).env.slots = []) (k : Nat) (vs : List Chan) :
    (interleave (writeChannels k vs s)).env = (interleave s).env := by
  cases vs with
  | nil => rfl
  | cons v vs =>
    have hquiet : (setChan k v (interleave s)).env.slots = [] := hlast
    have henv := writeChannels_env hquiet (k + 1) vs
    rw [writeChannels, interleave_nil (by rw [henv]; exact hquiet), henv, setChan_env]

/-- The channels of which the first `j` are new: the new value below `j`, the old one from `j` on. -/
theorem getElem?_mixed {vs old : List Chan} {j k : Nat} {v : Chan} (hj : j ≤ vs.length) (hv : old[k]? = some v) :
    (vs.take j ++ old.drop j)[k]? = if k < j then vs[k]? else some v := by
  have hlen : (vs.take j).length = j := List.length_take_of_le hj
  split
  next hk => rw [List.getElem?_append_left (by omega), List.getElem?_take_of_lt hk]
  next hk => rw [List.getElem?_append_right (by omega), hlen, List.getElem?_drop, Nat.add_sub_cancel' (by omega), hv]

/-- An RC frame with a whole payload, in which the collaborator reads channel `k` once `j` channels are written: the answer
is the new value below `j`, the old one from `j` on. -/
theorem handleRc_read {s : State} {bs : List Byte} {n j k : Nat} {old : Chan} (us ms : Word) (hi : Inv s)
    (hb : asmHolds s bs) (h4 : 4 ≤ n) (hn : n ≤ bs.length) (hwhole : chBytes s.cfg ≤ n - 4) (hj : j ≤ s.cfg.numCh)
    (hold : s.chan[k]? = some old) (hs : s.env.slots = List.replicate j [] ++ [[.readChannel k]]) :
    ∃ t, handleRc n us ms s = .ok t ∧ t.env.replies = s.env.replies
      ++ [.channel (if k < j then BitVec.ofNat 11 (payloadNat (bs.drop 3) >>> (11 * k)) else old)] := by
  have hupdate := updateChannels_holds (s := stampRc us s) hb h4 hn hwhole
  rw [stampRc_cfg] at hupdate
  generalize hvs : streamChannels s.cfg.numCh (payloadNat (bs.drop 3)) = vs at hupdate
  have hcount : vs.length = s.cfg.numCh := by simp [← hvs, streamChannels]
  have hwritten : Inv (writeChannels 0 vs (stampRc us s)) := (writeChannels_spec 0 vs).2 (inv_stampRc us hi)
  have hlen : (stampRc us s).chan.length = 0 + vs.length := by rw [stampRc_chan, hi.chan, hcount, Nat.zero_add]
  rw [writeChannels_skip (s := stampRc us s) hs (by omega) hlen] at hupdate hwritten
  have hchan : (partlyWritten 0 j vs [[.readChannel k]] (stampRc us s)).chan = vs.take j ++ s.chan.drop j := by
    simp [partlyWritten]
  have hread : (partlyWritten 0 j vs [[.readChannel k]] (stampRc us s)).chan[k]?
      = some (if k < j then BitVec.ofNat 11 (payloadNat (bs.drop 3) >>> (11 * k)) else old) := by
    have hk : k < s.cfg.numCh := hi.chan ▸ (List.getElem?_eq_some_iff.mp hold).1
    rw [hchan, getElem?_mixed (by omega) hold, ← hvs]
    split <;> simp [streamChannels, hk]
  have hpoint := interleave_readChannel (s := partlyWritten 0 j vs [[.readChannel k]] (stampRc us s)) rfl
    (by rw [hchan]; simp [partlyWritten, hi.chan, hcount]; omega) hread
  have hlast : (interleave (partlyWritten 0 j vs [[.readChannel k]] (stampRc us s))).env.slots = [] := by rw [hpoint]; rfl
  have henv := interleave_writeChannels_env hlast (0 + j) (vs.drop j)
  obtain ⟨t, out, hservice, hhandle, -⟩ := handleRc_updated ms hwritten hupdate
  refine ⟨t, hhandle, ?_⟩
  rw [serviceOutput_env (inv_emit .rcData (inv_interleave hwritten)) (by rw [emit_env, henv, hlast]) hservice, emit_env,
    henv, hpoint]
  rfl

/-- Settles O39: with nothing stepping in between, the frame up to its service call; with anything stepping in between,
what stands; with one read at one point, what is read there. -/
theorem rcFrameUpdatesChannels : Obligations.RcFrameUpdatesChannels := by
  intro s us ms bs n hi hb h4 h64 hn hcrc htype hpayload new
  have hwhole : chBytes s.cfg ≤ n - 4 := hpayload
  have hmarked : Inv (interleave (markReceived us s)) := inv_interleave (inv_markReceived us hi)
  have ho := others_interleave (markReceived us s)
  have hcfg : (interleave (markReceived us s)).cfg = s.cfg := ho.cfg.trans (markReceived_cfg s us)
  have hbm : asmHolds (interleave (markReceived us s)) bs := asmHolds_of_handled ho.handled (asmHolds_markReceived us hb)
  have hw : chBytes (interleave (markReceived us s)).cfg ≤ n - 4 := by rw [hcfg]; exact hwhole
  have hexec : exec (.handleFrame n us ms) s = finish (handleRc n us ms (interleave (markReceived us s))) := by
    rw [exec_handleFrame_dispatches us ms hi hb h4 h64 hn hcrc htype, dispatchFrame_rc]
  refine ⟨fun hs => ?_, ?_, fun j k old hj hold hs => ?_⟩
  · have hrun := updateChannels_quiet (inv_stampRc us (inv_markReceived us hi)) (by simpa using hs)
      (show asmHolds (stampRc us (markReceived us s)) bs from asmHolds_markReceived us hb) h4 hn (by simpa using hwhole)
    rw [stampRc_cfg, markReceived_cfg] at hrun
    obtain ⟨u, out, hservice, hhandle⟩ :=
      exec_handleFrame_rc us ms hi hs hb h4 h64 hn hcrc htype (by simp [streamChannels]) hrun
    exact ⟨u, out, hservice, hhandle⟩
  · obtain ⟨t, hrun, hchan, hlink⟩ := handleRc_stands us ms hmarked hbm h4 hn hw
    refine ⟨t, by rw [hexec, hrun, finish_ok], by rw [hchan, hcfg]; rfl, ?_⟩
    rw [hlink, ho.link, markReceived_link]
    exact ⟨rfl, rfl, rfl, rfl⟩
  · have henv : (interleave (markReceived us s)).env
        = { s.env with slots := List.replicate j [] ++ [[.readChannel k]] } := by
      rw [interleave_skip (s := markReceived us s) (rest := List.replicate j [] ++ [[.readChannel k]])
        (by rw [markReceived_env]; exact hs), markReceived_env]
    have hold' : (interleave (markReceived us s)).chan[k]? = some old := by rw [ho.chan, markReceived_chan, hold]
    obtain ⟨t, hrun, hreplies⟩ :=
      handleRc_read (j := j) us ms hmarked hbm h4 hn hw (by rw [hcfg]; exact hj) hold' (by rw [henv])
    rw [henv] at hreplies
    exact ⟨t, by rw [hexec, hrun, finish_ok], hreplies⟩

/-! ### A frame behind garbage (R211 (a)) -/

/-- What every type's handling leaves alone with nothing stepping in between: the input queue, and the link's mark. -/
structure MarkStands (s t : State) : Prop where
  rxhw : t.line.rxhw = s.line.rxhw
  tLastRx : t.link.tLastRx = s.link.tLastRx
  connected : t.link.connected = s.link.connected

/-- An RC-channels frame, whole or too short. -/
theorem handleRc_markStands {s t : State} {bs : List Byte} {n : Nat} {us ms : Word} (hi : Inv s) (hs : s.env.slots = [])
    (hb : asmHolds s bs) (h4 : 4 ≤ n) (hn : n ≤ bs.length) (hrun : handleRc n us ms s = .ok t) : MarkStands s t := by
  have hstamped : Inv (stampRc us s) := inv_stampRc us hi
  obtain ⟨c, d, hc, hupdate⟩ : ∃ c d, c.length = s.cfg.numCh
      ∧ updateChannels n (stampRc us s) = .ok (withChannels c d (stampRc us s)) := by
    rcases Nat.lt_or_ge (n - 4) (chBytes s.cfg) with hshort | hwhole
    · obtain ⟨c, hlen, hdraw⟩ := updateChannels_short (s := stampRc us s) hs hshort
      exact ⟨c, _, hlen.trans hi.chan, hdraw⟩
    · exact ⟨_, 0, by simp [streamChannels], updateChannels_quiet hstamped hs hb h4 hn hwhole⟩
  have hupdated : Inv (withChannels c d (stampRc us s)) := { hstamped with chan := hc }
  obtain ⟨u, out, hservice, hhandle, hserviced⟩ := handleRc_updated ms hupdated hupdate
  cases hrun.symm.trans hhandle
  rw [interleave_nil (show (withChannels c d (stampRc us s)).env.slots = [] from hs)] at hservice
  exact ⟨(serviceOutput_sameInput (by simpa [withChannels] using hs) hservice).rxhw, by rw [hserviced.link]; rfl,
    by rw [hserviced.link]; rfl⟩

/-- Any frame, by its type. -/
theorem dispatchFrame_markStands {s t : State} {bs : List Byte} {n : Nat} {type : Byte} {us ms : Word} (hi : Inv s)
    (hs : s.env.slots = []) (hb : asmHolds s bs) (h4 : 4 ≤ n) (hn : n ≤ bs.length)
    (hrun : dispatchFrame type n us ms s = .ok t) : MarkStands s t := by
  unfold dispatchFrame at hrun
  split at hrun
  next => exact handleRc_markStands hi hs hb h4 hn hrun
  next =>
    split at hrun
    next =>
      rw [handlePing_eq n hi hb (List.getElem?_eq_getElem (by omega))] at hrun
      cases hrun
      split
      next => exact ⟨by rw [enqueue_line], by rw [enqueue_link], by rw [enqueue_link]⟩
      next => exact ⟨rfl, rfl, rfl⟩
    next =>
      split at hrun
      next => rw [handleCommand_eq hb hn] at hrun; cases hrun; exact ⟨rfl, rfl, rfl⟩
      next => cases hrun; exact ⟨rfl, rfl, rfl⟩

/-- A frame handled with nothing stepping in between. -/
theorem handleFrame_marks {s t : State} {bs : List Byte} {n : Nat} {us ms : Word} (hi : Inv s) (hs : s.env.slots = [])
    (hb : asmHolds s bs) (h4 : 4 ≤ n) (hn : n ≤ bs.length) (hrun : handleFrame n us ms s = .ok t) :
    t.line.rxhw = s.line.rxhw ∧ t.link.tLastRx = us ∧ t.link.connected = true := by
  rw [handleFrame_dispatches n us ms hb (List.getElem?_eq_getElem (by omega)), interleave_markReceived_quiet us hs] at hrun
  obtain ⟨hrx, htime, hlink⟩ := dispatchFrame_markStands (inv_markReceived us hi) (by simpa using hs)
    (asmHolds_markReceived us hb) h4 hn hrun
  rw [markReceived_line] at hrx
  rw [markReceived_link] at htime hlink
  exact ⟨hrx, htime, hlink⟩

/-- Bytes without a marker are passed over. -/
theorem aligned_garbage {cfg : Config} {garbage : List Byte} (h : ∀ b ∈ garbage, isMarker cfg b = false) (bs : List Byte) :
    aligned cfg (garbage ++ bs) = aligned cfg bs :=
  List.dropWhile_append_of_pos fun b hb => by simp [h b hb]

/-- Settles O34: the search passes the garbage over, and the poll takes the frame, which is all that is left. -/
theorem garbageThenFrameResynchronises : Obligations.GarbageThenFrameResynchronises := by
  intro s us ms garbage frame marker size rest hi hs hh hcursor hrx hgarbage hframe hmarker hlen h4 hfits hcrc
  have hb : asmHolds s [] := by rw [asmHolds, hcursor]; rfl
  have hfound : polled s [] = frame := by
    rw [polled, List.nil_append, hrx, List.take_of_length_le (by simpa using hfits), aligned_garbage hgarbage, hframe]
    exact aligned_of_marker hmarker _
  have hleft : s.line.rxhw.drop (64 - ([] : List Byte).length) = [] :=
    List.drop_eq_nil_of_le (by rw [hrx]; simpa using hfits)
  have hall : frame.take (size.toNat + 2) = frame := List.take_of_length_le (Nat.le_of_eq hlen)
  obtain ⟨a, a', u, ha, ha', hrun, hhandled, hpoll⟩ := pollRx_good (size := size) us ms hi hs hh hb
    (by rw [hfound, hframe]; rfl) (by omega) (by omega) (by rw [hfound]; omega) (by rw [hfound, hall]; exact hcrc)
  have hempty : a'.cursor = 0 := by
    obtain ⟨-, hlength, -⟩ := memRead_eq_ok.mp ha'.reads
    rw [← hlength, hfound, List.length_drop]; omega
  rw [hfound] at ha
  have hcounted : Inv (countGood (polledInto a [] s)) := inv_countGood (inv_polledInto hi hh ha)
  obtain ⟨hin, htime, hlink⟩ :=
    handleFrame_marks hcounted (by simpa [polledInto] using hs) ha.reads (by omega) (by omega) hrun
  obtain ⟨hgood, hbad⟩ := hhandled.counts
  refine ⟨reply (.poll .good) { u with asm := a' }, ?_, by simp, hempty, hin.trans hleft, ?_, ?_, htime, hlink⟩
  · rw [exec_pollRx, hpoll, finishWith_ok]
  · exact hgood.trans (by rw [countGood_polledInto])
  · exact hbad.trans (by rw [countGood_polledInto])

end Sys2Proof.Machine

/-! The estimator's and the watchdog's statements (44_autobaud_watchdog R231, R232, R234 to R241, R244): the pulse timer tick
by tick, the estimator's phase table, the nearest table entry, and the checks that leave the line alone. -/

namespace Sys2Proof.Machine

/-! ### The measurement window (R231) -/

theorem pwEnable_of_closed {s : State} (h : s.pw.en = false) :
    pwEnable s = { s with pw := { en := true, edges := 0, low := 2 ^ s.cfg.pwBits - 1, high := 2 ^ s.cfg.pwBits - 1,
                                  prev := s.pw.prev, run := 0, synced := false } } := by
  simp [pwEnable, h, pwMax]

theorem pwEnable_of_open {s : State} (h : s.pw.en = true) : pwEnable s = s := if_pos h

/-! ### One tick (R232) -/

theorem pwStep_closed {mx : Nat} {level : Bool} {p : PulseTimer} (h : p.en = false) :
    pwStep mx level p = { p with prev := level } := by
  simp [pwStep, h]

theorem pwStep_same_level {mx : Nat} {level : Bool} {p : PulseTimer} (h : p.en = true) (hl : level = p.prev) :
    pwStep mx level p = { p with run := min (p.run + 1) mx } := by
  simp [pwStep, h, hl]

theorem pwStep_edge {mx : Nat} {level : Bool} {p : PulseTimer} (h : p.en = true) (hl : level ≠ p.prev) :
    pwStep mx level p = pwEdge mx level p := by
  simp [pwStep, h, hl]

/-- A tick as an operation: the level is stored, and the timer steps. -/
theorem exec_pwTick (level : Bool) (s : State) :
    exec (.pwTick level) s
      = .next { s with pw := pwStep (pwMax s.cfg) level s.pw, line := { s.line with level := level } } := rfl

/-- Settles O43: the window by whether it is open, the tick by the three branches of its step. -/
theorem pulseTimerFollowsTheLine : Obligations.PulseTimerFollowsTheLine := by
  refine fun s level => ⟨⟨_, rfl⟩, ⟨_, rfl⟩, fun hclosed => ?_, fun hopen => ?_, _, exec_pwTick level s, ?_, ?_, ?_⟩
  · exact congrArg Host.Outcome.next (pwEnable_of_closed hclosed)
  · exact congrArg Host.Outcome.next (pwEnable_of_open hopen)
  · exact pwStep_closed
  · exact pwStep_same_level
  · intro hopen hedge
    simp [pwStep_edge hopen hedge, pwEdge, hopen, pwMax]

/-! ### A pulse of k ticks (R232) -/

/-- Ticks at one level as operations: the timer's own steps, under the same configuration. -/
theorem execTimes_pwTick (level : Bool) (n : Nat) (s : State) :
    ∃ u, execTimes (.pwTick level) n s = .next u ∧ u.cfg = s.cfg ∧ u.pw = times (pwStep (pwMax s.cfg) level) n s.pw := by
  induction n generalizing s with
  | zero => exact ⟨s, rfl, rfl, rfl⟩
  | succ n ih => exact ih { s with pw := pwStep (pwMax s.cfg) level s.pw, line := { s.line with level := level } }

/-- Ticks at the level the timer already follows lengthen the run, and change nothing else. -/
theorem times_pwStep_same_level {mx : Nat} {level : Bool} (n : Nat) {p : PulseTimer} (hopen : p.en = true)
    (hprev : p.prev = level) (hrun : p.run ≤ mx) :
    times (pwStep mx level) n p = { p with run := min (p.run + n) mx } := by
  induction n generalizing p with
  | zero => rw [times, Nat.add_zero, Nat.min_eq_left hrun]
  | succ n ih =>
    have hsat : min (min (p.run + 1) mx + n) mx = min (p.run + (n + 1)) mx := by omega
    rw [times, pwStep_same_level hopen hprev.symm,
      ih (p := { p with run := min (p.run + 1) mx }) hopen hprev (Nat.min_le_right _ _), hsat]

/-- The edge that begins a pulse starts a run of 1, and the pulse's other ticks make it as long as the pulse. -/
theorem times_pwStep_pulse {mx : Nat} {level : Bool} {k : Nat} {p : PulseTimer} (hopen : p.en = true)
    (hprev : p.prev = !level) (hk : 1 ≤ k) (hmax : k ≤ mx) :
    times (pwStep mx level) k p = { pwEdge mx level p with run := k } := by
  obtain ⟨n, rfl⟩ := Nat.exists_eq_add_of_le' hk
  have hrun : min ((pwEdge mx level p).run + n) mx = n + 1 := by simp only [pwEdge]; omega
  rw [times, pwStep_edge hopen (by simp [hprev]),
    times_pwStep_same_level (level := level) (p := pwEdge mx level p) n hopen rfl (Nat.le_trans hk hmax), hrun]

/-- Settles O44: the ticks of the pulse leave a run of `k` behind its first edge, and the edge that ends it measures the run;
the first edge measures the other level, if any. -/
theorem pulseOfKTicksMeasuresK : Obligations.PulseOfKTicksMeasuresK := by
  intro s level k hopen hprev hk hmax
  obtain ⟨u, hticks, hcfg, hpw⟩ := execTimes_pwTick level k s
  have hpulse : u.pw = { pwEdge (pwMax s.cfg) level s.pw with run := k } :=
    hpw.trans (times_pwStep_pulse hopen hprev hk hmax)
  have hend : pwStep (pwMax u.cfg) (!level) u.pw
      = pwEdge (pwMax s.cfg) (!level) { pwEdge (pwMax s.cfg) level s.pw with run := k } := by
    rw [hcfg, hpulse]
    exact pwStep_edge hopen (by simp [pwEdge])
  refine ⟨u, _, hticks, exec_pwTick (!level) u, fun hlow => ?_, fun hhigh => ?_, ?_⟩ <;> simp only [hend]
  · simp [pwEdge, hlow, hprev]
  · simp [pwEdge, hhigh, hprev]
  · simp only [pwEdge, pwMax]
    omega

/-! ### The estimator's phase table (R234 to R237, R239) -/

theorem enoughEdges_iff {s : State} :
    enoughEdges s = true ↔ s.baud.phase = .init ∧ s.pw.en = true ∧ s.cfg.edgeMin ≤ s.pw.edges := by
  simp [enoughEdges, and_assoc]

/-- The row of `INIT` without enough edges: the window is opened, or stays open. -/
theorem estimate_init {s : State} (hp : s.baud.phase = .init) (he : enoughEdges s = false) :
    estimate s = (pwEnable s, s.cfg.probeBaud) := by
  have hkept : setPhase .init (pwEnable s).baud.inverted (pwEnable s) = pwEnable s := by
    rw [setPhase, ← hp, ← pwEnable_baud s]
  rw [pwEnable_baud] at hkept
  simp [estimate, promote, he, estimateIn, hp, hkept]

/-- The row of `INIT` with enough edges: the window is closed, and `MEASURED` passed through. -/
theorem estimate_promoted {s : State} (he : enoughEdges s = true) :
    estimate s = (setPhase .inverted (!s.baud.inverted) { s with pw := { s.pw with en := false } }, s.cfg.reqBaud) := by
  simp [estimate, promote, he, estimateIn, setPhase]

/-- Outside `INIT` nothing is promoted. -/
theorem promote_of_phase {s : State} (hp : s.baud.phase ≠ .init) : promote s = s := by
  simp [promote, enoughEdges, hp]

theorem estimate_measured {s : State} (hp : s.baud.phase = .measured) :
    estimate s = (setPhase .inverted (!s.baud.inverted) s, s.cfg.reqBaud) := by
  rw [estimate, promote_of_phase (by simp [hp]), estimateIn, hp]

theorem estimate_inverted {s : State} (hp : s.baud.phase = .inverted) :
    estimate s = (setPhase .init (!s.baud.inverted) s, snap s.cfg.baudTable (baudOfWidths s.pw.low s.pw.high)) := by
  rw [estimate, promote_of_phase (by simp [hp]), estimateIn, hp]

theorem exec_autobaudEstimate (s : State) :
    exec .autobaudEstimate s = .next (reply (.baud (estimate s).2) (estimate s).1) := rfl

/-- Settles O45: the rows of the phase table one by one; in `INIT` by the window and its edges. -/
theorem estimatorFollowsItsPhases : Obligations.EstimatorFollowsItsPhases := by
  refine fun s => ⟨rfl, fun hp hclosed => ?_, fun hp hopen hfew => ?_, fun hp hopen hmany => ?_, fun hp => ?_, fun hp => ?_⟩ <;>
    rw [exec_autobaudEstimate]
  · have he : enoughEdges s = false := Bool.eq_false_iff.mpr fun h => by simp [hclosed, enoughEdges_iff] at h
    rw [estimate_init hp he, pwEnable_of_closed hclosed]
  · have he : enoughEdges s = false := Bool.eq_false_iff.mpr fun h =>
      Nat.not_le_of_lt hfew (enoughEdges_iff.mp h).2.2
    rw [estimate_init hp he, pwEnable_of_open hopen]
  · rw [estimate_promoted (enoughEdges_iff.mpr ⟨hp, hopen, hmany⟩)]
    rfl
  · rw [estimate_measured hp]
    rfl
  · rw [estimate_inverted hp]
    rfl

/-! ### The nearest table entry (R238) -/

/-- `x` is the first entry of `l` whose distance from the target no entry undercuts: every entry before it is farther, none
after it is nearer. -/
def FirstNearest (target : Nat) (l : List Nat) (x : Nat) : Prop :=
  ∃ before after, l = before ++ x :: after ∧ (∀ y ∈ before, absDiff x target < absDiff y target)
    ∧ ∀ y ∈ after, absDiff x target ≤ absDiff y target

theorem FirstNearest.le {target x y : Nat} {l : List Nat} (h : FirstNearest target l x) (hy : y ∈ l) :
    absDiff x target ≤ absDiff y target := by
  obtain ⟨before, after, rfl, hbefore, hafter⟩ := h
  rcases List.mem_append.mp hy with hy | hy
  · exact Nat.le_of_lt (hbefore y hy)
  · rcases List.mem_cons.mp hy with rfl | hy
    · exact Nat.le_refl _
    · exact hafter y hy

/-- One entry more: it takes over where it is strictly nearer, so a tie keeps the earlier one. -/
theorem FirstNearest.snoc {target best : Nat} {l : List Nat} (h : FirstNearest target l best) (b : Nat) :
    FirstNearest target (l ++ [b]) (if absDiff b target < absDiff best target then b else best) := by
  split
  next hnearer => exact ⟨l, [], rfl, fun y hy => Nat.lt_of_lt_of_le hnearer (h.le hy), by simp⟩
  next hfarther =>
    obtain ⟨before, after, rfl, hbefore, hafter⟩ := h
    refine ⟨before, after ++ [b], by simp, hbefore, fun y hy => ?_⟩
    rcases List.mem_append.mp hy with hy | hy
    · exact hafter y hy
    · exact List.mem_singleton.mp hy ▸ Nat.le_of_not_lt hfarther

/-- The scan keeps the first nearest of the entries it has seen. -/
theorem firstNearest_snapFrom {target best : Nat} {l : List Nat} (h : FirstNearest target l best) (bs : List Nat) :
    FirstNearest target (l ++ bs) (snapFrom target best bs) := by
  induction bs generalizing l best with
  | nil => rwa [List.append_nil]
  | cons b bs ih =>
    rw [List.append_cons]
    exact ih (h.snoc b)

theorem firstNearest_snap {table : List Nat} (h : table ≠ []) (target : Nat) :
    FirstNearest target table (snap table target) := by
  cases table with
  | nil => exact absurd rfl h
  | cons b bs => exact firstNearest_snapFrom (l := [b]) ⟨[], [], rfl, by simp, by simp⟩ bs

/-- Settles O46: the scan's invariant, with the entries before the answer counted. -/
theorem snapIsTheFirstNearest : Obligations.SnapIsTheFirstNearest := by
  intro table target hne
  have hnearest := firstNearest_snap hne target
  generalize snap table target = x at hnearest
  have hleast : ∀ y ∈ table, absDiff x target ≤ absDiff y target := fun _ hy => hnearest.le hy
  obtain ⟨before, after, rfl, hbefore, -⟩ := hnearest
  have hat : (before ++ x :: after)[before.length]'(by simp) = x := by simp
  refine ⟨before.length, by simp, hat.symm, fun j hj => ?_, fun j hj hlt => ?_⟩ <;> rw [hat]
  · exact hleast _ (List.getElem_mem hj)
  · rw [List.getElem_append_left hlt]
    exact hbefore _ (List.getElem_mem hlt)

/-! ### The checks that leave the line alone (R240, R241, R244) -/

theorem wdtCheck_not_due {s : State} {ms : Word} (h : (ms - s.link.wdtLastMs).toNat < s.cfg.wdtIntervalMs) :
    wdtCheck ms s = (s, some .notDue) := by
  have hdue : wdtDue ms s = false := decide_eq_false (Nat.not_le_of_lt h)
  simp [wdtCheck, hdue]

/-- R241: a link that is up and has had more good frames than bad does not trigger a due check. -/
theorem wdtCheck_live {s : State} {ms : Word} (hdue : s.cfg.wdtIntervalMs ≤ (ms - s.link.wdtLastMs).toNat)
    (hgood : s.link.badCnt < s.link.goodCnt) (hconn : s.link.connected = true) :
    wdtCheck ms s = (endCheck ms s, some .ok) := by
  have hd : wdtDue ms s = true := decide_eq_true hdue
  have hlive : wdtTriggers s = false := by simp [wdtTriggers, hgood, hconn]
  simp [wdtCheck, hd, hlive]

theorem exec_wdtCheck (ms : Word) (s : State) :
    exec (.wdtCheck ms) s = .next (answerWdt (wdtCheck ms s).2 (wdtCheck ms s).1) := rfl

/-- Settles O47: a check that is not due, and a due check of a live link; neither has an interleave point. -/
theorem watchdogLeavesLiveLink : Obligations.WatchdogLeavesLiveLink := by
  refine fun s ms => ⟨fun hearly => ?_, fun hdue hgood hconn => ?_⟩ <;> rw [exec_wdtCheck]
  · rw [wdtCheck_not_due hearly, answerWdt_some]
  · rw [wdtCheck_live hdue hgood hconn, answerWdt_some, endCheck]

end Sys2Proof.Machine

/-! Who writes what (10_state R20 to R30, 42_duplex R195, R196, 70_reset_and_hazards R341 (b)): what sending, receiving and
checking leave alone, from any state and whatever the other agents do meanwhile. -/

namespace Sys2Proof.Machine

/-! ### What an interleave point leaves alone (R86) -/

section InterleaveFields

variable (s : State)

@[simp] theorem interleave_cfg : (interleave s).cfg = s.cfg := (others_interleave s).cfg
@[simp] theorem interleave_asm : (interleave s).asm = s.asm := (others_interleave s).asm
@[simp] theorem interleave_chan : (interleave s).chan = s.chan := (others_interleave s).chan
@[simp] theorem interleave_link : (interleave s).link = s.link := (others_interleave s).link
@[simp] theorem interleave_baud : (interleave s).baud = s.baud := (others_interleave s).baud
@[simp] theorem interleave_pins : (interleave s).pins = s.pins := (others_interleave s).pins
@[simp] theorem interleave_clock : (interleave s).clock = s.clock := (others_interleave s).clock
@[simp] theorem interleave_hold : (interleave s).hold = s.hold := (others_interleave s).hold
@[simp] theorem interleave_pending : (interleave s).env.pending = s.env.pending := (others_interleave s).pending
@[simp] theorem interleave_tab8 : (interleave s).crc.tab8 = s.crc.tab8 := (others_interleave s).tab8

end InterleaveFields

/-! ### Where a rule that completes leads -/

/-- Where a rule completes, its result satisfies `P`. -/
def Yields {α : Type} (P : α → Prop) (x : Run α) : Prop := ∀ a, x = .ok a → P a

/-- Where an operation goes on, the next state satisfies `P`. -/
def GoesTo (P : State → Prop) (o : Out) : Prop := ∀ t, o = .next t → P t

theorem yields_ok {α : Type} {P : α → Prop} {a : α} (h : P a) : Yields P (.ok a) := by
  rintro _ ⟨⟩; exact h

theorem yields_error {α : Type} {P : α → Prop} (e : Stop) : Yields P (.error e) := by
  rintro _ ⟨⟩

theorem Yields.imp {α : Type} {P Q : α → Prop} {x : Run α} (h : Yields P x) (hPQ : ∀ a, P a → Q a) : Yields Q x :=
  fun a ha => hPQ a (h a ha)

theorem Yields.andThen {α β : Type} {P : α → Prop} {Q : β → Prop} {x : Run α} {k : α → Run β} (hx : Yields P x)
    (hk : ∀ a, P a → Yields Q (k a)) : Yields Q (andThen x k) := by
  intro b hb
  obtain ⟨a, ha, hkb⟩ := andThen_eq_ok.mp hb
  exact hk a (hx a ha) b hkb

/-- Behind a read, of which nothing is asked. -/
theorem yields_andThen {α β : Type} {Q : β → Prop} {x : Run α} {k : α → Run β} (hk : ∀ a, Yields Q (k a)) :
    Yields Q (andThen x k) :=
  Yields.andThen (P := fun _ => True) (fun _ _ => trivial) fun a _ => hk a

theorem yields_ite {α : Type} {P : α → Prop} {c : Prop} [Decidable c] {x y : Run α} (hx : Yields P x) (hy : Yields P y) :
    Yields P (if c then x else y) := by
  split
  · exact hx
  · exact hy

theorem goesTo_next {P : State → Prop} {t : State} (h : P t) : GoesTo P (.next t) := by
  rintro _ ⟨⟩; exact h

theorem goesTo_refused {P : State → Prop} (r : Refusal) : GoesTo P (.refused r) := by
  rintro _ ⟨⟩

theorem goesTo_ite {P : State → Prop} {c : Prop} [Decidable c] {x y : Out} (hx : GoesTo P x) (hy : GoesTo P y) :
    GoesTo P (if c then x else y) := by
  split
  · exact hx
  · exact hy

theorem goesTo_finish {P : State → Prop} {x : Run State} (h : Yields P x) : GoesTo P (finish x) := by
  cases x with
  | ok t => exact goesTo_next (h t rfl)
  | error e => cases e <;> rintro _ ⟨⟩

/-- A rule with a result: the answer is listed behind its state. -/
theorem goesTo_finishWith {P : State → Prop} {α : Type} {mk : α → Reply} {x : Run (State × α)}
    (h : Yields (fun r => P r.1) x) (hreply : ∀ r t, P t → P (reply r t)) : GoesTo P (finishWith mk x) :=
  goesTo_finish (h.andThen fun _ hr => yields_ok (hreply _ _ hr))

/-! ### The two sides of the polling loop -/

/-- Neither the sending nor the receiving of frames writes these; the pins move on a half-duplex line only (R195). -/
structure LoopKeeps (s t : State) : Prop where
  cfg : t.cfg = s.cfg
  tab8 : t.crc.tab8 = s.crc.tab8
  clock : t.clock = s.clock
  hold : t.hold = s.hold
  baud : t.baud = s.baud
  pins : s.cfg.halfDuplex = false → t.pins = s.pins

/-- Sending writes neither the channels nor the link state. -/
structure SendKeeps (s t : State) : Prop extends LoopKeeps s t where
  chan : t.chan = s.chan
  link : t.link = s.link

/-- Receiving does not touch the watchdog's timestamp, and the link is not lost by it. -/
structure ReceiveKeeps (s t : State) : Prop extends LoopKeeps s t where
  wdtLastMs : t.link.wdtLastMs = s.link.wdtLastMs
  connected : s.link.connected = true → t.link.connected = true

theorem LoopKeeps.trans {s t u : State} (h : LoopKeeps s t) (h' : LoopKeeps t u) : LoopKeeps s u where
  cfg := h'.cfg.trans h.cfg
  tab8 := h'.tab8.trans h.tab8
  clock := h'.clock.trans h.clock
  hold := h'.hold.trans h.hold
  baud := h'.baud.trans h.baud
  pins := fun hd => (h'.pins (h.cfg ▸ hd)).trans (h.pins hd)

theorem SendKeeps.refl (s : State) : SendKeeps s s := ⟨⟨rfl, rfl, rfl, rfl, rfl, fun _ => rfl⟩, rfl, rfl⟩

theorem SendKeeps.trans {s t u : State} (h : SendKeeps s t) (h' : SendKeeps t u) : SendKeeps s u :=
  ⟨h.toLoopKeeps.trans h'.toLoopKeeps, h'.chan.trans h.chan, h'.link.trans h.link⟩

theorem ReceiveKeeps.trans {s t u : State} (h : ReceiveKeeps s t) (h' : ReceiveKeeps t u) : ReceiveKeeps s u :=
  ⟨h.toLoopKeeps.trans h'.toLoopKeeps, h'.wdtLastMs.trans h.wdtLastMs, h'.connected ∘ h.connected⟩

theorem SendKeeps.receives {s t : State} (h : SendKeeps s t) : ReceiveKeeps s t :=
  ⟨h.toLoopKeeps, by rw [h.link], by rw [h.link]; exact id⟩

theorem Others.sends {s t : State} (h : Others s t) : SendKeeps s t :=
  ⟨⟨h.cfg, h.tab8, h.clock, h.hold, h.baud, fun _ => h.pins⟩, h.chan, h.link⟩

theorem sends_interleave (s : State) : SendKeeps s (interleave s) := (others_interleave s).sends

theorem sends_reply {s t : State} (r : Reply) (h : SendKeeps s t) : SendKeeps s (reply r t) := h.trans (others_reply r).sends

theorem receives_reply {s t : State} (r : Reply) (h : ReceiveKeeps s t) : ReceiveKeeps s (reply r t) :=
  h.trans (others_reply r).sends.receives

/-! ### Sending (45_scheduler R264 to R266) -/

theorem sends_qFlush (s : State) : SendKeeps s (qFlush s) := { SendKeeps.refl s with }

theorem sends_handOver (bs : List Byte) (s : State) : SendKeeps s (handOver bs s) := { SendKeeps.refl s with }

theorem sends_pwEnable (s : State) : SendKeeps s (pwEnable s) := by
  unfold pwEnable
  split
  · exact SendKeeps.refl s
  · exact { SendKeeps.refl s with }

theorem sends_syncEmit (ms : Word) (s : State) : SendKeeps s (syncEmit ms s) :=
  ⟨⟨by simp, by simp, by simp, by simp, by simp, by simp⟩, by simp, by simp⟩

/-- Transmit mode is engaged on a half-duplex line only (R265). -/
theorem sends_engageTransmit (s : State) : SendKeeps s (engageTransmit s) := by
  refine ⟨⟨by simp, by simp, by simp, by simp, by simp, fun hd => ?_⟩, by simp, by simp⟩
  simp [engageTransmit, hd]

theorem popRecord_sends (s : State) : Yields (SendKeeps s) (popRecord s) := by
  unfold popRecord
  split
  · exact yields_error _
  · exact yields_ite (yields_error _) (yields_andThen fun _ => yields_ok { SendKeeps.refl s with })

theorem popIfIdle_sends (s : State) : Yields (SendKeeps s) (popIfIdle s) :=
  yields_ite ((popRecord_sends s).andThen fun t ht => yields_ok (ht.trans (sends_interleave t)))
    (yields_ok (SendKeeps.refl s))

theorem drain_sends (fuel budget : Nat) (s : State) : Yields (fun r => SendKeeps s r.1) (drain fuel budget s) := by
  induction fuel generalizing budget s with
  | zero => exact yields_ok (SendKeeps.refl s)
  | succ fuel ih =>
    refine (popIfIdle_sends s).andThen fun t ht => yields_andThen fun bytes => ?_
    have hgiven : SendKeeps s (interleave (handOver bytes t)) :=
      (ht.trans (sends_handOver bytes t)).trans (sends_interleave _)
    exact yields_ite (yields_ok hgiven) ((ih _ _).andThen fun r hr => yields_ok (hgiven.trans hr))

theorem serviceOutput_sends (received : Nat) (ms : Word) (s : State) :
    Yields (fun r => SendKeeps s r.1) (serviceOutput received ms s) := by
  refine yields_ite (yields_ok (sends_qFlush s)) ?_
  have hemitted : SendKeeps s (if hasOutput s then s else syncEmit ms s) := by
    split
    · exact SendKeeps.refl s
    · exact sends_syncEmit ms s
  have hsettled := hemitted.trans (sends_interleave _)
  refine yields_ite ?_ (yields_ok hsettled)
  exact (drain_sends _ _ _).imp fun _ hr =>
    ((hsettled.trans (sends_engageTransmit _)).trans (sends_interleave _)).trans hr

/-! ### Receiving (43_assembly R200 to R209) -/

theorem sends_setAsm (m : Memory) (n : Nat) (s : State) : SendKeeps s (setAsm m n s) := { SendKeeps.refl s with }

theorem rxFill_sends (s : State) : Yields (SendKeeps s) (rxFill s) :=
  yields_andThen fun _ => yields_ok { SendKeeps.refl s with }

theorem dropFront_sends (i : Nat) (s : State) : Yields (SendKeeps s) (dropFront i s) :=
  yields_andThen fun _ => yields_ok (sends_setAsm _ _ s)

theorem alignFrom_sends (start : Nat) (s : State) : Yields (SendKeeps s) (alignFrom start s) := by
  refine yields_andThen fun _ => ?_
  split
  · exact dropFront_sends _ s
  · exact yields_ok (sends_setAsm _ _ s)

theorem receives_markReceived (us : Word) (s : State) : ReceiveKeeps s (markReceived us s) := by
  rw [markReceived_eq]
  exact { (SendKeeps.refl s).receives with connected := fun _ => rfl }

theorem receives_stampRc (us : Word) (s : State) : ReceiveKeeps s (stampRc us s) := { (SendKeeps.refl s).receives with }

theorem receives_countGood (s : State) : ReceiveKeeps s (countGood s) := { (SendKeeps.refl s).receives with }

theorem receives_countBad (s : State) : ReceiveKeeps s (countBad s) := { (SendKeeps.refl s).receives with }

theorem receives_emit (e : Event) (s : State) : ReceiveKeeps s (emit e s) := { (SendKeeps.refl s).receives with }

theorem receives_setChan (k : Nat) (v : Chan) (s : State) : ReceiveKeeps s (setChan k v s) :=
  { (SendKeeps.refl s).receives with }

theorem receives_writeChannels (k : Nat) (vs : List Chan) (s : State) : ReceiveKeeps s (writeChannels k vs s) := by
  induction vs generalizing k s with
  | nil => exact (SendKeeps.refl s).receives
  | cons v vs ih => exact ((sends_interleave s).receives.trans (receives_setChan _ _ _)).trans (ih _ _)

theorem receives_drawChannels (n k : Nat) (s : State) : ReceiveKeeps s (drawChannels n k s) := by
  induction n generalizing k s with
  | zero => exact (SendKeeps.refl s).receives
  | succ n ih =>
    exact (((sends_interleave s).trans others_drawn.sends).receives.trans (receives_setChan _ _ _)).trans (ih _ _)

theorem updateChannels_receives (n : Nat) (s : State) : Yields (ReceiveKeeps s) (updateChannels n s) :=
  yields_ite (yields_andThen fun _ => yields_ok (receives_writeChannels _ _ s))
    (yields_ok (receives_drawChannels _ _ s))

theorem handleRc_receives (n : Nat) (us ms : Word) (s : State) : Yields (ReceiveKeeps s) (handleRc n us ms s) := by
  refine (updateChannels_receives n (stampRc us s)).andThen fun t ht => ?_
  have hreported : ReceiveKeeps s (emit .rcData (interleave t)) :=
    ((receives_stampRc us s).trans ht).trans ((sends_interleave t).receives.trans (receives_emit _ _))
  exact (serviceOutput_sends n ms _).andThen fun r hr => yields_ok (hreported.trans hr.receives)

theorem handlePing_receives (n : Nat) (s : State) : Yields (ReceiveKeeps s) (handlePing n s) := by
  have hsame : Yields (ReceiveKeeps s) (.ok s) := yields_ok (SendKeeps.refl s).receives
  exact yields_ite hsame (yields_andThen fun _ =>
    yields_ite (yields_andThen fun f => yields_ok (others_enqueue f).sends.receives) hsame)

theorem handleCommand_receives (n : Nat) (s : State) : Yields (ReceiveKeeps s) (handleCommand n s) := by
  have hsame : Yields (ReceiveKeeps s) (.ok s) := yields_ok (SendKeeps.refl s).receives
  have hevent (further : Byte) : Yields (ReceiveKeeps s) (commandEvent n further s) :=
    yields_ite (yields_andThen fun _ => yields_ok (receives_emit _ s))
      (yields_ite (yields_ok (receives_emit _ s)) hsame)
  exact yields_ite hsame (yields_andThen fun _ => yields_andThen fun _ => yields_andThen fun _ =>
    yields_ite (hevent _) hsame)

theorem dispatchFrame_receives (type : Byte) (n : Nat) (us ms : Word) (s : State) :
    Yields (ReceiveKeeps s) (dispatchFrame type n us ms s) :=
  yields_ite (handleRc_receives n us ms s) (yields_ite (handlePing_receives n s)
    (yields_ite (handleCommand_receives n s) (yields_ok (SendKeeps.refl s).receives)))

theorem handleFrame_receives (n : Nat) (us ms : Word) (s : State) : Yields (ReceiveKeeps s) (handleFrame n us ms s) :=
  yields_andThen fun type => (dispatchFrame_receives type n us ms _).imp fun _ ht =>
    ((receives_markReceived us s).trans (sends_interleave _).receives).trans ht

theorem takeFrame_receives (n : Nat) (us ms : Word) (s : State) :
    Yields (fun r => ReceiveKeeps s r.1) (takeFrame n us ms s) := by
  refine yields_andThen fun f => yields_ite ?_ ?_
  · exact (handleFrame_receives n us ms _).andThen fun t ht => (dropFront_sends n t).andThen fun u hu =>
      yields_ok (((receives_countGood s).trans ht).trans hu.receives)
  · exact (dropFront_sends n _).andThen fun u hu =>
      yields_ok (((receives_countBad s).trans (receives_emit _ _)).trans hu.receives)

theorem extract_receives (us ms : Word) (s : State) : Yields (fun r => ReceiveKeeps s r.1) (extract us ms s) := by
  refine yields_andThen fun marker => yields_andThen fun size => yields_ite ?_ (yields_ite ?_ ?_)
  · exact (alignFrom_sends 1 _).andThen fun t ht => yields_ok ((receives_emit _ s).trans ht.receives)
  · exact yields_ok (SendKeeps.refl s).receives
  · exact takeFrame_receives _ us ms s

/-- A burst ends on a half-duplex line only (R202 step 1). -/
theorem sends_endBurst (s : State) : SendKeeps s (endBurst s) := by
  refine ⟨⟨by simp, by simp, by simp, by simp, by simp, fun hd => ?_⟩, by simp, by simp⟩
  rw [endBurst_idle (.inl hd)]

theorem pollRx_receives (us ms : Word) (s : State) : Yields (fun r => ReceiveKeeps s r.1) (pollRx us ms s) := by
  refine yields_ite (yields_ok (SendKeeps.refl s).receives) ((rxFill_sends _).andThen fun t ht => ?_)
  have hfilled : SendKeeps s (interleave t) :=
    (((sends_endBurst s).trans (sends_interleave _)).trans ht).trans (sends_interleave t)
  refine (alignFrom_sends 0 _).andThen fun u hu => ?_
  have haligned : ReceiveKeeps s u := (hfilled.trans hu).receives
  exact yields_ite (yields_ok haligned) ((extract_receives us ms u).imp fun _ hr => haligned.trans hr)

theorem execPollRx_receives (us ms : Word) (s : State) : GoesTo (ReceiveKeeps s) (execPollRx us ms s) :=
  goesTo_finishWith (pollRx_receives us ms s) fun r _ => receives_reply r

theorem arrive_receives (bytes : List Byte) (s : State) : GoesTo (ReceiveKeeps s) (arrive bytes s) :=
  goesTo_ite (fun t ht => (others_receiveBytes bytes).sends.receives.trans (execPollRx_receives _ _ _ t ht))
    (goesTo_refused _)

theorem execHandleFrame_receives (n : Nat) (us ms : Word) (s : State) :
    GoesTo (ReceiveKeeps s) (execHandleFrame n us ms s) :=
  goesTo_ite (goesTo_finish (yields_andThen fun _ => yields_ite (handleFrame_receives n us ms s) (yields_error _)))
    (goesTo_refused _)

/-! ### A watchdog check (R240 to R244) -/

/-- A watchdog check writes none of these, can lose the link but not raise it, and keeps a full-duplex line in its row of the
mode table (R196). -/
structure CheckKeeps (s t : State) : Prop where
  cfg : t.cfg = s.cfg
  tab8 : t.crc.tab8 = s.crc.tab8
  clock : t.clock = s.clock
  chan : t.chan = s.chan
  tLastRx : t.link.tLastRx = s.link.tLastRx
  tLastRc : t.link.tLastRc = s.link.tLastRc
  rcSeen : t.link.rcSeen = s.link.rcSeen
  connected : t.link.connected = true → s.link.connected = true
  pins : s.cfg.halfDuplex = false → FullDuplexPins s.pins → FullDuplexPins t.pins

theorem CheckKeeps.trans {s t u : State} (h : CheckKeeps s t) (h' : CheckKeeps t u) : CheckKeeps s u where
  cfg := h'.cfg.trans h.cfg
  tab8 := h'.tab8.trans h.tab8
  clock := h'.clock.trans h.clock
  chan := h'.chan.trans h.chan
  tLastRx := h'.tLastRx.trans h.tLastRx
  tLastRc := h'.tLastRc.trans h.tLastRc
  rcSeen := h'.rcSeen.trans h.rcSeen
  connected := h.connected ∘ h'.connected
  pins := fun hd hp => h'.pins (h.cfg ▸ hd) (h.pins hd hp)

theorem SendKeeps.checks {s t : State} (h : SendKeeps s t) : CheckKeeps s t where
  cfg := h.cfg
  tab8 := h.tab8
  clock := h.clock
  chan := h.chan
  tLastRx := by rw [h.link]
  tLastRc := by rw [h.link]
  rcSeen := by rw [h.link]
  connected := by rw [h.link]; exact id
  pins := fun hd hp => by rwa [h.pins hd]

theorem checks_endCheck (ms : Word) (s : State) : CheckKeeps s (endCheck ms s) := { (SendKeeps.refl s).checks with }

/-- R242: the link is lost. -/
theorem checks_disconnect (s : State) : CheckKeeps s (disconnect s) := by
  rw [disconnect_eq]
  exact { (SendKeeps.refl s).checks with connected := Bool.noConfusion }

theorem Estimated.checks {s t : State} (h : Estimated s t) : CheckKeeps s t where
  cfg := h.cfg
  tab8 := by rw [h.crc]
  clock := h.clock
  chan := h.chan
  tLastRx := by rw [h.link]
  tLastRc := by rw [h.link]
  rcSeen := by rw [h.link]
  connected := by rw [h.link]; exact id
  pins := fun _ hp => by rwa [h.pins]

theorem checks_prepareLine (c : Nat) (s : State) : CheckKeeps s (prepareLine c s) :=
  have hbudget : CheckKeeps s { s with baud := { s.baud with winBytes := windowBytes s.cfg c } } :=
    { (SendKeeps.refl s).checks with }
  (hbudget.trans (sends_interleave _).checks).trans ((sends_qFlush _).trans (sends_interleave _)).checks

/-- What the end of a check (R243 steps 4 to 6, R244) leaves of the state `s` it goes on from, whatever the other agents do
meanwhile. -/
structure CheckEnded (c : Nat) (ms : Word) (s t : State) : Prop where
  cfg : t.cfg = s.cfg
  tab8 : t.crc.tab8 = s.crc.tab8
  clock : t.clock = s.clock
  asm : t.asm = s.asm
  chan : t.chan = s.chan
  hold : t.hold = s.hold
  pending : t.env.pending = s.env.pending
  link : t.link = { s.link with wdtLastMs := ms, goodCnt := 0, badCnt := 0 }
  baud : t.baud = { s.baud with cur := BitVec.ofNat 32 c }
  rxhw : t.line.rxhw = []
  txhw : s.line.txhw = [] → t.line.txhw = []
  pins : s.cfg.halfDuplex = false → FullDuplexPins s.pins → FullDuplexPins t.pins

theorem restoreReceive_fullDuplex {s : State} (hd : s.cfg.halfDuplex = false) (hp : FullDuplexPins s.pins) :
    FullDuplexPins (restoreReceive s).pins := by
  simpa [restoreReceive, hd] using followPolarity_fullDuplex s.baud.inverted hp

theorem finishCheck_ends (c : Nat) (ms : Word) (s : State) : CheckEnded c ms s (finishCheck c ms s) where
  cfg := by simp [finishCheck, renewLine]
  tab8 := by simp [finishCheck, renewLine]
  clock := by simp [finishCheck, renewLine]
  asm := by simp [finishCheck, renewLine]
  chan := by simp [finishCheck, renewLine]
  hold := by simp [finishCheck, renewLine]
  pending := by simp [finishCheck, renewLine]
  link := by simp [finishCheck, renewLine]
  baud := by simp [finishCheck, renewLine]
  rxhw := by simp [finishCheck, renewLine]
  txhw := fun ht => by
    have hconfigured : (interleave (configureLine c (interleave s))).line.txhw = [] :=
      txhw_interleave (by simpa using txhw_interleave ht)
    have hrestored := txhw_interleave (s := restoreReceive (interleave (configureLine c (interleave s))))
      (by simpa using hconfigured)
    simpa [finishCheck, renewLine] using hrestored
  pins := fun hd hp => by
    have hrestored := restoreReceive_fullDuplex (s := interleave (configureLine c (interleave s)))
      (by simpa using hd) (by simpa using hp)
    simpa [finishCheck, renewLine] using hrestored

theorem CheckEnded.checks {c : Nat} {ms : Word} {s t : State} (h : CheckEnded c ms s t) : CheckKeeps s t where
  cfg := h.cfg
  tab8 := h.tab8
  clock := h.clock
  chan := h.chan
  tLastRx := by rw [h.link]
  tLastRc := by rw [h.link]
  rcSeen := by rw [h.link]
  connected := by rw [h.link]; exact id
  pins := h.pins

theorem checks_holdUntilIdle (c : Nat) (ms : Word) (s : State) : CheckKeeps s (holdUntilIdle c ms s).1 := by
  rcases holdUntilIdle_cases c ms s with ⟨-, e⟩ | ⟨-, e⟩ <;> rw [e]
  · exact (finishCheck_ends c ms s).checks
  · exact { (SendKeeps.refl s).checks with }

theorem checks_recoverLink (ms : Word) (s : State) : CheckKeeps s (recoverLink ms s).1 := by
  have hestimated : CheckKeeps s (estimate (interleave (disconnect s))).1 :=
    ((checks_disconnect s).trans (sends_interleave _).checks).trans (estimate_spec _).1.checks
  unfold recoverLink
  simp only
  split
  · exact hestimated.trans (checks_endCheck ms _)
  · exact (hestimated.trans (checks_prepareLine _ _)).trans (checks_holdUntilIdle _ ms _)

theorem checks_wdtCheck (ms : Word) (s : State) : CheckKeeps s (wdtCheck ms s).1 := by
  unfold wdtCheck
  split
  · exact (SendKeeps.refl s).checks
  · split
    · exact checks_recoverLink ms s
    · exact checks_endCheck ms s

theorem checks_answerWdt {s t : State} (o : Option WdtOutcome) (h : CheckKeeps s t) : CheckKeeps s (answerWdt o t) := by
  cases o with
  | none => exact h
  | some o => exact h.trans (others_reply _).sends.checks

/-! ### Every operation keeps to its elements (R20 to R30, R341 (b)) -/

/-- The instruction `i`, leading from `s` to `t`, writes only elements it is listed as a writer of. -/
structure KeepsToWriters (i : Instr) (s t : State) : Prop where
  cfg : t.cfg = s.cfg
  resetOnly : i ≠ .reset → t.crc.tab8 = s.crc.tab8 ∧ t.clock = s.clock
  receivers : i ≠ .reset → receives i = false →
    t.chan = s.chan ∧ t.link.tLastRx = s.link.tLastRx ∧ t.link.tLastRc = s.link.tLastRc
      ∧ t.link.rcSeen = s.link.rcSeen ∧ (t.link.connected = true → s.link.connected = true)
  watchdog : i ≠ .reset → (∀ ms, i ≠ .wdtCheck ms) →
    t.link.wdtLastMs = s.link.wdtLastMs ∧ (s.link.connected = true → t.link.connected = true) ∧ t.hold = s.hold
  estimator : i ≠ .reset → (∀ ms, i ≠ .wdtCheck ms) → i ≠ .autobaudEstimate → t.baud = s.baud
  fullDuplex : s.cfg.halfDuplex = false → (∀ v, i ≠ .setRx v) → (∀ v, i ≠ .setTx v) → FullDuplexPins s.pins →
    FullDuplexPins t.pins

theorem ReceiveKeeps.writers {i : Instr} {s t : State} (hi : receives i = true) (h : ReceiveKeeps s t) :
    KeepsToWriters i s t where
  cfg := h.cfg
  resetOnly := fun _ => ⟨h.tab8, h.clock⟩
  receivers := fun _ hr => absurd hi (by simp [hr])
  watchdog := fun _ _ => ⟨h.wdtLastMs, h.connected, h.hold⟩
  estimator := fun _ _ _ => h.baud
  fullDuplex := fun hd _ _ hp => by rwa [h.pins hd]

theorem CheckKeeps.writers {ms : Word} {s t : State} (h : CheckKeeps s t) : KeepsToWriters (.wdtCheck ms) s t where
  cfg := h.cfg
  resetOnly := fun _ => ⟨h.tab8, h.clock⟩
  receivers := fun _ _ => ⟨h.chan, h.tLastRx, h.tLastRc, h.rcSeen, h.connected⟩
  watchdog := fun _ hw => absurd rfl (hw ms)
  estimator := fun _ hw _ => absurd rfl (hw ms)
  fullDuplex := fun hd _ _ hp => h.pins hd hp

theorem SendKeeps.writers {s t : State} (i : Instr) (h : SendKeeps s t) : KeepsToWriters i s t where
  cfg := h.cfg
  resetOnly := fun _ => ⟨h.tab8, h.clock⟩
  receivers := fun _ _ => ⟨h.chan, h.checks.tLastRx, h.checks.tLastRc, h.checks.rcSeen, h.checks.connected⟩
  watchdog := fun _ _ => ⟨h.receives.wdtLastMs, h.receives.connected, h.hold⟩
  estimator := fun _ _ _ => h.baud
  fullDuplex := fun hd _ _ hp => h.checks.pins hd hp

/-- `RESET` writes every element but the configuration, and connects a full-duplex line both ways (R196, R340). -/
theorem writers_reset (s : State) : KeepsToWriters .reset s (resetState s) where
  cfg := rfl
  resetOnly := fun h => absurd rfl h
  receivers := fun h => absurd rfl h
  watchdog := fun h => absurd rfl h
  estimator := fun h => absurd rfl h
  fullDuplex := fun hd _ _ _ => fullDuplexPins_atReset hd

/-- The estimator writes the baud state and the timer. -/
theorem writers_autobaudEstimate (s : State) :
    KeepsToWriters .autobaudEstimate s (reply (.baud (estimate s).2) (estimate s).1) := by
  have h := (estimate_spec s).1
  have hc := h.checks
  exact { cfg := h.cfg
          resetOnly := fun _ => ⟨hc.tab8, hc.clock⟩
          receivers := fun _ _ => ⟨hc.chan, hc.tLastRx, hc.tLastRc, hc.rcSeen, hc.connected⟩
          watchdog := fun _ _ => ⟨by simp [h.link], by simp [h.link], h.hold⟩
          estimator := fun _ _ hi => absurd rfl hi
          fullDuplex := fun hd _ _ hp => hc.pins hd hp }

/-- A mode change writes the pins and the events alone (R191, R192). -/
theorem writers_modeChange {i : Instr} {s : State} {v : Bool} (hi : i = .setRx v ∨ i = .setTx v) (p : Pins)
    (es : List Event) : KeepsToWriters i s { s with pins := p, events := es } where
  cfg := rfl
  resetOnly := fun _ => ⟨rfl, rfl⟩
  receivers := fun _ _ => ⟨rfl, rfl, rfl, rfl, id⟩
  watchdog := fun _ _ => ⟨rfl, id, rfl⟩
  estimator := fun _ _ _ => rfl
  fullDuplex := fun _ hrx htx _ => absurd hi (not_or.mpr ⟨hrx v, htx v⟩)

theorem exec_keepsToWriters (i : Instr) (s : State) : GoesTo (KeepsToWriters i s) (exec i s) := by
  by_cases ha : asynchronous i = true
  · exact fun t he => (exec_asynchronous_others ha he).1.sends.writers i
  · cases i with
    | reset => exact goesTo_next (writers_reset s)
    | setRx v => exact goesTo_ite (goesTo_next (setReceive_eq v s ▸ writers_modeChange (.inl rfl) _ _)) (goesTo_refused _)
    | setTx v => exact goesTo_next (setTransmit_eq v s ▸ writers_modeChange (.inr rfl) _ _)
    | pollRx us ms => exact fun t he => (execPollRx_receives us ms s t he).writers rfl
    | align start =>
      exact goesTo_ite (goesTo_refused _) (goesTo_finish ((alignFrom_sends start s).imp fun _ h => h.writers _))
    | handleFrame n us ms => exact fun t he => (execHandleFrame_receives n us ms s t he).writers rfl
    | wdtCheck ms => exact goesTo_next (checks_answerWdt _ (checks_wdtCheck ms s)).writers
    | autobaudEstimate => exact goesTo_next (writers_autobaudEstimate s)
    | pwEnable => exact goesTo_next ((sends_pwEnable s).writers _)
    | flushQueue => exact goesTo_next ((sends_qFlush s).writers _)
    | serviceOutput n ms =>
      exact fun t he => (goesTo_finishWith (serviceOutput_sends n ms s) (fun r _ => sends_reply r) t he).writers _
    | syncEmit ms => exact goesTo_next ((sends_reply _ (sends_syncEmit ms s)).writers _)
    | frameLinkStats | frameRcChannels | framePing | frameDeviceInfo | frameCommand | frameTiming =>
      exact fun t he => (arrive_receives _ s t he).writers rfl
    | lineRx | txDrain | pwTick | crc8Byte | crc8Buf | crcnConfig | crcnCalc | decodeHeader | computeCrc | isValid
    | unpackChannels | packChannels | encodeExt | encodeDevinfo | packVersion | readChannel | getLastRcTs | enqueue
    | sendTelemetry | notifyTx => exact absurd rfl ha

/-- Settles O11: every operation keeps to its elements, and a check whose hold is over goes on to its end. -/
theorem elementsHaveTheirWriters : Obligations.ElementsHaveTheirWriters := by
  refine ⟨fun i s t he => ?_, fun s h hcfg hh ht => ?_⟩
  · obtain ⟨hkept, hreset, hreceivers, hwatchdog, hestimator, hpins⟩ := exec_keepsToWriters i s t he
    exact ⟨hkept, hreset, hreceivers, hwatchdog, hestimator, hpins⟩
  · have hend := finishCheck_ends h.baud h.nowMs { s with hold := none, env := { s.env with slots := h.slots } }
    exact ⟨_, step_releases hcfg hh ht, hend.hold, hend.cfg, hend.tab8, hend.clock, hend.asm, hend.chan, hend.pending,
      hend.link, hend.baud, hend.rxhw, hend.txhw ht, hend.pins⟩

end Sys2Proof.Machine

/-! The output scheduler (45_scheduler R261 to R267, R270): what the queue takes, what a service call hands over when nothing
steps in between, and what it leaves staged and queued. -/

namespace Sys2Proof.Machine

/-! ### The queue's own operations (R261 to R263) -/

/-- R261 with the conditions met: the whole record stands behind what was queued. -/
theorem exec_enqueue_accepted {f : List Byte} {s : State} (h : queueAccepts f s = true) :
    exec (.enqueue f) s
      = .next (reply (.accepted true) { s with tx := { s.tx with outq := s.tx.outq ++ record f } }) := by
  show Host.Outcome.next (reply (.accepted (queueAccepts f s)) (enqueue f s)) = _
  rw [enqueue, if_pos h, h, qPush]

/-- R261 with a condition missed: the queue is as it was, and the error records the length. -/
theorem exec_enqueue_rejected {f : List Byte} {s : State} (h : queueAccepts f s = false) :
    exec (.enqueue f) s
      = .next (reply (.accepted false) { s with events := s.events ++ [.err (.queueFull f.length)] }) := by
  show Host.Outcome.next (reply (.accepted (queueAccepts f s)) (enqueue f s)) = _
  rw [enqueue, if_neg (by simp [h]), h, raiseError, emit]

theorem queueAccepts_eq_false {f : List Byte} {s : State} :
    queueAccepts f s = false
      ↔ f.length < 1 ∨ 64 < f.length ∨ s.cfg.outqCapacity - s.tx.outq.length < 1 + f.length := by
  rw [← Bool.not_eq_true, queueAccepts_iff]
  omega

/-- Settles O49: R261's conditions are met, and the record is pushed, or one is missed. -/
theorem enqueueIsWholeOrNothing : Obligations.EnqueueIsWholeOrNothing := fun _ _ =>
  ⟨⟨_, rfl⟩, fun h1 h64 hroom => exec_enqueue_accepted (queueAccepts_iff.mpr ⟨h1, h64, hroom⟩),
    fun hmissed => exec_enqueue_rejected (queueAccepts_eq_false.mpr hmissed)⟩

/-- Settles O50: the flush is the one write. -/
theorem flushEmptiesTheQueueOnly : Obligations.FlushEmptiesTheQueueOnly := fun _ => ⟨⟨_, rfl⟩, rfl⟩

/-- A buffer as long as its size byte says is queued up to there, like any frame (R263). -/
theorem exec_sendTelemetry_declared {first size : Byte} {rest : List Byte} (s : State) (h : size.toNat ≤ rest.length) :
    exec (.sendTelemetry (first :: size :: rest)) s = exec (.enqueue (first :: size :: rest.take size.toNat)) s := by
  have hframe : telemetryFrame (first :: size :: rest) = some (first :: size :: rest.take size.toNat) := by
    simp [telemetryFrame, totalLenOf, h]
  show execSendTelemetry _ s = execEnqueue _ s
  rw [execSendTelemetry, hframe, execEnqueue]

/-- A buffer that gives no frame is refused (R263, U12). -/
theorem exec_sendTelemetry_refused {b : List Byte} (s : State) (h : telemetryFrame b = none) :
    exec (.sendTelemetry b) s = .refused .telemetryShort := by
  show execSendTelemetry b s = _
  rw [execSendTelemetry, h]

theorem telemetryFrame_short {first size : Byte} {rest : List Byte} (h : rest.length < size.toNat) :
    telemetryFrame (first :: size :: rest) = none := by
  simp [telemetryFrame, totalLenOf, h]

theorem telemetryFrame_headless : ∀ {b : List Byte}, b.length < 2 → telemetryFrame b = none
  | [], _ => rfl
  | [_], _ => rfl
  | _ :: _ :: _, h => absurd h (by simp)

/-- Settles O51: the declared bytes are queued as `ENQUEUE` queues a frame, and a shorter buffer declares none. -/
theorem telemetryIsQueuedAsGiven : Obligations.TelemetryIsQueuedAsGiven := by
  refine ⟨fun s first size rest hdeclared => ?_, fun s _ _ _ hshort =>
    exec_sendTelemetry_refused s (telemetryFrame_short hshort), fun s _ => ⟨⟨_, rfl⟩, fun hshort =>
    exec_sendTelemetry_refused s (telemetryFrame_headless hshort)⟩⟩
  have hlen : (first :: size :: rest.take size.toNat).length = size.toNat + 2 := by simp [hdeclared]
  rw [exec_sendTelemetry_declared s hdeclared, ← hlen]
  refine ⟨fun h64 hroom => ?_, fun hmissed => ?_⟩
  · exact exec_enqueue_accepted (queueAccepts_iff.mpr ⟨by simp, h64, by omega⟩)
  · exact exec_enqueue_rejected (queueAccepts_eq_false.mpr (.inr (by omega)))

/-! ### The cases of a service call (R264) -/

theorem exec_serviceOutput_of_ok {s t : State} {received : Nat} {ms : Word} {out : List Byte}
    (h : serviceOutput received ms s = .ok (t, out)) :
    exec (.serviceOutput received ms) s = .next (reply (.bytes out) t) := by
  show finishWith .bytes (serviceOutput received ms s) = _
  rw [h, finishWith_ok]

/-- Without a link the queue is flushed, and nothing else is done. -/
theorem serviceOutput_unlinked {s : State} (received : Nat) (ms : Word) (hc : s.link.connected = false) :
    serviceOutput received ms s = .ok (qFlush s, []) := by
  simp [serviceOutput, hc]

/-- With something to send, what is left of the call is the drain, in transmit mode. -/
theorem serviceOutput_draining {s : State} (received : Nat) (ms : Word) (hs : s.env.slots = [])
    (hc : s.link.connected = true) (hout : hasOutput s = true) :
    serviceOutput received ms s = drain (budgetOf received s) (budgetOf received s) (engageTransmit s) := by
  simp [serviceOutput, hc, hout, hs]

/-- With nothing to send and no timing frame due, nothing is done. -/
theorem serviceOutput_nothing {s : State} (received : Nat) (ms : Word) (hs : s.env.slots = [])
    (hc : s.link.connected = true) (hout : hasOutput s = false) (hdue : syncDue ms s = false) :
    serviceOutput received ms s = .ok (s, []) := by
  simp [serviceOutput, hc, hout, hs, syncEmit, hdue]

/-- An idle call that finds a timing frame to send goes on as a call on the state where that frame waits. -/
theorem serviceOutput_emitting {s : State} (received : Nat) (ms : Word) (hc : s.link.connected = true)
    (hout : hasOutput s = false) (hemitted : hasOutput (syncEmit ms s) = true) :
    serviceOutput received ms s = serviceOutput received ms (syncEmit ms s) := by
  simp [serviceOutput, hc, hout, hemitted]

/-- R294, with a link: a notification has forced a timing frame, or the last is 200 ms old. -/
theorem syncDue_iff {s : State} {ms : Word} (hc : s.link.connected = true) :
    syncDue ms s = true ↔ s.sync.force = true ∨ 200 ≤ (ms - s.sync.tSent).toNat := by
  rw [syncDue, hc, Bool.true_and, Bool.or_eq_true, decide_eq_true_eq]
  rfl

theorem hasOutput_eq_false {s : State} (hrem : s.tx.rem = 0) (hq : s.tx.outq = []) : hasOutput s = false := by
  simp [hasOutput, hrem, hq]

/-- Something pending, staged or queued, is something to send. -/
theorem hasOutput_of_pending {s : State} {bs : List Byte} {frames : List (List Byte)} (hst : stageHolds s bs)
    (hqu : queueHolds s frames) (hp : bs ≠ [] ∨ frames ≠ []) : hasOutput s = true := by
  obtain ⟨-, hlen, -⟩ := memRead_eq_ok.mp hst
  obtain ⟨hq, -⟩ := hqu
  refine hasOutput_iff.mpr (hp.imp (fun hbs hrem => hbs ?_) fun hfr hnil => hfr ?_)
  · exact List.length_eq_zero_iff.mp (hlen.trans hrem)
  · exact flatMap_record_eq_nil.mp (hq.symm.trans hnil)

/-- Settles O52: no link, or nothing to send and no timing frame due. -/
theorem serviceWithNothingToSend : Obligations.ServiceWithNothingToSend := by
  refine fun s received ms => ⟨fun hc => ?_, fun hc hs hrem hq hforce hms => ?_⟩
  · exact exec_serviceOutput_of_ok (serviceOutput_unlinked received ms hc)
  · have hdue : syncDue ms s = false := Bool.eq_false_iff.mpr fun h =>
      ((syncDue_iff hc).mp h).elim (by simp [hforce]) (Nat.not_le.mpr hms)
    exact exec_serviceOutput_of_ok (serviceOutput_nothing received ms hs hc (hasOutput_eq_false hrem hq) hdue)

/-! ### What a drain leaves staged (R266, R270 (c)) -/

/-- From `x` to `y` the frames `popped` were staged one after another and bytes were handed over: without a pop the register
stands and its offset has moved on; else the last of them stands staged whole, and has been begun. -/
structure Restaged (x : TxState) (popped : List (List Byte)) (y : TxState) : Prop where
  form : Memory.wf x.stage = true → Memory.wf y.stage = true
  kept : popped = [] → y.stage = x.stage ∧ x.off ≤ y.off ∧ y.off + y.rem = x.off + x.rem
  whole : ∀ f, popped.getLast? = some f →
    1 ≤ y.off ∧ y.off + y.rem = f.length ∧ memRead y.stage 0 f.length = .ok f

theorem Restaged.refl (x : TxState) : Restaged x [] x where
  form := id
  kept := fun _ => ⟨rfl, Nat.le_refl _, rfl⟩
  whole := fun _ hf => nomatch hf

theorem Restaged.trans {x y z : TxState} {p q : List (List Byte)} (h : Restaged x p y) (h' : Restaged y q z) :
    Restaged x (p ++ q) z where
  form := h'.form ∘ h.form
  kept := fun hnil => by
    obtain ⟨hp, hq⟩ := List.append_eq_nil_iff.mp hnil
    obtain ⟨hstage, hoff, hsum⟩ := h.kept hp
    obtain ⟨hstage', hoff', hsum'⟩ := h'.kept hq
    exact ⟨hstage'.trans hstage, hoff.trans hoff', hsum'.trans hsum⟩
  whole := fun f hf => by
    rcases List.eq_nil_or_concat q with rfl | ⟨_, g, rfl⟩
    · obtain ⟨hoff, hsum, hread⟩ := h.whole f (by simpa using hf)
      obtain ⟨hstage', hoff', hsum'⟩ := h'.kept rfl
      exact ⟨hoff.trans hoff', hsum'.trans hsum, hstage' ▸ hread⟩
    · exact h'.whole f (by simpa using hf)

/-- A hand-over of staged bytes moves the offset on, and leaves the rest of the register. -/
theorem restaged_handOver {s : State} {bytes : List Byte} (h : bytes.length ≤ s.tx.rem) :
    Restaged s.tx [] (handOver bytes s).tx where
  form := id
  kept := fun _ => ⟨rfl, Nat.le_add_right _ _, by simp only [handOver_tx]; omega⟩
  whole := fun _ hf => nomatch hf

/-- A pop and a first hand-over: the popped frame stands staged whole, and has been begun. -/
theorem restaged_popped {s : State} {f q bytes : List Byte} (h64 : f.length ≤ 64) (hpos : 1 ≤ bytes.length)
    (hle : bytes.length ≤ f.length) : Restaged s.tx [f] (handOver bytes (popped f q s)).tx where
  form := fun h => wf_writeBytes h (by simpa using h64)
  kept := fun hnil => nomatch hnil
  whole := fun g hg => by
    obtain rfl : f = g := by simpa using hg
    exact ⟨by simpa [popped] using hpos, by simp only [handOver_tx, popped]; omega, popped_staged (s := s) (q := q) h64⟩

/-- One turn of the drain loop with nothing stepping in between: at most one frame is popped, and the rest stays queued. -/
theorem drainTurn_restaged {s u : State} {bytes : List Byte} {frames : List (List Byte)} {budget : Nat}
    (hs : s.env.slots = []) (hqu : queueHolds s frames) (hb : 1 ≤ budget) (hpop : popIfIdle s = .ok u)
    (hread : memRead u.tx.stage u.tx.off (min u.tx.rem budget) = .ok bytes) :
    ∃ popped rest, frames = popped ++ rest ∧ queueHolds (handOver bytes u) rest ∧ (handOver bytes u).env.slots = []
      ∧ Restaged s.tx popped (handOver bytes u).tx := by
  obtain ⟨-, hlen, -⟩ := memRead_eq_ok.mp hread
  obtain ⟨hq, hsizes⟩ := hqu
  unfold popIfIdle at hpop
  split at hpop
  next =>
    rcases popRecord_cases hq hsizes with ⟨-, herr⟩ | ⟨f, rest, rfl, hrecord⟩
    · rw [herr] at hpop; cases hpop
    · have hquiet : (popped f (rest.flatMap record) s).env.slots = [] := hs
      rw [hrecord, andThen_ok, interleave_nil hquiet] at hpop
      cases hpop
      obtain ⟨h1, h64⟩ := hsizes f List.mem_cons_self
      have hrem : (popped f (rest.flatMap record) s).tx.rem = f.length := rfl
      exact ⟨[f], rest, rfl, ⟨rfl, fun g hg => hsizes g (List.mem_cons_of_mem _ hg)⟩, hs,
        restaged_popped h64 (by omega) (by omega)⟩
  next =>
    cases hpop
    exact ⟨[], frames, rfl, ⟨hq, hsizes⟩, hs, restaged_handOver (by omega)⟩

/-- A drain with nothing stepping in between pops the first frames of the queue, and stages them as `Restaged` says. -/
theorem drain_restaged {fuel budget : Nat} {s t : State} {out : List Byte} {frames : List (List Byte)}
    (hs : s.env.slots = []) (hqu : queueHolds s frames) (hb : 1 ≤ budget) (hrun : drain fuel budget s = .ok (t, out)) :
    ∃ popped rest, frames = popped ++ rest ∧ queueHolds t rest ∧ Restaged s.tx popped t.tx := by
  induction fuel generalizing budget s out frames with
  | zero => cases hrun; exact ⟨[], frames, rfl, hqu, Restaged.refl _⟩
  | succ fuel ih =>
    obtain ⟨u, hpop, hrun⟩ := andThen_eq_ok.mp hrun
    obtain ⟨bytes, hread, hrun⟩ := andThen_eq_ok.mp hrun
    obtain ⟨popped, rest, rfl, hrest, hquiet, hturn⟩ := drainTurn_restaged hs hqu hb hpop hread
    simp only [interleave_nil hquiet] at hrun
    split at hrun
    next => cases hrun; exact ⟨popped, rest, rfl, hrest, hturn⟩
    next hleft =>
      obtain ⟨⟨v, more⟩, hdrain, hv⟩ := andThen_eq_ok.mp hrun
      cases hv
      obtain ⟨popped', rest', rfl, hrest', hturns⟩ := ih hquiet hrest (by omega) hdrain
      exact ⟨popped ++ popped', rest', (List.append_assoc _ _ _).symm, hrest', hturn.trans hturns⟩

/-- Two ends of one list of frames are the same when their records are. -/
theorem drop_eq_of_flatMap_record {frames : List (List Byte)} {m n : Nat}
    (h : (frames.drop m).flatMap record = (frames.drop n).flatMap record) : frames.drop m = frames.drop n := by
  wlog hmn : m ≤ n generalizing m n
  · exact (this h.symm (Nat.le_of_not_le hmn)).symm
  have hsplit : frames.drop m = (frames.drop m).take (n - m) ++ frames.drop n := by
    rw [← Nat.add_sub_of_le hmn, ← List.drop_drop, Nat.add_sub_cancel_left, List.take_append_drop]
  rw [hsplit, List.flatMap_append, List.append_left_eq_self, flatMap_record_eq_nil] at h
  rw [hsplit, h, List.nil_append]

/-! ### What a service call hands over (R264 to R266, R270) -/

/-- What is left on the transmit side once the frames `popped` have been staged and `left` is still to be handed over: part
of it staged, the frames `rest` queued. -/
structure Drained (x : TxState) (popped rest : List (List Byte)) (left : List Byte) (y : TxState) : Prop
    extends Restaged x popped y where
  transmitting : y.transmitting = x.transmitting
  outq : y.outq = rest.flatMap record
  staged : ∃ bs, memRead y.stage y.off y.rem = .ok bs ∧ bs ++ rest.flatten = left
  beyond : ∀ a, (∀ f ∈ popped, f.length ≤ a) → readByte y.stage a = readByte x.stage a

/-- The drain with nothing stepping in between: the first `budget` pending bytes leave in order. -/
theorem drain_drained {budget : Nat} {s : State} {bs : List Byte} {frames : List (List Byte)} (hb : 1 ≤ budget)
    (hs : s.env.slots = []) (hst : stageHolds s bs) (hqu : queueHolds s frames) (hp : bs ≠ [] ∨ frames ≠ []) :
    ∃ x popped rest, frames = popped ++ rest
      ∧ drain budget budget s = .ok ({ s with
            line := { s.line with txhw := s.line.txhw ++ (bs ++ frames.flatten).take budget }, tx := x },
          (bs ++ frames.flatten).take budget)
      ∧ Drained s.tx popped rest ((bs ++ frames.flatten).drop budget) x := by
  obtain ⟨x, left, n, hrun, hleft, houtq, hdrop, htransmitting, hbeyond⟩ :=
    drain_quiet budget budget (Nat.le_refl _) hs hst hqu hp
  obtain ⟨popped, rest, hframes, ⟨hqueued, -⟩, hstages⟩ := drain_restaged hs hqu hb hrun
  have hend : frames.drop n = frames.drop popped.length :=
    drop_eq_of_flatMap_record (by rw [← houtq, hframes, List.drop_left]; exact hqueued)
  have hrest : frames.drop n = rest := by rw [hend, hframes, List.drop_left]
  have hpopped : frames.take n = popped :=
    List.append_cancel_right ((hrest ▸ List.take_append_drop n frames).trans hframes)
  rw [hrest] at houtq hdrop
  rw [hpopped] at hbeyond
  exact ⟨x, popped, rest, hframes, hrun, { hstages with
    transmitting := htransmitting, outq := houtq, staged := ⟨left, hleft, hdrop⟩, beyond := hbeyond }⟩

/-- The call begins a burst: the line is half-duplex and not in transmit mode yet (R265). -/
def engages (s : State) : Bool := s.cfg.halfDuplex && !s.tx.transmitting

/-- R265 in one piece: a burst is marked, and a call that begins it sets the pins of transmit mode. -/
theorem engageTransmit_eq (s : State) : engageTransmit s = { s with
    tx := { s.tx with transmitting := s.cfg.halfDuplex || s.tx.transmitting }
    pins := if engages s then transmitPins s.baud.inverted s.pins else s.pins
    events := s.events ++ (if engages s then transmitEvents s.baud.inverted s.pins else []) } := by
  cases hd : s.cfg.halfDuplex with
  | false => simp [engageTransmit, engages, hd]
  | true =>
    cases ht : s.tx.transmitting with
    | false => simp [engageTransmit, engages, hd, ht, setTransmit_eq, setTransmitting]
    | true =>
      have hburst : { s.tx with transmitting := true } = s.tx := by rw [← ht]
      simp [engageTransmit, engages, hd, ht, hburst]

/-- The state after a service call that hands over `out` and leaves the transmit side as `x`. -/
def handedOver (out : List Byte) (x : TxState) (s : State) : State := { s with
  line := { s.line with txhw := s.line.txhw ++ out }
  tx := x
  pins := if engages s then transmitPins s.baud.inverted s.pins else s.pins
  events := s.events ++ (if engages s then transmitEvents s.baud.inverted s.pins else []) }

/-- R265: the budget allows progress. -/
theorem budgetOf_pos {s : State} (received : Nat) (h : configOk s.cfg = true) : 1 ≤ budgetOf received s := by
  obtain ⟨-, -, -, -, -, -, -, ⟨-, hfifo⟩, -⟩ := configOk_iff.mp h
  unfold budgetOf
  split
  · exact Nat.le_trans (by decide) (Nat.le_max_right _ budgetMin)
  · exact hfifo

/-- A service call with something pending, and nothing stepping in between: the first `budget` pending bytes are handed
over in order, and the rest stays pending. -/
theorem exec_serviceOutput_pending {s : State} {bs : List Byte} {frames : List (List Byte)} (received : Nat) (ms : Word)
    (hcfg : configOk s.cfg = true) (hs : s.env.slots = []) (hc : s.link.connected = true) (hst : stageHolds s bs)
    (hqu : queueHolds s frames) (hp : bs ≠ [] ∨ frames ≠ []) :
    ∃ x popped rest, frames = popped ++ rest
      ∧ exec (.serviceOutput received ms) s
          = .next (reply (.bytes ((bs ++ frames.flatten).take (budgetOf received s)))
              (handedOver ((bs ++ frames.flatten).take (budgetOf received s)) x s))
      ∧ Drained { s.tx with transmitting := s.cfg.halfDuplex || s.tx.transmitting } popped rest
          ((bs ++ frames.flatten).drop (budgetOf received s)) x := by
  have hrun := serviceOutput_draining received ms hs hc (hasOutput_of_pending hst hqu hp)
  rw [engageTransmit_eq] at hrun
  -- the state in transmit mode, from which the drain starts
  set u : State := { s with tx := _, pins := _, events := _ }
  obtain ⟨x, popped, rest, hframes, hdrain, hdrained⟩ :=
    drain_drained (s := u) (budgetOf_pos received hcfg) hs hst hqu hp
  exact ⟨x, popped, rest, hframes, exec_serviceOutput_of_ok (hrun.trans hdrain), hdrained⟩

/-- Settles O53: what the drain hands over and leaves, after the call has engaged transmit mode. -/
theorem serviceHandsOverTheBudget : Obligations.ServiceHandsOverTheBudget := by
  intro s received ms bs frames hi hs hc hst hqu hp budget engage
  obtain ⟨x, popped, rest, rfl, hexec, hx⟩ := exec_serviceOutput_pending received ms hi.config hs hc hst hqu hp
  obtain ⟨left, hleft, hpending⟩ := hx.staged
  obtain ⟨-, hrem, -⟩ := memRead_eq_ok.mp hleft
  refine ⟨x, left, popped.length, hexec, hx.transmitting, hleft, ?_⟩
  rw [List.drop_left, List.take_left]
  refine ⟨hx.outq, hpending, hx.form hi.tx.form, hrem.symm, by simp, fun hnone => ?_, fun f hf => ?_, hx.beyond⟩
  · obtain ⟨hstage, -, hsum⟩ := hx.kept (List.length_eq_zero_iff.mp hnone)
    exact ⟨hstage, hsum⟩
  · obtain ⟨hoff, hsum, hread⟩ := hx.whole f hf
    exact ⟨hsum, hoff, hread⟩

end Sys2Proof.Machine

/-! One frame on its way out (45_scheduler R264 step 2, R267, R270 (c), 46_sync R294, R295): the call that pops it, the calls
that go on with it, the timing frame that an idle call builds and sends, and the calls until the frame has left. -/

namespace Sys2Proof.Machine

/-! ### The frame's first call and its later ones (R267, R270 (c)) -/

/-- The first `k` bytes of `frame` have been handed over, and the rest stands staged; no other frame is pending. -/
structure InFlight (frame : List Byte) (k : Nat) (x : TxState) : Prop where
  outq : x.outq = []
  staged : memRead x.stage x.off x.rem = .ok (frame.drop k)
  length : x.off + x.rem = frame.length

theorem stageHolds_nil {s : State} (h : TxOk s.cfg s.tx) (hrem : s.tx.rem = 0) : stageHolds s [] := by
  obtain ⟨bs, hbs⟩ := h.staged
  obtain ⟨-, hlen, -⟩ := memRead_eq_ok.mp hbs
  obtain rfl : bs = [] := List.length_eq_zero_iff.mp (hlen.trans hrem)
  exact hbs

/-- The call that finds the frame alone in the queue: it is popped, as the budget allows progress. -/
theorem exec_serviceOutput_queued {s : State} {frame : List Byte} (received : Nat) (ms : Word)
    (hcfg : configOk s.cfg = true) (hs : s.env.slots = []) (hc : s.link.connected = true) (hst : stageHolds s [])
    (hqu : queueHolds s [frame]) :
    ∃ x, exec (.serviceOutput received ms) s
        = .next (reply (.bytes (frame.take (budgetOf received s))) (handedOver (frame.take (budgetOf received s)) x s))
      ∧ InFlight frame (budgetOf received s) x := by
  have hb := budgetOf_pos received hcfg
  obtain ⟨x, popped, rest, hframes, hexec, hx⟩ :=
    exec_serviceOutput_pending received ms hcfg hs hc hst hqu (.inr (List.cons_ne_nil _ _))
  simp only [List.flatten_cons, List.flatten_nil, List.append_nil, List.nil_append] at hexec hx
  refine ⟨x, hexec, ?_⟩
  obtain ⟨left, hleft, hpending⟩ := hx.staged
  rcases List.cons_eq_append_iff.mp hframes with ⟨rfl, rfl⟩ | ⟨tail, rfl, htail⟩
  · obtain ⟨-, hsizes⟩ := hqu
    obtain ⟨h1, -⟩ := hsizes frame (List.mem_singleton_self frame)
    have hlen := congrArg List.length hpending
    simp only [List.flatten_cons, List.flatten_nil, List.append_nil, List.length_append, List.length_drop] at hlen
    omega
  · obtain ⟨rfl, rfl⟩ := List.append_eq_nil_iff.mp htail.symm
    obtain ⟨-, hsum, -⟩ := hx.whole frame rfl
    rw [List.flatten_nil, List.append_nil] at hpending
    exact ⟨hx.outq, hpending ▸ hleft, hsum⟩

/-- A call that finds part of the frame staged: it goes on from there. -/
theorem exec_serviceOutput_inFlight {s : State} {frame : List Byte} {k : Nat} (received : Nat) (ms : Word)
    (hcfg : configOk s.cfg = true) (hs : s.env.slots = []) (hc : s.link.connected = true) (hk : k < frame.length)
    (h : InFlight frame k s.tx) :
    ∃ x out, exec (.serviceOutput received ms) s = .next (reply (.bytes out) (handedOver out x s))
      ∧ out = (frame.drop k).take (budgetOf received s) ∧ InFlight frame (k + budgetOf received s) x := by
  have hqu : queueHolds s [] := ⟨h.outq, List.forall_mem_nil _⟩
  obtain ⟨x, popped, rest, hframes, hexec, hx⟩ :=
    exec_serviceOutput_pending received ms hcfg hs hc h.staged hqu (.inl (mt List.drop_eq_nil_iff.mp (by omega)))
  obtain ⟨rfl, rfl⟩ := List.append_eq_nil_iff.mp hframes.symm
  obtain ⟨left, hleft, hpending⟩ := hx.staged
  obtain ⟨-, -, hsum⟩ := hx.kept rfl
  simp only [List.flatten_nil, List.append_nil, List.drop_drop] at hexec hpending
  exact ⟨x, _, hexec, rfl, hx.outq, hpending ▸ hleft, hsum.trans h.length⟩

/-! ### A timing frame built and sent in one call (R264 step 2, R294, R295) -/

theorem timingFrame_eq {s : State} (h : s.crc.tab8 = crc8Table s.cfg.crc8Poly) :
    timingFrame s = timingFrameOf s.cfg s.sync.offset := extFrame_eq_builtFrame h _ _ _ _

theorem timingFrameOf_length (cfg : Config) (offset : Int) : (timingFrameOf cfg offset).length = 15 := by
  simp [timingFrameOf, builtFrame, timingPayload, be32Nat, be32]

/-- A due timing frame that finds room: it is queued whole, and the rate limit restarts. -/
theorem syncEmit_queues {s : State} {ms : Word} (hdue : syncDue ms s = true)
    (haccepts : queueAccepts (timingFrame s) s = true) :
    syncEmit ms s = { s with
      tx := { s.tx with outq := s.tx.outq ++ record (timingFrame s) }
      sync := { s.sync with tSent := ms, force := false } } := by
  rw [syncEmit, if_pos hdue, enqueue, if_pos haccepts, qPush]

/-- An empty queue of an admitted configuration has room for a timing frame. -/
theorem queueAccepts_timingFrame {s : State} (hi : Inv s) (hq : s.tx.outq = []) :
    queueAccepts (timingFrame s) s = true := by
  obtain ⟨-, -, -, hcapacity, -⟩ := configOk_iff.mp hi.config
  have hlen : (timingFrame s).length = 15 := by rw [timingFrame_eq hi.crc.tab8, timingFrameOf_length]
  exact queueAccepts_iff.mpr ⟨by omega, by omega, by rw [hlen, hq]; exact Nat.le_trans (by decide) hcapacity⟩

/-- Settles O54: the call goes on as on the state where the timing frame is queued alone. -/
theorem idleServiceSendsTimingFrame : Obligations.IdleServiceSendsTimingFrame := by
  intro s received ms hi hs hc hrem hq hdue budget
  have hdue : syncDue ms s = true := (syncDue_iff hc).mpr hdue
  have hemit := syncEmit_queues hdue (queueAccepts_timingFrame hi hq)
  rw [hq, timingFrame_eq hi.crc.tab8, List.nil_append] at hemit
  have hsame : exec (.serviceOutput received ms) s = exec (.serviceOutput received ms) (syncEmit ms s) :=
    congrArg (finishWith Reply.bytes)
      (serviceOutput_emitting received ms hc (hasOutput_eq_false hrem hq) (by rw [hemit]; simp [hasOutput, record]))
  have hqueued : queueHolds (syncEmit ms s) [timingFrameOf s.cfg s.sync.offset] := by
    rw [hemit]
    exact ⟨by simp, by simp [timingFrameOf_length]⟩
  obtain ⟨x, hexec, hx⟩ := exec_serviceOutput_queued received ms (inv_syncEmit ms hi).config (by simpa using hs)
    (by simpa using hc) (stageHolds_nil (inv_syncEmit ms hi).tx (by rw [hemit]; exact hrem)) hqueued
  rw [← hsame, hemit] at hexec
  rw [hemit] at hx
  exact ⟨_, hexec, rfl, rfl, hx.staged, hx.outq⟩

/-! ### The calls in which one frame leaves (R267) -/

/-- One more call at the end of a run of calls. -/
theorem execTimes_succ_last {i : Instr} {n : Nat} {s t : State} (h : execTimes i n s = .next t) :
    execTimes i (n + 1) s = exec i t := by
  induction n generalizing s with
  | zero =>
    cases h
    rw [execTimes]
    cases exec i t <;> rfl
  | succ n ih =>
    rw [execTimes] at h ⊢
    cases hexec : exec i s with
    | next u => rw [hexec] at h; exact ih h
    | fault f => rw [hexec] at h; cases h
    | refused r => rw [hexec] at h; cases h

/-- What service calls that hand over the first `k` bytes of `frame` make of `s`. -/
structure Sent (s : State) (frame : List Byte) (k : Nat) (t : State) : Prop where
  cfg : t.cfg = s.cfg
  baud : t.baud = s.baud
  link : t.link = s.link
  slots : t.env.slots = s.env.slots
  txhw : t.line.txhw = s.line.txhw ++ frame.take k
  inFlight : InFlight frame k t.tx

/-- The budget reads what the calls leave alone. -/
theorem Sent.budgetOf_eq {s t : State} {frame : List Byte} {k : Nat} (h : Sent s frame k t) (received : Nat) :
    budgetOf received t = budgetOf received s := by
  rw [budgetOf, budgetOf, h.cfg, h.baud]

/-- As long as the calls before left something of the frame, the next one hands over the budget of it. -/
theorem execTimes_serviceOutput_sent {s : State} {frame : List Byte} (received : Nat) (ms : Word)
    (hcfg : configOk s.cfg = true) (hs : s.env.slots = []) (hc : s.link.connected = true) (hst : stageHolds s [])
    (hqu : queueHolds s [frame]) (n : Nat) (hn : n * budgetOf received s < frame.length) :
    ∃ t, execTimes (.serviceOutput received ms) (n + 1) s = .next t
      ∧ Sent s frame ((n + 1) * budgetOf received s) t := by
  induction n with
  | zero =>
    obtain ⟨x, hexec, hx⟩ := exec_serviceOutput_queued received ms hcfg hs hc hst hqu
    refine ⟨_, (execTimes_succ_last rfl).trans hexec, ?_⟩
    rw [Nat.zero_add, Nat.one_mul]
    exact ⟨rfl, rfl, rfl, rfl, rfl, hx⟩
  | succ n ih =>
    obtain ⟨t, hrun, ht⟩ := ih (Nat.lt_of_le_of_lt (Nat.mul_le_mul_right _ (Nat.le_succ n)) hn)
    obtain ⟨x, out, hexec, hout, hx⟩ := exec_serviceOutput_inFlight received ms (ht.cfg ▸ hcfg) (ht.slots.trans hs)
      (ht.link ▸ hc) hn ht.inFlight
    rw [ht.budgetOf_eq, ← Nat.succ_mul] at hx
    rw [ht.budgetOf_eq] at hout
    refine ⟨_, (execTimes_succ_last hrun).trans hexec, ht.cfg, ht.baud, ht.link, ht.slots, ?_, hx⟩
    show t.line.txhw ++ out = _
    rw [ht.txhw, hout, List.append_assoc, ← List.take_add, ← Nat.succ_mul]

theorem lt_ceil_iff {L b n : Nat} (hb : 1 ≤ b) : n < (L + b - 1) / b ↔ n * b < L := by
  rw [← Nat.ceilDiv_eq_add_pred_div, ← not_le, ceilDiv_le_iff_le_mul hb, not_le, Nat.mul_comm]

/-- Settles O55: before the ceiling every call finds part of the frame pending, and after `n` calls the frame has left
exactly when `n` budgets cover it. -/
theorem frameLeavesInCeilCalls : Obligations.FrameLeavesInCeilCalls := by
  intro s received ms frame hi hs hc hrem hqu budget n hn
  have hb : 1 ≤ budget := budgetOf_pos received hi.config
  cases n with
  | zero =>
    obtain ⟨hq, hsizes⟩ := hqu
    obtain ⟨h1, -⟩ := hsizes frame (List.mem_singleton_self frame)
    have hceil : 0 < (frame.length + budget - 1) / budget := (lt_ceil_iff hb).mpr (by omega)
    refine ⟨s, rfl, by simp, fun h => absurd h (by decide), fun ⟨_, hempty⟩ => ?_, fun h => by omega⟩
    exact absurd (hq.symm.trans hempty) (by simp [record])
  | succ n =>
    obtain ⟨t, hrun, ht⟩ := execTimes_serviceOutput_sent received ms hi.config hs hc (stageHolds_nil hi.tx hrem) hqu n
      ((lt_ceil_iff hb).mp hn)
    have hleft : t.tx.rem = frame.length - (n + 1) * budget := by
      obtain ⟨-, hlen, -⟩ := memRead_eq_ok.mp ht.inFlight.staged
      rw [← hlen, List.length_drop]
      rfl
    have hmore : n + 1 < (frame.length + budget - 1) / budget ↔ (n + 1) * budget < frame.length := lt_ceil_iff hb
    refine ⟨t, hrun, ht.txhw, fun _ => ⟨ht.inFlight.length, hleft⟩, fun ⟨hnone, _⟩ => ?_, fun h => ⟨?_, ht.inFlight.outq⟩⟩
    · omega
    · omega

end Sys2Proof.Machine

/-! The mixer sync estimator (46_sync R291 to R296): what one notification makes of the estimate, where a run of equal gaps
takes it, and what a timing-frame call queues. -/

namespace Sys2Proof.Machine

/-! ### One notification (R291 to R293) -/

theorem exec_notifyTx_late {s : State} {us : Word} (h : s.cfg.rcIntervalUs < (us - s.link.tLastRx).toNat) :
    exec (.notifyTx us) s
      = .next { s with sync := syncLate s.cfg (us - s.link.tLastRx).toNat s.sync } := by
  show Host.Outcome.next { s with sync := syncSample s.cfg (us - s.link.tLastRx).toNat s.sync } = _
  rw [syncSample, if_pos h]

theorem exec_notifyTx_onTime {s : State} {us : Word} (h : (us - s.link.tLastRx).toNat ≤ s.cfg.rcIntervalUs) :
    exec (.notifyTx us) s
      = .next { s with sync := syncOnTime s.cfg (us - s.link.tLastRx).toNat s.sync } := by
  show Host.Outcome.next { s with sync := syncSample s.cfg (us - s.link.tLastRx).toNat s.sync } = _
  rw [syncSample, if_neg (Nat.not_lt.mpr h)]

/-- Settles O56: the notification is a late one or an on-time one. -/
theorem notificationFoldsTheGap : Obligations.NotificationFoldsTheGap := fun _ _ =>
  ⟨⟨_, rfl⟩, exec_notifyTx_late, exec_notifyTx_onTime⟩

/-! ### A run of equal on-time gaps (R296) -/

/-- The average of `w - 1` samples of `g` and one more is `g`. -/
theorem tdiv_average_eq {offset g : Int} {w : Nat} (hw : 1 ≤ w) (h : w = 1 ∨ offset = g) :
    Int.tdiv (offset * ((w : Int) - 1) + g) w = g := by
  have hsum : offset * ((w : Int) - 1) + g = g * w := by
    rcases h with rfl | rfl
    · simp
    · ring
  rw [hsum, Int.mul_tdiv_cancel g (by omega)]

/-- An on-time sample with an empty window behind it, or equal to the estimate, is the new estimate. -/
theorem syncOnTime_eq_of_settled {cfg : Config} {gap : Nat} {y : SyncState} (hmax : 1 ≤ cfg.syncWindowMax)
    (h : y.window = 0 ∨ y.offset = ((gap * cfg.syncScale : Nat) : Int)) :
    syncOnTime cfg gap y
      = { y with window := min (y.window + 1) cfg.syncWindowMax, offset := ((gap * cfg.syncScale : Nat) : Int) } := by
  have haverage := tdiv_average_eq (w := min (y.window + 1) cfg.syncWindowMax) (by omega)
    (h.imp_left fun hempty => by omega)
  rw [syncOnTime, haverage]

/-- One notification of such a sample. -/
theorem exec_notifyTx_settled {s : State} {us : Word} (hmax : 1 ≤ s.cfg.syncWindowMax)
    (hgap : (us - s.link.tLastRx).toNat ≤ s.cfg.rcIntervalUs)
    (h : s.sync.window = 0 ∨ s.sync.offset = (((us - s.link.tLastRx).toNat * s.cfg.syncScale : Nat) : Int)) :
    exec (.notifyTx us) s
      = .next { s with sync := { s.sync with
          window := min (s.sync.window + 1) s.cfg.syncWindowMax
          offset := (((us - s.link.tLastRx).toNat * s.cfg.syncScale : Nat) : Int) } } := by
  rw [exec_notifyTx_onTime hgap, syncOnTime_eq_of_settled hmax h]

/-- Settles O57, by induction on the number of notifications: each finds the estimate settled, the first by its empty window,
the later ones because they repeat the sample. -/
theorem constantGapHoldsTheOffset : Obligations.ConstantGapHoldsTheOffset := by
  intro s us n hmax hwindow hgap hn
  induction n, hn using Nat.le_induction with
  | base => rw [execTimes_succ_last rfl, exec_notifyTx_settled hmax hgap (.inl hwindow), hwindow]
  | succ n _ ih =>
    have hclimb : min (min n s.cfg.syncWindowMax + 1) s.cfg.syncWindowMax = min (n + 1) s.cfg.syncWindowMax := by omega
    rw [execTimes_succ_last ih, ← hclimb]
    exact exec_notifyTx_settled (s := { s with sync := _ }) hmax hgap (.inr rfl)

/-! ### A timing-frame call (R294, R295) -/

/-- A due timing frame without room: it is dropped with the error, and the rate limit restarts all the same. -/
theorem syncEmit_drops {s : State} {ms : Word} (hdue : syncDue ms s = true)
    (hfull : queueAccepts (timingFrame s) s = false) :
    syncEmit ms s = { s with
      events := s.events ++ [.err (.queueFull (timingFrame s).length)]
      sync := { s.sync with tSent := ms, force := false } } := by
  rw [syncEmit, if_pos hdue, enqueue, if_neg (by simp [hfull]), raiseError, emit]

theorem syncDue_eq_false_iff {s : State} {ms : Word} :
    syncDue ms s = false
      ↔ s.link.connected = false ∨ (s.sync.force = false ∧ (ms - s.sync.tSent).toNat < 200) := by
  rw [syncDue, Bool.and_eq_false_iff, Bool.or_eq_false_iff, decide_eq_false_iff_not, not_le]
  rfl

theorem exec_syncEmit_due {s : State} {ms : Word} (hdue : syncDue ms s = true) :
    exec (.syncEmit ms) s = .next (reply (.queued (queueAccepts (timingFrame s) s)) (syncEmit ms s)) := by
  show Host.Outcome.next (reply (.queued (syncDue ms s && _)) _) = _
  rw [hdue, Bool.true_and]

theorem exec_syncEmit_notDue {s : State} {ms : Word} (hdue : syncDue ms s = false) :
    exec (.syncEmit ms) s = .next (reply (.queued false) s) := by
  show Host.Outcome.next (reply (.queued (syncDue ms s && _)) (syncEmit ms s)) = _
  rw [hdue, Bool.false_and, syncEmit, if_neg (by simp [hdue])]

/-- The record of a timing frame takes 16 bytes of the queue. -/
theorem queueAccepts_timingFrame_iff {s : State} (h : s.crc.tab8 = crc8Table s.cfg.crc8Poly) :
    queueAccepts (timingFrame s) s = true ↔ 16 ≤ s.cfg.outqCapacity - s.tx.outq.length := by
  rw [queueAccepts_iff, timingFrame_eq h, timingFrameOf_length]
  omega

/-- Settles O58: a call that is due queues the frame or drops it, by the room left; any other call does nothing. -/
theorem timingFrameIsRateLimited : Obligations.TimingFrameIsRateLimited := by
  intro s ms htab
  refine ⟨⟨_, rfl⟩, fun hc hdue => ?_, fun hnot => exec_syncEmit_notDue (syncDue_eq_false_iff.mpr hnot), rfl⟩
  have hdue : syncDue ms s = true := (syncDue_iff hc).mpr hdue
  refine ⟨fun hroom => ?_, fun hfull => ?_⟩
  · have haccepts := (queueAccepts_timingFrame_iff htab).mpr hroom
    rw [exec_syncEmit_due hdue, haccepts, syncEmit_queues hdue haccepts, timingFrame_eq htab, record, timingFrameOf_length]
    rfl
  · have hrejects : queueAccepts (timingFrame s) s = false := by
      rw [← Bool.not_eq_true, queueAccepts_timingFrame_iff htab]
      omega
    rw [exec_syncEmit_due hdue, hrejects, syncEmit_drops hdue hrejects, timingFrame_eq htab, timingFrameOf_length]

end Sys2Proof.Machine

/-! The exceptions' and the reset's statements (60_exceptions R310, R315, 93 part 1, 70_reset_and_hazards R340): an operation
completes exactly inside its operand domain, and `RESET` writes every element. -/

namespace Sys2Proof.Machine

/-! ### Outcomes that go on -/

/-- The outcome goes on to a next state. -/
def Completes (o : Out) : Prop := ∃ t, o = .next t

theorem completes_next (t : State) : Completes (.next t) := ⟨t, rfl⟩

theorem not_completes_refused (r : Refusal) : ¬ Completes (.refused r) := by
  rintro ⟨_, ⟨⟩⟩

/-- An operation guarded by its domain. -/
theorem completes_guard {c : Prop} [Decidable c] {o : Out} (r : Refusal) (ho : c → Completes o) :
    Completes (if c then o else .refused r) ↔ c := by
  split
  next hc => exact iff_of_true (ho hc) hc
  next hc => exact iff_of_false (not_completes_refused r) hc

/-- An operation guarded by what lies outside its domain. -/
theorem completes_refuseFirst {c : Prop} [Decidable c] {o : Out} (r : Refusal) (ho : ¬ c → Completes o) :
    Completes (if c then .refused r else o) ↔ ¬ c := by
  split
  next hc => exact iff_of_false (not_completes_refused r) (not_not_intro hc)
  next hc => exact iff_of_true (ho hc) hc

/-- What neither faults nor completes is refused. -/
theorem refused_of_leaves {P : State → Prop} {o : Out} (h : Leaves P o) (hn : ¬ Completes o) : ∃ r, o = .refused r := by
  cases o with
  | next t => exact absurd (completes_next t) hn
  | fault f => exact h.elim
  | refused r => exact ⟨r, rfl⟩

/-! ### The operations with a domain (R120's operand column, 93 part 1) -/

/-- On a safe state the N-bit width is configured or 0 (R145, R147). -/
theorem crcnConfigured_iff {s : State} (h : Inv s) :
    ¬ (s.crc.bits < crcnMin ∨ crcnMax < s.crc.bits) ↔ s.crc.bits ≠ 0 := by
  have hwidth := h.crc.bits
  simp only [crcnMin, crcnMax] at hwidth ⊢
  omega

theorem execCrcnCalc_completes_iff (buf : List Byte) (seed : Half) {s : State} (h : Inv s) :
    Completes (execCrcnCalc buf seed s) ↔ s.crc.bits ≠ 0 := by
  refine (completes_refuseFirst _ fun _ => ?_).trans (crcnConfigured_iff h)
  dsimp only
  split <;> exact completes_next _

theorem execDecodeHeader_completes_iff (buf : List Byte) (s : State) :
    Completes (execDecodeHeader buf s) ↔ 3 ≤ buf.length := by
  match buf with
  | [] | [_] | [_, _] => exact iff_of_false (not_completes_refused _) (by simp)
  | _ :: _ :: _ :: _ => exact iff_of_true (completes_next _) (by simp)

theorem execEncodeExt_completes_iff (type dest orig : Byte) (payload : List Byte) (s : State) :
    Completes (execEncodeExt type dest orig payload s) ↔ payload.length ≤ 58 := by
  rw [execEncodeExt, encodeExt, ← Nat.not_lt]
  split
  next hlong => exact iff_of_false (not_completes_refused _) (not_not_intro hlong)
  next hfits => exact iff_of_true (completes_next _) hfits

/-- An admitted configuration's device information fits a frame (R10, R171). -/
theorem execEncodeDevinfo_completes {s : State} (hcfg : configOk s.cfg = true) : Completes (execEncodeDevinfo s) :=
  ⟨_, by rw [execEncodeDevinfo, encodeDevinfo_ok hcfg, andThen_ok, finish_ok]⟩

/-- A telemetry buffer gives a frame where it is as long as its size byte says (R263). -/
theorem telemetryFrame_isSome_iff (b : List Byte) :
    (telemetryFrame b).isSome = true ↔ 2 ≤ b.length ∧ (b.getD 1 0).toNat + 2 ≤ b.length := by
  match b with
  | [] | [_] => simp [telemetryFrame]
  | _ :: size :: rest => simp [telemetryFrame, totalLenOf]

theorem execSendTelemetry_completes_iff (b : List Byte) (s : State) :
    Completes (execSendTelemetry b s) ↔ 2 ≤ b.length ∧ (b.getD 1 0).toNat + 2 ≤ b.length := by
  rw [← telemetryFrame_isSome_iff, execSendTelemetry]
  cases telemetryFrame b with
  | none => exact iff_of_false (not_completes_refused _) Bool.false_ne_true
  | some f => exact iff_of_true (completes_next _) rfl

theorem execPollRx_completes (us ms : Word) {s : State} (h : Inv s) : Completes (execPollRx us ms s) := by
  obtain ⟨t, o, hpoll, -⟩ := pollRx_total us ms h
  exact ⟨_, by rw [execPollRx, hpoll, finishWith_ok]⟩

/-- Bytes on the line are taken where the receive path is connected (R214, U7). -/
theorem arrive_completes_iff (bytes : List Byte) {s : State} (h : Inv s) :
    Completes (arrive bytes s) ↔ s.pins.rxConnected = true :=
  completes_guard _ fun _ => execPollRx_completes _ _ (inv_receiveBytes bytes h)

theorem execAlign_completes_iff (start : Nat) {s : State} (h : Inv s) : Completes (execAlign start s) ↔ start ≤ 1 := by
  refine (completes_refuseFirst _ fun hstart => ?_).trans Nat.not_lt
  obtain ⟨bs, hbs⟩ := h.asm.bytes
  obtain ⟨m, halign, -⟩ := alignFrom_spec h.asm.form hbs (Nat.le_of_not_lt hstart)
  exact ⟨_, by rw [halign, finish_ok]⟩

/-- The frame issued to be handled is whole in the buffer, of a legal length, and valid (R205). -/
theorem execHandleFrame_completes_iff {n : Nat} (us ms : Word) {s : State} {bs : List Byte} (h : Inv s)
    (hb : asmHolds s bs) :
    Completes (execHandleFrame n us ms s)
      ↔ minFrame ≤ n ∧ n ≤ maxFrame ∧ n ≤ bs.length ∧ crcRight s.cfg (bs.take n) := by
  constructor
  · intro hc
    obtain ⟨-, hlen, -⟩ := memRead_eq_ok.mp hb
    rw [execHandleFrame] at hc
    split at hc
    next hguard =>
      rw [Bool.and_eq_true, legalLen_iff, decide_eq_true_eq, ← hlen] at hguard
      obtain ⟨⟨h4, h64⟩, hn⟩ := hguard
      rw [memRead_front hb hn, andThen_ok] at hc
      split at hc
      next hvalid => exact ⟨h4, h64, hn, (frameValid_take h.crc.tab8 h4 hn).mp hvalid⟩
      next => exact absurd hc (not_completes_refused _)
    next => exact absurd hc (not_completes_refused _)
  · rintro ⟨h4, h64, hn, hcrc⟩
    obtain ⟨t, hrun, -⟩ := handleFrame_total us ms h hb h4 hn
    exact ⟨t, by rw [← finish_ok, ← hrun]; exact exec_handleFrame_valid us ms h.crc.tab8 hb h4 h64 hn hcrc⟩

/-! ### Every operation is defined (R315) -/

/-- On a safe state an operation completes exactly inside its domain, whatever falls at its interleave points. -/
theorem exec_completes_iff_inDomain {s : State} (i : Instr) (h : Inv s) : Completes (exec i s) ↔ inDomain i s := by
  cases i with
  | lineRx b => exact completes_guard _ fun _ => completes_next _
  | crcnConfig bits poly =>
    exact (completes_refuseFirst _ fun _ => completes_next _).trans (by rw [not_or, Nat.not_lt, Nat.not_lt]; rfl)
  | crcnCalc buf seed => exact execCrcnCalc_completes_iff buf seed h
  | decodeHeader buf => exact execDecodeHeader_completes_iff buf s
  | computeCrc buf n => exact (completes_guard _ fun _ => completes_next _).trans lengthInDomain_iff
  | isValid buf n => exact (completes_guard _ fun _ => completes_next _).trans lengthInDomain_iff
  | unpackChannels p => exact (completes_refuseFirst _ fun _ => completes_next _).trans Nat.not_lt
  | packChannels v => exact completes_guard _ fun _ => completes_next _
  | encodeExt type dest orig p => exact execEncodeExt_completes_iff type dest orig p s
  | encodeDevinfo => exact iff_of_true (execEncodeDevinfo_completes h.config) trivial
  | setRx v => exact (completes_guard _ fun _ => completes_next _).trans txIdle_iff
  | pollRx us ms => exact iff_of_true (execPollRx_completes us ms h) trivial
  | align start => exact execAlign_completes_iff start h
  | handleFrame n us ms =>
    obtain ⟨bs, hbs⟩ := h.asm.bytes
    exact ⟨fun hc => ⟨bs, hbs, (execHandleFrame_completes_iff us ms h hbs).mp hc⟩,
      fun ⟨_, hb, hframe⟩ => (execHandleFrame_completes_iff us ms h hb).mpr hframe⟩
  | readChannel k => exact completes_guard _ fun _ => completes_next _
  | sendTelemetry b => exact execSendTelemetry_completes_iff b s
  | serviceOutput n ms =>
    obtain ⟨t, bs, hrun, -⟩ := serviceOutput_total n ms h
    exact iff_of_true ⟨_, exec_serviceOutput_of_ok hrun⟩ trivial
  | frameLinkStats | frameRcChannels | framePing | frameDeviceInfo | frameCommand | frameTiming =>
    exact arrive_completes_iff _ h
  | reset | txDrain | pwTick | crc8Byte | crc8Buf | packVersion | setTx | getLastRcTs | wdtCheck | autobaudEstimate
  | pwEnable | enqueue | flushQueue | notifyTx | syncEmit => exact iff_of_true (completes_next _) trivial

/-- Settles O9: an operation completes exactly inside its domain, and what it does then leaves a safe state; outside, it
neither completes nor faults. -/
theorem everyOperationIsDefined : Obligations.EveryOperationIsDefined := by
  intro s i h
  have hleaves : Leaves Inv (exec i s) := exec_inv i h
  have hdomain : Completes (exec i s) ↔ inDomain i s := exec_completes_iff_inDomain i h
  refine ⟨fun hin => ?_, fun hout => refused_of_leaves hleaves (mt hdomain.mp hout)⟩
  obtain ⟨t, hexec⟩ := hdomain.mpr hin
  exact ⟨t, hexec, (leaves_iff.mp hleaves).1 t hexec⟩

/-! ### Reset (R45, R340) -/

theorem exec_reset (s : State) : exec .reset s = .next (resetState s) := rfl

/-- The 8-bit table is built anew, entry by entry (R140, R340). -/
theorem resetState_tab8 (s : State) :
    (resetState s).crc.tab8 = (List.range 256).map fun i => times (crc8Shift s.cfg.crc8Poly) 8 (BitVec.ofNat 8 i) := by
  show crc8Table s.cfg.crc8Poly = _
  simp only [crc8Table, crc8Entry]

/-- Settles O12: `RESET` completes with `resetState`, which keeps the configuration and the events, builds the table, and
gives every other element its reset value outright. -/
theorem resetSetsEveryElement : Obligations.ResetSetsEveryElement := by
  intro s
  refine ⟨⟨[], rfl⟩, resetState s, exec_reset s, resetState_cfg s, resetState_events s, resetState_tab8 s, ?_⟩
  and_intros <;> rfl

end Sys2Proof.Machine
